-- ==== Sys2Proof/Word.lean ====
section
/-! DEFINITION. The word types of the block. A controller register and a command word are 32 bits
(10_state.md R33, 30_encoding.md R80), a time is an unsigned 64-bit microsecond count and a flags word 16 bits
(00_scope.md R11, 30_encoding.md R96). -/

namespace Sys2Proof

/-- A controller register, or a command word. -/
abbrev Word := BitVec 32

/-- A data byte, or a readiness mask (30_encoding.md R95). -/
abbrev Byte := BitVec 8

/-- A flags word (30_encoding.md R96). -/
abbrev U16 := BitVec 16

/-- A time in microseconds (00_scope.md R11). -/
abbrev U64 := BitVec 64

end Sys2Proof
end

