-- ==== Sys2Proof/Syntax.lean ====
section
/-! DEFINITION. The commands of the block as syntax: the 26 rows of the opcode map (30_encoding.md R85), the
issuer classes (R84), and the operand record that comes with a command word (R82). -/

namespace Sys2Proof

/-- The 8 data bytes a frame always carries (10_state.md R23): `b0` is `data[0]`. -/
structure Data8 where
  b0 : Byte
  b1 : Byte
  b2 : Byte
  b3 : Byte
  b4 : Byte
  b5 : Byte
  b6 : Byte
  b7 : Byte
  deriving DecidableEq, Repr

/-- A Frame (10_state.md R23). `dlc` is the raw 4-bit data length code, 0..15 (90_conflicts.md C7). -/
structure Frame where
  id   : BitVec 29
  ext  : Bool
  rtr  : Bool
  err  : Bool
  dlc  : BitVec 4
  data : Data8
  deriving DecidableEq, Repr

/-- The operand record of a command (30_encoding.md R82). `filterCfg` may be any value and is never inspected. -/
structure Args where
  rate      : Word
  frame     : Frame
  deadline  : U64
  flags     : U16
  ts        : U64
  now       : U64
  reqRd     : Byte
  reqWr     : Byte
  timeout   : U64
  filterCfg : List Word
  deriving DecidableEq, Repr

/-- Who issues a command; each opcode names one of these, its class (30_encoding.md R84) with, for class S, the entry
operation whose body may invoke it. -/
inductive Issuer where
  /-- class H: the foreground agent -/
  | host
  /-- class D: the interrupt dispatcher -/
  | dispatcher
  /-- class S: the body of an `IRQ.TX` entry, the one invoker of `IF.TXSVC` (43_tx_path.md R190) -/
  | entryTx
  /-- class S: the body of an `IRQ.RX` entry, the one invoker of `IF.RXSVC` (44_rx_path.md R210) -/
  | entryRx
  /-- class N: the body of a class-S operation -/
  | service
  deriving DecidableEq, Repr

/-- The commands (30_encoding.md R85). `iface` is the IFACE field of the word and `fifo` its SUB field, as the
word holds them: whether they name an interface and a FIFO the block has is `Instr.wellFormed`. -/
inductive Instr where
  | btCalc
  | rbPush (iface : BitVec 4)
  | rbPop (iface : BitVec 4)
  | rbLen (iface : BitVec 4)
  | rbOvf (iface : BitVec 4)
  | ifInit (iface : BitVec 4)
  | ifCfgfilt (iface : BitVec 4)
  | ifSend (iface : BitVec 4)
  | ifDiscard (iface : BitVec 4)
  | ifTxsvc (iface : BitVec 4)
  | ifTxfull (iface : BitVec 4)
  | ifWaitmb0 (iface : BitVec 4)
  | ifRecv (iface : BitVec 4)
  | ifRxsvc (iface : BitVec 4) (fifo : BitVec 2)
  | ifPollerr (iface : BitVec 4)
  | ifRxempty (iface : BitVec 4)
  | ifRxlen (iface : BitVec 4)
  | ifErrcnt (iface : BitVec 4)
  | ifLasterr (iface : BitVec 4)
  | ifHadact (iface : BitVec 4)
  | drvInit
  | drvReady
  | drvSelect
  | drvHadact
  | irqTx (iface : BitVec 4)
  | irqRx (iface : BitVec 4) (fifo : BitVec 2)
  deriving DecidableEq, Repr

end Sys2Proof
end

