-- ==== Sys2Proof/WellFormed.lean ====
section
/-! DEFINITION. When a command, or a frame, is well formed. -/

namespace Sys2Proof

/-- IFACE names an interface of a build with `n` interfaces (30_encoding.md R83, R86). -/
def ifaceInRange (n : Nat) (iface : BitVec 4) : Bool := decide (iface.toNat < n)

/-- SUB names a FIFO (30_encoding.md R83, R86). -/
def fifoInRange (fifo : BitVec 2) : Bool := decide (fifo.toNat < 2)

/-- The field checks of 30_encoding.md R86 on a command, in a build with `n` interfaces. -/
def Instr.wellFormed (n : Nat) : Instr → Bool
  | .btCalc => true
  | .rbPush i => ifaceInRange n i
  | .rbPop i => ifaceInRange n i
  | .rbLen i => ifaceInRange n i
  | .rbOvf i => ifaceInRange n i
  | .ifInit i => ifaceInRange n i
  | .ifCfgfilt i => ifaceInRange n i
  | .ifSend i => ifaceInRange n i
  | .ifDiscard i => ifaceInRange n i
  | .ifTxsvc i => ifaceInRange n i
  | .ifTxfull i => ifaceInRange n i
  | .ifWaitmb0 i => ifaceInRange n i
  | .ifRecv i => ifaceInRange n i
  | .ifRxsvc i f => ifaceInRange n i && fifoInRange f
  | .ifPollerr i => ifaceInRange n i
  | .ifRxempty i => ifaceInRange n i
  | .ifRxlen i => ifaceInRange n i
  | .ifErrcnt i => ifaceInRange n i
  | .ifLasterr i => ifaceInRange n i
  | .ifHadact i => ifaceInRange n i
  | .drvInit => true
  | .drvReady => true
  | .drvSelect => true
  | .drvHadact => true
  | .irqTx i => ifaceInRange n i
  | .irqRx i f => ifaceInRange n i && fifoInRange f

/-- A standard frame has an 11-bit identifier (10_state.md R23). -/
def Frame.wellFormed (fr : Frame) : Bool := fr.ext || decide (fr.id.toNat < 2048)

end Sys2Proof
end

