-- ==== Sys2Proof/Decode.lean ====
section
/-! DEFINITION. Command words (30_encoding.md R80 to R87): the decoder, total on every 32-bit word and rejecting by
name, and after it the encoder. Whether IFACE is below `NUM_IFACES` depends on the build, so the decoder leaves that
check of R86 to the command itself (`Instr.wellFormed`, log 16). -/

namespace Sys2Proof

/-- Why a word is no command of any build (30_encoding.md R86). -/
inductive DecodeError where
  /-- `RSV != 0` -/
  | reservedBits
  /-- `OPC` is unassigned, the implementation-use range 0xF0..0xFF among them -/
  | unassignedOpc
  /-- a driver or calculator operation with `IFACE != 0` -/
  | ifaceNotZero
  /-- `SUB != 0` for an opcode that takes none -/
  | subNotZero
  /-- `SUB > 1` for `IF.RXSVC` or `IRQ.RX` -/
  | subOutOfRange
  deriving DecidableEq, Repr

/-- Which fields an opcode takes (columns IFACE and SUB of R85). -/
inductive Shape where
  | fixed (i : Instr)
  | iface (f : BitVec 4 → Instr)
  | ifaceFifo (f : BitVec 4 → BitVec 2 → Instr)

/-- The opcode map (R85). -/
def shapeOf : Nat → Option Shape
  | 0x01 => some (.fixed .btCalc)
  | 0x08 => some (.iface .rbPush)
  | 0x09 => some (.iface .rbPop)
  | 0x0A => some (.iface .rbLen)
  | 0x0B => some (.iface .rbOvf)
  | 0x10 => some (.iface .ifInit)
  | 0x11 => some (.iface .ifCfgfilt)
  | 0x20 => some (.iface .ifSend)
  | 0x21 => some (.iface .ifDiscard)
  | 0x22 => some (.iface .ifTxsvc)
  | 0x23 => some (.iface .ifTxfull)
  | 0x24 => some (.iface .ifWaitmb0)
  | 0x30 => some (.iface .ifRecv)
  | 0x31 => some (.ifaceFifo .ifRxsvc)
  | 0x32 => some (.iface .ifPollerr)
  | 0x33 => some (.iface .ifRxempty)
  | 0x34 => some (.iface .ifRxlen)
  | 0x40 => some (.iface .ifErrcnt)
  | 0x41 => some (.iface .ifLasterr)
  | 0x42 => some (.iface .ifHadact)
  | 0x50 => some (.fixed .drvInit)
  | 0x51 => some (.fixed .drvReady)
  | 0x52 => some (.fixed .drvSelect)
  | 0x53 => some (.fixed .drvHadact)
  | 0x60 => some (.iface .irqTx)
  | 0x61 => some (.ifaceFifo .irqRx)
  | _ => none

/-- `OPC`, bits 7:0 (R81). -/
def opcField (w : Word) : BitVec 8 := w.extractLsb' 0 8
/-- `IFACE`, bits 11:8 (R81). -/
def ifaceField (w : Word) : BitVec 4 := w.extractLsb' 8 4
/-- `SUB`, bits 13:12 (R81). -/
def subField (w : Word) : BitVec 2 := w.extractLsb' 12 2
/-- `RSV`, bits 31:14 (R81). -/
def rsvField (w : Word) : BitVec 18 := w.extractLsb' 14 18

/-- The decoder (R83, R86, R87). -/
def decode (w : Word) : Except DecodeError Instr :=
  if rsvField w ≠ 0#18 then .error .reservedBits
  else match shapeOf (opcField w).toNat with
    | none => .error .unassignedOpc
    | some (.fixed i) =>
      if ifaceField w ≠ 0#4 then .error .ifaceNotZero
      else if subField w ≠ 0#2 then .error .subNotZero
      else .ok i
    | some (.iface f) =>
      if subField w ≠ 0#2 then .error .subNotZero else .ok (f (ifaceField w))
    | some (.ifaceFifo f) =>
      if 1 < (subField w).toNat then .error .subOutOfRange else .ok (f (ifaceField w) (subField w))

/-- The instruction the decoder reads from the bits the opcode table numbers: one 32-bit word, its bits above `nbits`
zero. -/
def decodeTableWord (nbits w : Nat) : Option Instr :=
  match decode (BitVec.ofNat 32 (w % 2 ^ nbits)) with
  | .ok i => some i
  | .error _ => none

/-- The `OPC` of a command (R85). -/
def Instr.opc : Instr → BitVec 8
  | .btCalc => 0x01#8
  | .rbPush _ => 0x08#8
  | .rbPop _ => 0x09#8
  | .rbLen _ => 0x0A#8
  | .rbOvf _ => 0x0B#8
  | .ifInit _ => 0x10#8
  | .ifCfgfilt _ => 0x11#8
  | .ifSend _ => 0x20#8
  | .ifDiscard _ => 0x21#8
  | .ifTxsvc _ => 0x22#8
  | .ifTxfull _ => 0x23#8
  | .ifWaitmb0 _ => 0x24#8
  | .ifRecv _ => 0x30#8
  | .ifRxsvc _ _ => 0x31#8
  | .ifPollerr _ => 0x32#8
  | .ifRxempty _ => 0x33#8
  | .ifRxlen _ => 0x34#8
  | .ifErrcnt _ => 0x40#8
  | .ifLasterr _ => 0x41#8
  | .ifHadact _ => 0x42#8
  | .drvInit => 0x50#8
  | .drvReady => 0x51#8
  | .drvSelect => 0x52#8
  | .drvHadact => 0x53#8
  | .irqTx _ => 0x60#8
  | .irqRx _ _ => 0x61#8

/-- The `IFACE` field of a command: 0 for a driver or calculator operation (R85). -/
def Instr.ifaceBits : Instr → BitVec 4
  | .rbPush i | .rbPop i | .rbLen i | .rbOvf i | .ifInit i | .ifCfgfilt i | .ifSend i | .ifDiscard i
  | .ifTxsvc i | .ifTxfull i | .ifWaitmb0 i | .ifRecv i | .ifRxsvc i _ | .ifPollerr i | .ifRxempty i
  | .ifRxlen i | .ifErrcnt i | .ifLasterr i | .ifHadact i | .irqTx i | .irqRx i _ => i
  | .btCalc | .drvInit | .drvReady | .drvSelect | .drvHadact => 0#4

/-- The `SUB` field of a command: 0 where the opcode takes none (R85). -/
def Instr.subBits : Instr → BitVec 2
  | .ifRxsvc _ f | .irqRx _ f => f
  | .btCalc | .drvInit | .drvReady | .drvSelect | .drvHadact => 0#2
  | .rbPush _ | .rbPop _ | .rbLen _ | .rbOvf _ | .ifInit _ | .ifCfgfilt _ | .ifSend _ | .ifDiscard _
  | .ifTxsvc _ | .ifTxfull _ | .ifWaitmb0 _ | .ifRecv _ | .ifPollerr _ | .ifRxempty _
  | .ifRxlen _ | .ifErrcnt _ | .ifLasterr _ | .ifHadact _ | .irqTx _ => 0#2

/-- The command word of a command (R81): RSV = 0, SUB, IFACE, OPC from the most significant bit down. -/
def encode (i : Instr) : Word := 0#18 ++ i.subBits ++ i.ifaceBits ++ i.opc

/-- The issuer class of a command (R84, column class of R85). -/
def Instr.cls : Instr → Issuer
  | .btCalc | .rbPush _ | .rbPop _ | .rbLen _ | .rbOvf _ | .ifInit _ | .ifCfgfilt _ | .ifSend _ | .ifDiscard _
  | .ifTxfull _ | .ifWaitmb0 _ | .ifRecv _ | .ifRxempty _ | .ifRxlen _ | .ifErrcnt _ | .ifLasterr _ | .ifHadact _
  | .drvInit | .drvReady | .drvSelect | .drvHadact => .host
  | .irqTx _ | .irqRx _ _ => .dispatcher
  | .ifTxsvc _ => .entryTx
  | .ifRxsvc _ _ => .entryRx
  | .ifPollerr _ => .service

end Sys2Proof
end

