-- ==== Sys2Proof/Config.lean ====
section
/-! DEFINITION. The parameters of 00_scope.md R10. A parameter the spec fixes is a constant here; a parameter it
leaves OPEN is a field of `Params`, which State carries and no step writes, so that a claim about every state is a
claim about every build (log 4). The one OPEN parameter that is a function, `BRIDGE_PRED`, is an opaque constant
(log 9). -/

namespace Sys2Proof

/-- `RATE_MIN`, Hz (R10; 40_bit_timing.md R111). -/
abbrev Config.rateMin : Nat := 20000
/-- `RATE_MAX`, Hz (R10; 40_bit_timing.md R111). -/
abbrev Config.rateMax : Nat := 1000000
/-- `BS1_INIT` (R10). -/
abbrev Config.bs1Init : Nat := 10
/-- `BS2_INIT` (R10). -/
abbrev Config.bs2Init : Nat := 5
/-- `PRESC_MAX` (R10). -/
abbrev Config.prescMax : Nat := 1024
/-- The most passes the timing search makes (40_bit_timing.md R112). -/
abbrev Config.searchPasses : Nat := 14
/-- `MODE_RETRY_LIMIT` (R10; 42_bringup.md R152). -/
abbrev Config.modeRetryLimit : Nat := 500
/-- `FIFO_DEPTH` (R10). -/
abbrev Config.fifoDepth : Nat := 3
/-- `FILTER_SPLIT` (R10). -/
abbrev Config.filterSplit : Nat := 14

/-- `BRIDGE_PRED` (R10; 44_rx_path.md R221): a total predicate of the frame alone, OPEN. It has no body a proof could
see: what is proved of the model holds for every predicate (log 9). -/
opaque Config.bridgePred : Frame → Bool

/-- The OPEN parameters of R10 (log 4). -/
structure Params where
  /-- `NUM_IFACES` is 2 if true, else 1. -/
  twoIfaces   : Bool
  /-- `RX_CAPACITY`, at least 1. -/
  rxCapacity  : Nat
  /-- `PCLK` in Hz, at least 1. -/
  pclk        : Nat
  /-- `BASE[0]`. -/
  base0       : Word
  /-- `BASE[1]`. -/
  base1       : Word
  /-- `IRQ_PRIORITY`: one level for every vector of the block; no rule reads its value (log 21). -/
  irqPriority : Nat
  /-- `BRIDGE_CAP`. -/
  bridgeCap   : Nat
  deriving DecidableEq, Repr

/-- The reference values of R10 and 92_eei_decisions.md D7, with `NUM_IFACES = 1` as in the vectors of
95_test_vectors.md. DESIGN CHOICE (log 4). -/
def Params.reference : Params where
  twoIfaces := false
  rxCapacity := 8
  pclk := 42000000
  base0 := 0x40006400#32
  base1 := 0x40006800#32
  irqPriority := 1
  bridgeCap := 4

/-- `NUM_IFACES` (R10; 92_eei_decisions.md D10). -/
def Params.numIfaces (p : Params) : Nat := if p.twoIfaces then 2 else 1

/-- The builds claims are about: `RX_CAPACITY >= 1` and `PCLK >= 1` (R10), register blocks aligned to words (20_memory.md
R60) and, with two interfaces, the two blocks at least 0x400 bytes apart. The spec gives no size of a block and no distance
between `BASE[0]` and `BASE[1]`; the 0x400 bytes, the distance of the reference values, are the model's. DESIGN CHOICE
(log 31). -/
def Params.wf (p : Params) : Prop :=
  1 ≤ p.rxCapacity ∧ 1 ≤ p.pclk ∧ p.base0.toNat % 4 = 0 ∧
    (p.twoIfaces = true →
      p.base1.toNat % 4 = 0 ∧ 0x400 ≤ (p.base1 - p.base0).toNat ∧ 0x400 ≤ (p.base0 - p.base1).toNat)

end Sys2Proof
end

