-- ==== Sys2Proof/Machine/State.lean ====
section
/-! DEFINITION. The state of the block (10_state.md): the soft state, the controller register files with the hidden
controller state behind them, the shared filter registers, the driver state, the environment's boundary state, the
command port and the schedule of moves. All of it is plain data. -/

namespace Sys2Proof.Machine

/-- An interface index (10_state.md R33). -/
inductive Iface where
  | if0
  | if1
  deriving DecidableEq, Repr

/-- A hardware transmit mailbox index, 0..2 (10_state.md R36). -/
inductive Mb where
  | mb0
  | mb1
  | mb2
  deriving DecidableEq, Repr

/-- A hardware receive FIFO index, 0 or 1 (10_state.md R37). -/
inductive Fifo where
  | rx0
  | rx1
  deriving DecidableEq, Repr

/-- The three interrupt sources of an interface (60_exceptions.md R300). -/
inductive Source where
  | tx
  | rx0
  | rx1
  deriving DecidableEq, Repr

/-- The controller registers by name (10_state.md R34 to R42) and the shared filter registers (R48 to R50). -/
inductive Reg where
  | mcr
  | msr
  | tsr
  | rfr (f : Fifo)
  | ier
  | esr
  | btr
  | tir (m : Mb)
  | tdtr (m : Mb)
  | tdlr (m : Mb)
  | tdhr (m : Mb)
  | rir (f : Fifo)
  | rdtr (f : Fifo)
  | rdlr (f : Fifo)
  | rdhr (f : Fifo)
  | fmr
  | fm1r
  | fs1r
  | ffa1r
  | fa1r
  | fr1 (b : Fin 28)
  | fr2 (b : Fin 28)
  deriving DecidableEq, Repr

/-- The fault kinds of 60_exceptions.md R311, which `raise Fault(kind)` records in `State.faults`. -/
inductive FaultKind where
  | illegalCommand
  | illegalAccess
  | clockDisabledAccess
  | criticalSectionMisuse
  | unguardedSharedAccess
  | popEmpty
  | rxFifoEmpty
  | unregisteredDispatch
  deriving DecidableEq, Repr

/-- Stored timing fields (30_encoding.md R93). -/
structure TimingParams where
  presc : BitVec 10
  sjw   : BitVec 2
  bs1   : BitVec 4
  bs2   : BitVec 3
  deriving DecidableEq, Repr

/-- Result codes (30_encoding.md R88). -/
inductive ResultCode where
  | ok
  | accepted
  | noCapacity
  | empty
  | timedOut
  | errRejected
  | errUnachievableBitrate
  | errModeEntryTimeout
  | errModeExitTimeout
  | errUnsupported
  deriving DecidableEq, Repr

/-- The value fields of a result record (30_encoding.md R88); each operation's rule names the ones it returns. -/
inductive Payload where
  | none
  | val (n : Nat)
  | timing (t : TimingParams)
  | entry (frame : Frame) (tsUtc : U64) (flags : U16)
  | received (frame : Frame) (tsMono tsUtc : U64) (flags : U16)
  | mask (rd wr : Byte)
  deriving DecidableEq, Repr

/-- A result record (30_encoding.md R88). -/
structure Result where
  status  : ResultCode
  payload : Payload
  deriving DecidableEq, Repr

/-- An entry of the receive ring buffer (10_state.md R24). -/
structure RxEntry where
  frame : Frame
  tsUtc : U64
  flags : U16
  deriving DecidableEq, Repr

/-- The five register writes of a mailbox load, in order (43_tx_path.md R182). -/
inductive LoadStep where
  | ident
  | length
  | low
  | high
  | request
  deriving DecidableEq, Repr

/-- The operands of `if_send` (43_tx_path.md R180). -/
structure Sending where
  i        : Iface
  frame    : Frame
  deadline : U64
  flags    : U16
  deriving DecidableEq, Repr

/-- The next step of `if_send` (43_tx_path.md R180), with the `TSR` read and the mailbox chosen. -/
inductive SendPhase where
  | enter
  | scan
  | load (tsr : Word) (m : Mb) (todo : List LoadStep)
  deriving DecidableEq, Repr

/-- The next step of `if_discard` (43_tx_path.md R185): the abort of an expired slot, with the slots after it. -/
inductive DiscardPhase where
  | enter
  | abort (m : Mb) (todo : List Mb)
  deriving DecidableEq, Repr

/-- The next step of `ready()` (46_multiplexer.md R250), for interface `i` and then `todo`, with the masks so far. -/
inductive ReadyPhase where
  | enter (i : Iface) (todo : List Iface) (rd wr : Byte)
  | scan (i : Iface) (todo : List Iface) (rd wr : Byte) (nonempty : Bool)
  deriving DecidableEq, Repr

/-- The next step of `if_init`: the phases 42_bringup.md R150 names, each register access and each poll delay a step, with
the timing `t`, the value `m` read from `MCR`, the polls left, and the filter word `f` with the writes still to make. -/
inductive InitPhase where
  | timing (rate : Word)
  | enterRead (t : TimingParams)
  | enterWrite (t : TimingParams) (m : Word)
  | enterWait (t : TimingParams) (left : Nat)
  | enterDelay (t : TimingParams) (left : Nat)
  | programBtr (t : TimingParams)
  | programIer
  | exitRead
  | exitWrite (m : Word)
  | exitWait (left : Nat)
  | exitDelay (left : Nat)
  | filterRead
  | filterWrite (f : Word) (todo : List (Reg × Word))
  deriving DecidableEq, Repr

/-- The two soft-state steps of the phase CLOCKS, for one interface (42_bringup.md R170, R171). -/
inductive ClockStep where
  | enable (i : Iface)
  | pulse (i : Iface)
  deriving DecidableEq, Repr

/-- The soft-state steps of the phase DISPATCH for one interface: registration, and each vector (42_bringup.md R175). -/
inductive DispatchStep where
  | registry
  | vector (src : Source)
  deriving DecidableEq, Repr

/-- The operands of `select` (46_multiplexer.md R252). -/
structure Selecting where
  reqRd    : Byte
  reqWr    : Byte
  deadline : U64
  deriving DecidableEq, Repr

/-- Where the operation in progress stands: its next step, with the local values live there (10_state.md R21, R22). The
phases of `IF.INIT` and `DRV.INIT` are those 42_bringup.md R150 and R170 name; the others are named by the step that comes
next in the operation's pseudocode (log 2). -/
inductive Phase where
  /-- `BT.CALC` -/
  | timings (rate : Word)
  /-- `RB.PUSH` -/
  | push (i : Iface) (e : RxEntry)
  /-- `RB.POP` -/
  | pop (i : Iface)
  /-- `RB.POP` of an empty buffer, outside the critical section again: the raise (log 34) -/
  | popEmpty (i : Iface)
  /-- `RB.LEN` -/
  | len (i : Iface)
  /-- `RB.OVF` -/
  | ovf (i : Iface)
  /-- `IF.INIT` -/
  | init (i : Iface) (p : InitPhase)
  /-- `IF.CFGFILT` -/
  | cfgfilt
  /-- `IF.SEND` -/
  | send (x : Sending) (p : SendPhase)
  /-- `IF.DISCARD` -/
  | discard (i : Iface) (now : U64) (p : DiscardPhase)
  /-- `IF.TXFULL` -/
  | txfull (i : Iface)
  /-- `IF.WAITMB0`, before its draw of the time -/
  | waitStart (i : Iface) (timeout : U64)
  /-- `IF.WAITMB0` -/
  | wait (i : Iface) (dl : U64)
  /-- `IF.RECV`, before its draw of the time -/
  | recvStart (i : Iface)
  /-- `IF.RECV` -/
  | recv (i : Iface) (tm : U64)
  /-- `IF.RXEMPTY` -/
  | rxempty (i : Iface)
  /-- `IF.RXLEN` -/
  | rxlen (i : Iface)
  /-- `IF.ERRCNT` -/
  | errcnt (i : Iface)
  /-- `IF.LASTERR` -/
  | lasterr (i : Iface)
  /-- `IF.HADACT` -/
  | hadact (i : Iface)
  /-- `DRV.INIT`, CLOCKS -/
  | clocks (rate : Word) (todo : List ClockStep)
  /-- `DRV.INIT`, IFACES: inside `if_init` of interface `i`, with the interfaces after it -/
  | ifaces (rate : Word) (i : Iface) (todo : List Iface) (p : InitPhase)
  /-- `DRV.INIT`, the rollback inside IFACES, with the result to return -/
  | rollback (r : ResultCode) (todo : List Iface)
  /-- `DRV.INIT`, DISPATCH -/
  | dispatch (i : Iface) (todo : List Iface) (steps : List DispatchStep)
  /-- `DRV.READY` -/
  | ready (p : ReadyPhase)
  /-- `DRV.SELECT`, before its draw of the time -/
  | selectStart (q : Selecting)
  /-- `DRV.SELECT`, the sweep at time `t` -/
  | sweep (q : Selecting) (t : U64) (i : Iface) (todo : List Iface) (p : DiscardPhase)
  /-- `DRV.SELECT`, the readiness mask after the sweep -/
  | check (q : Selecting) (p : ReadyPhase)
  /-- `DRV.HADACT` -/
  | activity (i : Iface) (todo : List Iface) (v : Bool)
  deriving DecidableEq, Repr

/-- The foreground agent's state (10_state.md R22). -/
inductive Fg where
  | idle
  | busy (op : Instr) (phase : Phase)
  | blockedSelect (deadline : U64) (reqRd reqWr : Byte)
  | blockedMb0 (i : Iface) (deadline : U64)
  | faulted
  deriving DecidableEq, Repr

/-- The receive ring buffer (10_state.md R25). -/
structure RingBuf where
  slot : List RxEntry
  rd   : Nat
  len  : Nat
  ovf  : Word
  deriving DecidableEq, Repr

/-- A pending-transmission record (10_state.md R26). -/
structure PendSlot where
  frame    : Frame
  deadline : U64
  loopback : Bool
  pending  : Bool
  deriving DecidableEq, Repr

/-- `mbx_state` (10_state.md R47). -/
inductive MbxState where
  | empty
  | requested
  | aborting
  deriving DecidableEq, Repr

/-- `mode` (10_state.md R47). -/
inductive Mode where
  | sleep
  | config
  | normal
  deriving DecidableEq, Repr

/-- A hardware transmit mailbox: its hidden state, its bits of `TSR` that are storage (10_state.md R36; `TMEm` and
`ABRQm` are views of `st`, log 15), its reserved `TSR` bits 8m+6:8m+4, and its four registers (R41). -/
structure Mailbox where
  st   : MbxState
  rqcp : Bool
  txok : Bool
  alst : Bool
  terr : Bool
  low  : Bool
  res  : BitVec 3
  tir  : Word
  tdtr : Word
  tdlr : Word
  tdhr : Word
  deriving DecidableEq, Repr

/-- A message in a hardware FIFO: the frame, and what its head registers show in the bits the frame does not fix
(`FMI`, `TIME`, reserved and don't-care bits take any value, 47_controller_env.md R280; log 19). -/
structure RxMsg where
  frame    : Frame
  rirFree  : Word
  rdtrFree : Word
  deriving DecidableEq, Repr

/-- What the four head registers of an empty FIFO show: any values (10_state.md R42; log 6). -/
structure HeadRegs where
  rir  : Word
  rdtr : Word
  rdlr : Word
  rdhr : Word
  deriving DecidableEq, Repr

/-- A hardware receive FIFO: `fifo[i][f]` (10_state.md R47), oldest first, and the bits of `RFfR` that are storage
(R37; `FMP` is a view of the queue's length, log 15). `res` holds the reserved bits of `RFfR`. -/
structure RxFifo where
  q    : List RxMsg
  full : Bool
  fovr : Bool
  res  : Word
  idle : HeadRegs
  deriving DecidableEq, Repr

/-- A controller register file and its hidden state (10_state.md R33 to R47). Bit 0 of `msr` is a view of `mode`. -/
structure Ctrl where
  mcr  : Word
  msr  : Word
  ier  : Word
  esr  : Word
  btr  : Word
  code : BitVec 2
  mb0  : Mailbox
  mb1  : Mailbox
  mb2  : Mailbox
  rx0  : RxFifo
  rx1  : RxFifo
  mode : Mode
  deriving DecidableEq, Repr

/-- The shared acceptance-filter registers (10_state.md R48 to R50). -/
structure Filters where
  fmr   : Word
  fm1r  : Word
  fs1r  : Word
  ffa1r : Word
  fa1r  : Word
  fr1   : List Word
  fr2   : List Word
  deriving DecidableEq, Repr

/-- Everything the spec indexes by interface: soft state (10_state.md R25 to R30), the driver's per-interface latches
(R31) and the controller (R33). -/
structure IfaceState where
  rb        : RingBuf
  pend0     : PendSlot
  pend1     : PendSlot
  pend2     : PendSlot
  errCnt    : Word
  lastHwErr : Byte
  hadAct    : Bool
  mb0Sem    : Word
  registry  : Bool
  clkEn     : Bool
  vecTx     : Bool
  vecRx0    : Bool
  vecRx1    : Bool
  ctrl      : Ctrl
  deriving DecidableEq, Repr

/-- A command as an agent issues it: who issues it, the command word and the operand record (30_encoding.md R80, R84). -/
structure Request where
  by'  : Issuer
  cw   : Word
  args : Args
  deriving DecidableEq, Repr

/-- One step of an environment agent (47_controller_env.md, 60_exceptions.md R322, R323). A step whose guard does not
hold where it is taken changes nothing: the agent may never take it there. -/
inductive EnvAct where
  /-- the controller enters `Config` (R272) -/
  | enterConfig (i : Iface)
  /-- the controller enters `Normal` (R272) -/
  | enterNormal (i : Iface)
  /-- mailbox `m` completes, with the drawn `TXOK` (R274, R275) -/
  | complete (i : Iface) (m : Mb) (txok : Bool)
  /-- a frame arrives in FIFO `f`; on overrun it replaces the newest frame if `replace` (R277) -/
  | arrive (i : Iface) (f : Fifo) (msg : RxMsg) (replace : Bool)
  /-- a bus error sets `ESR.LEC` (R283) -/
  | busError (i : Iface) (lec : BitVec 3)
  /-- the bits of a register that the environment owns change (10_state.md R33, 47_controller_env.md R283; log 14) -/
  | drift (i : Iface) (r : Reg) (v : Word)
  /-- the clocks advance: the monotonic clock never goes back, the UTC clock takes any value (60_exceptions.md R322) -/
  | tick (mono utc : U64)
  /-- what the next pool draw gives (44_rx_path.md R221) -/
  | pool (ok : Bool)
  /-- the bridge consumer removes the oldest frame (60_exceptions.md R323) -/
  | consume
  deriving DecidableEq, Repr

/-- One move at an interleaving point inside an operation (20_memory.md R67 as data; log 1). -/
inductive Inner where
  /-- an environment agent steps -/
  | env (a : EnvAct)
  /-- the dispatcher starts the entry operation of a source, if the start condition holds (60_exceptions.md R304) -/
  | irq (i : Iface) (src : Source)
  /-- the running operation takes its own next step: the interleaving point ends -/
  | go
  deriving DecidableEq, Repr

/-- One move of the schedule, between operations, with the moves of the other agents inside the operation it starts
(20_memory.md R67 as data; log 1). -/
inductive Move where
  /-- an agent issues a command -/
  | issue (q : Request) (inner : List Inner)
  /-- an environment agent steps -/
  | env (a : EnvAct)
  /-- the dispatcher starts the entry operation of a source, if the start condition holds (60_exceptions.md R304) -/
  | irq (i : Iface) (src : Source) (inner : List Inner)
  /-- the foreground agent takes its own next step; `timeout` is the draw of 43_tx_path.md R201 -/
  | go (timeout : Bool) (inner : List Inner)
  deriving DecidableEq, Repr

/-- The state of the machine. -/
structure State where
  /-- the build's parameters (00_scope.md R10), never written -/
  cfg      : Params
  /-- the foreground agent (10_state.md R22) -/
  fg       : Fg
  /-- interface 0 -/
  if0      : IfaceState
  /-- interface 1; not part of the machine while `NUM_IFACES = 1` -/
  if1      : IfaceState
  /-- the wake event (10_state.md R31) -/
  wake     : Bool
  /-- the critical section (10_state.md R31) -/
  cs       : Bool
  /-- an interrupt service operation is running (10_state.md R31) -/
  inIsr    : Bool
  /-- the sticky fault set (10_state.md R31), by rising cause code -/
  faults   : List FaultKind
  /-- the command word of the operation that raised the first fault (10_state.md R31) -/
  faultCw  : Word
  /-- the bridge port, oldest first (10_state.md R32) -/
  bridge   : List Frame
  /-- the shared filter registers (10_state.md R33) -/
  filt     : Filters
  /-- the monotonic clock's reading (60_exceptions.md R322) -/
  mono     : U64
  /-- the UTC clock's reading (60_exceptions.md R322) -/
  utc      : U64
  /-- what the bridge hook's pool draw gives (44_rx_path.md R221) -/
  poolOk   : Bool
  /-- the issuer of the command in execution (30_encoding.md R84) -/
  by'      : Issuer
  /-- the operand record of the command in execution (30_encoding.md R82) -/
  args     : Args
  /-- the result record of the host's last command, `none` until it returns (30_encoding.md R88) -/
  res      : Option Result
  /-- the result record of the last service or entry operation that returned, `none` until one does (30_encoding.md R88) -/
  svcRes   : Option Result
  /-- the moves of the other agents still to come inside the operation in execution (log 1) -/
  inner    : List Inner
  /-- the moves still to come after it (log 1) -/
  sched    : List Move
  deriving DecidableEq, Repr

/-- Why the machine stops. -/
inductive Fault where
  /-- Raised by a step of any agent of the block after a fault was taken: `fg` is Faulted or `faults` is not empty, and no
  agent of the block takes a step (60_exceptions.md R310, 70_reset_and_hazards.md R340). Safe: the block stands still. -/
  | blockStopped
  deriving DecidableEq, Repr

/-- Why the machine gives no answer. -/
inductive Refusal where
  /-- Raised by an arm of `exec` with no meaning yet; no arm raises it. Safe. -/
  | notModelled (mnemonic : String)
  deriving DecidableEq, Repr

/-- All-zero data bytes. -/
def zeroData : Data8 := ⟨0#8, 0#8, 0#8, 0#8, 0#8, 0#8, 0#8, 0#8⟩

/-- The frame the model names where the spec leaves one undefined at reset. DESIGN CHOICE (log 5). -/
def zeroFrame : Frame := ⟨0#29, false, false, false, 0#4, zeroData⟩

/-- The operand record with every field zero. DESIGN CHOICE (log 3). -/
def zeroArgs : Args := ⟨0#32, zeroFrame, 0#64, 0#16, 0#64, 0#64, 0#8, 0#8, 0#64, []⟩

/-- A mailbox at reset (10_state.md R36, R41, R47); the mailbox registers are undefined but for `TXRQ = 0`.
DESIGN CHOICE zero (log 6). -/
def Mailbox.reset : Mailbox :=
  ⟨.empty, false, false, false, false, false, 0#3, 0#32, 0#32, 0#32, 0#32⟩

/-- A FIFO at reset (10_state.md R37, R47); the head registers are undefined. DESIGN CHOICE zero (log 6). -/
def RxFifo.reset : RxFifo := ⟨[], false, false, 0#32, ⟨0#32, 0#32, 0#32, 0#32⟩⟩

/-- A controller at reset (10_state.md R34 to R42, R47). -/
def Ctrl.reset : Ctrl where
  mcr := 0x00010002#32
  msr := 0x00000C02#32
  ier := 0#32
  esr := 0#32
  btr := 0x01230000#32
  code := 0#2
  mb0 := Mailbox.reset
  mb1 := Mailbox.reset
  mb2 := Mailbox.reset
  rx0 := RxFifo.reset
  rx1 := RxFifo.reset
  mode := .sleep

/-- The filter registers at reset (10_state.md R48 to R50); the bank registers are undefined. DESIGN CHOICE zero
(log 6). -/
def Filters.reset : Filters where
  fmr := 0x2A1C0E01#32
  fm1r := 0#32
  fs1r := 0#32
  ffa1r := 0#32
  fa1r := 0#32
  fr1 := List.replicate 28 0#32
  fr2 := List.replicate 28 0#32

/-- A ring buffer at reset (10_state.md R25, R54); the slots are undefined. DESIGN CHOICE all-zero entries (log 5). -/
def RingBuf.reset (capacity : Nat) : RingBuf :=
  ⟨List.replicate capacity ⟨zeroFrame, 0#64, 0#16⟩, 0, 0, 0#32⟩

/-- A pending record at reset (10_state.md R26, R54). DESIGN CHOICE for all but `pending` (log 5). -/
def PendSlot.reset : PendSlot := ⟨zeroFrame, 0#64, false, false⟩

/-- An interface at reset (10_state.md R54). -/
def IfaceState.reset (capacity : Nat) : IfaceState where
  rb := RingBuf.reset capacity
  pend0 := PendSlot.reset
  pend1 := PendSlot.reset
  pend2 := PendSlot.reset
  errCnt := 0#32
  lastHwErr := 0#8
  hadAct := false
  mb0Sem := 0#32
  registry := false
  clkEn := false
  vecTx := false
  vecRx0 := false
  vecRx1 := false
  ctrl := Ctrl.reset

/-- The state right after reset of a build with the parameters `p` (10_state.md R54; 70_reset_and_hazards.md R340,
R341). The environment's readings are DESIGN CHOICES (logs 7, 8), as are the port's (log 3) and the service record's (log 36). -/
def State.resetWith (p : Params) : State where
  cfg := p
  fg := .idle
  if0 := IfaceState.reset p.rxCapacity
  if1 := IfaceState.reset p.rxCapacity
  wake := false
  cs := false
  inIsr := false
  faults := []
  faultCw := 0#32
  bridge := []
  filt := Filters.reset
  mono := 0#64
  utc := 0#64
  poolOk := true
  by' := .host
  args := zeroArgs
  res := none
  svcRes := none
  inner := []
  sched := []

/-- The state right after reset, with the reference parameters (log 4). -/
def State.reset : State := State.resetWith Params.reference

end Sys2Proof.Machine
end

