-- ==== Sys2Proof/Machine/Flags.lean ====
section
/-! DEFINITION. Saturating counters (00_scope.md R13) and the status registers as words: the views of `TSR`, `MSR` and
`RFfR` that put the controller's storage and hidden state at the bit positions of 10_state.md R35 to R37. -/

namespace Sys2Proof.Machine

/-- `sat_inc32` (00_scope.md R13). -/
def satInc32 (x : Word) : Word := if x = 0xFFFFFFFF#32 then x else x + 1#32

/-- `sat_add32` (00_scope.md R13). -/
def satAdd32 (a b : Word) : Word := BitVec.ofNat 32 (min (a.toNat + b.toNat) (2 ^ 32 - 1))

/-- `sat_add64` (00_scope.md R13). -/
def satAdd64 (a b : U64) : U64 := BitVec.ofNat 64 (min (a.toNat + b.toNat) (2 ^ 64 - 1))

/-- The bits of `w` inside `mask` taken from `v`, the others kept. -/
def merge (mask w v : Word) : Word := (w &&& ~~~mask) ||| (v &&& mask)

/-- `TMEm`: the mailbox reports empty (10_state.md R36, R47). -/
def Mailbox.tme (b : Mailbox) : Bool := b.st == .empty

/-- `ABRQm` reads as 1 while the abort is outstanding (10_state.md R36; 47_controller_env.md R275; log 15). -/
def Mailbox.abrq (b : Mailbox) : Bool := b.st == .aborting

/-- Bits 8m+7:8m of `TSR` (10_state.md R36). -/
def Mailbox.tsrByte (b : Mailbox) : Byte :=
  BitVec.ofBool b.abrq ++ b.res ++ BitVec.ofBool b.terr ++ BitVec.ofBool b.alst ++ BitVec.ofBool b.txok
    ++ BitVec.ofBool b.rqcp

/-- `TSR` as it reads (10_state.md R36). -/
def Ctrl.tsrWord (c : Ctrl) : Word :=
  BitVec.ofBool c.mb2.low ++ BitVec.ofBool c.mb1.low ++ BitVec.ofBool c.mb0.low
    ++ BitVec.ofBool c.mb2.tme ++ BitVec.ofBool c.mb1.tme ++ BitVec.ofBool c.mb0.tme
    ++ c.code ++ c.mb2.tsrByte ++ c.mb1.tsrByte ++ c.mb0.tsrByte

/-- `MSR` as it reads: `INAK` is 1 iff the mode is `Config` (10_state.md R35, R47). -/
def Ctrl.msrWord (c : Ctrl) : Word := c.msr.extractLsb' 1 31 ++ BitVec.ofBool (c.mode == .config)

/-- `RFfR.FMP`: the FIFO's length, at most `FIFO_DEPTH` (10_state.md R37, R47; log 15). -/
def RxFifo.fmp (x : RxFifo) : BitVec 2 := BitVec.ofNat 2 (min x.q.length Config.fifoDepth)

/-- `RFfR` as it reads; `RFOM` reads 0, since a release is complete at once (10_state.md R37; 47_controller_env.md
R278). -/
def RxFifo.rfrWord (x : RxFifo) : Word :=
  x.res.extractLsb' 6 26 ++ 0#1 ++ BitVec.ofBool x.fovr ++ BitVec.ofBool x.full ++ x.res.extractLsb' 2 1 ++ x.fmp

/-- `RQCPm`, bit 8m of `TSR` (10_state.md R36). -/
def tsrRqcp (tsr : Word) : Mb → Bool
  | .mb0 => tsr.getLsbD 0
  | .mb1 => tsr.getLsbD 8
  | .mb2 => tsr.getLsbD 16

/-- `TXOKm`, bit 8m+1 of `TSR` (10_state.md R36). -/
def tsrTxok (tsr : Word) : Mb → Bool
  | .mb0 => tsr.getLsbD 1
  | .mb1 => tsr.getLsbD 9
  | .mb2 => tsr.getLsbD 17

/-- `TMEm`, bit 26+m of `TSR` (10_state.md R36). -/
def tsrTme (tsr : Word) : Mb → Bool
  | .mb0 => tsr.getLsbD 26
  | .mb1 => tsr.getLsbD 27
  | .mb2 => tsr.getLsbD 28

/-- The write that clears `RQCPm`, `TXOKm`, `ALSTm` and `TERRm` (20_memory.md R63). -/
def rqcpBit : Mb → Word
  | .mb0 => 0x00000001#32
  | .mb1 => 0x00000100#32
  | .mb2 => 0x00010000#32

/-- The write that requests the abort of mailbox m (20_memory.md R63). -/
def abrqBit : Mb → Word
  | .mb0 => 0x00000080#32
  | .mb1 => 0x00008000#32
  | .mb2 => 0x00800000#32

/-- `ESR.LEC`, bits 6:4 (10_state.md R39). -/
def esrLec (esr : Word) : BitVec 3 := esr.extractLsb' 4 3

end Sys2Proof.Machine
end

