-- ==== Sys2Proof/Machine/Operands.lean ====
section
/-! DEFINITION. Operand forms: register offsets (10_state.md R34 to R50) and addresses (20_memory.md R60), the packing of
frames into mailbox registers and out of FIFO registers (30_encoding.md R89 to R92), the bit-timing word (R94), the
readiness masks (R95), and the field masks of the controller registers. -/

namespace Sys2Proof.Machine

/-- The index of an interface. -/
def Iface.idx : Iface → Nat
  | .if0 => 0
  | .if1 => 1

/-- The interface an IFACE field selects, once it is known to be below `NUM_IFACES` (30_encoding.md R83). -/
def ifaceOf (b : BitVec 4) : Iface := if b = 0#4 then .if0 else .if1

/-- The FIFO a SUB field selects, once it is known to be 0 or 1 (30_encoding.md R83). -/
def fifoOf (b : BitVec 2) : Fifo := if b = 0#2 then .rx0 else .rx1

/-- The IFACE field that selects an interface. -/
def Iface.bits : Iface → BitVec 4
  | .if0 => 0#4
  | .if1 => 1#4

/-- The SUB field that selects a FIFO. -/
def Fifo.bits : Fifo → BitVec 2
  | .rx0 => 0#2
  | .rx1 => 1#2

/-- The interfaces of the build, in ascending order. -/
def ifaces (p : Params) : List Iface := if p.twoIfaces then [.if0, .if1] else [.if0]

/-- The interface is one the build has: `i < NUM_IFACES`. -/
def hasIface (p : Params) (i : Iface) : Bool := decide (i.idx < p.numIfaces)

/-- `BASE[i]` (00_scope.md R10). -/
def base (p : Params) : Iface → Word
  | .if0 => p.base0
  | .if1 => p.base1

/-- Offset of mailbox m's register group (10_state.md R41). -/
def Mb.group : Mb → Word
  | .mb0 => 0x180#32
  | .mb1 => 0x190#32
  | .mb2 => 0x1A0#32

/-- Offset of FIFO f's register group (10_state.md R42). -/
def Fifo.group : Fifo → Word
  | .rx0 => 0x1B0#32
  | .rx1 => 0x1C0#32

/-- `OFF(NAME)` (10_state.md R34 to R50). -/
def Reg.off : Reg → Word
  | .mcr => 0x000#32
  | .msr => 0x004#32
  | .tsr => 0x008#32
  | .rfr .rx0 => 0x00C#32
  | .rfr .rx1 => 0x010#32
  | .ier => 0x014#32
  | .esr => 0x018#32
  | .btr => 0x01C#32
  | .tir m => m.group
  | .tdtr m => m.group + 0x4#32
  | .tdlr m => m.group + 0x8#32
  | .tdhr m => m.group + 0xC#32
  | .rir f => f.group
  | .rdtr f => f.group + 0x4#32
  | .rdlr f => f.group + 0x8#32
  | .rdhr f => f.group + 0xC#32
  | .fmr => 0x200#32
  | .fm1r => 0x204#32
  | .fs1r => 0x20C#32
  | .ffa1r => 0x214#32
  | .fa1r => 0x21C#32
  | .fr1 b => BitVec.ofNat 32 (0x240 + 8 * b.val)
  | .fr2 b => BitVec.ofNat 32 (0x244 + 8 * b.val)

/-- The registers of an interface's own block (10_state.md R34 to R42). -/
def ctrlRegs : List Reg :=
  [.tsr, .msr, .mcr, .rfr .rx0, .rfr .rx1, .ier, .esr, .btr]
    ++ [.tir .mb0, .tdtr .mb0, .tdlr .mb0, .tdhr .mb0, .tir .mb1, .tdtr .mb1, .tdlr .mb1, .tdhr .mb1]
    ++ [.tir .mb2, .tdtr .mb2, .tdlr .mb2, .tdhr .mb2]
    ++ [.rir .rx0, .rdtr .rx0, .rdlr .rx0, .rdhr .rx0, .rir .rx1, .rdtr .rx1, .rdlr .rx1, .rdhr .rx1]

/-- The shared filter registers (10_state.md R48 to R51). -/
def filterRegs : List Reg :=
  [.fmr, .fm1r, .fs1r, .ffa1r, .fa1r] ++ (List.finRange 28).map Reg.fr1 ++ (List.finRange 28).map Reg.fr2

/-- A shared filter register, which exists in interface 0's block only (10_state.md R33). -/
def Reg.isFilter : Reg → Bool
  | .fmr | .fm1r | .fs1r | .ffa1r | .fa1r | .fr1 _ | .fr2 _ => true
  | .mcr | .msr | .tsr | .rfr _ | .ier | .esr | .btr | .tir _ | .tdtr _ | .tdlr _ | .tdhr _ | .rir _ | .rdtr _
  | .rdlr _ | .rdhr _ => false

/-- The register at an offset inside the block of interface `i`, if there is one (20_memory.md R76). -/
def regAt (i : Iface) (off : Word) : Option Reg :=
  match i with
  | .if0 => (ctrlRegs ++ filterRegs).find? fun r => r.off == off
  | .if1 => ctrlRegs.find? fun r => r.off == off

/-- The register an address names (20_memory.md R60, R76). Where two register blocks overlap, interface 0's wins: the spec
leaves `BASE[i]` open and does not exclude it. DESIGN CHOICE (log 31). -/
def locate (p : Params) (a : Word) : Option (Iface × Reg) :=
  match regAt .if0 (a - p.base0) with
  | some r => some (.if0, r)
  | none =>
    if p.twoIfaces then
      match regAt .if1 (a - p.base1) with
      | some r => some (.if1, r)
      | none => none
    else none

/-- The identifier word of a transmit mailbox, `TXRQ = 0` (30_encoding.md R89). -/
def tirOf (fr : Frame) : Word :=
  if fr.ext then fr.id ++ 1#1 ++ BitVec.ofBool fr.rtr ++ 0#1
  else fr.id.extractLsb' 0 11 ++ 0#19 ++ BitVec.ofBool fr.rtr ++ 0#1

/-- The length word (30_encoding.md R90). -/
def tdtrOf (fr : Frame) : Word := fr.dlc.setWidth 32

/-- The low data word, little-endian (30_encoding.md R91; 20_memory.md R61). -/
def tdlrOf (d : Data8) : Word := d.b3 ++ d.b2 ++ d.b1 ++ d.b0

/-- The high data word, little-endian (30_encoding.md R91; 20_memory.md R61). -/
def tdhrOf (d : Data8) : Word := d.b7 ++ d.b6 ++ d.b5 ++ d.b4

/-- `rx_decode` (30_encoding.md R92): the frame that the four head registers show; `dlc` is raw. -/
def rxDecode (rir rdtr rdlr rdhr : Word) : Frame where
  ext := rir.getLsbD 2
  id := if rir.getLsbD 2 then rir.extractLsb' 3 29 else (rir.extractLsb' 21 11).setWidth 29
  rtr := rir.getLsbD 1
  err := false
  dlc := rdtr.extractLsb' 0 4
  data :=
    ⟨rdlr.extractLsb' 0 8, rdlr.extractLsb' 8 8, rdlr.extractLsb' 16 8, rdlr.extractLsb' 24 8,
     rdhr.extractLsb' 0 8, rdhr.extractLsb' 8 8, rdhr.extractLsb' 16 8, rdhr.extractLsb' 24 8⟩

/-- `RIR[f]` for a message: the frame's bits where R92 reads them, the message's free bits elsewhere (bit 0, and bits
20:3 of a standard frame; 10_state.md R42, 47_controller_env.md R280; log 19). -/
def rirOf (m : RxMsg) : Word :=
  if m.frame.ext then m.frame.id ++ 1#1 ++ BitVec.ofBool m.frame.rtr ++ m.rirFree.extractLsb' 0 1
  else m.frame.id.extractLsb' 0 11 ++ m.rirFree.extractLsb' 3 18 ++ 0#1 ++ BitVec.ofBool m.frame.rtr
    ++ m.rirFree.extractLsb' 0 1

/-- `RDTR[f]` for a message: `DLC`, with `TIME`, `FMI` and the reserved bits free (10_state.md R42). -/
def rdtrOf (m : RxMsg) : Word := m.rdtrFree.extractLsb' 4 28 ++ m.frame.dlc

/-- The bit-timing word (30_encoding.md R94): `LBKM = SILM = 0`, reserved bits 0. -/
def btrOf (t : TimingParams) : Word := 0#6 ++ t.sjw ++ 0#1 ++ t.bs2 ++ t.bs1 ++ 0#6 ++ t.presc

/-- Interface i's bit of a readiness mask (30_encoding.md R95). -/
def maskBit (i : Iface) : Byte := 1#8 <<< i.idx

/-- `M = (1 << NUM_IFACES) - 1` (46_multiplexer.md R255). -/
def maskAll (p : Params) : Byte := (1#8 <<< p.numIfaces) - 1#8

/-- The satisfaction predicate (46_multiplexer.md R255). -/
def satisfied (p : Params) (rd wr reqRd reqWr : Byte) : Bool :=
  ((rd &&& reqRd &&& maskAll p) ||| (wr &&& reqWr &&& maskAll p)) != 0#8

/-- `flags[0]`, `LOOPBACK` (30_encoding.md R96). -/
def loopbackFlag (flags : U16) : Bool := flags.getLsbD 0

/-- The flags word of a loopback-origin entry (30_encoding.md R96). -/
abbrev loopbackFlags : U16 := 1#16

/-- The mailbox `IF.SEND` takes: the lowest-numbered one that `TSR` reports empty (43_tx_path.md R181). -/
def lowestEmpty (tsr : Word) : Option Mb :=
  if tsrTme tsr .mb0 then some .mb0
  else if tsrTme tsr .mb1 then some .mb1
  else if tsrTme tsr .mb2 then some .mb2
  else none

/-- `tsr[28:26]` (43_tx_path.md R180, R197). -/
def tsrTmeField (tsr : Word) : BitVec 3 := tsr.extractLsb' 26 3

/-! Field masks (42_bringup.md) and the writable bits of each register (10_state.md R34 to R50). -/

/-- `MCR.INRQ` (42_bringup.md). -/
abbrev mcrInrq : Word := 0x00000001#32
/-- `MCR.SLEEP` (42_bringup.md). -/
abbrev mcrSleep : Word := 0x00000002#32
/-- `IER.TMEIE | IER.FMPIE0 | IER.FMPIE1` (42_bringup.md R157). -/
abbrev ierValue : Word := 0x00000013#32
/-- `FMR.FINIT` (42_bringup.md). -/
abbrev fmrFinit : Word := 0x00000001#32
/-- `FMR.CAN2SB` (42_bringup.md). -/
abbrev fmrCan2sb : Word := 0x00003F00#32
/-- `RFOM | FOVR | FULL` (44_rx_path.md R216). -/
abbrev rfrRelease : Word := 0x00000038#32

/-- rw bits of `MCR`: 7:0 and 16 (10_state.md R34). -/
abbrev mcrRw : Word := 0x000100FF#32
/-- rc_w1 bits of `MSR`: 4:2 (10_state.md R35). -/
abbrev msrRc : Word := 0x0000001C#32
/-- rw bits of `IER` (10_state.md R38). -/
abbrev ierRw : Word := 0x00038F7F#32
/-- rw bits of `ESR`: `LEC` (10_state.md R39). -/
abbrev esrRw : Word := 0x00000070#32
/-- rw bits of `BTR` (10_state.md R40). -/
abbrev btrRw : Word := 0xC37F03FF#32
/-- rw bits of `TDTR[m]` (10_state.md R41). -/
abbrev tdtrRw : Word := 0xFFFF010F#32
/-- rw bits of `FMR` (10_state.md R48). -/
abbrev fmrRw : Word := 0x00003F01#32
/-- Bits 27:0 of `FM1R`, `FS1R`, `FFA1R` and `FA1R` (10_state.md R49). -/
abbrev bankBits : Word := 0x0FFFFFFF#32

/-- The value of a result code, a signed 8-bit number (30_encoding.md R88). -/
def ResultCode.code : ResultCode → BitVec 8
  | .ok => 0#8
  | .accepted => 1#8
  | .noCapacity => 2#8
  | .empty => 3#8
  | .timedOut => 4#8
  | .errRejected => BitVec.ofInt 8 (-1)
  | .errUnachievableBitrate => BitVec.ofInt 8 (-2)
  | .errModeEntryTimeout => BitVec.ofInt 8 (-3)
  | .errModeExitTimeout => BitVec.ofInt 8 (-4)
  | .errUnsupported => BitVec.ofInt 8 (-5)

end Sys2Proof.Machine
end

