-- ==== Sys2Proof/Machine/Ops.lean ====
section
/-! DEFINITION. The shared operations: the operation type, accessors, `raise Fault(kind)` and its effect
(60_exceptions.md R310), the critical section (20_memory.md R66), and the register port (20_memory.md R60 to R65;
47_controller_env.md R271). -/

namespace Sys2Proof.Machine

/-- An operation of the block: from a state it either ends with a value and a state, or raises a fault at a state, which
keeps the effects made before that point (60_exceptions.md R310). -/
abbrev Op (α : Type) := EStateM FaultKind State α

/-- Reads soft state. -/
def ask {α : Type} (f : State → α) : Op α := fun s => .ok (f s) s

/-- Writes soft state. -/
def upd (f : State → State) : Op Unit := fun s => .ok () (f s)

/-- `raise Fault(kind)` inside an operation: it stops there (60_exceptions.md R310). -/
def raise {α : Type} (k : FaultKind) : Op α := fun s => .error k s

/-- An operation that runs only where a condition holds. -/
def onlyIf (c : Bool) (x : Op Unit) : Op Unit := if c then x else pure ()

/-! ### Accessors -/

/-- Interface i's state. -/
def State.iface (s : State) : Iface → IfaceState
  | .if0 => s.if0
  | .if1 => s.if1

/-- Changes interface i's state. -/
def State.onIface (s : State) (i : Iface) (f : IfaceState → IfaceState) : State :=
  match i with
  | .if0 => { s with if0 := f s.if0 }
  | .if1 => { s with if1 := f s.if1 }

/-- Interface i's controller. -/
def State.ctrl (s : State) (i : Iface) : Ctrl := (s.iface i).ctrl

/-- Changes interface i's controller. -/
def State.onCtrl (s : State) (i : Iface) (f : Ctrl → Ctrl) : State :=
  s.onIface i fun x => { x with ctrl := f x.ctrl }

/-- `pend[i][m]`. -/
def IfaceState.pend (x : IfaceState) : Mb → PendSlot
  | .mb0 => x.pend0
  | .mb1 => x.pend1
  | .mb2 => x.pend2

/-- Changes `pend[i][m]`. -/
def IfaceState.onPend (x : IfaceState) (m : Mb) (f : PendSlot → PendSlot) : IfaceState :=
  match m with
  | .mb0 => { x with pend0 := f x.pend0 }
  | .mb1 => { x with pend1 := f x.pend1 }
  | .mb2 => { x with pend2 := f x.pend2 }

/-- `vec_en[i][s]`. -/
def IfaceState.vec (x : IfaceState) : Source → Bool
  | .tx => x.vecTx
  | .rx0 => x.vecRx0
  | .rx1 => x.vecRx1

/-- Mailbox m of a controller. -/
def Ctrl.mb (c : Ctrl) : Mb → Mailbox
  | .mb0 => c.mb0
  | .mb1 => c.mb1
  | .mb2 => c.mb2

/-- Changes mailbox m of a controller. -/
def Ctrl.onMb (c : Ctrl) (m : Mb) (f : Mailbox → Mailbox) : Ctrl :=
  match m with
  | .mb0 => { c with mb0 := f c.mb0 }
  | .mb1 => { c with mb1 := f c.mb1 }
  | .mb2 => { c with mb2 := f c.mb2 }

/-- FIFO f of a controller. -/
def Ctrl.rx (c : Ctrl) : Fifo → RxFifo
  | .rx0 => c.rx0
  | .rx1 => c.rx1

/-- Changes FIFO f of a controller. -/
def Ctrl.onRx (c : Ctrl) (f : Fifo) (g : RxFifo → RxFifo) : Ctrl :=
  match f with
  | .rx0 => { c with rx0 := g c.rx0 }
  | .rx1 => { c with rx1 := g c.rx1 }

/-! ### Faults (60_exceptions.md R310 to R312) -/

/-- The cause code of a fault kind (60_exceptions.md R311). -/
def FaultKind.code : FaultKind → Nat
  | .illegalCommand => 1
  | .illegalAccess => 2
  | .clockDisabledAccess => 3
  | .criticalSectionMisuse => 4
  | .unguardedSharedAccess => 5
  | .popEmpty => 6
  | .rxFifoEmpty => 7
  | .unregisteredDispatch => 8

/-- Adds a kind to a fault set, kept by rising cause code with no repeats. -/
def insertFault (k : FaultKind) : List FaultKind → List FaultKind
  | [] => [k]
  | x :: xs =>
    if k = x then x :: xs
    else if k.code < x.code then k :: x :: xs
    else x :: insertFault k xs

/-- Taking a fault (60_exceptions.md R310): the kind joins the sticky set, `fault_cw` keeps the command word of the
operation that raised the first fault, and `fg` becomes Faulted. Nothing else changes. -/
def takeFault (k : FaultKind) (cw : Word) (s : State) : State :=
  { s with
    faults := insertFault k s.faults
    faultCw := if s.faults = [] then cw else s.faultCw
    fg := .faulted }

/-- The block has faulted: no agent of it takes a step (60_exceptions.md R310). There is no return from a fault: only a
system reset leaves this state (70_reset_and_hazards.md R340). -/
def State.stopped (s : State) : Bool := s.fg == .faulted || s.faults != []

/-! ### Critical section (20_memory.md R66) -/

/-- `enter_cs()`. -/
def enterCs : Op Unit := fun s =>
  if s.cs then .error .criticalSectionMisuse s else .ok () { s with cs := true }

/-- `exit_cs()`. -/
def exitCs : Op Unit := fun s =>
  if s.cs then .ok () { s with cs := false } else .error .criticalSectionMisuse s

/-- A ring-buffer primitive is reached only in interrupt context or inside the critical section (20_memory.md R70;
log 25). -/
def guardShared : Op Unit := fun s =>
  if s.inIsr || s.cs then .ok () s else .error .unguardedSharedAccess s

/-- The return of a result record by a service or entry operation, to the body or the dispatcher that invoked it
(30_encoding.md R88). Its rule names no value field, and of the codes of R88 `OK` alone is that of such an operation that
ends. DEDUCED (log 36). -/
def State.answered (s : State) : State := { s with svcRes := some ⟨.ok, .none⟩ }

/-- A service or entry operation with its return. -/
def returning (x : Op Unit) : Op Unit := do
  x
  upd State.answered

/-- `signal(wake)` (00_scope.md R15). -/
def signalWake : Op Unit := upd fun s => { s with wake := true }

/-- The foreground agent is Busy in the operation `op`, at the phase `ph` (10_state.md R22). -/
def mark (op : Instr) (ph : Phase) : Op Unit := upd fun s => { s with fg := .busy op ph }

/-! ### The register port: reads (20_memory.md R64) -/

/-- `RIR[f]` (10_state.md R42). -/
def RxFifo.rir (x : RxFifo) : Word :=
  match x.q with
  | [] => x.idle.rir
  | m :: _ => rirOf m

/-- `RDTR[f]` (10_state.md R42). -/
def RxFifo.rdtr (x : RxFifo) : Word :=
  match x.q with
  | [] => x.idle.rdtr
  | m :: _ => rdtrOf m

/-- `RDLR[f]` (10_state.md R42). -/
def RxFifo.rdlr (x : RxFifo) : Word :=
  match x.q with
  | [] => x.idle.rdlr
  | m :: _ => tdlrOf m.frame.data

/-- `RDHR[f]` (10_state.md R42). -/
def RxFifo.rdhr (x : RxFifo) : Word :=
  match x.q with
  | [] => x.idle.rdhr
  | m :: _ => tdhrOf m.frame.data

/-- What register `r` of interface i's block reads as. -/
def State.readReg (s : State) (i : Iface) : Reg → Word
  | .mcr => (s.ctrl i).mcr
  | .msr => (s.ctrl i).msrWord
  | .tsr => (s.ctrl i).tsrWord
  | .rfr f => ((s.ctrl i).rx f).rfrWord
  | .ier => (s.ctrl i).ier
  | .esr => (s.ctrl i).esr
  | .btr => (s.ctrl i).btr
  | .tir m => ((s.ctrl i).mb m).tir
  | .tdtr m => ((s.ctrl i).mb m).tdtr
  | .tdlr m => ((s.ctrl i).mb m).tdlr
  | .tdhr m => ((s.ctrl i).mb m).tdhr
  | .rir f => ((s.ctrl i).rx f).rir
  | .rdtr f => ((s.ctrl i).rx f).rdtr
  | .rdlr f => ((s.ctrl i).rx f).rdlr
  | .rdhr f => ((s.ctrl i).rx f).rdhr
  | .fmr => s.filt.fmr
  | .fm1r => s.filt.fm1r
  | .fs1r => s.filt.fs1r
  | .ffa1r => s.filt.ffa1r
  | .fa1r => s.filt.fa1r
  | .fr1 b => s.filt.fr1.getD b.val 0#32
  | .fr2 b => s.filt.fr2.getD b.val 0#32

/-! ### The register port: writes (47_controller_env.md R271; access codes 10_state.md R33) -/

/-- A write of `v` to mailbox m's byte of `TSR`: `RQCPm` written as 1 clears it and `TXOKm`, `ALSTm`, `TERRm`; these
three are also cleared by a 1 of their own (10_state.md R36, R45; log 12); `ABRQm` written as 1 makes a Requested
mailbox Aborting and does nothing else (47_controller_env.md R275). -/
def Mailbox.writeTsr (b : Mailbox) (v : Byte) : Mailbox :=
  let rq := v.getLsbD 0
  { b with
    rqcp := b.rqcp && !rq
    txok := b.txok && !rq && !v.getLsbD 1
    alst := b.alst && !rq && !v.getLsbD 2
    terr := b.terr && !rq && !v.getLsbD 3
    st := if v.getLsbD 7 && b.st == .requested then .aborting else b.st }

/-- A write to `TIR[m]`: stored only while the mailbox is Empty, and then a 1 in bit 0 requests transmission
(47_controller_env.md R271). -/
def Mailbox.writeTir (b : Mailbox) (v : Word) : Mailbox :=
  if b.tme then
    if v.getLsbD 0 then
      { b with tir := v, st := .requested, rqcp := false, txok := false, alst := false, terr := false }
    else { b with tir := v }
  else b

/-- A write to `RFfR` (10_state.md R37; 47_controller_env.md R271, R278): `FULL` and `FOVR` clear on 1; `RFOM` as 1
releases the head message, if there is one. -/
def RxFifo.write (x : RxFifo) (v : Word) : RxFifo :=
  { x with
    full := x.full && !v.getLsbD 3
    fovr := x.fovr && !v.getLsbD 4
    q := if v.getLsbD 5 then x.q.tail else x.q }

/-- The bank bits a filter register accepts: all in filter-initialization mode, else those of inactive banks
(10_state.md R50; 47_controller_env.md R271; log 13). -/
def Filters.open' (x : Filters) : Word :=
  if x.fmr.getLsbD 0 then bankBits else bankBits &&& ~~~x.fa1r

/-- A write of `v` to register `r` of interface i's block. -/
def State.writeReg (s : State) (i : Iface) (r : Reg) (v : Word) : State :=
  match r with
  | .mcr => s.onCtrl i fun c => { c with mcr := merge mcrRw c.mcr v ||| (v &&& 0x8000#32) }
  | .msr => s.onCtrl i fun c => { c with msr := c.msr &&& ~~~(v &&& msrRc) }
  | .tsr => s.onCtrl i fun c =>
      { c with
        mb0 := c.mb0.writeTsr (v.extractLsb' 0 8)
        mb1 := c.mb1.writeTsr (v.extractLsb' 8 8)
        mb2 := c.mb2.writeTsr (v.extractLsb' 16 8) }
  | .rfr f => s.onCtrl i fun c => c.onRx f fun x => x.write v
  | .ier => s.onCtrl i fun c => { c with ier := merge ierRw c.ier v }
  | .esr => s.onCtrl i fun c => { c with esr := merge esrRw c.esr v }
  | .btr => s.onCtrl i fun c => if c.mode = .config then { c with btr := merge btrRw c.btr v } else c
  | .tir m => s.onCtrl i fun c => c.onMb m fun b => b.writeTir v
  | .tdtr m => s.onCtrl i fun c => c.onMb m fun b => if b.tme then { b with tdtr := merge tdtrRw b.tdtr v } else b
  | .tdlr m => s.onCtrl i fun c => c.onMb m fun b => if b.tme then { b with tdlr := v } else b
  | .tdhr m => s.onCtrl i fun c => c.onMb m fun b => if b.tme then { b with tdhr := v } else b
  | .rir _ => s
  | .rdtr _ => s
  | .rdlr _ => s
  | .rdhr _ => s
  | .fmr => { s with filt := { s.filt with fmr := merge fmrRw s.filt.fmr v } }
  | .fm1r => { s with filt := { s.filt with fm1r := merge s.filt.open' s.filt.fm1r v } }
  | .fs1r => { s with filt := { s.filt with fs1r := merge s.filt.open' s.filt.fs1r v } }
  | .ffa1r => { s with filt := { s.filt with ffa1r := merge s.filt.open' s.filt.ffa1r v } }
  | .fa1r => { s with filt := { s.filt with fa1r := merge bankBits s.filt.fa1r v } }
  | .fr1 b =>
    if s.filt.open'.getLsbD b.val then { s with filt := { s.filt with fr1 := s.filt.fr1.set b.val v } } else s
  | .fr2 b =>
    if s.filt.open'.getLsbD b.val then { s with filt := { s.filt with fr2 := s.filt.fr2.set b.val v } } else s

/-! ### The register port: accesses by address (20_memory.md R60, R65) -/

/-- Where an access of `width` bytes at address `a` goes, or the fault it raises: `IllegalAccess` for another width than
4, a misaligned address or an address outside every register (R60), `ClockDisabledAccess` for a block whose clock is
disabled (R65). Where both apply, the spec names no order; `IllegalAccess` comes first. DESIGN CHOICE (log 33). -/
def accessTarget (a : Word) (width : Nat) : Op (Iface × Reg) := fun s =>
  if width = 4 ∧ a.toNat % 4 = 0 then
    match locate s.cfg a with
    | some (i, r) => if (s.iface i).clkEn then .ok (i, r) s else .error .clockDisabledAccess s
    | none => .error .illegalAccess s
  else .error .illegalAccess s

/-- `MemRead(a, width)` (00_scope.md R14; 20_memory.md R60). -/
def memRead (a : Word) (width : Nat) : Op Word := do
  let t ← accessTarget a width
  ask fun s => s.readReg t.1 t.2

/-- `MemWrite(a, width, v)` (00_scope.md R14; 20_memory.md R60). -/
def memWrite (a : Word) (width : Nat) (v : Word) : Op Unit := do
  let t ← accessTarget a width
  upd fun s => s.writeReg t.1 t.2 v

/-- `RegRead(i, NAME)` (00_scope.md R14). -/
def regRead (i : Iface) (r : Reg) : Op Word := do
  let b ← ask fun s => base s.cfg i
  memRead (b + r.off) 4

/-- `RegWrite(i, NAME, v)` (00_scope.md R14). -/
def regWrite (i : Iface) (r : Reg) (v : Word) : Op Unit := do
  let b ← ask fun s => base s.cfg i
  memWrite (b + r.off) 4 v

/-- `reset_pulse(i)` (42_bringup.md R171): every register of controller i and its hidden state take their reset values;
for interface 0 the filter registers too. No soft state changes (log 18). -/
def State.resetPulse (s : State) (i : Iface) : State :=
  let s' := s.onCtrl i fun _ => Ctrl.reset
  match i with
  | .if0 => { s' with filt := Filters.reset }
  | .if1 => s'

end Sys2Proof.Machine
end

