-- ==== Sys2Proof/Machine/Controller.lean ====
section
/-! DEFINITION. The environment's agents (47_controller_env.md R270 to R285; 60_exceptions.md R322, R323) and the
interleaving point they step at (20_memory.md R67 item 4). A step whose guard does not hold changes nothing. -/

namespace Sys2Proof.Machine

/-- Controller i can step: the build has it and its clock domain is enabled (R270, R285). -/
def ctrlRuns (s : State) (i : Iface) : Bool := hasIface s.cfg i && (s.iface i).clkEn

/-- Entering `Config` after `INRQ = 1` was written (R272; log 22). -/
def Ctrl.enterConfig (c : Ctrl) : Ctrl := if c.mcr.getLsbD 0 then { c with mode := .config } else c

/-- Entering `Normal` after `INRQ = 0` with `SLEEP = 0` (R272). -/
def Ctrl.enterNormal (c : Ctrl) : Ctrl :=
  if !c.mcr.getLsbD 0 && !c.mcr.getLsbD 1 then { c with mode := .normal } else c

/-- A completion (R274) or the completion of an abort (R275). -/
def Mailbox.complete (b : Mailbox) (txok : Bool) : Mailbox :=
  match b.st with
  | .empty => b
  | .requested => { b with st := .empty, tir := b.tir &&& 0xFFFFFFFE#32, rqcp := true, txok := txok }
  | .aborting => { b with st := .empty, tir := b.tir &&& 0xFFFFFFFE#32, rqcp := true, txok := txok }

/-- A frame arrives (R277): appended while the FIFO holds fewer than `FIFO_DEPTH`, `FULL` once it holds that many; else
`FOVR`, and the FIFO keeps its content or replaces its newest frame. -/
def RxFifo.arrive (x : RxFifo) (msg : RxMsg) (replace : Bool) : RxFifo :=
  if x.q.length < Config.fifoDepth then
    { x with q := x.q ++ [msg], full := x.full || decide (x.q.length + 1 = Config.fifoDepth) }
  else { x with fovr := true, q := if replace then x.q.dropLast ++ [msg] else x.q }

/-- The frames that may arrive: any frame with `err = false` (R277). -/
def RxMsg.admitted (m : RxMsg) : Bool := !m.frame.err && m.frame.wellFormed

/-- A bus error sets `LEC` to a value 1..6 (R283). -/
def Ctrl.busError (c : Ctrl) (lec : BitVec 3) : Ctrl :=
  if lec = 0#3 ∨ lec = 7#3 then c
  else { c with esr := merge esrRw c.esr (lec.setWidth 32 <<< 4) }

/-- The environment's bits of mailbox m's part of `TSR`: `ALSTm`, `TERRm`, reserved bits and `LOWm` (log 14). -/
def Mailbox.drift (b : Mailbox) (v : Byte) (low : Bool) : Mailbox :=
  { b with alst := v.getLsbD 2, terr := v.getLsbD 3, res := v.extractLsb' 4 3, low := low }

/-- The bits of a register of interface i's block that the environment owns take the bits of `v`: reserved bits read as
any value (10_state.md R33), status bits the block never reads may change arbitrarily (R283), the head registers of an
empty FIFO hold any values (R280), and the controller clears `MCR.RESET` (10_state.md R33). No bit the block reads
changes (log 14). -/
def State.driftReg (s : State) (i : Iface) (r : Reg) (v : Word) : State :=
  match r with
  | .mcr => s.onCtrl i fun c => { c with mcr := merge 0xFFFE7F00#32 c.mcr v &&& (v ||| 0xFFFF7FFF#32) }
  | .msr => s.onCtrl i fun c => { c with msr := merge 0xFFFFFFFE#32 c.msr v }
  | .tsr => s.onCtrl i fun c =>
      { c with
        code := v.extractLsb' 24 2
        mb0 := c.mb0.drift (v.extractLsb' 0 8) (v.getLsbD 29)
        mb1 := c.mb1.drift (v.extractLsb' 8 8) (v.getLsbD 30)
        mb2 := c.mb2.drift (v.extractLsb' 16 8) (v.getLsbD 31) }
  | .rfr f => s.onCtrl i fun c => c.onRx f fun x => { x with res := v }
  | .ier => s.onCtrl i fun c => { c with ier := merge (~~~ierRw) c.ier v }
  | .esr => s.onCtrl i fun c => { c with esr := merge (~~~esrRw) c.esr v }
  | .btr => s.onCtrl i fun c => { c with btr := merge (~~~btrRw) c.btr v }
  | .tir _ => s
  | .tdtr m => s.onCtrl i fun c => c.onMb m fun b => { b with tdtr := merge (~~~tdtrRw) b.tdtr v }
  | .tdlr _ => s
  | .tdhr _ => s
  | .rir f => s.onCtrl i fun c => c.onRx f fun x => { x with idle := { x.idle with rir := v } }
  | .rdtr f => s.onCtrl i fun c => c.onRx f fun x => { x with idle := { x.idle with rdtr := v } }
  | .rdlr f => s.onCtrl i fun c => c.onRx f fun x => { x with idle := { x.idle with rdlr := v } }
  | .rdhr f => s.onCtrl i fun c => c.onRx f fun x => { x with idle := { x.idle with rdhr := v } }
  | .fmr => { s with filt := { s.filt with fmr := merge (~~~fmrRw) s.filt.fmr v } }
  | .fm1r => { s with filt := { s.filt with fm1r := merge (~~~bankBits) s.filt.fm1r v } }
  | .fs1r => { s with filt := { s.filt with fs1r := merge (~~~bankBits) s.filt.fs1r v } }
  | .ffa1r => { s with filt := { s.filt with ffa1r := merge (~~~bankBits) s.filt.ffa1r v } }
  | .fa1r => { s with filt := { s.filt with fa1r := merge (~~~bankBits) s.filt.fa1r v } }
  | .fr1 _ => s
  | .fr2 _ => s

/-- Interface i's register block holds register `r`: the filter registers are in interface 0's block alone (10_state.md
R33; 20_memory.md R65), and hold while its clock is disabled (R285). -/
def blockHas (i : Iface) (r : Reg) : Bool := !(i == .if1 && r.isFilter)

/-- A step of controller i, which happens only while it can step (R270). -/
def State.ctrlStep (s : State) (i : Iface) (f : Ctrl → Ctrl) : State := if ctrlRuns s i then s.onCtrl i f else s

/-- The effect of an environment step. -/
def envAct (a : EnvAct) (s : State) : State :=
  match a with
  | .enterConfig i => s.ctrlStep i Ctrl.enterConfig
  | .enterNormal i => s.ctrlStep i Ctrl.enterNormal
  | .complete i m txok => s.ctrlStep i fun c => c.onMb m fun b => b.complete txok
  | .arrive i f msg replace =>
    s.ctrlStep i fun c =>
      if c.mode = .normal ∧ msg.admitted then c.onRx f fun x => x.arrive msg replace else c
  | .busError i lec => s.ctrlStep i fun c => if c.mode = .normal then c.busError lec else c
  | .drift i r v => if ctrlRuns s i && blockHas i r then s.driftReg i r v else s
  | .tick mono utc => { s with mono := if s.mono ≤ mono then mono else s.mono, utc := utc }
  | .pool ok => { s with poolOk := ok }
  | .consume => { s with bridge := s.bridge.tail }

/-- The moves taken at an interleaving point where no interrupt can start, inside the critical section or a service
(20_memory.md R67 items 1, 2, 4): environment steps up to the running operation's own next step. A dispatcher's move is
not admitted there and is passed over (60_exceptions.md R304). -/
def envMoves : List Inner → State → State
  | .env a :: l, s => envMoves l (envAct a s)
  | .irq _ _ :: l, s => envMoves l s
  | .go :: l, s => { s with inner := l }
  | [], s => { s with inner := [] }

/-- The interleaving point before a register access of an interrupt service (20_memory.md R67 item 4). -/
def envPoint : Op Unit := fun s => .ok () (envMoves s.inner s)

/-- `now_mono()` (00_scope.md R15; 60_exceptions.md R322; log 7). -/
def nowMono : Op U64 := ask fun s => s.mono

/-- `now_utc()` (00_scope.md R15; 60_exceptions.md R322; log 7). -/
def nowUtc : Op U64 := ask fun s => s.utc

end Sys2Proof.Machine
end

