-- ==== Sys2Proof/Machine/RingBuffer.lean ====
section
/-! DEFINITION. The receive ring buffer's primitives (41_ring_buffer.md R130 to R134). -/

namespace Sys2Proof.Machine

/-- Dropping the oldest entry of a full buffer (41_ring_buffer.md R132). -/
def RingBuf.evict (capacity : Nat) (b : RingBuf) : RingBuf :=
  { b with rd := (b.rd + 1) % capacity, len := b.len - 1, ovf := satInc32 b.ovf }

/-- Writing an entry behind the newest one (41_ring_buffer.md R132). -/
def RingBuf.append (capacity : Nat) (b : RingBuf) (e : RxEntry) : RingBuf :=
  { b with slot := b.slot.set ((b.rd + b.len) % capacity) e, len := b.len + 1 }

/-- `rb_push` on a buffer of `capacity` entries (41_ring_buffer.md R132). -/
def RingBuf.push (capacity : Nat) (b : RingBuf) (e : RxEntry) : RingBuf :=
  if b.len = capacity then (b.evict capacity).append capacity e else b.append capacity e

/-- The entry at the read cursor (41_ring_buffer.md R134). -/
def RingBuf.front (b : RingBuf) : RxEntry := b.slot.getD b.rd ⟨zeroFrame, 0#64, 0#16⟩

/-- `rb_pop`'s effect on a buffer that is not empty (41_ring_buffer.md R134). -/
def RingBuf.drop (capacity : Nat) (b : RingBuf) : RingBuf :=
  { b with rd := (b.rd + 1) % capacity, len := b.len - 1 }

/-- The logical content, oldest first (10_state.md R25). -/
def RingBuf.content (capacity : Nat) (b : RingBuf) : List RxEntry :=
  (List.range b.len).map fun k => b.slot.getD ((b.rd + k) % capacity) ⟨zeroFrame, 0#64, 0#16⟩

/-- Primitive `rb_push(i, fr, ts, flags)` (41_ring_buffer.md R132), guarded as 20_memory.md R70 says. -/
def rbPush (i : Iface) (e : RxEntry) : Op Unit := do
  guardShared
  upd fun s => s.onIface i fun x => { x with rb := x.rb.push s.cfg.rxCapacity e }

/-- Primitive `rb_pop(i)` (41_ring_buffer.md R134), guarded as 20_memory.md R70 says. -/
def rbPop (i : Iface) : Op RxEntry := do
  guardShared
  let n ← ask fun s => (s.iface i).rb.len
  if n = 0 then raise .popEmpty
  else do
    let e ← ask fun s => (s.iface i).rb.front
    upd fun s => s.onIface i fun x => { x with rb := x.rb.drop s.cfg.rxCapacity }
    pure e

end Sys2Proof.Machine
end

