-- ==== Sys2Proof/Machine/Service.lean ====
section
/-! DEFINITION. The interrupt service operations: TX completion servicing (43_tx_path.md R190 to R195), the RX FIFO drain
(44_rx_path.md R210 to R221), error-state polling (44_rx_path.md R230), and the entry operations that call them
(60_exceptions.md R302, R303). Every register access has an interleaving point for the environment (20_memory.md R67
item 4). -/

namespace Sys2Proof.Machine

/-- A register read of a service. -/
def svcRead (i : Iface) (r : Reg) : Op Word := do
  envPoint
  regRead i r

/-- A register write of a service. -/
def svcWrite (i : Iface) (r : Reg) (v : Word) : Op Unit := do
  envPoint
  regWrite i r v

/-- `err_cnt[i] <- sat_inc32(err_cnt[i])` (10_state.md R27). -/
def countError (i : Iface) : Op Unit := upd fun s => s.onIface i fun x => { x with errCnt := satInc32 x.errCnt }

/-- `had_act[i] <- true`. -/
def markActivity (i : Iface) : Op Unit := upd fun s => s.onIface i fun x => { x with hadAct := true }

/-- `poll_error(i)` (44_rx_path.md R230). -/
def pollError (i : Iface) : Op Unit := returning do
  let esr ← svcRead i .esr
  let lec := esrLec esr
  if lec = 0#3 then pure ()
  else do
    upd fun s => s.onIface i fun x => { x with lastHwErr := lec.setWidth 8 }
    svcWrite i .esr 0#32
    countError i

/-- The loopback push of `handle_completion` (43_tx_path.md R192), stamped with the UTC time drawn at the push. -/
def pushLoopback (i : Iface) (m : Mb) : Op Unit := do
  let t ← nowUtc
  let fr ← ask fun s => ((s.iface i).pend m).frame
  rbPush i ⟨fr, t, loopbackFlags⟩

/-- `handle_completion(i, m, txok)` (43_tx_path.md R192, R195). -/
def handleCompletion (i : Iface) (m : Mb) (txok : Bool) : Op Unit := do
  onlyIf txok (markActivity i)
  let p ← ask fun s => (s.iface i).pend m
  onlyIf (p.pending && p.loopback && txok) (pushLoopback i m)
  onlyIf (!txok) (countError i)
  upd fun s => s.onIface i fun x => x.onPend m fun q => { q with pending := false }
  onlyIf (m == .mb0) (upd fun s => s.onIface i fun x => { x with mb0Sem := satInc32 x.mb0Sem })

/-- One mailbox of `if_tx_service` (43_tx_path.md R190, R191). -/
def serviceMailbox (i : Iface) (m : Mb) : Op Unit := do
  let tsr ← svcRead i .tsr
  if tsrRqcp tsr m then do
    svcWrite i .tsr (rqcpBit m)
    handleCompletion i m (tsrTxok tsr m)
  else pure ()

/-- `if_tx_service(i)` (43_tx_path.md R190, R193). -/
def txService (i : Iface) : Op Unit := returning do
  serviceMailbox i .mb0
  serviceMailbox i .mb1
  serviceMailbox i .mb2
  pollError i
  signalWake

/-- `bridge_hook(fr)` (44_rx_path.md R221). -/
def bridgeHook (fr : Frame) : Op Unit := upd fun s =>
  { s with
    bridge := if Config.bridgePred fr && s.poolOk && decide (s.bridge.length < s.cfg.bridgeCap)
      then s.bridge ++ [fr] else s.bridge }

/-- `RFfR.FMP`, bits 1:0 (10_state.md R37). -/
def rfrFmp (rfr : Word) : BitVec 2 := rfr.extractLsb' 0 2

/-- `if_rx_service(i, f)` (44_rx_path.md R210 to R219). -/
def rxService (i : Iface) (f : Fifo) : Op Unit := returning do
  let rfr ← svcRead i (.rfr f)
  if rfrFmp rfr = 0#2 then raise .rxFifoEmpty
  else do
    onlyIf (rfr.getLsbD 4) (countError i)
    let rir ← svcRead i (.rir f)
    let rdtr ← svcRead i (.rdtr f)
    let rdlr ← svcRead i (.rdlr f)
    let rdhr ← svcRead i (.rdhr f)
    let fr := rxDecode rir rdtr rdlr rdhr
    svcWrite i (.rfr f) rfrRelease
    let t ← nowUtc
    rbPush i ⟨fr, t, 0#16⟩
    bridgeHook fr
    markActivity i
    pollError i
    signalWake

/-- An entry operation around its service (60_exceptions.md R302, R303, R306, R307, R309): entry saves nothing and sets
`in_isr`; the return clears it and restores nothing. -/
def entryAround (i : Iface) (service : Op Unit) : Op Unit := returning do
  let reg ← ask fun s => (s.iface i).registry
  if reg then do
    upd fun s => { s with inIsr := true }
    service
    upd fun s => { s with inIsr := false }
  else raise .unregisteredDispatch

/-- `irq_tx(i)` (60_exceptions.md R302). -/
def irqTx (i : Iface) : Op Unit := entryAround i (txService i)

/-- `irq_rx(i, f)` (60_exceptions.md R303). -/
def irqRx (i : Iface) (f : Fifo) : Op Unit := entryAround i (rxService i f)

end Sys2Proof.Machine
end

