-- ==== Sys2Proof/Machine/Dispatcher.lean ====
section
/-! DEFINITION. The interrupt dispatcher: pending conditions and the start condition (60_exceptions.md R300 to R305), and
the interleaving point of the foreground agent, where an interrupt service may start (20_memory.md R67 item 3). -/

namespace Sys2Proof.Machine

/-- `pending(i, s)` (60_exceptions.md R301): level-sensitive, read from the registers. -/
def pendingIrq (s : State) (i : Iface) (src : Source) : Bool :=
  match src with
  | .tx => (s.readReg i .ier).getLsbD 0
      && (tsrRqcp (s.readReg i .tsr) .mb0 || tsrRqcp (s.readReg i .tsr) .mb1 || tsrRqcp (s.readReg i .tsr) .mb2)
  | .rx0 => (s.readReg i .ier).getLsbD 1 && rfrFmp (s.readReg i (.rfr .rx0)) != 0#2
  | .rx1 => (s.readReg i .ier).getLsbD 4 && rfrFmp (s.readReg i (.rfr .rx1)) != 0#2

/-- The start condition (60_exceptions.md R304), for an interface the build has. -/
def canStart (s : State) (i : Iface) (src : Source) : Bool :=
  hasIface s.cfg i && pendingIrq s i src && (s.iface i).vec src && !s.cs && !s.inIsr && !s.stopped

/-- The entry operation of a source, as a command (60_exceptions.md R302, R303). -/
def entryInstr (i : Iface) (src : Source) : Instr :=
  match src with
  | .tx => .irqTx i.bits
  | .rx0 => .irqRx i.bits Fifo.rx0.bits
  | .rx1 => .irqRx i.bits Fifo.rx1.bits

/-- The entry operation of a source. -/
def entryOp (i : Iface) (src : Source) : Op Unit :=
  match src with
  | .tx => irqTx i
  | .rx0 => irqRx i .rx0
  | .rx1 => irqRx i .rx1

/-- The dispatcher's move inside a foreground operation: it starts the entry operation if the start condition holds, and
the operation runs to its return before the foreground's next step (20_memory.md R67 item 1). A fault it raises carries
the entry operation's own command word (60_exceptions.md R310; log 11) and stops the foreground too. -/
def dispatcherMove (i : Iface) (src : Source) : Op Unit := fun s =>
  if canStart s i src then
    match entryOp i src s with
    | .ok _ s' => .ok () s'
    | .error k s' => .error k (takeFault k (encode (entryInstr i src)) s')
  else .ok () s

/-- The moves taken at an interleaving point of the foreground, at most `n` of them (every move and every interleaving
point inside a service shortens the list, so its length is enough). -/
def preemptMoves : Nat → Op Unit
  | 0 => fun s => .ok () s
  | n + 1 => fun s =>
    match s.inner with
    | .env a :: l => preemptMoves n (envAct a { s with inner := l })
    | .irq i src :: l =>
      match dispatcherMove i src { s with inner := l } with
      | .ok _ s' => preemptMoves n s'
      | .error k s' => .error k s'
    | .go :: l => .ok () { s with inner := l }
    | [] => .ok () s

/-- The interleaving point before a step of the foreground agent (20_memory.md R67 items 3 and 4). Inside the critical
section it admits environment steps only, because the start condition needs `cs = false`. -/
def preempt : Op Unit := fun s => preemptMoves s.inner.length s

/-- Nothing but the running operation moves until it ends. -/
def State.quiet (s : State) : Prop := s.inner = []

/-- The interleaving point before the step of `op` that `ph` names: the foreground is Busy there (10_state.md R22), and
other agents may step. -/
def stepAt (op : Instr) (ph : Phase) : Op Unit := do
  mark op ph
  preempt

/-- A register read of the foreground agent, after the interleaving point `point`. -/
def fgRead (point : Op Unit) (i : Iface) (r : Reg) : Op Word := do
  point
  regRead i r

/-- A register write of the foreground agent, after the interleaving point `point`. -/
def fgWrite (point : Op Unit) (i : Iface) (r : Reg) (v : Word) : Op Unit := do
  point
  regWrite i r v

/-- `enter_cs()` of the foreground agent, after the interleaving point `point`. -/
def enterCsAt (point : Op Unit) : Op Unit := do
  point
  enterCs

/-- A foreground soft-state step outside a critical section, after the interleaving point `point`. -/
def fgUpd (point : Op Unit) (f : State → State) : Op Unit := do
  point
  upd f

end Sys2Proof.Machine
end

