-- ==== Sys2Proof/Machine/Command.lean ====
section
/-! DEFINITION. What every command shares: the legality checks of 30_encoding.md R86, the return of a result or the
suspension of the foreground agent (10_state.md R22), and the taking of a fault (60_exceptions.md R310). -/

namespace Sys2Proof.Machine

/-- How a foreground operation ends: it returns a result record, or the foreground agent is suspended. -/
inductive Ret where
  | done (r : Result)
  | block (fg : Fg)
  deriving DecidableEq, Repr

/-- A result with no value field. -/
def status (c : ResultCode) : Ret := .done ⟨c, .none⟩

/-- `(OK, val = n)`. -/
def okVal (n : Nat) : Ret := .done ⟨.ok, .val n⟩

/-- `b ? 1 : 0`. -/
def boolVal (b : Bool) : Nat := if b then 1 else 0

/-- The agent that issues a command may issue it here (30_encoding.md R84, R86): a class-H command from `Idle`, a class-S
command from the body of the entry operation its rule names (43_tx_path.md R190, 44_rx_path.md R210), a class-N command
from the body of a service; the last two in interrupt context (log 17). -/
def issuable (i : Instr) (s : State) : Bool :=
  decide (s.by' = i.cls) &&
    match i.cls with
    | .host => s.fg == .idle
    | .dispatcher => true
    | .entryTx => s.inIsr
    | .entryRx => s.inIsr
    | .service => s.inIsr

/-- The command is legal (30_encoding.md R86). -/
def legal (i : Instr) (s : State) : Bool := i.wellFormed s.cfg.numIfaces && issuable i s

/-- The end of a foreground operation. Its return is joined to its last access, with no interleaving point between the two.
DESIGN CHOICE (log 35). -/
def settle (i : Instr) (r : EStateM.Result FaultKind State Ret) : Host.Outcome State Fault Refusal :=
  match r with
  | .ok (.done x) s => .next { s with fg := .idle, res := some x }
  | .ok (.block fg) s => .next { s with fg := fg }
  | .error k s => .next (takeFault k (encode i) s)

/-- The end of an interrupt-context operation, which has returned its record (30_encoding.md R88) to its invoker, not to the
host. -/
def settleIsr (i : Instr) (r : EStateM.Result FaultKind State Unit) : Host.Outcome State Fault Refusal :=
  match r with
  | .ok _ s => .next s
  | .error k s => .next (takeFault k (encode i) s)

/-- The state in which a class-H command's operation starts: the foreground is Busy at its first phase, and no result has
been returned (10_state.md R22). -/
def State.started (s : State) (i : Instr) (ph : Phase) : State := { s with fg := .busy i ph, res := none }

/-- A class-H command: refused as illegal, or run from its first phase. A stopped block runs nothing (60_exceptions.md
R310). It runs in thread context (R316): inside an interrupt service the foreground takes no step (R306), and nothing
changes. DEDUCED (log 37). -/
def hostCommand (i : Instr) (ph : Phase) (body : Op Ret) (s : State) : Host.Outcome State Fault Refusal :=
  if s.stopped then .fault .blockStopped
  else if legal i s then
    if s.inIsr then .next s else settle i (body (s.started i ph))
  else .next (takeFault .illegalCommand (encode i) s)

/-- A class-S or class-N command: refused as illegal, or run in interrupt context. -/
def isrCommand (i : Instr) (body : Op Unit) (s : State) : Host.Outcome State Fault Refusal :=
  if s.stopped then .fault .blockStopped
  else if legal i s then settleIsr i (body s)
  else .next (takeFault .illegalCommand (encode i) s)

/-- A class-D command: refused as illegal, or started if the start condition of its source holds (60_exceptions.md R304,
R308). Where it does not hold the dispatcher starts nothing, and nothing changes (log 17). -/
def entryCommand (i : Instr) (ifc : Iface) (src : Source) (body : Op Unit) (s : State) : Host.Outcome State Fault Refusal :=
  if s.stopped then .fault .blockStopped
  else if legal i s then
    if canStart s ifc src then settleIsr i (body s) else .next s
  else .next (takeFault .illegalCommand (encode i) s)

end Sys2Proof.Machine
end

