-- ==== Sys2Proof/Machine/BitTiming.lean ====
section
/-! DEFINITION. The bit-timing prescaler calculator, `BT.CALC` (40_bit_timing.md R110 to R119). -/

namespace Sys2Proof.Machine

/-- The shrink step (40_bit_timing.md R114). -/
def shrink (bs1 bs2 : Nat) : Nat × Nat := if bs2 < bs1 then (bs1 - 1, bs2) else (bs1, bs2 - 1)

/-- The prescaler and the segments pass the acceptance test (40_bit_timing.md R113); the range test comes first. -/
def accepts (clock rate prescaler sum : Nat) : Bool :=
  decide (1 ≤ prescaler) && decide (prescaler ≤ Config.prescMax) && decide (clock / (prescaler * sum) = rate)

/-- Physical values to stored values (40_bit_timing.md R115; 30_encoding.md R93). -/
def storedTiming (prescaler bs1 bs2 : Nat) : TimingParams :=
  ⟨BitVec.ofNat 10 (prescaler - 1), 0#2, BitVec.ofNat 4 (bs1 - 1), BitVec.ofNat 3 (bs2 - 1)⟩

/-- The search (40_bit_timing.md R112 to R114), at most `passes` passes from the pair `(bs1, bs2)`: the physical
prescaler and segments it accepts. -/
def searchTimings (clock rate : Nat) : Nat → Nat → Nat → Option (Nat × Nat × Nat)
  | 0, _, _ => none
  | passes + 1, bs1, bs2 =>
    let sum := 1 + bs1 + bs2
    let prescaler := clock / rate / sum
    if accepts clock rate prescaler sum then some (prescaler, bs1, bs2)
    else
      let next := shrink bs1 bs2
      if next.1 = 0 ∨ next.2 = 0 then none else searchTimings clock rate passes next.1 next.2

/-- The physical values `calc_timings` finds, none for an unachievable rate (40_bit_timing.md R110, R111). -/
def physicalTimings (clock rate : Nat) : Option (Nat × Nat × Nat) :=
  if rate < Config.rateMin ∨ Config.rateMax < rate then none
  else searchTimings clock rate Config.searchPasses Config.bs1Init Config.bs2Init

/-- `calc_timings` (40_bit_timing.md R110): none stands for `ERR_UNACHIEVABLE_BITRATE`. -/
def calcTimings (clock rate : Nat) : Option TimingParams :=
  match physicalTimings clock rate with
  | some (p, bs1, bs2) => some (storedTiming p bs1 bs2)
  | none => none

/-- The result record of `BT.CALC`. -/
def timingResult (t : Option TimingParams) : Ret :=
  match t with
  | some t => .done ⟨.ok, .timing t⟩
  | none => status .errUnachievableBitrate

/-- `BT.CALC`: it touches no register and no soft state, so it has no interleaving point. -/
def btCalc (rate : Word) : Op Ret := ask fun s => timingResult (calcTimings s.cfg.pclk rate.toNat)

/-- `BT.CALC` (40_bit_timing.md R110). -/
def execBtCalc (s : State) : Host.Outcome State Fault Refusal :=
  hostCommand .btCalc (.timings s.args.rate) (btCalc s.args.rate) s

end Sys2Proof.Machine
end

