-- ==== Sys2Proof/Machine/Transmit.lean ====
section
/-! DEFINITION. The mailbox arbiter: `IF.SEND`, `IF.DISCARD`, `IF.TXSVC`, `IF.TXFULL`, `IF.WAITMB0` (43_tx_path.md R180 to
R201). -/

namespace Sys2Proof.Machine

/-- A frame `IF.SEND` rejects (43_tx_path.md R184). -/
def rejected (fr : Frame) : Bool := fr.err || decide (8 < fr.dlc.toNat)

/-- The register a step of a mailbox load writes. -/
def LoadStep.reg (m : Mb) : LoadStep → Reg
  | .ident => .tir m
  | .length => .tdtr m
  | .low => .tdlr m
  | .high => .tdhr m
  | .request => .tir m

/-- The word a step of a mailbox load writes (43_tx_path.md R182). -/
def LoadStep.word (fr : Frame) : LoadStep → Word
  | .ident => tirOf fr
  | .length => tdtrOf fr
  | .low => tdlrOf fr.data
  | .high => tdhrOf fr.data
  | .request => tirOf fr ||| 1#32

/-- The mailbox load: the request bit goes up with the last write (43_tx_path.md R182). -/
def loadSteps : List LoadStep := [.ident, .length, .low, .high, .request]

/-- The mailbox load from a step on, then the pending record (43_tx_path.md R182, R183). -/
def sendLoad (point : SendPhase → Op Unit) (x : Sending) (tsr : Word) (m : Mb) : List LoadStep → Op ResultCode
  | [] => do
    upd fun s => s.onIface x.i fun y => y.onPend m fun _ => ⟨x.frame, x.deadline, loopbackFlag x.flags, true⟩
    exitCs
    pure .accepted
  | k :: ks => do
    fgWrite (point (.load tsr m (k :: ks))) x.i (k.reg m) (k.word x.frame)
    sendLoad point x tsr m ks

/-- The choice of the mailbox, inside the critical section (43_tx_path.md R181). -/
def sendScan (point : SendPhase → Op Unit) (x : Sending) : Op ResultCode := do
  let tsr ← fgRead (point .scan) x.i .tsr
  match lowestEmpty tsr with
  | none => do
    exitCs
    pure .noCapacity
  | some m => sendLoad point x tsr m loadSteps

/-- `if_send(i, fr, deadline, flags)` (43_tx_path.md R180 to R184). -/
def ifSend (point : SendPhase → Op Unit) (x : Sending) : Op ResultCode :=
  if rejected x.frame then pure .errRejected
  else do
    enterCsAt (point .enter)
    sendScan point x

/-- `if_send` from a phase on (10_state.md R22). -/
def sendFrom (point : SendPhase → Op Unit) (x : Sending) : SendPhase → Op ResultCode
  | .enter => ifSend point x
  | .scan => sendScan point x
  | .load tsr m todo => sendLoad point x tsr m todo

/-- A pending slot whose deadline is strictly before `now` (43_tx_path.md R185, R186; 90_conflicts.md C1). -/
def PendSlot.expired (p : PendSlot) (now : U64) : Bool := p.pending && decide (p.deadline < now)

/-- The abort of an expired slot (43_tx_path.md R185, R186). -/
def discardAbort (point : Op Unit) (i : Iface) (m : Mb) : Op Unit := do
  fgWrite point i .tsr (abrqBit m)
  upd fun s => s.onIface i fun x => x.onPend m fun q => { q with pending := false }
  countError i

/-- One slot of `if_discard` (43_tx_path.md R185). -/
def discardSlot (point : Op Unit) (i : Iface) (now : U64) (m : Mb) : Op Unit := do
  let p ← ask fun s => (s.iface i).pend m
  if p.expired now then discardAbort point i m else pure ()

/-- The slots left of `if_discard`, in ascending order, and the end of its critical section (43_tx_path.md R185). -/
def discardSlots (point : DiscardPhase → Op Unit) (i : Iface) (now : U64) : List Mb → Op Unit
  | [] => exitCs
  | m :: ms => do
    discardSlot (point (.abort m ms)) i now m
    discardSlots point i now ms

/-- `if_discard(i, now)` (43_tx_path.md R185). -/
def ifDiscard (point : DiscardPhase → Op Unit) (i : Iface) (now : U64) : Op Unit := do
  enterCsAt (point .enter)
  discardSlots point i now [.mb0, .mb1, .mb2]

/-- `if_discard` from a phase on (10_state.md R22). -/
def discardFrom (point : DiscardPhase → Op Unit) (i : Iface) (now : U64) : DiscardPhase → Op Unit
  | .enter => ifDiscard point i now
  | .abort m todo => do
    discardAbort (point (.abort m todo)) i m
    discardSlots point i now todo

/-- `IF.TXFULL` (43_tx_path.md R197): no critical section. -/
def txFull (op : Instr) (i : Iface) : Op Ret := do
  let tsr ← fgRead (stepAt op (.txfull i)) i .tsr
  pure (okVal (boolVal (tsrTmeField tsr == 0#3)))

/-- `if_wait_mb0` from its critical section on, with the deadline `dl` (43_tx_path.md R200). -/
def waitAt (op : Instr) (i : Iface) (dl : U64) : Op Ret := do
  enterCsAt (stepAt op (.wait i dl))
  let n ← ask fun s => (s.iface i).mb0Sem
  if n = 0#32 then do
    exitCs
    pure (.block (.blockedMb0 i dl))
  else do
    upd fun s => s.onIface i fun x => { x with mb0Sem := x.mb0Sem - 1#32 }
    exitCs
    pure (status .ok)

/-- `if_wait_mb0(i, timeout)` (43_tx_path.md R200). -/
def ifWaitMb0 (op : Instr) (i : Iface) (timeout : U64) : Op Ret := do
  let t ← nowMono
  waitAt op i (satAdd64 t timeout)

/-- The wake step from `BlockedMb0(i, dl)` (43_tx_path.md R201): enabled by a count or by the deadline; when both hold the
draw `timeout` decides. R201 gives it as one atomic step with no `enter_cs()`, where 20_memory.md R69 says that the waits take
`mb0_sem` inside the critical section. DEDUCED (log 38). -/
def wakeMb0 (i : Iface) (dl : U64) (timeout : Bool) (s : State) : State :=
  if (s.iface i).mb0Sem ≠ 0#32 ∧ ¬(timeout = true ∧ dl ≤ s.mono) then
    { s.onIface i (fun x => { x with mb0Sem := x.mb0Sem - 1#32 }) with fg := .idle, res := some ⟨.ok, .none⟩ }
  else if dl ≤ s.mono then { s with fg := .idle, res := some ⟨.timedOut, .none⟩ }
  else s

/-- A result with no value field, of an operation that answers a code. -/
def answer (x : Op ResultCode) : Op Ret := do
  let r ← x
  pure (status r)

/-- The interleaving points of `IF.SEND`. -/
def sendPoint (op : Instr) (x : Sending) (p : SendPhase) : Op Unit := stepAt op (.send x p)

/-- The interleaving points of `IF.DISCARD`. -/
def discardPoint (op : Instr) (i : Iface) (now : U64) (p : DiscardPhase) : Op Unit := stepAt op (.discard i now p)

/-- `IF.DISCARD` around `if_discard` (43_tx_path.md R185). -/
def discarded (x : Op Unit) : Op Ret := do
  x
  pure (status .ok)

/-- `IF.SEND` (43_tx_path.md R180). -/
def execIfSend (ifc : BitVec 4) (s : State) : Host.Outcome State Fault Refusal :=
  let x : Sending := ⟨ifaceOf ifc, s.args.frame, s.args.deadline, s.args.flags⟩
  hostCommand (.ifSend ifc) (.send x .enter) (answer (ifSend (sendPoint (.ifSend ifc) x) x)) s

/-- `IF.DISCARD` (43_tx_path.md R185). -/
def execIfDiscard (ifc : BitVec 4) (s : State) : Host.Outcome State Fault Refusal :=
  let now := s.args.now
  hostCommand (.ifDiscard ifc) (.discard (ifaceOf ifc) now .enter)
    (discarded (ifDiscard (discardPoint (.ifDiscard ifc) (ifaceOf ifc) now) (ifaceOf ifc) now)) s

/-- `IF.TXSVC` (43_tx_path.md R190), invoked from the body of an `IRQ.TX` entry. -/
def execIfTxsvc (ifc : BitVec 4) (s : State) : Host.Outcome State Fault Refusal :=
  isrCommand (.ifTxsvc ifc) (txService (ifaceOf ifc)) s

/-- `IF.TXFULL` (43_tx_path.md R197). -/
def execIfTxfull (ifc : BitVec 4) (s : State) : Host.Outcome State Fault Refusal :=
  hostCommand (.ifTxfull ifc) (.txfull (ifaceOf ifc)) (txFull (.ifTxfull ifc) (ifaceOf ifc)) s

/-- `IF.WAITMB0` (43_tx_path.md R200). -/
def execIfWaitmb0 (ifc : BitVec 4) (s : State) : Host.Outcome State Fault Refusal :=
  let timeout := s.args.timeout
  hostCommand (.ifWaitmb0 ifc) (.waitStart (ifaceOf ifc) timeout) (ifWaitMb0 (.ifWaitmb0 ifc) (ifaceOf ifc) timeout) s

end Sys2Proof.Machine
end

