-- ==== Sys2Proof/Machine/Bringup.lean ====
section
/-! DEFINITION. The register sequencer: `IF.INIT`, `IF.CFGFILT`, `DRV.INIT` (42_bringup.md R150 to R176). Each function of
`if_init` is the operation from one of its steps on; `point` is the interleaving point before the step a phase names. -/

namespace Sys2Proof.Machine

/-- `poll_inak(i, want)` with `n` reads left (42_bringup.md R152); `wait` and `delay` are the points before a read and a
delay. `delay(MODE_POLL_DELAY)` changes no state: it is its point alone (log 30). -/
def pollInak (wait delay : Nat → Op Unit) (i : Iface) (want : Bool) : Nat → Op Bool
  | 0 => pure false
  | n + 1 => do
    let msr ← fgRead (wait n) i .msr
    if msr.getLsbD 0 = want then pure true
    else do
      delay n
      pollInak wait delay i want n

/-- The banks `program_filters` sets up: bank 0, and `FILTER_SPLIT` with two interfaces (42_bringup.md R162). -/
def filterBanks (p : Params) : List (Fin 28) :=
  if p.twoIfaces then [0, ⟨Config.filterSplit, by decide⟩] else [0]

/-- OR over the banks of `1 << b` (42_bringup.md R162). -/
def bankMask (bs : List (Fin 28)) : Word := bs.foldl (fun w b => w ||| (1#32 <<< b.val)) 0#32

/-- The value of `FMR` in filter-initialization mode, with the partition (42_bringup.md R160, R162). -/
def fmrInit (p : Params) (f : Word) : Word :=
  let g := f ||| fmrFinit
  if p.twoIfaces then (g &&& ~~~fmrCan2sb) ||| (BitVec.ofNat 32 Config.filterSplit <<< 8) else g

/-- Identifier 0 and mask 0 in each bank: accept all (42_bringup.md R162). -/
def bankWrites (bs : List (Fin 28)) : List (Reg × Word) := bs.flatMap fun b => [(.fr1 b, 0#32), (.fr2 b, 0#32)]

/-- The register writes of `program_filters()` with `FMR` at `f` in filter-initialization mode (42_bringup.md R162). -/
def filterWrites (p : Params) (f : Word) : List (Reg × Word) :=
  [(.fmr, f), (.fa1r, 0#32), (.fm1r, 0#32), (.ffa1r, 0#32), (.fs1r, bankMask (filterBanks p))]
    ++ bankWrites (filterBanks p) ++ [(.fa1r, bankMask (filterBanks p)), (.fmr, f &&& ~~~fmrFinit)]

section init

variable (point : InitPhase → Op Unit)

/-- The filter writes still to make, to interface 0's block (42_bringup.md R162). -/
def writeFilters (f : Word) : List (Reg × Word) → Op Unit
  | [] => pure ()
  | (r, v) :: l => do
    fgWrite (point (.filterWrite f ((r, v) :: l))) .if0 r v
    writeFilters f l

/-- `program_filters()` (42_bringup.md R162). It starts with a read of `FMR`, as R162's pseudocode and the note to
95_test_vectors.md I1 say, where 10_state.md R52 says that the block never reads the filter registers. DEDUCED (log 32). -/
def programFilters : Op Unit := do
  let f0 ← fgRead (point .filterRead) .if0 .fmr
  let p ← ask fun s => s.cfg
  writeFilters point (fmrInit p f0) (filterWrites p (fmrInit p f0))

/-- The filter phase of `if_init`: the primary interface only (42_bringup.md R160, R161). -/
def filterPhase (i : Iface) : Op ResultCode :=
  match i with
  | .if0 => do
    programFilters point
    pure .ok
  | .if1 => pure .ok

/-- The phase EXIT_WAIT of `if_init`, with `n` polls left, and what follows (42_bringup.md R159). -/
def exitPoll (i : Iface) (n : Nat) : Op ResultCode := do
  let ok ← pollInak (fun n => point (.exitWait n)) (fun n => point (.exitDelay n)) i false n
  if ok then filterPhase point i else pure .errModeExitTimeout

/-- The write of the phase EXIT of `if_init`, and what follows (42_bringup.md R158). -/
def exitWrite (i : Iface) (m : Word) : Op ResultCode := do
  fgWrite (point (.exitWrite m)) i .mcr (m &&& ~~~mcrInrq)
  exitPoll point i Config.modeRetryLimit

/-- The phase EXIT of `if_init`, and what follows (42_bringup.md R158). -/
def exitConfig (i : Iface) : Op ResultCode := do
  let m ← fgRead (point .exitRead) i .mcr
  exitWrite point i m

/-- The second write of the phase PROGRAM of `if_init`, and what follows (42_bringup.md R157). -/
def programIer (i : Iface) : Op ResultCode := do
  fgWrite (point .programIer) i .ier ierValue
  exitConfig point i

/-- The phase PROGRAM of `if_init`, and what follows (42_bringup.md R156). -/
def programTiming (i : Iface) (t : TimingParams) : Op ResultCode := do
  fgWrite (point (.programBtr t)) i .btr (btrOf t)
  programIer point i

/-- The phase ENTER_WAIT of `if_init`, with `n` polls left, and what follows (42_bringup.md R155). -/
def enterPoll (i : Iface) (t : TimingParams) (n : Nat) : Op ResultCode := do
  let ok ← pollInak (fun n => point (.enterWait t n)) (fun n => point (.enterDelay t n)) i true n
  if ok then programTiming point i t else pure .errModeEntryTimeout

/-- The write of the phase ENTER of `if_init`, and what follows (42_bringup.md R154). -/
def enterWrite (i : Iface) (t : TimingParams) (m : Word) : Op ResultCode := do
  fgWrite (point (.enterWrite t m)) i .mcr ((m &&& ~~~mcrSleep) ||| mcrInrq)
  enterPoll point i t Config.modeRetryLimit

/-- The phase ENTER of `if_init`, and what follows (42_bringup.md R154). -/
def enterConfig (i : Iface) (t : TimingParams) : Op ResultCode := do
  let m ← fgRead (point (.enterRead t)) i .mcr
  enterWrite point i t m

/-- `if_init(i, rate)` (42_bringup.md R150 to R165). -/
def ifInit (i : Iface) (rate : Word) : Op ResultCode := do
  point (.timing rate)
  let c ← ask fun s => calcTimings s.cfg.pclk rate.toNat
  match c with
  | none => pure .errUnachievableBitrate
  | some t => enterConfig point i t

/-- `if_init` from a phase on (10_state.md R22). -/
def initFrom (i : Iface) : InitPhase → Op ResultCode
  | .timing rate => ifInit point i rate
  | .enterRead t => enterConfig point i t
  | .enterWrite t m => enterWrite point i t m
  | .enterWait t n => enterPoll point i t (n + 1)
  | .enterDelay t n => do
    point (.enterDelay t n)
    enterPoll point i t n
  | .programBtr t => programTiming point i t
  | .programIer => programIer point i
  | .exitRead => exitConfig point i
  | .exitWrite m => exitWrite point i m
  | .exitWait n => exitPoll point i (n + 1)
  | .exitDelay n => do
    point (.exitDelay n)
    exitPoll point i n
  | .filterRead => filterPhase point i
  | .filterWrite f todo => do
    writeFilters point f todo
    pure .ok

end init

/-- The interleaving points of `if_init` inside the operation `op`, at the phase `w p`. The phase TIMING touches no register
and no soft state, so no other agent steps there. -/
def initPoint (op : Instr) (w : InitPhase → Phase) (p : InitPhase) : Op Unit :=
  match p with
  | .timing rate => mark op (w (.timing rate))
  | p => stepAt op (w p)

/-- The effect of a step of the phase CLOCKS (42_bringup.md R170, R171). -/
def ClockStep.effect : ClockStep → State → State
  | .enable i, s => s.onIface i fun x => { x with clkEn := true }
  | .pulse i, s => s.resetPulse i

/-- The steps of the phase CLOCKS: each clock is enabled, then the controller is pulsed (42_bringup.md R170 to R172). -/
def clockSteps (is : List Iface) : List ClockStep := is.flatMap fun i => [.enable i, .pulse i]

/-- The steps of the phase CLOCKS still to make (42_bringup.md R170 to R172). -/
def startClocks (op : Instr) (rate : Word) : List ClockStep → Op Unit
  | [] => pure ()
  | k :: ks => do
    fgUpd (stepAt op (.clocks rate (k :: ks))) k.effect
    startClocks op rate ks

/-- The phase IFACES of `drv_init` (42_bringup.md R173): ascending, up to the first failure. -/
def initIfaces (op : Instr) (rate : Word) : List Iface → Op ResultCode
  | [] => pure .ok
  | i :: is => do
    let r ← ifInit (initPoint op (.ifaces rate i is)) i rate
    if r = .ok then initIfaces op rate is else pure r

/-- The rollback of `drv_init` (42_bringup.md R174): every clock domain is disabled. -/
def stopClocks (op : Instr) (r : ResultCode) : List Iface → Op Unit
  | [] => pure ()
  | i :: is => do
    fgUpd (stepAt op (.rollback r (i :: is))) fun s => s.onIface i fun x => { x with clkEn := false }
    stopClocks op r is

/-- The effect of a step of the phase DISPATCH for interface i (42_bringup.md R175). -/
def DispatchStep.effect (i : Iface) : DispatchStep → State → State
  | .registry, s => s.onIface i fun x => { x with registry := true }
  | .vector .tx, s => s.onIface i fun x => { x with vecTx := true }
  | .vector .rx0, s => s.onIface i fun x => { x with vecRx0 := true }
  | .vector .rx1, s => s.onIface i fun x => { x with vecRx1 := true }

/-- The steps of the phase DISPATCH for one interface: registration, then the vectors (42_bringup.md R175). -/
def dispatchSteps : List DispatchStep := [.registry, .vector .tx, .vector .rx0, .vector .rx1]

/-- The steps of the phase DISPATCH still to make for interface `i`, before the interfaces `is` (42_bringup.md R175). -/
def registerSteps (op : Instr) (i : Iface) (is : List Iface) : List DispatchStep → Op Unit
  | [] => pure ()
  | k :: ks => do
    fgUpd (stepAt op (.dispatch i is (k :: ks))) (k.effect i)
    registerSteps op i is ks

/-- The phase DISPATCH of `drv_init` (42_bringup.md R175): each interface in turn. -/
def registerIfaces (op : Instr) : List Iface → Op Unit
  | [] => pure ()
  | i :: is => do
    registerSteps op i is dispatchSteps
    registerIfaces op is

/-- `drv_init` after its phase IFACES ended with the result `r` (42_bringup.md R174, R175). -/
def finishInit (op : Instr) (r : ResultCode) : Op ResultCode := do
  let is ← ask fun s => ifaces s.cfg
  if r = .ok then do
    registerIfaces op is
    pure .ok
  else do
    stopClocks op r is
    pure r

/-- `drv_init` from its phase IFACES on (42_bringup.md R173). -/
def initDriver (op : Instr) (rate : Word) : Op ResultCode := do
  let is ← ask fun s => ifaces s.cfg
  let r ← initIfaces op rate is
  finishInit op r

/-- `drv_init` from the steps `todo` of its phase CLOCKS on (42_bringup.md R170). -/
def drvInit (op : Instr) (rate : Word) (todo : List ClockStep) : Op ResultCode := do
  startClocks op rate todo
  initDriver op rate

/-- `drv_init` after `if_init` of an interface ended with the result `r`, with the interfaces `is` to go (42_bringup.md
R173). -/
def nextIface (op : Instr) (rate : Word) (is : List Iface) (r : ResultCode) : Op ResultCode :=
  if r = .ok then do
    let r' ← initIfaces op rate is
    finishInit op r'
  else finishInit op r

/-- `IF.INIT` (42_bringup.md R150). -/
def execIfInit (ifc : BitVec 4) (s : State) : Host.Outcome State Fault Refusal :=
  let rate := s.args.rate
  hostCommand (.ifInit ifc) (.init (ifaceOf ifc) (.timing rate))
    (answer (ifInit (initPoint (.ifInit ifc) (.init (ifaceOf ifc))) (ifaceOf ifc) rate)) s

/-- `IF.CFGFILT` (42_bringup.md R168): always fails, whatever the configuration. -/
def cfgfilt : Op Ret := pure (status .errUnsupported)

/-- `IF.CFGFILT` (42_bringup.md R168). -/
def execIfCfgfilt (ifc : BitVec 4) (s : State) : Host.Outcome State Fault Refusal :=
  hostCommand (.ifCfgfilt ifc) .cfgfilt cfgfilt s

/-- `DRV.INIT` (42_bringup.md R170). -/
def execDrvInit (s : State) : Host.Outcome State Fault Refusal :=
  let rate := s.args.rate
  let todo := clockSteps (ifaces s.cfg)
  hostCommand .drvInit (.clocks rate todo) (answer (drvInit .drvInit rate todo)) s

end Sys2Proof.Machine
end

