-- ==== Sys2Proof/Machine/RingCommands.lean ====
section
/-! DEFINITION. The ring buffer's test port: `RB.PUSH`, `RB.POP`, `RB.LEN`, `RB.OVF` (41_ring_buffer.md R131 to R136). -/

namespace Sys2Proof.Machine

/-- A foreground read of soft state inside the critical section. -/
def csAsk {α : Type} (point : Op Unit) (f : State → α) : Op α := do
  enterCsAt point
  let v ← ask f
  exitCs
  pure v

/-- `RB.PUSH` (41_ring_buffer.md R131). -/
def pushEntry (op : Instr) (i : Iface) (e : RxEntry) : Op Ret := do
  enterCsAt (stepAt op (.push i e))
  rbPush i e
  exitCs
  pure (status .ok)

/-- The raise of `RB.POP` on an empty buffer (41_ring_buffer.md R133): a step of its own, outside the critical section.
DEDUCED (log 34). -/
def popEmpty (op : Instr) (i : Iface) : Op Ret := do
  stepAt op (.popEmpty i)
  raise .popEmpty

/-- `RB.POP` (41_ring_buffer.md R133): on an empty buffer the critical section is left before the fault is raised. -/
def popEntry (op : Instr) (i : Iface) : Op Ret := do
  enterCsAt (stepAt op (.pop i))
  let n ← ask fun s => (s.iface i).rb.len
  if n = 0 then do
    exitCs
    popEmpty op i
  else do
    let e ← rbPop i
    exitCs
    pure (.done ⟨.ok, .entry e.frame e.tsUtc e.flags⟩)

/-- `RB.LEN` (41_ring_buffer.md R135). -/
def rbLength (op : Instr) (i : Iface) : Op Ret := do
  let n ← csAsk (stepAt op (.len i)) fun s => (s.iface i).rb.len
  pure (okVal n)

/-- `RB.OVF` (41_ring_buffer.md R136). -/
def rbOverflow (op : Instr) (i : Iface) : Op Ret := do
  let n ← csAsk (stepAt op (.ovf i)) fun s => (s.iface i).rb.ovf
  pure (okVal n.toNat)

/-- `RB.PUSH` (41_ring_buffer.md R131). -/
def execRbPush (ifc : BitVec 4) (s : State) : Host.Outcome State Fault Refusal :=
  let e : RxEntry := ⟨s.args.frame, s.args.ts, s.args.flags⟩
  hostCommand (.rbPush ifc) (.push (ifaceOf ifc) e) (pushEntry (.rbPush ifc) (ifaceOf ifc) e) s

/-- `RB.POP` (41_ring_buffer.md R133). -/
def execRbPop (ifc : BitVec 4) (s : State) : Host.Outcome State Fault Refusal :=
  hostCommand (.rbPop ifc) (.pop (ifaceOf ifc)) (popEntry (.rbPop ifc) (ifaceOf ifc)) s

/-- `RB.LEN` (41_ring_buffer.md R135). -/
def execRbLen (ifc : BitVec 4) (s : State) : Host.Outcome State Fault Refusal :=
  hostCommand (.rbLen ifc) (.len (ifaceOf ifc)) (rbLength (.rbLen ifc) (ifaceOf ifc)) s

/-- `RB.OVF` (41_ring_buffer.md R136). -/
def execRbOvf (ifc : BitVec 4) (s : State) : Host.Outcome State Fault Refusal :=
  hostCommand (.rbOvf ifc) (.ovf (ifaceOf ifc)) (rbOverflow (.rbOvf ifc) (ifaceOf ifc)) s

end Sys2Proof.Machine
end

