-- ==== Sys2Proof/Machine/Receive.lean ====
section
/-! DEFINITION. The receive path's commands: `IF.RECV`, `IF.RXSVC`, `IF.POLLERR`, `IF.RXEMPTY`, `IF.RXLEN` (44_rx_path.md
R210 to R234), and the status commands `IF.ERRCNT`, `IF.LASTERR`, `IF.HADACT` (45_status.md R240 to R242). -/

namespace Sys2Proof.Machine

/-- `utc_of` (44_rx_path.md R226): the identity. -/
def utcOf (t : U64) : U64 := t

/-- `if_receive(i)` from its critical section on, with the monotonic snapshot `tm` (44_rx_path.md R225). -/
def receiveAt (op : Instr) (i : Iface) (tm : U64) : Op Ret := do
  enterCsAt (stepAt op (.recv i tm))
  let n ← ask fun s => (s.iface i).rb.len
  if n = 0 then do
    exitCs
    pure (status .empty)
  else do
    let e ← rbPop i
    exitCs
    pure (.done ⟨.ok, .received e.frame tm (utcOf e.tsUtc) e.flags⟩)

/-- `if_receive(i)` (44_rx_path.md R225): the monotonic snapshot comes before the critical section. -/
def ifReceive (op : Instr) (i : Iface) : Op Ret := do
  let tm ← nowMono
  receiveAt op i tm

/-- A foreground read-and-clear of soft state inside the critical section (45_status.md R241, R242). -/
def csTake {α : Type} (point : Op Unit) (f : State → α) (g : State → State) : Op α := do
  enterCsAt point
  let v ← ask f
  upd g
  exitCs
  pure v

/-- `had_act[i]`, read and cleared (45_status.md R242). -/
def takeActivity (point : Op Unit) (i : Iface) : Op Bool :=
  csTake point (fun s => (s.iface i).hadAct) fun s => s.onIface i fun x => { x with hadAct := false }

/-- `last_hw_err[i]`, read and cleared (45_status.md R241). -/
def takeError (point : Op Unit) (i : Iface) : Op Byte :=
  csTake point (fun s => (s.iface i).lastHwErr) fun s => s.onIface i fun x => { x with lastHwErr := 0#8 }

/-- `IF.RXEMPTY` (44_rx_path.md R233). -/
def rxEmpty (op : Instr) (i : Iface) : Op Ret := do
  let n ← csAsk (stepAt op (.rxempty i)) fun s => (s.iface i).rb.len
  pure (okVal (boolVal (n == 0)))

/-- `IF.RXLEN` (44_rx_path.md R234). -/
def rxLength (op : Instr) (i : Iface) : Op Ret := do
  let n ← csAsk (stepAt op (.rxlen i)) fun s => (s.iface i).rb.len
  pure (okVal n)

/-- `IF.ERRCNT` (45_status.md R240). -/
def errorCount (op : Instr) (i : Iface) : Op Ret := do
  let v ← csAsk (stepAt op (.errcnt i)) fun s => satAdd32 (s.iface i).errCnt (s.iface i).rb.ovf
  pure (okVal v.toNat)

/-- `IF.LASTERR` (45_status.md R241). -/
def lastError (op : Instr) (i : Iface) : Op Ret := do
  let v ← takeError (stepAt op (.lasterr i)) i
  pure (okVal v.toNat)

/-- `IF.HADACT` (45_status.md R242). -/
def hadActivity (op : Instr) (i : Iface) : Op Ret := do
  let v ← takeActivity (stepAt op (.hadact i)) i
  pure (okVal (boolVal v))

/-- `IF.RECV` (44_rx_path.md R225). -/
def execIfRecv (ifc : BitVec 4) (s : State) : Host.Outcome State Fault Refusal :=
  hostCommand (.ifRecv ifc) (.recvStart (ifaceOf ifc)) (ifReceive (.ifRecv ifc) (ifaceOf ifc)) s

/-- `IF.RXSVC` (44_rx_path.md R210), invoked from the body of an `IRQ.RX` entry. -/
def execIfRxsvc (ifc : BitVec 4) (fifo : BitVec 2) (s : State) : Host.Outcome State Fault Refusal :=
  isrCommand (.ifRxsvc ifc fifo) (rxService (ifaceOf ifc) (fifoOf fifo)) s

/-- `IF.POLLERR` (44_rx_path.md R230), invoked from the body of a service. -/
def execIfPollerr (ifc : BitVec 4) (s : State) : Host.Outcome State Fault Refusal :=
  isrCommand (.ifPollerr ifc) (pollError (ifaceOf ifc)) s

/-- `IF.RXEMPTY` (44_rx_path.md R233). -/
def execIfRxempty (ifc : BitVec 4) (s : State) : Host.Outcome State Fault Refusal :=
  hostCommand (.ifRxempty ifc) (.rxempty (ifaceOf ifc)) (rxEmpty (.ifRxempty ifc) (ifaceOf ifc)) s

/-- `IF.RXLEN` (44_rx_path.md R234). -/
def execIfRxlen (ifc : BitVec 4) (s : State) : Host.Outcome State Fault Refusal :=
  hostCommand (.ifRxlen ifc) (.rxlen (ifaceOf ifc)) (rxLength (.ifRxlen ifc) (ifaceOf ifc)) s

/-- `IF.ERRCNT` (45_status.md R240). -/
def execIfErrcnt (ifc : BitVec 4) (s : State) : Host.Outcome State Fault Refusal :=
  hostCommand (.ifErrcnt ifc) (.errcnt (ifaceOf ifc)) (errorCount (.ifErrcnt ifc) (ifaceOf ifc)) s

/-- `IF.LASTERR` (45_status.md R241). -/
def execIfLasterr (ifc : BitVec 4) (s : State) : Host.Outcome State Fault Refusal :=
  hostCommand (.ifLasterr ifc) (.lasterr (ifaceOf ifc)) (lastError (.ifLasterr ifc) (ifaceOf ifc)) s

/-- `IF.HADACT` (45_status.md R242). -/
def execIfHadact (ifc : BitVec 4) (s : State) : Host.Outcome State Fault Refusal :=
  hostCommand (.ifHadact ifc) (.hadact (ifaceOf ifc)) (hadActivity (.ifHadact ifc) (ifaceOf ifc)) s

end Sys2Proof.Machine
end

