-- ==== Sys2Proof/Machine/Multiplexer.lean ====
section
/-! DEFINITION. The driver multiplexer: `DRV.READY`, `DRV.SELECT`, `DRV.HADACT` (46_multiplexer.md R250 to R260), the entry
operations as commands, and the foreground agent's own steps: the wake steps of the two blocking waits, and the rest of an
operation in progress. -/

namespace Sys2Proof.Machine

/-- The write half of `ready()` for interface i (46_multiplexer.md R250), with `nonempty` known: the masks after it. -/
def readyScan (point : ReadyPhase → Op Unit) (i : Iface) (is : List Iface) (rd wr : Byte) (nonempty : Bool) :
    Op (Byte × Byte) := do
  let tsr ← fgRead (point (.scan i is rd wr nonempty)) i .tsr
  pure (if nonempty then rd ||| maskBit i else rd, if tsrTmeField tsr = 0#3 then wr else wr ||| maskBit i)

/-- `ready()` over the interfaces left (46_multiplexer.md R250), with the interleaving points `point` before each of its
foreground steps outside the critical section. -/
def readyFrom (point : ReadyPhase → Op Unit) : List Iface → Byte → Byte → Op (Byte × Byte)
  | [], rd, wr => pure (rd, wr)
  | i :: is, rd, wr => do
    let nonempty ← csAsk (point (.enter i is rd wr)) fun s => decide (0 < (s.iface i).rb.len)
    let m ← readyScan point i is rd wr nonempty
    readyFrom point is m.1 m.2

/-- `ready()` (46_multiplexer.md R250). -/
def ready (point : ReadyPhase → Op Unit) : Op (Byte × Byte) := do
  let is ← ask fun s => ifaces s.cfg
  readyFrom point is 0#8 0#8

/-- `ready()` from a phase on (10_state.md R22). -/
def readyRest (point : ReadyPhase → Op Unit) : ReadyPhase → Op (Byte × Byte)
  | .enter i is rd wr => readyFrom point (i :: is) rd wr
  | .scan i is rd wr nonempty => do
    let m ← readyScan point i is rd wr nonempty
    readyFrom point is m.1 m.2

/-- A mask as a result. -/
def maskResult (m : Byte × Byte) : Result := ⟨.ok, .mask m.1 m.2⟩

/-- `DRV.READY` around `ready()` (46_multiplexer.md R250). -/
def readyResult (x : Op (Byte × Byte)) : Op Ret := do
  let m ← x
  pure (.done (maskResult m))

/-- The interleaving points of `DRV.READY`. -/
def readyPoint (op : Instr) (p : ReadyPhase) : Op Unit := stepAt op (.ready p)

/-- The interleaving points of the sweep of `DRV.SELECT`, in interface i with the interfaces `is` after it. -/
def sweepPoint (op : Instr) (q : Selecting) (t : U64) (i : Iface) (is : List Iface) (p : DiscardPhase) : Op Unit :=
  stepAt op (.sweep q t i is p)

/-- The interleaving points of the readiness check of `DRV.SELECT`. -/
def checkPoint (op : Instr) (q : Selecting) (p : ReadyPhase) : Op Unit := stepAt op (.check q p)

/-- The timeout sweep (46_multiplexer.md R253): one time for all interfaces, ascending. -/
def sweep (op : Instr) (q : Selecting) (t : U64) : List Iface → Op Unit
  | [] => pure ()
  | i :: is => do
    ifDiscard (sweepPoint op q t i is) i t
    sweep op q t is

/-- `select` after its readiness check (46_multiplexer.md R254 to R256). -/
def selectEnd (q : Selecting) (m : Byte × Byte) : Op Ret := do
  let p ← ask fun s => s.cfg
  if satisfied p m.1 m.2 q.reqRd q.reqWr then pure (.done (maskResult m))
  else pure (.block (.blockedSelect q.deadline q.reqRd q.reqWr))

/-- `select` from its readiness check on (46_multiplexer.md R254). -/
def selectCheck (op : Instr) (q : Selecting) : Op Ret := do
  let m ← ready (checkPoint op q)
  selectEnd q m

/-- `select(req_rd, req_wr, deadline)` (46_multiplexer.md R252 to R256). -/
def select (op : Instr) (q : Selecting) : Op Ret := do
  let t ← nowMono
  let is ← ask fun s => ifaces s.cfg
  sweep op q t is
  selectCheck op q

/-- The body of the wake step from `BlockedSelect` (46_multiplexer.md R257): the event is consumed and the mask is
returned unconditionally. It is atomic with respect to interrupt service, so only the environment may step inside it. R257
gives no `enter_cs()` around the event, where 20_memory.md R69 says that the waits take `wake` inside the critical section.
DEDUCED (log 38). -/
def wakeSelect : Op Ret := do
  upd fun s => { s with wake := false }
  let m ← ready fun _ => envPoint
  pure (.done (maskResult m))

/-- `drv_had_activity()` over the interfaces left (46_multiplexer.md R260): no short-circuit. -/
def activityFrom (op : Instr) : List Iface → Bool → Op Bool
  | [], v => pure v
  | i :: is, v => do
    let a ← takeActivity (stepAt op (.activity i is v)) i
    activityFrom op is (v || a)

/-- `DRV.HADACT` over the interfaces left (46_multiplexer.md R260). -/
def drvActivity (op : Instr) (is : List Iface) (v : Bool) : Op Ret := do
  let a ← activityFrom op is v
  pure (okVal (boolVal a))

/-- `DRV.READY` (46_multiplexer.md R250). -/
def execDrvReady (s : State) : Host.Outcome State Fault Refusal :=
  hostCommand .drvReady (.ready (.enter .if0 (ifaces s.cfg).tail 0#8 0#8)) (readyResult (ready (readyPoint .drvReady))) s

/-- `DRV.SELECT` (46_multiplexer.md R252). -/
def execDrvSelect (s : State) : Host.Outcome State Fault Refusal :=
  let q : Selecting := ⟨s.args.reqRd, s.args.reqWr, s.args.deadline⟩
  hostCommand .drvSelect (.selectStart q) (select .drvSelect q) s

/-- `DRV.HADACT` (46_multiplexer.md R260). -/
def execDrvHadact (s : State) : Host.Outcome State Fault Refusal :=
  hostCommand .drvHadact (.activity .if0 (ifaces s.cfg).tail false) (drvActivity .drvHadact (ifaces s.cfg) false) s

/-- `IRQ.TX` (60_exceptions.md R302). -/
def execIrqTx (ifc : BitVec 4) (s : State) : Host.Outcome State Fault Refusal :=
  entryCommand (.irqTx ifc) (ifaceOf ifc) .tx (irqTx (ifaceOf ifc)) s

/-- The source of FIFO f's interrupt (60_exceptions.md R300). -/
def Fifo.source : Fifo → Source
  | .rx0 => .rx0
  | .rx1 => .rx1

/-- `IRQ.RX` (60_exceptions.md R303). -/
def execIrqRx (ifc : BitVec 4) (fifo : BitVec 2) (s : State) : Host.Outcome State Fault Refusal :=
  entryCommand (.irqRx ifc fifo) (ifaceOf ifc) (fifoOf fifo).source (irqRx (ifaceOf ifc) (fifoOf fifo)) s

/-- The rest of the operation `op` from the phase `ph` on (10_state.md R22): at a phase's interleaving point it is what the
operation does from there (log 2). -/
def resume (op : Instr) (ph : Phase) : Op Ret :=
  match ph with
  | .timings rate => btCalc rate
  | .push i e => pushEntry op i e
  | .pop i => popEntry op i
  | .popEmpty i => popEmpty op i
  | .len i => rbLength op i
  | .ovf i => rbOverflow op i
  | .init i p => answer (initFrom (initPoint op (.init i)) i p)
  | .cfgfilt => cfgfilt
  | .send x p => answer (sendFrom (sendPoint op x) x p)
  | .discard i now p => discarded (discardFrom (discardPoint op i now) i now p)
  | .txfull i => txFull op i
  | .waitStart i timeout => ifWaitMb0 op i timeout
  | .wait i dl => waitAt op i dl
  | .recvStart i => ifReceive op i
  | .recv i tm => receiveAt op i tm
  | .rxempty i => rxEmpty op i
  | .rxlen i => rxLength op i
  | .errcnt i => errorCount op i
  | .lasterr i => lastError op i
  | .hadact i => hadActivity op i
  | .clocks rate todo => answer (drvInit op rate todo)
  | .ifaces rate i todo p => answer do
    let r ← initFrom (initPoint op (.ifaces rate i todo)) i p
    nextIface op rate todo r
  | .rollback r todo => answer do
    stopClocks op r todo
    pure r
  | .dispatch i todo steps => answer do
    registerSteps op i todo steps
    registerIfaces op todo
    pure .ok
  | .ready p => readyResult (readyRest (readyPoint op) p)
  | .selectStart q => select op q
  | .sweep q t i todo p => do
    discardFrom (sweepPoint op q t i todo) i t p
    sweep op q t todo
    selectCheck op q
  | .check q p => do
    let m ← readyRest (checkPoint op q) p
    selectEnd q m
  | .activity i todo v => drvActivity op (i :: todo) v

/-- The foreground agent's own step (10_state.md R22; 46_multiplexer.md R256, R257; 43_tx_path.md R201): from `Idle` it has
nothing to do, from a blocked state it takes the wake step if that is enabled and otherwise waits, and from `Busy` it goes
on with its operation. Inside an interrupt service it takes no step (60_exceptions.md R306, R316; log 37). -/
def foregroundStep (timeout : Bool) (inner : List Inner) (s : State) : Host.Outcome State Fault Refusal :=
  if s.stopped then .fault .blockStopped
  else if s.inIsr then .next s
  else match s.fg with
    | .idle => .next s
    | .blockedSelect deadline _ _ =>
      if s.wake = true ∨ deadline ≤ s.mono then settle .drvSelect (wakeSelect { s with inner := inner }) else .next s
    | .blockedMb0 i dl => .next (wakeMb0 i dl timeout s)
    | .busy op ph => settle op (resume op ph { s with inner := inner })
    | .faulted => .fault .blockStopped

end Sys2Proof.Machine
end

