-- ==== Sys2Proof/Machine/Dispatch.lean ====
section
/-! DEFINITION. One arm per command (30_encoding.md R85), each a direct call of its meaning. -/

namespace Sys2Proof.Machine

def exec (i : Instr) (s : State) : Host.Outcome State Fault Refusal :=
  match i with
  | .btCalc => Sys2Proof.Machine.execBtCalc s
  | .rbPush ifc => Sys2Proof.Machine.execRbPush ifc s
  | .rbPop ifc => Sys2Proof.Machine.execRbPop ifc s
  | .rbLen ifc => Sys2Proof.Machine.execRbLen ifc s
  | .rbOvf ifc => Sys2Proof.Machine.execRbOvf ifc s
  | .ifInit ifc => Sys2Proof.Machine.execIfInit ifc s
  | .ifCfgfilt ifc => Sys2Proof.Machine.execIfCfgfilt ifc s
  | .ifSend ifc => Sys2Proof.Machine.execIfSend ifc s
  | .ifDiscard ifc => Sys2Proof.Machine.execIfDiscard ifc s
  | .ifTxsvc ifc => Sys2Proof.Machine.execIfTxsvc ifc s
  | .ifTxfull ifc => Sys2Proof.Machine.execIfTxfull ifc s
  | .ifWaitmb0 ifc => Sys2Proof.Machine.execIfWaitmb0 ifc s
  | .ifRecv ifc => Sys2Proof.Machine.execIfRecv ifc s
  | .ifRxsvc ifc fifo => Sys2Proof.Machine.execIfRxsvc ifc fifo s
  | .ifPollerr ifc => Sys2Proof.Machine.execIfPollerr ifc s
  | .ifRxempty ifc => Sys2Proof.Machine.execIfRxempty ifc s
  | .ifRxlen ifc => Sys2Proof.Machine.execIfRxlen ifc s
  | .ifErrcnt ifc => Sys2Proof.Machine.execIfErrcnt ifc s
  | .ifLasterr ifc => Sys2Proof.Machine.execIfLasterr ifc s
  | .ifHadact ifc => Sys2Proof.Machine.execIfHadact ifc s
  | .drvInit => Sys2Proof.Machine.execDrvInit s
  | .drvReady => Sys2Proof.Machine.execDrvReady s
  | .drvSelect => Sys2Proof.Machine.execDrvSelect s
  | .drvHadact => Sys2Proof.Machine.execDrvHadact s
  | .irqTx ifc => Sys2Proof.Machine.execIrqTx ifc s
  | .irqRx ifc fifo => Sys2Proof.Machine.execIrqRx ifc fifo s

end Sys2Proof.Machine
end

