-- ==== Sys2Proof/Machine/Issue.lean ====
section
/-! DEFINITION. Issuing a command (30_encoding.md R80, R86) and starting an entry operation (60_exceptions.md R304), as
steps of the machine. -/

namespace Sys2Proof.Machine

/-- The command port holds a request, and the schedule the moves inside its operation (logs 1, 3). -/
def State.atPort (s : State) (q : Request) (inner : List Inner) : State :=
  { s with by' := q.by', args := q.args, inner := inner }

/-- An agent issues a command word with an operand record: an illegal word raises `IllegalCommand` with no other change
(30_encoding.md R86), another runs as its instruction. A stopped block takes no command (60_exceptions.md R310). -/
def issue (q : Request) (inner : List Inner) (s : State) : Host.Outcome State Fault Refusal :=
  if s.stopped then .fault .blockStopped
  else match decode q.cw with
    | .error _ => .next (takeFault .illegalCommand q.cw (s.atPort q inner))
    | .ok i => exec i (s.atPort q inner)

/-- The dispatcher's move between two operations: it issues the entry operation if the start condition holds
(60_exceptions.md R304), and otherwise cannot start it. -/
def dispatcherStep (i : Iface) (src : Source) (inner : List Inner) (s : State) : Host.Outcome State Fault Refusal :=
  if s.stopped then .fault .blockStopped
  else if canStart s i src then exec (entryInstr i src) { s with by' := .dispatcher, inner := inner }
  else .next s

/-- The request that makes the decoder's instruction of a word run next: issued by the agent of its class, with the
operand record the port holds (30_encoding.md R84). -/
def requestFor (s : State) (cw : Word) : Request :=
  match decode cw with
  | .ok i => ⟨i.cls, cw, s.args⟩
  | .error _ => ⟨.host, cw, s.args⟩

/-- A FIFO that holds a message: its own, or an all-zero one where it is empty. -/
def RxFifo.withMessage (x : RxFifo) : RxFifo :=
  match x.q with
  | [] => { x with q := [⟨zeroFrame, 0#32, 0#32⟩] }
  | _ :: _ => x

/-- A source made pending: a completion reported, or a message in its FIFO (60_exceptions.md R301). -/
def Ctrl.withPending (c : Ctrl) : Source → Ctrl
  | .tx => { c with ier := c.ier ||| 0x1#32, mb0 := { c.mb0 with rqcp := true } }
  | .rx0 => { c with ier := c.ier ||| 0x2#32, rx0 := c.rx0.withMessage }
  | .rx1 => { c with ier := c.ier ||| 0x10#32, rx1 := c.rx1.withMessage }

/-- An interface one of whose sources is enabled and pending. -/
def IfaceState.withPending (x : IfaceState) (src : Source) : IfaceState :=
  let y := { x with ctrl := x.ctrl.withPending src }
  match src with
  | .tx => { y with vecTx := true }
  | .rx0 => { y with vecRx0 := true }
  | .rx1 => { y with vecRx1 := true }

/-- A state in which the dispatcher may start the entry operation of a source (60_exceptions.md R304). -/
def State.withStart (s : State) (i : Iface) (src : Source) : State :=
  { s.onIface i (fun x => x.withPending src) with cs := false, inIsr := false }

/-- The state from which the agent of its class may issue a command word (30_encoding.md R84; log 3). -/
def State.issuing (s : State) (cw : Word) : State :=
  match decode cw with
  | .ok (.irqTx ifc) => s.withStart (ifaceOf ifc) .tx
  | .ok (.irqRx ifc f) => s.withStart (ifaceOf ifc) (fifoOf f).source
  | .ok i => match i.cls with
    | .entryTx => { s with inIsr := true }
    | .entryRx => { s with inIsr := true }
    | .service => { s with inIsr := true }
    | .dispatcher => s
    | .host => { s with inIsr := false }
  | .error _ => s

end Sys2Proof.Machine
end

