-- ==== Sys2Proof/Machine/Step.lean ====
section
/-! DEFINITION. One step of the machine: the next move of the schedule (20_memory.md R67; log 1). -/

namespace Sys2Proof.Machine

/-- One step. With no move scheduled, the foreground agent takes its own next step (log 26). Environment agents step
even when the block has stopped (60_exceptions.md R310). -/
def step (s : State) : Host.Outcome State Fault Refusal :=
  match s.sched with
  | [] => foregroundStep false [] s
  | .go timeout inner :: l => foregroundStep timeout inner { s with sched := l }
  | .env a :: l => .next (envAct a { s with sched := l })
  | .irq i src inner :: l => dispatcherStep i src inner { s with sched := l }
  | .issue q inner :: l => issue q inner { s with sched := l }

/-- The state whose next step issues the command word `w` (log 3). A class-S or class-N word is issued from inside an
interrupt service, so `in_isr` is set for it; a class-D word starts where the start condition of its source holds, so that
source is made pending and its vector enabled; a class-H word is issued in thread context. -/
def State.withFetchWord (s : State) (nbits w : Nat) : State :=
  let cw : Word := BitVec.ofNat 32 (w % 2 ^ nbits)
  let s' := s.issuing cw
  { s' with sched := .issue (requestFor s cw) [] :: s.sched }

end Sys2Proof.Machine
end

