-- ==== Sys2Proof/Safety.lean ====
section
/-! DEFINITION. The terms claims are made in: when an agent has its turn, when a register block is reachable, the legal
states of each part of the machine, and the invariant that every step keeps. -/

namespace Sys2Proof.Machine

/-! ### Whose turn it is -/

/-- The host may issue a command: the foreground is Idle in thread context, outside the critical section, and no fault
was taken (10_state.md R22; 30_encoding.md R84; 60_exceptions.md R316). -/
structure State.HostTurn (s : State) : Prop where
  host    : s.by' = .host
  idle    : s.fg = .idle
  healthy : s.faults = []
  noCs    : s.cs = false
  thread  : s.inIsr = false

/-- An interrupt service operation is running, and an agent of class `who` issues the next command inside it
(30_encoding.md R84; 60_exceptions.md R316). -/
structure State.ServiceTurn (s : State) (who : Issuer) : Prop where
  who     : s.by' = who
  running : s.fg ≠ .faulted
  healthy : s.faults = []
  isr     : s.inIsr = true

/-- The dispatcher issues a command (30_encoding.md R84). -/
structure State.DispatcherTurn (s : State) : Prop where
  dispatcher : s.by' = .dispatcher
  running    : s.fg ≠ .faulted
  healthy    : s.faults = []

/-- A source of interface i is enabled in the controller and pending (60_exceptions.md R300, R301). -/
def Ctrl.sourcePending (c : Ctrl) : Source → Prop
  | .tx => c.ier.getLsbD 0 = true ∧ (c.mb0.rqcp = true ∨ c.mb1.rqcp = true ∨ c.mb2.rqcp = true)
  | .rx0 => c.ier.getLsbD 1 = true ∧ c.rx0.q ≠ []
  | .rx1 => c.ier.getLsbD 4 = true ∧ c.rx1.q ≠ []

/-- The start condition of a source of an interface of the build, in an unfaulted block (60_exceptions.md R304). -/
structure State.MayStart (s : State) (i : Iface) (src : Source) : Prop where
  present : hasIface s.cfg i = true
  pending : (s.ctrl i).sourcePending src
  vector  : (s.iface i).vec src = true
  noCs    : s.cs = false
  thread  : s.inIsr = false

/-- Interface i is part of the build and its register block is clocked (20_memory.md R60, R65). -/
structure State.Reaches (s : State) (i : Iface) : Prop where
  build   : s.cfg.wf
  present : hasIface s.cfg i = true
  clocked : (s.iface i).clkEn = true

/-! ### Legal states of the parts -/

/-- A ring buffer of `capacity` entries (10_state.md R25; 41_ring_buffer.md R130). -/
structure RingBuf.Wf (capacity : Nat) (b : RingBuf) : Prop where
  slots  : b.slot.length = capacity
  cursor : b.rd < capacity
  length : b.len ≤ capacity

/-- A mailbox requests transmission exactly while it is not empty, and then it reports no completion (10_state.md R41;
47_controller_env.md R271, R274). -/
structure Mailbox.Wf (b : Mailbox) : Prop where
  request    : b.st = .empty ↔ b.tir.getLsbD 0 = false
  completion : b.st ≠ .empty → b.rqcp = false ∧ b.txok = false

/-- A FIFO holds at most `FIFO_DEPTH` frames, each one that may arrive (10_state.md R47; 47_controller_env.md R277). -/
structure RxFifo.Wf (x : RxFifo) : Prop where
  depth  : x.q.length ≤ Config.fifoDepth
  frames : ∀ m ∈ x.q, m.admitted = true

/-- A controller's legal states. -/
structure Ctrl.Wf (c : Ctrl) : Prop where
  mailboxes : ∀ m, (c.mb m).Wf
  fifos     : ∀ f, (c.rx f).Wf

/-- An interface's legal states: a latched error code is a LEC value (10_state.md R28), and a vector is enabled only for a
registered interface (42_bringup.md R175; 60_exceptions.md R309). -/
structure IfaceState.Wf (capacity : Nat) (x : IfaceState) : Prop where
  rb         : x.rb.Wf capacity
  lastHwErr  : x.lastHwErr.toNat ≤ 7
  registered : ∀ src, x.vec src = true → x.registry = true
  ctrl       : x.ctrl.Wf

/-- The part of the invariant that holds inside an operation too. -/
structure State.DataInv (s : State) : Prop where
  build  : s.cfg.wf
  ifaces : ∀ i, (s.iface i).Wf s.cfg.rxCapacity
  faults : s.faults.Pairwise fun a b => a.code < b.code
  bridge : s.bridge.length ≤ s.cfg.bridgeCap
  banks  : s.filt.fr1.length = 28 ∧ s.filt.fr2.length = 28

/-- The invariant of the machine between two steps: legal parts; Faulted exactly when a fault was taken
(60_exceptions.md R310); never Busy between two steps (log 2); and, unless a fault was taken, outside the critical section and outside any
service (70_reset_and_hazards.md R350; 60_exceptions.md R307). -/
structure State.Inv (s : State) : Prop where
  data    : s.DataInv
  faulted : s.fg = .faulted ↔ s.faults ≠ []
  notBusy : ∀ op ph, s.fg ≠ .busy op ph
  noCs    : s.faults = [] → s.cs = false
  noIsr   : s.faults = [] → s.inIsr = false

/-- A state of normal operation: the invariant's data, every register block of the build clocked (what a successful
`DRV.INIT` leaves, 42_bringup.md R172). -/
structure State.Clocked (s : State) : Prop where
  data  : s.DataInv
  clock : ∀ i, hasIface s.cfg i = true → (s.iface i).clkEn = true

/-! ### Illegal commands -/

/-- OPC of a driver or calculator operation (30_encoding.md R85, IFACE column 0). -/
def driverOpcs : List (BitVec 8) := [0x01#8, 0x50#8, 0x51#8, 0x52#8, 0x53#8]

/-- OPC of a per-interface operation that takes no FIFO (30_encoding.md R85, IFACE column i, SUB column 0). -/
def ifaceOpcs : List (BitVec 8) :=
  [0x08#8, 0x09#8, 0x0A#8, 0x0B#8, 0x10#8, 0x11#8, 0x20#8, 0x21#8, 0x22#8, 0x23#8, 0x24#8]
    ++ [0x30#8, 0x32#8, 0x33#8, 0x34#8, 0x40#8, 0x41#8, 0x42#8, 0x60#8]

/-- OPC of an operation that takes a FIFO (30_encoding.md R85, SUB column f). -/
def fifoOpcs : List (BitVec 8) := [0x31#8, 0x61#8]

/-- OPC of the commands each issuer may issue: of a class (30_encoding.md R85, column class), and for class S of the one
service the entry operation's body invokes (43_tx_path.md R190, 44_rx_path.md R210). -/
def classOpcs : Issuer → List (BitVec 8)
  | .host =>
    [0x01#8, 0x08#8, 0x09#8, 0x0A#8, 0x0B#8, 0x10#8, 0x11#8, 0x20#8, 0x21#8, 0x23#8, 0x24#8]
      ++ [0x30#8, 0x33#8, 0x34#8, 0x40#8, 0x41#8, 0x42#8, 0x50#8, 0x51#8, 0x52#8, 0x53#8]
  | .dispatcher => [0x60#8, 0x61#8]
  | .entryTx => [0x22#8]
  | .entryRx => [0x31#8]
  | .service => [0x32#8]

/-- The fields of a command word are illegal in a build with `n` interfaces (30_encoding.md R86, first five items). -/
def illegalWord (n : Nat) (w : Word) : Prop :=
  opcField w ∉ driverOpcs ++ ifaceOpcs ++ fifoOpcs ∨
  rsvField w ≠ 0#18 ∨
  (opcField w ∈ ifaceOpcs ++ fifoOpcs ∧ n ≤ (ifaceField w).toNat) ∨
  (opcField w ∈ driverOpcs ∧ ifaceField w ≠ 0#4) ∨
  (opcField w ∈ fifoOpcs ∧ 1 < (subField w).toNat) ∨
  (opcField w ∈ driverOpcs ++ ifaceOpcs ∧ subField w ≠ 0#2)

/-- A request is illegal in a state (30_encoding.md R86, all seven items): its word is, or its issuer is not of the
opcode's class, or it is a class-H command while the foreground is not Idle. -/
def illegalRequest (s : State) (q : Request) : Prop :=
  illegalWord s.cfg.numIfaces q.cw ∨ opcField q.cw ∉ classOpcs q.by' ∨ (q.by' = .host ∧ s.fg ≠ .idle)

/-! ### Results of the operations, as claims state them

Each is written from its rule over the interface's own fields, with no register port, interleaving point or operation. -/

/-- The pairs of segments tried, in order (40_bit_timing.md R112, table). -/
def trajectory : List (Nat × Nat) :=
  [(10, 5), (9, 5), (8, 5), (7, 5), (6, 5), (5, 5), (5, 4)] ++ [(4, 4), (4, 3), (3, 3), (3, 2), (2, 2), (2, 1), (1, 1)]

/-- The physical prescaler at a pair of segments (40_bit_timing.md R112). -/
def prescalerAt (clock rate : Nat) (seg : Nat × Nat) : Nat := clock / rate / (1 + seg.1 + seg.2)

/-- A pair of segments is accepted (40_bit_timing.md R113). -/
def fits (clock rate : Nat) (seg : Nat × Nat) : Bool :=
  decide (1 ≤ prescalerAt clock rate seg ∧ prescalerAt clock rate seg ≤ 1024
    ∧ clock / (prescalerAt clock rate seg * (1 + seg.1 + seg.2)) = rate)

/-- The result of `BT.CALC` (40_bit_timing.md R111 to R115, R117). -/
def timingAnswer (clock rate : Nat) : Result :=
  if rate < 20000 ∨ 1000000 < rate then ⟨.errUnachievableBitrate, .none⟩
  else match trajectory.find? (fits clock rate) with
    | some seg =>
      ⟨.ok, .timing ⟨BitVec.ofNat 10 (prescalerAt clock rate seg - 1), 0#2, BitVec.ofNat 4 (seg.1 - 1),
        BitVec.ofNat 3 (seg.2 - 1)⟩⟩
    | none => ⟨.errUnachievableBitrate, .none⟩

/-- Some mailbox of the interface is empty (43_tx_path.md R197). -/
def IfaceState.canSend (x : IfaceState) : Bool := x.ctrl.mb0.tme || x.ctrl.mb1.tme || x.ctrl.mb2.tme

/-- Some pending slot's deadline is strictly before `now` (43_tx_path.md R185). -/
def IfaceState.anyExpired (x : IfaceState) (now : U64) : Prop := ∃ m, (x.pend m).pending = true ∧ (x.pend m).deadline < now

/-- Mailbox `m` is the lowest-numbered empty one (43_tx_path.md R181). -/
def IfaceState.firstEmpty (x : IfaceState) (m : Mb) : Prop :=
  (x.ctrl.mb m).st = .empty ∧
    match m with
    | .mb0 => True
    | .mb1 => x.ctrl.mb0.st ≠ .empty
    | .mb2 => x.ctrl.mb0.st ≠ .empty ∧ x.ctrl.mb1.st ≠ .empty

/-- A mailbox loaded with a frame and requested (43_tx_path.md R182; 47_controller_env.md R271); `TDTR` keeps its reserved
bits. -/
def Mailbox.loaded (b : Mailbox) (fr : Frame) : Mailbox :=
  { b with
    tir := tirOf fr ||| 1#32
    tdtr := (b.tdtr &&& 0x0000FEF0#32) ||| tdtrOf fr
    tdlr := tdlrOf fr.data
    tdhr := tdhrOf fr.data
    st := .requested
    rqcp := false
    txok := false
    alst := false
    terr := false }

/-- An interface after `IF.SEND` placed a frame in mailbox `m` (43_tx_path.md R182, R183). -/
def IfaceState.sent (x : IfaceState) (m : Mb) (fr : Frame) (deadline : U64) (flags : U16) : IfaceState :=
  ({ x with ctrl := x.ctrl.onMb m fun b => b.loaded fr } : IfaceState).onPend m
    fun _ => ⟨fr, deadline, flags.getLsbD 0, true⟩

/-- An interface after the timeout abort of mailbox `m` at time `now` (43_tx_path.md R185, R186; 47_controller_env.md
R275). -/
def IfaceState.aborted (x : IfaceState) (now : U64) (m : Mb) : IfaceState :=
  if (x.pend m).pending ∧ (x.pend m).deadline < now then
    ({ x with
      ctrl := x.ctrl.onMb m fun b => { b with st := if b.st = .requested then .aborting else b.st }
      errCnt := satInc32 x.errCnt } : IfaceState).onPend m fun q => { q with pending := false }
  else x

/-- An interface after `if_discard` (43_tx_path.md R185): mailboxes in ascending order. -/
def IfaceState.swept (x : IfaceState) (now : U64) : IfaceState :=
  ((x.aborted now .mb0).aborted now .mb1).aborted now .mb2

/-- An interface after the servicing of mailbox `m`'s completion, if it has one, with the UTC time `utc` (43_tx_path.md
R191, R192, R195). -/
def IfaceState.completed (x : IfaceState) (cap : Nat) (utc : U64) (m : Mb) : IfaceState :=
  let b := x.ctrl.mb m
  let q := x.pend m
  if b.rqcp then
    ({ x with
      ctrl := x.ctrl.onMb m fun b => { b with rqcp := false, txok := false, alst := false, terr := false }
      hadAct := x.hadAct || b.txok
      rb := if q.pending ∧ q.loopback ∧ b.txok then x.rb.push cap ⟨q.frame, utc, 1#16⟩ else x.rb
      errCnt := if b.txok then x.errCnt else satInc32 x.errCnt
      mb0Sem := if m = .mb0 then satInc32 x.mb0Sem else x.mb0Sem } : IfaceState).onPend m fun q => { q with pending := false }
  else x

/-- An interface after an error poll (44_rx_path.md R230): `LEC` is cleared and the other bits of `ESR` stay. -/
def IfaceState.polled (x : IfaceState) : IfaceState :=
  if esrLec x.ctrl.esr = 0#3 then x
  else
    { x with
      lastHwErr := (esrLec x.ctrl.esr).setWidth 8
      errCnt := satInc32 x.errCnt
      ctrl := { x.ctrl with esr := x.ctrl.esr &&& 0xFFFFFF8F#32 } }

/-- An interface after TX completion servicing (43_tx_path.md R190). -/
def IfaceState.txServiced (x : IfaceState) (cap : Nat) (utc : U64) : IfaceState :=
  (((x.completed cap utc .mb0).completed cap utc .mb1).completed cap utc .mb2).polled

/-- A FIFO after the release of its head message (44_rx_path.md R216; 47_controller_env.md R278). -/
def RxFifo.released (x : RxFifo) : RxFifo := { x with q := x.q.tail, full := false, fovr := false }

/-- An interface after the RX service of FIFO `f` whose head message is `m`, with the UTC time `utc` (44_rx_path.md R212 to
R219). -/
def IfaceState.rxServiced (x : IfaceState) (cap : Nat) (utc : U64) (f : Fifo) (m : RxMsg) : IfaceState :=
  ({ x with
    errCnt := if (x.ctrl.rx f).fovr then satInc32 x.errCnt else x.errCnt
    ctrl := x.ctrl.onRx f fun y => y.released
    rb := x.rb.push cap ⟨m.frame, utc, 0#16⟩
    hadAct := true } : IfaceState).polled

/-- The bridge port after the hook ran on a frame (44_rx_path.md R221). -/
def State.bridged (s : State) (fr : Frame) : List Frame :=
  if Config.bridgePred fr ∧ s.poolOk ∧ s.bridge.length < s.cfg.bridgeCap then s.bridge ++ [fr] else s.bridge

/-- The read half of the readiness mask (30_encoding.md R95; 46_multiplexer.md R250). -/
def State.readMask (s : State) : Byte :=
  (if 0 < s.if0.rb.len then 1#8 else 0#8) ||| (if s.cfg.twoIfaces ∧ 0 < s.if1.rb.len then 2#8 else 0#8)

/-- The write half of the readiness mask (30_encoding.md R95; 46_multiplexer.md R250). -/
def State.writeMask (s : State) : Byte :=
  (if s.if0.canSend then 1#8 else 0#8) ||| (if s.cfg.twoIfaces ∧ s.if1.canSend then 2#8 else 0#8)

/-- Every interface of the build after the timeout sweep at time `now` (46_multiplexer.md R253). -/
def State.sweptAll (s : State) (now : U64) : State :=
  { s with if0 := s.if0.swept now, if1 := if s.cfg.twoIfaces then s.if1.swept now else s.if1 }

/-- The banks set to accept all (42_bringup.md R162). -/
def acceptBanks (p : Params) : Word := if p.twoIfaces then 0x00004001#32 else 0x00000001#32

/-- The filter registers after `program_filters()` (42_bringup.md R162); the reserved bits 31:28 stay. -/
def Filters.acceptAll (x : Filters) (p : Params) : Filters where
  fmr := (if p.twoIfaces then (x.fmr &&& 0xFFFFC0FF#32) ||| 0x00000E00#32 else x.fmr) &&& 0xFFFFFFFE#32
  fm1r := x.fm1r &&& 0xF0000000#32
  fs1r := (x.fs1r &&& 0xF0000000#32) ||| acceptBanks p
  ffa1r := x.ffa1r &&& 0xF0000000#32
  fa1r := (x.fa1r &&& 0xF0000000#32) ||| acceptBanks p
  fr1 := if p.twoIfaces then (x.fr1.set 0 0#32).set 14 0#32 else x.fr1.set 0 0#32
  fr2 := if p.twoIfaces then (x.fr2.set 0 0#32).set 14 0#32 else x.fr2.set 0 0#32

/-- A controller brought up with the timing `t` (42_bringup.md R154 to R159): `SLEEP` and `INRQ` cleared, `BTR` and `IER`
programmed with their reserved bits kept, mode `Normal`. -/
def Ctrl.broughtUp (c : Ctrl) (t : TimingParams) : Ctrl :=
  { c with
    mcr := c.mcr &&& 0xFFFFFFFC#32
    btr := (c.btr &&& 0x3C80FC00#32) ||| btrOf t
    ier := (c.ier &&& 0xFFFC7080#32) ||| 0x00000013#32
    mode := .normal }

/-- The moves inside `IF.INIT` of a controller that acknowledges each mode request before the first poll: one `go` for each
register access up to the last poll (42_bringup.md R150). -/
def ackMoves (i : Iface) : List Inner :=
  [.go, .go, .env (.enterConfig i), .go, .go, .go] ++ [.go, .go, .env (.enterNormal i), .go]

/-- The moves inside `DRV.INIT` of a build whose controllers acknowledge each mode request before the first poll: the clock
steps, then each interface's, with the filter accesses of interface 0 between them (42_bringup.md R170). -/
def driverAckMoves (p : Params) : List Inner :=
  if p.twoIfaces then
    List.replicate 4 .go ++ ackMoves .if0 ++ List.replicate 12 .go ++ ackMoves .if1
  else List.replicate 2 .go ++ ackMoves .if0

/-- An interface after a successful `DRV.INIT` (42_bringup.md R171 to R175). -/
def IfaceState.driverUp (x : IfaceState) (t : TimingParams) : IfaceState :=
  { x with
    ctrl := Ctrl.reset.broughtUp t
    clkEn := true
    registry := true
    vecTx := true
    vecRx0 := true
    vecRx1 := true }

/-- An interface after a failed `DRV.INIT`: its clock disabled, its controller as the bring-up left it (42_bringup.md R174). -/
def IfaceState.rolledBack (x : IfaceState) (c : Ctrl) : IfaceState := { x with ctrl := c, clkEn := false }

/-- A controller that was reset and asked for configuration mode, and has not acknowledged (42_bringup.md R154, R171). -/
def Ctrl.asked : Ctrl := { Ctrl.reset with mcr := 0x00010001#32 }

/-- No interface takes an interrupt: every vector is disabled (60_exceptions.md R304). -/
def State.noVectors (s : State) : Prop := ∀ i src, (s.iface i).vec src = false

/-- The registers hold a bring-up with the timing `t`: the rw bits of `BTR` and `IER` as programmed, no mode request and no
sleep request (42_bringup.md R154 to R158). -/
def Ctrl.programmed (c : Ctrl) (t : TimingParams) : Prop :=
  c.btr &&& btrRw = btrOf t ∧ c.ier &&& ierRw = 0x00000013#32 ∧ c.mcr &&& 0x00000003#32 = 0#32 ∧ c.mode ≠ .config

end Sys2Proof.Machine
end

