-- ==== Sys2Proof/Certificates/Slice0/Obligations.lean ====
section
/-! DEFINITION. The statements for the provers. `s.quiet` says that no other agent moves inside the operation; the statements
that drop it hold at every schedule of the environment and of the interrupt services (log 1). -/

open Sys2Proof Sys2Proof.Machine

/-! ### Encoding (30_encoding.md) -/

/-- 30_encoding.md R81, R83, R85: decoding the encoding of a well-formed command gives it back, in every build. -/
def Obligations.DecodeOfEncode : Prop :=
  ∀ (n : Nat) (i : Instr), i.wellFormed n = true → decode (encode i) = .ok i

/-- 30_encoding.md R81, R85, R87: each word has one meaning; the command a word decodes to encodes to that word, and its
FIFO field is 0 or 1. -/
def Obligations.EncodeOfDecode : Prop :=
  ∀ (w : Word) (i : Instr), decode w = .ok i → encode i = w ∧ i.wellFormed 16 = true

/-- 30_encoding.md R87: in a build with `n` interfaces a word is the word of exactly one well-formed command, or illegal
by R86, never both. -/
def Obligations.WordIsCommandOrIllegal : Prop :=
  ∀ (n : Nat) (w : Word),
    ((∃ i, i.wellFormed n = true ∧ decode w = .ok i) ↔ ¬ illegalWord n w) ∧
      ∀ i j : Instr, i.wellFormed n = true → j.wellFormed n = true → encode i = w → encode j = w → i = j

/-- 30_encoding.md R81, R85, R97; 95_test_vectors.md E1 to E7: words written out from the fields. -/
def Obligations.SampleWordsDecode : Prop :=
  decode 0x00000001#32 = .ok .btCalc ∧ decode 0x0000010B#32 = .ok (.rbOvf 1#4) ∧
    decode 0x00000010#32 = .ok (.ifInit 0#4) ∧ decode 0x00000020#32 = .ok (.ifSend 0#4) ∧
    decode 0x00001131#32 = .ok (.ifRxsvc 1#4 1#2) ∧ decode 0x00000140#32 = .ok (.ifErrcnt 1#4) ∧
    decode 0x00000052#32 = .ok .drvSelect ∧ decode 0x00001161#32 = .ok (.irqRx 1#4 1#2) ∧
    decode 0x00000000#32 = .error .unassignedOpc ∧ decode 0x000000F0#32 = .error .unassignedOpc ∧
    decode 0x00004020#32 = .error .reservedBits ∧ decode 0x00000101#32 = .error .ifaceNotZero ∧
    decode 0x00002031#32 = .error .subOutOfRange ∧ decode 0x00001020#32 = .error .subNotZero

/-- 30_encoding.md R80, R84: when the next move issues a word that decodes to `i`, the step is `exec` of `i` at that state,
with the move taken off the schedule and the port holding the issuer, the operands and the moves inside the operation. When
the foreground is Busy in thread context (10_state.md R22), its own step is the rest of its operation (that steps are whole
operations: log 2). -/
def Obligations.StepRunsDecodedCommand : Prop :=
  (∀ (s : State) (q : Request) (inner : List Inner) (l : List Move) (i : Instr),
    s.stopped = false → s.sched = .issue q inner :: l → decode q.cw = .ok i →
      step s = exec i { s with sched := l, by' := q.by', args := q.args, inner := inner }) ∧
    ∀ (s : State) (op : Instr) (ph : Phase) (b : Bool) (inner : List Inner) (l : List Move),
      s.faults = [] → s.inIsr = false → s.fg = .busy op ph → s.sched = .go b inner :: l →
        step s = settle op (resume op ph { s with sched := l, inner := inner })

/-- 30_encoding.md R86; 60_exceptions.md R310, R312; 43_tx_path.md R190; 44_rx_path.md R210: a command that any item of R86
makes illegal, a service issued by the body of the other entry operation among them (log 17), raises `IllegalCommand` and
changes nothing else. (The port and the schedule move on; they are the model's own fields, logs 1 and 3.) -/
def Obligations.IllegalCommandFaultsOnly : Prop :=
  ∀ (s : State) (q : Request) (inner : List Inner) (l : List Move),
    s.stopped = false → s.sched = .issue q inner :: l → illegalRequest s q →
      step s = .next { s with
        sched := l, by' := q.by', args := q.args, inner := inner,
        faults := [.illegalCommand], faultCw := q.cw, fg := .faulted }

/-! ### Faults (60_exceptions.md) -/

/-- 60_exceptions.md R310, R323; 70_reset_and_hazards.md R340: once a fault was taken, no agent of the block takes a step; an
environment step changes no soft state but the bridge port, whose oldest frame the consumer removes. (That a fault is taken
as a next state, and that the environment steps on, are logs 10 and 29.) -/
def Obligations.StoppedBlockStands : Prop :=
  ∀ s : State, s.stopped = true →
    ((∀ a l, s.sched ≠ .env a :: l) → step s = .fault .blockStopped) ∧
    ∀ a l, s.sched = .env a :: l → ∃ t, step s = .next t ∧
      t.fg = s.fg ∧ t.faults = s.faults ∧ t.faultCw = s.faultCw ∧ t.wake = s.wake ∧ t.cs = s.cs ∧ t.inIsr = s.inIsr ∧
      t.res = s.res ∧ t.svcRes = s.svcRes ∧ t.bridge = (if a = .consume then s.bridge.tail else s.bridge) ∧
      ∀ i, ∃ c, t.iface i = { s.iface i with ctrl := c }

/-- 60_exceptions.md R312: between two steps of an unfaulted block lies at most one fault. -/
def Obligations.OneFaultPerStep : Prop :=
  ∀ s t : State, s.Inv → s.faults = [] → step s = .next t → t.faults.length ≤ 1

/-- 20_memory.md R65; 70_reset_and_hazards.md R346: a command that reaches a register of an unclocked block stops there with
`ClockDisabledAccess`; the effects before that point stay, so `IF.SEND` and the abort of an expired slot leave the critical
section taken (95_test_vectors.md P5). `IF.DISCARD` with no expired slot reaches no register. `DRV.SELECT` stops in its sweep
where an unclocked interface has an expired slot, and otherwise after it, in the readiness query. (With no other move inside
the operation: log 1. That `fault_cw` is the word of `DRV.SELECT` for a fault inside its sweep or its query: log 11.) -/
def Obligations.UnclockedAccessFaults : Prop :=
  ∀ (s : State) (i : Iface), s.HostTurn → s.quiet → s.cfg.wf → hasIface s.cfg i = true → (s.iface i).clkEn = false →
    (rejected s.args.frame = false → exec (.ifSend i.bits) s = .next { s with
      cs := true, res := none, faults := [.clockDisabledAccess], faultCw := encode (.ifSend i.bits), fg := .faulted }) ∧
    exec (.ifTxfull i.bits) s = .next { s with
      res := none, faults := [.clockDisabledAccess], faultCw := encode (.ifTxfull i.bits), fg := .faulted } ∧
    (calcTimings s.cfg.pclk s.args.rate.toNat ≠ none → exec (.ifInit i.bits) s = .next { s with
      res := none, faults := [.clockDisabledAccess], faultCw := encode (.ifInit i.bits), fg := .faulted }) ∧
    ((s.iface i).anyExpired s.args.now → exec (.ifDiscard i.bits) s = .next { s with
      cs := true, res := none, faults := [.clockDisabledAccess], faultCw := encode (.ifDiscard i.bits), fg := .faulted }) ∧
    (¬ (s.iface i).anyExpired s.args.now → exec (.ifDiscard i.bits) s = .next { s with res := some ⟨.ok, .none⟩ }) ∧
    exec .drvReady s = .next { s with
      res := none, faults := [.clockDisabledAccess], faultCw := encode .drvReady, fg := .faulted } ∧
    ((∀ j, hasIface s.cfg j = true → (s.iface j).anyExpired s.mono → (s.iface j).clkEn = true) →
      exec .drvSelect s = .next { s.sweptAll s.mono with
        res := none, faults := [.clockDisabledAccess], faultCw := encode .drvSelect, fg := .faulted }) ∧
    ((s.iface i).anyExpired s.mono →
      (i = .if1 → (s.iface .if0).anyExpired s.mono → (s.iface .if0).clkEn = true) → exec .drvSelect s = .next { s with
      if0 := if i = .if1 then s.if0.swept s.mono else s.if0
      cs := true, res := none, faults := [.clockDisabledAccess], faultCw := encode .drvSelect, fg := .faulted })

/-- 60_exceptions.md R311: in normal operation (every block clocked, every enabled vector registered), a well-formed command
of the host other than `DRV.INIT` ends with no fault at every schedule, in normal operation and outside the critical
section; the one exception is `RB.POP`, which may raise `PopEmpty`. `DRV.INIT` ends with no fault from every legal state with
no vector enabled (42_bringup.md R176); with vectors enabled, a service that preempts its rollback can reach an unclocked
block. -/
def Obligations.NoFaultInNormalOperation : Prop :=
  (∀ (s : State) (i : Instr), s.HostTurn → s.Clocked → i.cls = .host → i.wellFormed s.cfg.numIfaces = true →
    i ≠ .drvInit → ∃ t, exec i s = .next t ∧
      ((t.faults = [] ∧ t.Clocked ∧ t.cs = false ∧ t.inIsr = false ∧ t.fg ≠ .faulted) ∨
        ((∃ ifc, i = .rbPop ifc) ∧ t.faults = [.popEmpty]))) ∧
    ∀ s : State, s.HostTurn → s.DataInv → s.noVectors → ∃ t, exec .drvInit s = .next t ∧
      t.faults = [] ∧ t.DataInv ∧ t.cs = false ∧ t.inIsr = false ∧ t.fg = .idle

/-! ### Reset (70_reset_and_hazards.md) -/

/-- 10_state.md R54: the reset value of every row of the table that has one, in every build. -/
def Obligations.ResetSoftState : Prop :=
  ∀ p : Params, let s := State.resetWith p
    s.fg = .idle ∧ s.wake = false ∧ s.cs = false ∧ s.inIsr = false ∧ s.faults = [] ∧ s.faultCw = 0#32 ∧ s.bridge = [] ∧
      ∀ i, let x := s.iface i
        x.rb.rd = 0 ∧ x.rb.len = 0 ∧ x.rb.ovf = 0#32 ∧ (∀ m, (x.pend m).pending = false) ∧ x.errCnt = 0#32 ∧
          x.lastHwErr = 0#8 ∧ x.hadAct = false ∧ x.mb0Sem = 0#32 ∧ x.registry = false ∧ x.clkEn = false ∧
          ∀ src, x.vec src = false

/-- 10_state.md R34 to R41, R47 to R49: what each controller register with a reset value reads as after reset, and the
hidden controller state. -/
def Obligations.ResetRegisters : Prop :=
  ∀ (p : Params) (i : Iface), let s := State.resetWith p
    s.readReg i .mcr = 0x00010002#32 ∧ s.readReg i .msr = 0x00000C02#32 ∧ s.readReg i .tsr = 0x1C000000#32 ∧
      (∀ f, s.readReg i (.rfr f) = 0#32) ∧ s.readReg i .ier = 0#32 ∧ s.readReg i .esr = 0#32 ∧
      s.readReg i .btr = 0x01230000#32 ∧ (∀ m, (s.readReg i (.tir m)).getLsbD 0 = false) ∧
      s.readReg i .fmr = 0x2A1C0E01#32 ∧ s.readReg i .fm1r = 0#32 ∧ s.readReg i .fs1r = 0#32 ∧
      s.readReg i .ffa1r = 0#32 ∧ s.readReg i .fa1r = 0#32 ∧
      (s.ctrl i).mode = .sleep ∧ (∀ m, ((s.ctrl i).mb m).st = .empty) ∧ ∀ f, ((s.ctrl i).rx f).q = []

/-- The invariant holds right after reset, in every build the model admits (log 31) and in the reference build (log 4). -/
def Obligations.ResetMeetsInvariant : Prop :=
  State.reset.Inv ∧ ∀ p : Params, p.wf → (State.resetWith p).Inv

/-- 10_state.md R25, R28, R31, R32, R47; 41_ring_buffer.md R130; 60_exceptions.md R307, R309, R310;
70_reset_and_hazards.md R350: every step keeps the invariant, at every schedule. -/
def Obligations.StepKeepsInvariant : Prop :=
  ∀ s t : State, s.Inv → step s = .next t → t.Inv

/-! ### What no step and no command does (10_state.md; 60_exceptions.md; 47_controller_env.md) -/

/-- 10_state.md R27; 41_ring_buffer.md R136: no step decreases an error counter or an overflow counter. -/
def Obligations.ErrorCountersNeverDecrease : Prop :=
  ∀ (s t : State) (i : Iface), step s = .next t →
    (s.iface i).errCnt ≤ (t.iface i).errCnt ∧ (s.iface i).rb.ovf ≤ (t.iface i).rb.ovf

/-- 60_exceptions.md R309, R310, R322; 00_scope.md R10: no step withdraws a registration, disables a vector, forgets a fault,
turns the monotonic clock back or changes the build. -/
def Obligations.StepsNeverWithdraw : Prop :=
  ∀ s t : State, step s = .next t →
    t.cfg = s.cfg ∧ s.mono ≤ t.mono ∧ (∀ k ∈ s.faults, k ∈ t.faults) ∧
      ∀ i, ((s.iface i).registry = true → (t.iface i).registry = true) ∧
        ∀ src, (s.iface i).vec src = true → (t.iface i).vec src = true

/-- 10_state.md R31; 42_bringup.md R172, R174: no command but `DRV.INIT`, and nothing that runs inside one, changes a clock
domain or a registration. -/
def Obligations.OnlyDriverInitChangesClocks : Prop :=
  ∀ (i : Instr) (s t : State), i ≠ .drvInit → exec i s = .next t →
    ∀ j, (t.iface j).clkEn = (s.iface j).clkEn ∧ (t.iface j).registry = (s.iface j).registry ∧
      ∀ src, (t.iface j).vec src = (s.iface j).vec src

/-- 47_controller_env.md R284: what no environment step does. -/
def Obligations.EnvironmentLimits : Prop :=
  ∀ (a : EnvAct) (s : State) (i : Iface), let c := s.ctrl i; let d := (envAct a s).ctrl i
    d.mcr &&& mcrRw = c.mcr &&& mcrRw ∧ d.btr &&& btrRw = c.btr &&& btrRw ∧ d.ier &&& ierRw = c.ier &&& ierRw ∧
      (esrLec d.esr = 0#3 → esrLec c.esr = 0#3) ∧
      (∀ m, ((d.mb m).tir.getLsbD 0 = true → (c.mb m).tir.getLsbD 0 = true) ∧
        ((d.mb m).rqcp = true → (c.mb m).rqcp = true ∨ (c.mb m).st ≠ .empty)) ∧
      ∀ f, (c.rx f).q.length ≤ (d.rx f).q.length

/-- 47_controller_env.md R270, R285; 60_exceptions.md R322, R323: while a controller's clock is disabled no environment step
changes it, nor, for interface 0's, the filter registers; no environment step changes soft state but the bridge port, whose
oldest frame the consumer removes. -/
def Obligations.EnvironmentFrame : Prop :=
  ∀ (a : EnvAct) (s : State) (i : Iface),
    ((s.iface i).clkEn = false → (envAct a s).ctrl i = s.ctrl i) ∧
      ((s.iface .if0).clkEn = false → (envAct a s).filt = s.filt) ∧
      (∃ c, (envAct a s).iface i = { s.iface i with ctrl := c }) ∧
      (envAct a s).fg = s.fg ∧ (envAct a s).wake = s.wake ∧ (envAct a s).cs = s.cs ∧ (envAct a s).inIsr = s.inIsr ∧
      (envAct a s).faults = s.faults ∧ (envAct a s).faultCw = s.faultCw ∧
      (envAct a s).bridge = if a = .consume then s.bridge.tail else s.bridge

/-! ### The bit-timing calculator (40_bit_timing.md) -/

/-- 40_bit_timing.md R110 to R115, R117: `BT.CALC` returns the first pair of the trajectory that passes the acceptance test,
as stored values, or `ERR_UNACHIEVABLE_BITRATE`; nothing else changes. -/
def Obligations.BtCalcResult : Prop :=
  ∀ s : State, s.HostTurn →
    exec .btCalc s = .next { s with res := some (timingAnswer s.cfg.pclk s.args.rate.toNat) }

/-- 40_bit_timing.md R115, R116: an accepted result has its physical values in range, and is exact whenever
`PCLK < rate * (rate + 1)`. -/
def Obligations.TimingExactAndInRange : Prop :=
  ∀ (clock rate : Nat) (t : TimingParams), calcTimings clock rate = some t →
    t.bs1.toNat + 1 ≤ 10 ∧ t.bs2.toNat + 1 ≤ 5 ∧ t.presc.toNat + 1 ≤ 1024 ∧ t.sjw = 0#2 ∧
      (clock < rate * (rate + 1) →
        (t.presc.toNat + 1) * (1 + (t.bs1.toNat + 1) + (t.bs2.toNat + 1)) = clock / rate)

/-! ### The receive ring buffer (41_ring_buffer.md) -/

/-- 41_ring_buffer.md R130, R132: a push puts the entry behind the logical content; on a full buffer the oldest entry is
dropped and counted. -/
def Obligations.PushAppendsContent : Prop :=
  ∀ (n : Nat) (b : RingBuf) (e : RxEntry), b.Wf n →
    (b.push n e).Wf n ∧
      (b.push n e).content n = (if b.len = n then (b.content n).tail else b.content n) ++ [e] ∧
      (b.push n e).ovf = if b.len = n then satInc32 b.ovf else b.ovf

/-- 41_ring_buffer.md R130, R134: a pop takes the oldest entry off the logical content and does not change the overflow
count. -/
def Obligations.PopTakesOldest : Prop :=
  ∀ (n : Nat) (b : RingBuf), b.Wf n → b.len ≠ 0 →
    b.content n = b.front :: (b.drop n).content n ∧ (b.drop n).Wf n ∧ (b.drop n).ovf = b.ovf

/-- 41_ring_buffer.md R137: pushing `capacity + k` entries onto an empty buffer. -/
def Obligations.OverflowKeepsNewest : Prop :=
  ∀ (n k : Nat) (b : RingBuf) (es : List RxEntry), b.Wf n → b.len = 0 → b.ovf = 0#32 → 1 ≤ k → k < 2 ^ 32 →
    es.length = n + k →
      (es.foldl (RingBuf.push n) b).len = n ∧ (es.foldl (RingBuf.push n) b).ovf.toNat = k ∧
        ((es.foldl (RingBuf.push n) b).content n).head? = es[k]?

/-- 41_ring_buffer.md R131, R132: `RB.PUSH` pushes the operands' entry; nothing else changes. -/
def Obligations.RbPushResult : Prop :=
  ∀ (s : State) (i : Iface), s.HostTurn → s.quiet → hasIface s.cfg i = true →
    exec (.rbPush i.bits) s = .next { s.onIface i (fun x =>
      { x with rb := x.rb.push s.cfg.rxCapacity ⟨s.args.frame, s.args.ts, s.args.flags⟩ }) with
        res := some ⟨.ok, .none⟩ }

/-- 41_ring_buffer.md R133, R134: `RB.POP` returns and drops the oldest entry; on an empty buffer it leaves the critical
section and raises `PopEmpty`. -/
def Obligations.RbPopResult : Prop :=
  ∀ (s : State) (i : Iface), s.HostTurn → s.quiet → hasIface s.cfg i = true →
    ((s.iface i).rb.len ≠ 0 → exec (.rbPop i.bits) s = .next { s.onIface i (fun x =>
      { x with rb := x.rb.drop s.cfg.rxCapacity }) with
        res := some ⟨.ok, .entry (s.iface i).rb.front.frame (s.iface i).rb.front.tsUtc (s.iface i).rb.front.flags⟩ }) ∧
    ((s.iface i).rb.len = 0 → exec (.rbPop i.bits) s = .next { s with
      res := none, faults := [.popEmpty], faultCw := encode (.rbPop i.bits), fg := .faulted })

/-- 41_ring_buffer.md R135, R136; 44_rx_path.md R233, R234; 45_status.md R240: the queries of soft state answer their value
and change nothing. -/
def Obligations.QueriesChangeNothing : Prop :=
  ∀ (s : State) (i : Iface), s.HostTurn → s.quiet → hasIface s.cfg i = true → let x := s.iface i
    exec (.rbLen i.bits) s = .next { s with res := some ⟨.ok, .val x.rb.len⟩ } ∧
    exec (.rbOvf i.bits) s = .next { s with res := some ⟨.ok, .val x.rb.ovf.toNat⟩ } ∧
    exec (.ifRxlen i.bits) s = .next { s with res := some ⟨.ok, .val x.rb.len⟩ } ∧
    exec (.ifRxempty i.bits) s = .next { s with res := some ⟨.ok, .val (if x.rb.len = 0 then 1 else 0)⟩ } ∧
    exec (.ifErrcnt i.bits) s = .next { s with
      res := some ⟨.ok, .val (min (x.errCnt.toNat + x.rb.ovf.toNat) (2 ^ 32 - 1))⟩ }

/-! ### Status latches (45_status.md; 46_multiplexer.md R260) -/

/-- 45_status.md R241, R242: the two latches are returned and cleared; nothing else changes. -/
def Obligations.LatchesReadAndClear : Prop :=
  ∀ (s : State) (i : Iface), s.HostTurn → s.quiet → hasIface s.cfg i = true →
    exec (.ifLasterr i.bits) s = .next { s.onIface i (fun x => { x with lastHwErr := 0#8 }) with
      res := some ⟨.ok, .val (s.iface i).lastHwErr.toNat⟩ } ∧
    exec (.ifHadact i.bits) s = .next { s.onIface i (fun x => { x with hadAct := false }) with
      res := some ⟨.ok, .val (if (s.iface i).hadAct = true then 1 else 0)⟩ }

/-- 46_multiplexer.md R260: every interface's latch is read and cleared, with no short-circuit. -/
def Obligations.DriverActivityResult : Prop :=
  ∀ s : State, s.HostTurn → s.quiet →
    exec .drvHadact s = .next { s with
      if0 := { s.if0 with hadAct := false }
      if1 := if s.cfg.twoIfaces = true then { s.if1 with hadAct := false } else s.if1
      res := some ⟨.ok, .val
        (if s.if0.hadAct = true ∨ (s.cfg.twoIfaces = true ∧ s.if1.hadAct = true) then 1 else 0)⟩ }

/-! ### Bring-up (42_bringup.md) -/

/-- 42_bringup.md R168: `IF.CFGFILT` fails whatever its operand, and changes nothing. -/
def Obligations.CfgfiltUnsupported : Prop :=
  ∀ (s : State) (i : Iface), s.HostTurn → hasIface s.cfg i = true →
    exec (.ifCfgfilt i.bits) s = .next { s with res := some ⟨.errUnsupported, .none⟩ }

/-- 42_bringup.md R150 to R163: with a controller that acknowledges both mode requests, `IF.INIT` returns `OK` with the
controller brought up, and for interface 0 the filters set to accept all; nothing else changes. (When
the controller acknowledges is the schedule: log 1. That reserved bits of `BTR`, `IER` and the filter registers keep their
values: logs 13 and 14. That those of `FMR`, and `CAN2SB` of a one-interface build, come from a read: log 32.) -/
def Obligations.IfInitResult : Prop :=
  ∀ (s : State) (i : Iface) (t : TimingParams), s.HostTurn → s.Reaches i → s.inner = ackMoves i →
    calcTimings s.cfg.pclk s.args.rate.toNat = some t →
      exec (.ifInit i.bits) s = .next { s.onCtrl i (fun c => c.broughtUp t) with
        filt := if i = .if0 then s.filt.acceptAll s.cfg else s.filt
        inner := []
        res := some ⟨.ok, .none⟩ }

/-- 42_bringup.md R152 to R155, R159, R164: the three failures of `IF.INIT`. A timing failure touches no hardware; without an
acknowledgement the poll ends, and what was written stays. (When the controller acknowledges is the schedule: log 1. That
reserved bits of `BTR` and `IER` keep their values: log 14.) -/
def Obligations.IfInitFailures : Prop :=
  ∀ (s : State) (i : Iface), s.HostTurn → hasIface s.cfg i = true →
    (calcTimings s.cfg.pclk s.args.rate.toNat = none →
      exec (.ifInit i.bits) s = .next { s with res := some ⟨.errUnachievableBitrate, .none⟩ }) ∧
    ∀ t, calcTimings s.cfg.pclk s.args.rate.toNat = some t → s.Reaches i →
      (s.quiet → (s.ctrl i).mode ≠ .config →
        exec (.ifInit i.bits) s = .next { s.onCtrl i (fun c =>
          { c with mcr := (c.mcr &&& 0xFFFFFFFD#32) ||| 0x00000001#32 }) with
            res := some ⟨.errModeEntryTimeout, .none⟩ }) ∧
      (s.inner = [.go, .go, .env (.enterConfig i), .go] →
        exec (.ifInit i.bits) s = .next { s.onCtrl i (fun c => { c.broughtUp t with mode := .config }) with
          inner := []
          res := some ⟨.errModeExitTimeout, .none⟩ })

/-- 42_bringup.md R170 to R175: with controllers that acknowledge every mode request, `DRV.INIT` returns `OK` with every
interface of the build clocked, reset, brought up, registered and its vectors enabled; no other soft state changes
(70_reset_and_hazards.md R343). (When the controllers acknowledge is the schedule: log 1; what the pulse
leaves in registers with no reset value: logs 6 and 18; that `FMR` is read: log 32.) -/
def Obligations.DrvInitResult : Prop :=
  ∀ (s : State) (t : TimingParams), s.HostTurn → s.cfg.wf → s.inner = driverAckMoves s.cfg →
    calcTimings s.cfg.pclk s.args.rate.toNat = some t →
      exec .drvInit s = .next { s with
        if0 := s.if0.driverUp t
        if1 := if s.cfg.twoIfaces = true then s.if1.driverUp t else s.if1
        filt := Filters.reset.acceptAll s.cfg
        inner := []
        res := some ⟨.ok, .none⟩ }

/-- 42_bringup.md R170, R172 to R175: at every schedule, a `DRV.INIT` that returns `OK` leaves every interface of the build
clocked, registered and its vectors enabled; one that returns an error leaves every clock of the build disabled and the
registrations as they were, and the error is `ERR_UNACHIEVABLE_BITRATE` exactly where the rate is unachievable
(90_conflicts.md C8), and otherwise that of a mode request which was not acknowledged. And where it fails it returns the
failing interface's code, with every clock of the build disabled, the registers as they were left and nothing else changed
(95_test_vectors.md I3 to I6): an unachievable rate; interface 0 that does not acknowledge the entry, or the exit; interface
1 that does not acknowledge the entry. (When a controller acknowledges is the schedule: log 1. What the pulse leaves in
registers with no reset value: logs 6 and 18. That `FMR` is read: log 32.) -/
def Obligations.DrvInitAllOrNothing : Prop :=
  (∀ (s t : State) (r : Result), s.HostTurn → exec .drvInit s = .next t → t.res = some r →
    (r.status = .ok → ∀ i, hasIface s.cfg i = true →
      (t.iface i).clkEn = true ∧ (t.iface i).registry = true ∧ ∀ src, (t.iface i).vec src = true) ∧
    (r.status ≠ .ok → ∀ i, (hasIface s.cfg i = true → (t.iface i).clkEn = false) ∧
      (t.iface i).registry = (s.iface i).registry ∧ ∀ src, (t.iface i).vec src = (s.iface i).vec src) ∧
    r.payload = .none ∧
    (calcTimings s.cfg.pclk s.args.rate.toNat = none → r.status = .errUnachievableBitrate) ∧
    (calcTimings s.cfg.pclk s.args.rate.toNat ≠ none →
      r.status = .ok ∨ r.status = .errModeEntryTimeout ∨ r.status = .errModeExitTimeout)) ∧
  ∀ s : State, s.HostTurn → s.cfg.wf →
    let two := s.cfg.twoIfaces
    let if1 := if two = true then s.if1.rolledBack Ctrl.reset else s.if1
    (s.quiet → calcTimings s.cfg.pclk s.args.rate.toNat = none →
      exec .drvInit s = .next { s with
        if0 := s.if0.rolledBack Ctrl.reset, if1 := if1, filt := Filters.reset
        res := some ⟨.errUnachievableBitrate, .none⟩ }) ∧
    ∀ t, calcTimings s.cfg.pclk s.args.rate.toNat = some t →
      (s.quiet → exec .drvInit s = .next { s with
        if0 := s.if0.rolledBack Ctrl.asked, if1 := if1, filt := Filters.reset
        res := some ⟨.errModeEntryTimeout, .none⟩ }) ∧
      (s.inner = List.replicate (if two = true then 4 else 2) .go ++ [.go, .go, .env (.enterConfig .if0), .go] →
        exec .drvInit s = .next { s with
          if0 := s.if0.rolledBack { Ctrl.reset.broughtUp t with mode := .config }, if1 := if1, filt := Filters.reset
          inner := []
          res := some ⟨.errModeExitTimeout, .none⟩ }) ∧
      (two = true → s.inner = List.replicate 4 .go ++ ackMoves .if0 ++ List.replicate 12 .go →
        exec .drvInit s = .next { s with
          if0 := s.if0.rolledBack (Ctrl.reset.broughtUp t), if1 := s.if1.rolledBack Ctrl.asked
          filt := Filters.reset.acceptAll s.cfg
          inner := []
          res := some ⟨.errModeEntryTimeout, .none⟩ })

/-- 42_bringup.md R150, R154 to R159, R163; 70_reset_and_hazards.md R348: at every schedule of the environment and of the
interrupt services, vectors enabled or not, an `IF.INIT` in normal operation that returns `OK` leaves the timing and the
interrupt sources programmed and the controller out of configuration mode. -/
def Obligations.InitOkMeansProgrammed : Prop :=
  ∀ (s t : State) (i : Iface), s.HostTurn → s.Clocked → hasIface s.cfg i = true →
    exec (.ifInit i.bits) s = .next t → t.res = some ⟨.ok, .none⟩ →
      ∃ p, calcTimings s.cfg.pclk s.args.rate.toNat = some p ∧ (t.ctrl i).programmed p

/-! ### The transmit path (43_tx_path.md) -/

/-- 43_tx_path.md R180 to R183: an accepted frame goes into the lowest-numbered empty mailbox, whose pending record is
overwritten; nothing else changes. (That `TDTR` keeps its reserved bits: log 14.) -/
def Obligations.SendAccepted : Prop :=
  ∀ (s : State) (i : Iface) (m : Mb), s.HostTurn → s.quiet → s.Reaches i → rejected s.args.frame = false →
    (s.iface i).firstEmpty m →
      exec (.ifSend i.bits) s = .next { s.onIface i (fun x =>
        x.sent m s.args.frame s.args.deadline s.args.flags) with res := some ⟨.accepted, .none⟩ }

/-- 43_tx_path.md R180, R184: a frame is rejected before any access, at every schedule and with no clock; with no empty
mailbox the answer is `NO_CAPACITY`; nothing changes. -/
def Obligations.SendTurnedAway : Prop :=
  ∀ (s : State) (i : Iface), s.HostTurn → hasIface s.cfg i = true →
    (s.args.frame.err = true ∨ 8 < s.args.frame.dlc.toNat →
      exec (.ifSend i.bits) s = .next { s with res := some ⟨.errRejected, .none⟩ }) ∧
    (rejected s.args.frame = false → s.quiet → s.Reaches i → (s.iface i).canSend = false →
      exec (.ifSend i.bits) s = .next { s with res := some ⟨.noCapacity, .none⟩ })

/-- 43_tx_path.md R185, R186: `IF.DISCARD` aborts, unmarks and counts each slot whose deadline is strictly before `now`;
nothing else changes. -/
def Obligations.DiscardResult : Prop :=
  ∀ (s : State) (i : Iface), s.HostTurn → s.quiet → s.Reaches i →
    exec (.ifDiscard i.bits) s = .next { s.onIface i (fun x => x.swept s.args.now) with res := some ⟨.ok, .none⟩ }

/-- 43_tx_path.md R190 to R195; 44_rx_path.md R230; 30_encoding.md R88: one TX completion servicing, which returns a record;
nothing else changes. (That its status is `OK`: log 36. Issued at the port from inside a running service: log 17. That `ESR`
keeps its reserved bits: log 14.) -/
def Obligations.TxsvcResult : Prop :=
  ∀ (s : State) (i : Iface), s.ServiceTurn .entryTx → s.quiet → s.Reaches i →
    exec (.ifTxsvc i.bits) s = .next { s.onIface i (fun x => x.txServiced s.cfg.rxCapacity s.utc) with
      wake := true, svcRes := some ⟨.ok, .none⟩ }

/-- 43_tx_path.md R193; 60_exceptions.md R319: at every schedule, in normal operation, both services end with no fault,
still inside the interrupt context, with the wake event set and an `OK` record returned (30_encoding.md R88; log 36);
`IF.RXSVC` from a FIFO that holds a message (44_rx_path.md R211). -/
def Obligations.ServicesEndAtEverySchedule : Prop :=
  ∀ (s : State) (i : Iface) (f : Fifo), s.Clocked → hasIface s.cfg i = true →
    (s.ServiceTurn .entryTx →
      ∃ t, exec (.ifTxsvc i.bits) s = .next t ∧ t.faults = [] ∧ t.inIsr = true ∧ t.cs = s.cs ∧ t.wake = true ∧
        t.svcRes = some ⟨.ok, .none⟩) ∧
    (s.ServiceTurn .entryRx → ((s.ctrl i).rx f).q ≠ [] →
      ∃ t, exec (.ifRxsvc i.bits f.bits) s = .next t ∧ t.faults = [] ∧ t.inIsr = true ∧ t.cs = s.cs ∧ t.wake = true ∧
        t.svcRes = some ⟨.ok, .none⟩)

/-- 43_tx_path.md R192, R194: the one completed mailbox held a loopback frame that was sent, and the buffer has room: the
frame is received exactly once, marked; a further servicing without a completion adds nothing. -/
def Obligations.LoopbackExactlyOnce : Prop :=
  ∀ (s : State) (i : Iface) (m : Mb), s.ServiceTurn .entryTx → s.quiet → s.Reaches i →
    (s.iface i).rb.Wf s.cfg.rxCapacity → (s.iface i).rb.len < s.cfg.rxCapacity →
    ((s.ctrl i).mb m).rqcp = true → ((s.ctrl i).mb m).txok = true →
    (∀ k, k ≠ m → ((s.ctrl i).mb k).rqcp = false) →
    ((s.iface i).pend m).pending = true → ((s.iface i).pend m).loopback = true →
      ∃ t u, exec (.ifTxsvc i.bits) s = .next t ∧ exec (.ifTxsvc i.bits) t = .next u ∧
        (t.iface i).rb.content s.cfg.rxCapacity =
          (s.iface i).rb.content s.cfg.rxCapacity ++ [⟨((s.iface i).pend m).frame, s.utc, 1#16⟩] ∧
        (u.iface i).rb = (t.iface i).rb ∧ ((t.iface i).pend m).pending = false

/-- 43_tx_path.md R197: `IF.TXFULL` answers 1 iff no mailbox is empty, and changes nothing. -/
def Obligations.TxfullResult : Prop :=
  ∀ (s : State) (i : Iface), s.HostTurn → s.quiet → s.Reaches i →
    exec (.ifTxfull i.bits) s = .next { s with
      res := some ⟨.ok, .val (if (s.iface i).canSend = true then 0 else 1)⟩ }

/-- 43_tx_path.md R200: `IF.WAITMB0` takes a count, or blocks until the saturated deadline. -/
def Obligations.WaitMb0Result : Prop :=
  ∀ (s : State) (i : Iface), s.HostTurn → s.quiet → hasIface s.cfg i = true →
    ((s.iface i).mb0Sem ≠ 0#32 → exec (.ifWaitmb0 i.bits) s = .next { s.onIface i (fun x =>
      { x with mb0Sem := x.mb0Sem - 1#32 }) with res := some ⟨.ok, .none⟩ }) ∧
    ((s.iface i).mb0Sem = 0#32 → ∃ dl : U64,
      dl.toNat = min (s.mono.toNat + s.args.timeout.toNat) (2 ^ 64 - 1) ∧
        exec (.ifWaitmb0 i.bits) s = .next { s with res := none, fg := .blockedMb0 i dl })

/-- 43_tx_path.md R201: the wake step of the mailbox-0 wait: it takes a count, times out, or is not enabled; with both
possible the draw decides. (The draw is a field of the foreground's move: log 1. That a step which is not enabled is a next
state: log 26. That the critical section is not entered: log 38.) -/
def Obligations.WakeMb0Step : Prop :=
  ∀ (s : State) (i : Iface) (dl : U64) (timeout : Bool) (inner : List Inner) (l : List Move), s.faults = [] →
    s.inIsr = false → s.fg = .blockedMb0 i dl → s.sched = .go timeout inner :: l →
      ((s.iface i).mb0Sem ≠ 0#32 → (timeout = false ∨ s.mono < dl) →
        step s = .next { s.onIface i (fun x => { x with mb0Sem := x.mb0Sem - 1#32 }) with
          sched := l, fg := .idle, res := some ⟨.ok, .none⟩ }) ∧
      (dl ≤ s.mono → (timeout = true ∨ (s.iface i).mb0Sem = 0#32) →
        step s = .next { s with sched := l, fg := .idle, res := some ⟨.timedOut, .none⟩ }) ∧
      ((s.iface i).mb0Sem = 0#32 → s.mono < dl → step s = .next { s with sched := l })

/-! ### The receive path (44_rx_path.md) -/

/-- 44_rx_path.md R225, R226: `IF.RECV` returns the oldest entry with the monotonic snapshot, or `EMPTY`. -/
def Obligations.RecvResult : Prop :=
  ∀ (s : State) (i : Iface), s.HostTurn → s.quiet → hasIface s.cfg i = true →
    ((s.iface i).rb.len ≠ 0 → exec (.ifRecv i.bits) s = .next { s.onIface i (fun x =>
      { x with rb := x.rb.drop s.cfg.rxCapacity }) with
        res := some ⟨.ok, .received (s.iface i).rb.front.frame s.mono (s.iface i).rb.front.tsUtc
          (s.iface i).rb.front.flags⟩ }) ∧
    ((s.iface i).rb.len = 0 → exec (.ifRecv i.bits) s = .next { s with res := some ⟨.empty, .none⟩ })

/-- 44_rx_path.md R210 to R221, R230; 30_encoding.md R88: one RX service drains the head message and returns a record; with
an empty FIFO it raises `RxFifoEmpty` before any change (R211); nothing else changes. (That its status is `OK`: log 36.
Issued at the port from inside a running service: log 17. That `ESR` keeps its reserved bits: log 14.) -/
def Obligations.RxsvcResult : Prop :=
  ∀ (s : State) (i : Iface) (f : Fifo), s.ServiceTurn .entryRx → s.quiet → s.Reaches i →
    (∀ m q, ((s.ctrl i).rx f).q = m :: q → m.admitted = true →
      exec (.ifRxsvc i.bits f.bits) s = .next { s.onIface i (fun x => x.rxServiced s.cfg.rxCapacity s.utc f m) with
        bridge := s.bridged m.frame
        wake := true
        svcRes := some ⟨.ok, .none⟩ }) ∧
    (((s.ctrl i).rx f).q = [] → exec (.ifRxsvc i.bits f.bits) s = .next { s with
      faults := [.rxFifoEmpty], faultCw := encode (.ifRxsvc i.bits f.bits), fg := .faulted })

/-- 44_rx_path.md R230; 30_encoding.md R88: `IF.POLLERR` latches, clears and counts a non-zero code, and returns a record;
nothing else changes. (That its status is `OK`: log 36. Issued at the port from inside a running service: log 17. That `ESR`
keeps its reserved bits: log 14.) -/
def Obligations.PollerrResult : Prop :=
  ∀ (s : State) (i : Iface), s.ServiceTurn .service → s.quiet → s.Reaches i →
    exec (.ifPollerr i.bits) s = .next { s.onIface i (fun x => x.polled) with svcRes := some ⟨.ok, .none⟩ }

/-! ### The multiplexer (46_multiplexer.md) -/

/-- 46_multiplexer.md R250: `DRV.READY` answers the mask and changes nothing. (With no other move inside the operation: log 1.) -/
def Obligations.ReadyResult : Prop :=
  ∀ s : State, s.HostTurn → s.quiet → (∀ i, hasIface s.cfg i = true → s.Reaches i) →
    exec .drvReady s = .next { s with res := some ⟨.ok, .mask s.readMask s.writeMask⟩ }

/-- 46_multiplexer.md R252 to R256: `DRV.SELECT` sweeps every interface, and then answers the mask if it satisfies the
request and blocks otherwise. -/
def Obligations.SelectResult : Prop :=
  ∀ s : State, s.HostTurn → s.quiet → (∀ i, hasIface s.cfg i = true → s.Reaches i) →
    let t := s.sweptAll s.mono
    exec .drvSelect s = .next
      (if satisfied s.cfg t.readMask t.writeMask s.args.reqRd s.args.reqWr = true then
        { t with res := some ⟨.ok, .mask t.readMask t.writeMask⟩ }
      else { t with res := none, fg := .blockedSelect s.args.deadline s.args.reqRd s.args.reqWr })

/-- 46_multiplexer.md R257: the wake step of `DRV.SELECT`: enabled by the event or the deadline, it consumes the event and
answers the mask; otherwise the foreground waits. (With no other move inside the step: log 1. That a step which is not
enabled is a next state: log 26. That the event is consumed outside the critical section: log 38.) -/
def Obligations.WakeSelectStep : Prop :=
  ∀ (s : State) (dl : U64) (rd wr : Byte) (b : Bool) (l : List Move), s.faults = [] → s.cs = false →
    s.inIsr = false → s.fg = .blockedSelect dl rd wr → s.sched = .go b [] :: l → (∀ i, hasIface s.cfg i = true → s.Reaches i) →
      (s.wake = true ∨ dl ≤ s.mono → step s = .next { s with
        sched := l, inner := [], wake := false, fg := .idle, res := some ⟨.ok, .mask s.readMask s.writeMask⟩ }) ∧
      (s.wake = false → s.mono < dl → step s = .next { s with sched := l })

/-- 46_multiplexer.md R255: the satisfaction predicate; the mask is 1 with one interface and 3 with two. -/
def Obligations.SatisfiedPredicate : Prop :=
  ∀ (p : Params) (rd wr reqRd reqWr : Byte), let m : Byte := if p.twoIfaces = true then 3#8 else 1#8
    satisfied p rd wr reqRd reqWr = true ↔ (rd &&& reqRd &&& m) ||| (wr &&& reqWr &&& m) ≠ 0#8

/-! ### The dispatcher (60_exceptions.md) and interleaving (20_memory.md) -/

/-- 60_exceptions.md R302, R303, R306, R307: an entry operation that may start (R304) runs its service and returns out of
the interrupt context, with a record (30_encoding.md R88). (That its status is `OK`: log 36. That `ESR` keeps its reserved
bits: log 14.) -/
def Obligations.EntryResults : Prop :=
  ∀ (s : State) (i : Iface), s.DispatcherTurn → s.quiet → s.Reaches i → (s.iface i).registry = true →
    (s.MayStart i .tx → exec (.irqTx i.bits) s =
      .next { s.onIface i (fun x => x.txServiced s.cfg.rxCapacity s.utc) with
        wake := true, inIsr := false, svcRes := some ⟨.ok, .none⟩ }) ∧
    ∀ f m q, s.MayStart i f.source → ((s.ctrl i).rx f).q = m :: q → m.admitted = true →
      exec (.irqRx i.bits f.bits) s =
        .next { s.onIface i (fun x => x.rxServiced s.cfg.rxCapacity s.utc f m) with
          bridge := s.bridged m.frame, wake := true, inIsr := false, svcRes := some ⟨.ok, .none⟩ }

/-- 60_exceptions.md R309: an entry operation that starts for an unregistered interface raises `UnregisteredDispatch` before any other
effect, at every schedule. -/
def Obligations.UnregisteredDispatchFaults : Prop :=
  ∀ (s : State) (i : Iface) (src : Source), s.DispatcherTurn → s.MayStart i src → (s.iface i).registry = false →
    exec (entryInstr i src) s = .next { s with
      faults := [.unregisteredDispatch], faultCw := encode (entryInstr i src), fg := .faulted }

/-- 60_exceptions.md R300, R301, R304, R308: the dispatcher starts an entry operation exactly where its source is enabled and
pending, its vector is enabled, and neither the critical section, nor a running service, nor a fault masks it; otherwise
its move changes nothing, and a command of its own changes nothing either (that it is passed over: log 17). -/
def Obligations.StartCondition : Prop :=
  ∀ (s : State) (i : Iface) (src : Source), s.fg ≠ .faulted → s.faults = [] →
    (∀ inner l, s.sched = .irq i src inner :: l →
      (s.MayStart i src → step s = exec (entryInstr i src) { s with sched := l, by' := .dispatcher, inner := inner }) ∧
      (¬ s.MayStart i src → step s = .next { s with sched := l })) ∧
    (hasIface s.cfg i = true → s.by' = .dispatcher → ¬ s.MayStart i src → exec (entryInstr i src) s = .next s)

/-- 20_memory.md R66, R67; 60_exceptions.md R306, R316: at a foreground step inside the critical section, only the
environment's moves are taken, whatever the schedule holds; no service starts. Inside a service the foreground takes no
step, whatever it stands at, and a command of the host does not run (that both are passed over: log 37). -/
def Obligations.SectionsAndServicesExclude : Prop :=
  (∀ s : State, s.cs = true → preempt s = .ok () (envMoves s.inner s)) ∧
    (∀ (s : State) (b : Bool) (inner : List Inner) (l : List Move), s.fg ≠ .faulted → s.faults = [] → s.inIsr = true →
      s.sched = .go b inner :: l → step s = .next { s with sched := l }) ∧
    ∀ (s : State) (i : Instr), s.by' = .host → i.cls = .host → i.wellFormed s.cfg.numIfaces = true → s.fg = .idle →
      s.faults = [] → s.inIsr = true → exec i s = .next s

/-! ### The register port (20_memory.md; 10_state.md; 47_controller_env.md) and packing (30_encoding.md) -/

/-- 20_memory.md R60, R64, R65; 00_scope.md R14: what an access of any width at any address does, in a build the model admits
(log 31). (That `IllegalAccess` comes before `ClockDisabledAccess`: log 33. What a write stores: logs 12, 13.) -/
def Obligations.PortAccess : Prop :=
  ∀ (s : State) (a : Word) (width : Nat) (v : Word), s.cfg.wf →
    (width ≠ 4 ∨ a.toNat % 4 ≠ 0 ∨ (∀ (i : Iface) (r : Reg), hasIface s.cfg i = true → (i = .if1 → r.isFilter = false) →
        a ≠ base s.cfg i + r.off) →
      memRead a width s = .error .illegalAccess s ∧ memWrite a width v s = .error .illegalAccess s) ∧
    ∀ (i : Iface) (r : Reg), hasIface s.cfg i = true → (i = .if1 → r.isFilter = false) → a = base s.cfg i + r.off →
      ((s.iface i).clkEn = false →
        memRead a 4 s = .error .clockDisabledAccess s ∧ memWrite a 4 v s = .error .clockDisabledAccess s) ∧
      ((s.iface i).clkEn = true →
        memRead a 4 s = .ok (s.readReg i r) s ∧ memWrite a 4 v s = .ok () (s.writeReg i r v))

/-- 20_memory.md R63; 10_state.md R36, R37, R40, R41, R45; 47_controller_env.md R271: the three writes by which the block acts
on one mailbox or one FIFO; `BTR` stores its rw bits in `Config` and ignores a write elsewhere; the registers of a mailbox
that is not empty ignore theirs. (That reserved bits keep their values: log 14.) -/
def Obligations.StatusWrites : Prop :=
  ∀ (s : State) (i : Iface), s.Reaches i →
    (∀ m, regWrite i .tsr (rqcpBit m) s = .ok () (s.onCtrl i fun c => c.onMb m fun b =>
      { b with rqcp := false, txok := false, alst := false, terr := false })) ∧
    (∀ m, regWrite i .tsr (abrqBit m) s = .ok () (s.onCtrl i fun c => c.onMb m fun b =>
      { b with st := if b.st = .requested then .aborting else b.st })) ∧
    (∀ f, regWrite i (.rfr f) 0x00000038#32 s = .ok () (s.onCtrl i fun c => c.onRx f fun x => x.released)) ∧
    (∀ v, regWrite i .btr v s = .ok () (if (s.ctrl i).mode = .config then
        s.onCtrl i fun c => { c with btr := (c.btr &&& 0x3C80FC00#32) ||| (v &&& 0xC37F03FF#32) }
      else s)) ∧
    ∀ m r v, r ∈ [Reg.tir m, Reg.tdtr m, Reg.tdlr m, Reg.tdhr m] → ((s.ctrl i).mb m).st ≠ .empty →
      regWrite i r v s = .ok () s

/-- 47_controller_env.md R273 to R275, R277, R283; 10_state.md R36, R37, R39, R41, R47: a completion makes a requested or
aborting mailbox empty and complete with the drawn `TXOK`, and `TSR` and `TIR` read so. In `Normal` a frame arrives at the
end of its FIFO, `FULL` set with the third; a full FIFO sets `FOVR` and keeps its content or replaces its newest frame as
drawn; and a bus error sets `LEC`. Nothing else changes, and out of `Normal` no frame arrives and no error is set. -/
def Obligations.CompletionShows : Prop :=
  (∀ (s : State) (i : Iface) (m : Mb) (txok : Bool), s.Reaches i → ((s.ctrl i).mb m).st ≠ .empty →
    let t := envAct (.complete i m txok) s
    t = (s.onCtrl i fun c => c.onMb m fun b =>
        { b with st := .empty, tir := b.tir &&& 0xFFFFFFFE#32, rqcp := true, txok := txok }) ∧
      tsrTme (s.readReg i .tsr) m = false ∧ tsrTme (t.readReg i .tsr) m = true ∧
      tsrRqcp (t.readReg i .tsr) m = true ∧ tsrTxok (t.readReg i .tsr) m = txok ∧
      (t.readReg i .tsr &&& abrqBit m) = 0#32 ∧ (t.readReg i (.tir m)).getLsbD 0 = false) ∧
  ∀ (s : State) (i : Iface), s.Reaches i →
    (∀ (f : Fifo) (msg : RxMsg) (replace : Bool), msg.admitted = true →
      let x := (s.ctrl i).rx f
      let t := envAct (.arrive i f msg replace) s
      ((s.ctrl i).mode ≠ .normal → t = s) ∧
      ((s.ctrl i).mode = .normal → x.q.length < 3 →
        t = (s.onCtrl i fun c => c.onRx f fun y =>
          { y with q := y.q ++ [msg], full := y.full || decide (y.q.length = 2) }) ∧
        (t.readReg i (.rfr f) &&& 0x3#32) = BitVec.ofNat 32 (x.q.length + 1) ∧
        (x.q.length = 2 → (t.readReg i (.rfr f)).getLsbD 3 = true)) ∧
      ((s.ctrl i).mode = .normal → 3 ≤ x.q.length →
        t = (s.onCtrl i fun c => c.onRx f fun y =>
          { y with fovr := true, q := if replace then y.q.dropLast ++ [msg] else y.q }) ∧
        (t.readReg i (.rfr f)).getLsbD 4 = true)) ∧
    ∀ lec : BitVec 3, lec ≠ 0#3 → lec ≠ 7#3 →
      envAct (.busError i lec) s = (if (s.ctrl i).mode = .normal then
        s.onCtrl i fun c => { c with esr := (c.esr &&& 0xFFFFFF8F#32) ||| (lec.setWidth 32 <<< 4) } else s)

/-- 30_encoding.md R92: decoding is the inverse of the packing on every frame with a valid identifier that is no error
frame, and the head registers of a message decode to its frame, whatever their free bits hold (47_controller_env.md
R280). -/
def Obligations.PackingInverse : Prop :=
  (∀ fr : Frame, fr.wellFormed = true → fr.err = false →
    rxDecode (tirOf fr) (tdtrOf fr) (tdlrOf fr.data) (tdhrOf fr.data) = fr) ∧
  ∀ m : RxMsg, m.admitted = true →
    rxDecode (rirOf m) (rdtrOf m) (tdlrOf m.frame.data) (tdhrOf m.frame.data) = m.frame

/-- 30_encoding.md R88 to R91, R94; 20_memory.md R61: the words of a mailbox load and of the bit-timing register, with their
examples, and the values of the result codes. -/
def Obligations.PackedWords : Prop :=
  (∀ fr : Frame,
    tirOf fr = (if fr.ext = true then
        (fr.id.setWidth 32 <<< 3) ||| 4#32 ||| (if fr.rtr = true then 2#32 else 0#32)
      else ((fr.id.extractLsb' 0 11).setWidth 32 <<< 21) ||| (if fr.rtr = true then 2#32 else 0#32)) ∧
    tdtrOf fr = BitVec.ofNat 32 fr.dlc.toNat ∧
    tdlrOf fr.data = (fr.data.b3.setWidth 32 <<< 24) ||| (fr.data.b2.setWidth 32 <<< 16) |||
      (fr.data.b1.setWidth 32 <<< 8) ||| fr.data.b0.setWidth 32 ∧
    tdhrOf fr.data = (fr.data.b7.setWidth 32 <<< 24) ||| (fr.data.b6.setWidth 32 <<< 16) |||
      (fr.data.b5.setWidth 32 <<< 8) ||| fr.data.b4.setWidth 32) ∧
  (∀ t : TimingParams,
    btrOf t = (t.sjw.setWidth 32 <<< 24) ||| (t.bs2.setWidth 32 <<< 20) ||| (t.bs1.setWidth 32 <<< 16) |||
        t.presc.setWidth 32 ∧
      (btrOf t).getLsbD 30 = false ∧ (btrOf t).getLsbD 31 = false ∧ btrOf t &&& 0x3C80FC00#32 = 0#32) ∧
  btrOf ⟨2#10, 0#2, 7#4, 4#3⟩ = 0x00470002#32 ∧
  tirOf ⟨0x123#29, false, false, false, 2#4, zeroData⟩ = 0x24600000#32 ∧
  tirOf ⟨0x1ABCDEF0#29, true, true, false, 0#4, zeroData⟩ = 0xD5E6F786#32 ∧
  [ResultCode.ok, .accepted, .noCapacity, .empty, .timedOut, .errRejected, .errUnachievableBitrate, .errModeEntryTimeout,
    .errModeExitTimeout, .errUnsupported].map (fun c => c.code.toInt) = [0, 1, 2, 3, 4, -1, -2, -3, -4, -5]
end

