-- ==== Sys2Proof/Laws/State.lean ====
section
/-! SUPPORT. The small lemmas of the accessors: one per field per update, so that no proof unfolds a record update. -/

namespace Sys2Proof.Machine

/-! ### One interface changes -/

@[simp] theorem onIface_cfg (s : State) (i : Iface) (f : IfaceState → IfaceState) :
    (s.onIface i f).cfg = s.cfg := by cases i <;> rfl
@[simp] theorem onIface_fg (s : State) (i : Iface) (f : IfaceState → IfaceState) :
    (s.onIface i f).fg = s.fg := by cases i <;> rfl
@[simp] theorem onIface_wake (s : State) (i : Iface) (f : IfaceState → IfaceState) :
    (s.onIface i f).wake = s.wake := by cases i <;> rfl
@[simp] theorem onIface_cs (s : State) (i : Iface) (f : IfaceState → IfaceState) :
    (s.onIface i f).cs = s.cs := by cases i <;> rfl
@[simp] theorem onIface_inIsr (s : State) (i : Iface) (f : IfaceState → IfaceState) :
    (s.onIface i f).inIsr = s.inIsr := by cases i <;> rfl
@[simp] theorem onIface_faults (s : State) (i : Iface) (f : IfaceState → IfaceState) :
    (s.onIface i f).faults = s.faults := by cases i <;> rfl
@[simp] theorem onIface_faultCw (s : State) (i : Iface) (f : IfaceState → IfaceState) :
    (s.onIface i f).faultCw = s.faultCw := by cases i <;> rfl
@[simp] theorem onIface_bridge (s : State) (i : Iface) (f : IfaceState → IfaceState) :
    (s.onIface i f).bridge = s.bridge := by cases i <;> rfl
@[simp] theorem onIface_filt (s : State) (i : Iface) (f : IfaceState → IfaceState) :
    (s.onIface i f).filt = s.filt := by cases i <;> rfl
@[simp] theorem onIface_mono (s : State) (i : Iface) (f : IfaceState → IfaceState) :
    (s.onIface i f).mono = s.mono := by cases i <;> rfl
@[simp] theorem onIface_utc (s : State) (i : Iface) (f : IfaceState → IfaceState) :
    (s.onIface i f).utc = s.utc := by cases i <;> rfl
@[simp] theorem onIface_poolOk (s : State) (i : Iface) (f : IfaceState → IfaceState) :
    (s.onIface i f).poolOk = s.poolOk := by cases i <;> rfl
@[simp] theorem onIface_by (s : State) (i : Iface) (f : IfaceState → IfaceState) :
    (s.onIface i f).by' = s.by' := by cases i <;> rfl
@[simp] theorem onIface_args (s : State) (i : Iface) (f : IfaceState → IfaceState) :
    (s.onIface i f).args = s.args := by cases i <;> rfl
@[simp] theorem onIface_res (s : State) (i : Iface) (f : IfaceState → IfaceState) :
    (s.onIface i f).res = s.res := by cases i <;> rfl
@[simp] theorem onIface_svcRes (s : State) (i : Iface) (f : IfaceState → IfaceState) :
    (s.onIface i f).svcRes = s.svcRes := by cases i <;> rfl
@[simp] theorem onIface_inner (s : State) (i : Iface) (f : IfaceState → IfaceState) :
    (s.onIface i f).inner = s.inner := by cases i <;> rfl
@[simp] theorem onIface_sched (s : State) (i : Iface) (f : IfaceState → IfaceState) :
    (s.onIface i f).sched = s.sched := by cases i <;> rfl

@[simp] theorem iface_onIface_same (s : State) (i : Iface) (f : IfaceState → IfaceState) :
    (s.onIface i f).iface i = f (s.iface i) := by cases i <;> rfl

theorem iface_onIface_ne (s : State) {i j : Iface} (f : IfaceState → IfaceState) (h : j ≠ i) :
    (s.onIface i f).iface j = s.iface j := by
  cases i <;> cases j <;> first | rfl | exact absurd rfl h

theorem iface_onIface (s : State) (i j : Iface) (f : IfaceState → IfaceState) :
    (s.onIface i f).iface j = if j = i then f (s.iface i) else s.iface j := by
  cases i <;> cases j <;> rfl

@[simp] theorem iface_if0 (s : State) : s.iface .if0 = s.if0 := rfl
@[simp] theorem iface_if1 (s : State) : s.iface .if1 = s.if1 := rfl

/-! ### One controller changes -/

@[simp] theorem onCtrl_cfg (s : State) (i : Iface) (f : Ctrl → Ctrl) : (s.onCtrl i f).cfg = s.cfg := by
  simp [State.onCtrl]
@[simp] theorem onCtrl_fg (s : State) (i : Iface) (f : Ctrl → Ctrl) : (s.onCtrl i f).fg = s.fg := by
  simp [State.onCtrl]
@[simp] theorem onCtrl_wake (s : State) (i : Iface) (f : Ctrl → Ctrl) : (s.onCtrl i f).wake = s.wake := by
  simp [State.onCtrl]
@[simp] theorem onCtrl_cs (s : State) (i : Iface) (f : Ctrl → Ctrl) : (s.onCtrl i f).cs = s.cs := by
  simp [State.onCtrl]
@[simp] theorem onCtrl_inIsr (s : State) (i : Iface) (f : Ctrl → Ctrl) : (s.onCtrl i f).inIsr = s.inIsr := by
  simp [State.onCtrl]
@[simp] theorem onCtrl_faults (s : State) (i : Iface) (f : Ctrl → Ctrl) : (s.onCtrl i f).faults = s.faults := by
  simp [State.onCtrl]
@[simp] theorem onCtrl_faultCw (s : State) (i : Iface) (f : Ctrl → Ctrl) : (s.onCtrl i f).faultCw = s.faultCw := by
  simp [State.onCtrl]
@[simp] theorem onCtrl_bridge (s : State) (i : Iface) (f : Ctrl → Ctrl) : (s.onCtrl i f).bridge = s.bridge := by
  simp [State.onCtrl]
@[simp] theorem onCtrl_filt (s : State) (i : Iface) (f : Ctrl → Ctrl) : (s.onCtrl i f).filt = s.filt := by
  simp [State.onCtrl]
@[simp] theorem onCtrl_mono (s : State) (i : Iface) (f : Ctrl → Ctrl) : (s.onCtrl i f).mono = s.mono := by
  simp [State.onCtrl]
@[simp] theorem onCtrl_utc (s : State) (i : Iface) (f : Ctrl → Ctrl) : (s.onCtrl i f).utc = s.utc := by
  simp [State.onCtrl]
@[simp] theorem onCtrl_poolOk (s : State) (i : Iface) (f : Ctrl → Ctrl) : (s.onCtrl i f).poolOk = s.poolOk := by
  simp [State.onCtrl]
@[simp] theorem onCtrl_by (s : State) (i : Iface) (f : Ctrl → Ctrl) : (s.onCtrl i f).by' = s.by' := by
  simp [State.onCtrl]
@[simp] theorem onCtrl_args (s : State) (i : Iface) (f : Ctrl → Ctrl) : (s.onCtrl i f).args = s.args := by
  simp [State.onCtrl]
@[simp] theorem onCtrl_res (s : State) (i : Iface) (f : Ctrl → Ctrl) : (s.onCtrl i f).res = s.res := by
  simp [State.onCtrl]
@[simp] theorem onCtrl_svcRes (s : State) (i : Iface) (f : Ctrl → Ctrl) : (s.onCtrl i f).svcRes = s.svcRes := by
  simp [State.onCtrl]
@[simp] theorem onCtrl_inner (s : State) (i : Iface) (f : Ctrl → Ctrl) : (s.onCtrl i f).inner = s.inner := by
  simp [State.onCtrl]
@[simp] theorem onCtrl_sched (s : State) (i : Iface) (f : Ctrl → Ctrl) : (s.onCtrl i f).sched = s.sched := by
  simp [State.onCtrl]

@[simp] theorem iface_onCtrl_same (s : State) (i : Iface) (f : Ctrl → Ctrl) :
    (s.onCtrl i f).iface i = { s.iface i with ctrl := f (s.iface i).ctrl } := by simp [State.onCtrl]

theorem iface_onCtrl (s : State) (i j : Iface) (f : Ctrl → Ctrl) :
    (s.onCtrl i f).iface j = if j = i then { s.iface i with ctrl := f (s.iface i).ctrl } else s.iface j := by
  simp [State.onCtrl, iface_onIface]

@[simp] theorem ctrl_onCtrl_same (s : State) (i : Iface) (f : Ctrl → Ctrl) :
    (s.onCtrl i f).ctrl i = f (s.ctrl i) := by simp [State.ctrl]

@[simp] theorem onCtrl_iface_rb (s : State) (i j : Iface) (f : Ctrl → Ctrl) :
    ((s.onCtrl i f).iface j).rb = (s.iface j).rb := by rw [iface_onCtrl]; split <;> simp_all
@[simp] theorem onCtrl_iface_pend0 (s : State) (i j : Iface) (f : Ctrl → Ctrl) :
    ((s.onCtrl i f).iface j).pend0 = (s.iface j).pend0 := by rw [iface_onCtrl]; split <;> simp_all
@[simp] theorem onCtrl_iface_pend1 (s : State) (i j : Iface) (f : Ctrl → Ctrl) :
    ((s.onCtrl i f).iface j).pend1 = (s.iface j).pend1 := by rw [iface_onCtrl]; split <;> simp_all
@[simp] theorem onCtrl_iface_pend2 (s : State) (i j : Iface) (f : Ctrl → Ctrl) :
    ((s.onCtrl i f).iface j).pend2 = (s.iface j).pend2 := by rw [iface_onCtrl]; split <;> simp_all
@[simp] theorem onCtrl_iface_errCnt (s : State) (i j : Iface) (f : Ctrl → Ctrl) :
    ((s.onCtrl i f).iface j).errCnt = (s.iface j).errCnt := by rw [iface_onCtrl]; split <;> simp_all
@[simp] theorem onCtrl_iface_lastHwErr (s : State) (i j : Iface) (f : Ctrl → Ctrl) :
    ((s.onCtrl i f).iface j).lastHwErr = (s.iface j).lastHwErr := by rw [iface_onCtrl]; split <;> simp_all
@[simp] theorem onCtrl_iface_hadAct (s : State) (i j : Iface) (f : Ctrl → Ctrl) :
    ((s.onCtrl i f).iface j).hadAct = (s.iface j).hadAct := by rw [iface_onCtrl]; split <;> simp_all
@[simp] theorem onCtrl_iface_mb0Sem (s : State) (i j : Iface) (f : Ctrl → Ctrl) :
    ((s.onCtrl i f).iface j).mb0Sem = (s.iface j).mb0Sem := by rw [iface_onCtrl]; split <;> simp_all
@[simp] theorem onCtrl_iface_registry (s : State) (i j : Iface) (f : Ctrl → Ctrl) :
    ((s.onCtrl i f).iface j).registry = (s.iface j).registry := by rw [iface_onCtrl]; split <;> simp_all
@[simp] theorem onCtrl_iface_clkEn (s : State) (i j : Iface) (f : Ctrl → Ctrl) :
    ((s.onCtrl i f).iface j).clkEn = (s.iface j).clkEn := by rw [iface_onCtrl]; split <;> simp_all
@[simp] theorem onCtrl_iface_vecTx (s : State) (i j : Iface) (f : Ctrl → Ctrl) :
    ((s.onCtrl i f).iface j).vecTx = (s.iface j).vecTx := by rw [iface_onCtrl]; split <;> simp_all
@[simp] theorem onCtrl_iface_vecRx0 (s : State) (i j : Iface) (f : Ctrl → Ctrl) :
    ((s.onCtrl i f).iface j).vecRx0 = (s.iface j).vecRx0 := by rw [iface_onCtrl]; split <;> simp_all
@[simp] theorem onCtrl_iface_vecRx1 (s : State) (i j : Iface) (f : Ctrl → Ctrl) :
    ((s.onCtrl i f).iface j).vecRx1 = (s.iface j).vecRx1 := by rw [iface_onCtrl]; split <;> simp_all

/-! ### One pending record, mailbox or FIFO changes -/

@[simp] theorem onPend_rb (x : IfaceState) (m : Mb) (f : PendSlot → PendSlot) : (x.onPend m f).rb = x.rb := by
  cases m <;> rfl
@[simp] theorem onPend_errCnt (x : IfaceState) (m : Mb) (f : PendSlot → PendSlot) : (x.onPend m f).errCnt = x.errCnt := by
  cases m <;> rfl
@[simp] theorem onPend_lastHwErr (x : IfaceState) (m : Mb) (f : PendSlot → PendSlot) : (x.onPend m f).lastHwErr = x.lastHwErr := by
  cases m <;> rfl
@[simp] theorem onPend_hadAct (x : IfaceState) (m : Mb) (f : PendSlot → PendSlot) : (x.onPend m f).hadAct = x.hadAct := by
  cases m <;> rfl
@[simp] theorem onPend_mb0Sem (x : IfaceState) (m : Mb) (f : PendSlot → PendSlot) : (x.onPend m f).mb0Sem = x.mb0Sem := by
  cases m <;> rfl
@[simp] theorem onPend_registry (x : IfaceState) (m : Mb) (f : PendSlot → PendSlot) : (x.onPend m f).registry = x.registry := by
  cases m <;> rfl
@[simp] theorem onPend_clkEn (x : IfaceState) (m : Mb) (f : PendSlot → PendSlot) : (x.onPend m f).clkEn = x.clkEn := by
  cases m <;> rfl
@[simp] theorem onPend_vecTx (x : IfaceState) (m : Mb) (f : PendSlot → PendSlot) : (x.onPend m f).vecTx = x.vecTx := by
  cases m <;> rfl
@[simp] theorem onPend_vecRx0 (x : IfaceState) (m : Mb) (f : PendSlot → PendSlot) : (x.onPend m f).vecRx0 = x.vecRx0 := by
  cases m <;> rfl
@[simp] theorem onPend_vecRx1 (x : IfaceState) (m : Mb) (f : PendSlot → PendSlot) : (x.onPend m f).vecRx1 = x.vecRx1 := by
  cases m <;> rfl
@[simp] theorem onPend_ctrl (x : IfaceState) (m : Mb) (f : PendSlot → PendSlot) : (x.onPend m f).ctrl = x.ctrl := by
  cases m <;> rfl

@[simp] theorem pend_onPend_same (x : IfaceState) (m : Mb) (f : PendSlot → PendSlot) :
    (x.onPend m f).pend m = f (x.pend m) := by cases m <;> rfl

theorem pend_onPend (x : IfaceState) (m n : Mb) (f : PendSlot → PendSlot) :
    (x.onPend m f).pend n = if n = m then f (x.pend m) else x.pend n := by cases m <;> cases n <;> rfl

@[simp] theorem mb_onMb_same (c : Ctrl) (m : Mb) (f : Mailbox → Mailbox) : (c.onMb m f).mb m = f (c.mb m) := by
  cases m <;> rfl

theorem mb_onMb (c : Ctrl) (m n : Mb) (f : Mailbox → Mailbox) :
    (c.onMb m f).mb n = if n = m then f (c.mb m) else c.mb n := by cases m <;> cases n <;> rfl

@[simp] theorem rx_onMb (c : Ctrl) (m : Mb) (f : Mailbox → Mailbox) (g : Fifo) : (c.onMb m f).rx g = c.rx g := by
  cases m <;> cases g <;> rfl

@[simp] theorem rx_onRx_same (c : Ctrl) (f : Fifo) (g : RxFifo → RxFifo) : (c.onRx f g).rx f = g (c.rx f) := by
  cases f <;> rfl

theorem rx_onRx (c : Ctrl) (f h : Fifo) (g : RxFifo → RxFifo) :
    (c.onRx f g).rx h = if h = f then g (c.rx f) else c.rx h := by cases f <;> cases h <;> rfl

@[simp] theorem mb_onRx (c : Ctrl) (f : Fifo) (g : RxFifo → RxFifo) (m : Mb) : (c.onRx f g).mb m = c.mb m := by
  cases f <;> cases m <;> rfl

@[simp] theorem onMb_mcr (c : Ctrl) (m : Mb) (f : Mailbox → Mailbox) : (c.onMb m f).mcr = c.mcr := by cases m <;> rfl
@[simp] theorem onRx_mcr (c : Ctrl) (f : Fifo) (g : RxFifo → RxFifo) : (c.onRx f g).mcr = c.mcr := by cases f <;> rfl
@[simp] theorem onMb_msr (c : Ctrl) (m : Mb) (f : Mailbox → Mailbox) : (c.onMb m f).msr = c.msr := by cases m <;> rfl
@[simp] theorem onRx_msr (c : Ctrl) (f : Fifo) (g : RxFifo → RxFifo) : (c.onRx f g).msr = c.msr := by cases f <;> rfl
@[simp] theorem onMb_ier (c : Ctrl) (m : Mb) (f : Mailbox → Mailbox) : (c.onMb m f).ier = c.ier := by cases m <;> rfl
@[simp] theorem onRx_ier (c : Ctrl) (f : Fifo) (g : RxFifo → RxFifo) : (c.onRx f g).ier = c.ier := by cases f <;> rfl
@[simp] theorem onMb_esr (c : Ctrl) (m : Mb) (f : Mailbox → Mailbox) : (c.onMb m f).esr = c.esr := by cases m <;> rfl
@[simp] theorem onRx_esr (c : Ctrl) (f : Fifo) (g : RxFifo → RxFifo) : (c.onRx f g).esr = c.esr := by cases f <;> rfl
@[simp] theorem onMb_btr (c : Ctrl) (m : Mb) (f : Mailbox → Mailbox) : (c.onMb m f).btr = c.btr := by cases m <;> rfl
@[simp] theorem onRx_btr (c : Ctrl) (f : Fifo) (g : RxFifo → RxFifo) : (c.onRx f g).btr = c.btr := by cases f <;> rfl
@[simp] theorem onMb_code (c : Ctrl) (m : Mb) (f : Mailbox → Mailbox) : (c.onMb m f).code = c.code := by cases m <;> rfl
@[simp] theorem onRx_code (c : Ctrl) (f : Fifo) (g : RxFifo → RxFifo) : (c.onRx f g).code = c.code := by cases f <;> rfl
@[simp] theorem onMb_mode (c : Ctrl) (m : Mb) (f : Mailbox → Mailbox) : (c.onMb m f).mode = c.mode := by cases m <;> rfl
@[simp] theorem onRx_mode (c : Ctrl) (f : Fifo) (g : RxFifo → RxFifo) : (c.onRx f g).mode = c.mode := by cases f <;> rfl

/-! ### Taking a fault (60_exceptions.md R310) -/

@[simp] theorem takeFault_cfg (k : FaultKind) (cw : Word) (s : State) : (takeFault k cw s).cfg = s.cfg := rfl
@[simp] theorem takeFault_wake (k : FaultKind) (cw : Word) (s : State) : (takeFault k cw s).wake = s.wake := rfl
@[simp] theorem takeFault_cs (k : FaultKind) (cw : Word) (s : State) : (takeFault k cw s).cs = s.cs := rfl
@[simp] theorem takeFault_inIsr (k : FaultKind) (cw : Word) (s : State) : (takeFault k cw s).inIsr = s.inIsr := rfl
@[simp] theorem takeFault_bridge (k : FaultKind) (cw : Word) (s : State) : (takeFault k cw s).bridge = s.bridge := rfl
@[simp] theorem takeFault_filt (k : FaultKind) (cw : Word) (s : State) : (takeFault k cw s).filt = s.filt := rfl
@[simp] theorem takeFault_mono (k : FaultKind) (cw : Word) (s : State) : (takeFault k cw s).mono = s.mono := rfl
@[simp] theorem takeFault_utc (k : FaultKind) (cw : Word) (s : State) : (takeFault k cw s).utc = s.utc := rfl
@[simp] theorem takeFault_poolOk (k : FaultKind) (cw : Word) (s : State) : (takeFault k cw s).poolOk = s.poolOk := rfl
@[simp] theorem takeFault_by (k : FaultKind) (cw : Word) (s : State) : (takeFault k cw s).by' = s.by' := rfl
@[simp] theorem takeFault_args (k : FaultKind) (cw : Word) (s : State) : (takeFault k cw s).args = s.args := rfl
@[simp] theorem takeFault_res (k : FaultKind) (cw : Word) (s : State) : (takeFault k cw s).res = s.res := rfl
@[simp] theorem takeFault_svcRes (k : FaultKind) (cw : Word) (s : State) : (takeFault k cw s).svcRes = s.svcRes := rfl
@[simp] theorem takeFault_inner (k : FaultKind) (cw : Word) (s : State) : (takeFault k cw s).inner = s.inner := rfl
@[simp] theorem takeFault_sched (k : FaultKind) (cw : Word) (s : State) : (takeFault k cw s).sched = s.sched := rfl
@[simp] theorem takeFault_fg (k : FaultKind) (cw : Word) (s : State) : (takeFault k cw s).fg = .faulted := rfl
@[simp] theorem takeFault_faults (k : FaultKind) (cw : Word) (s : State) :
    (takeFault k cw s).faults = insertFault k s.faults := rfl
@[simp] theorem takeFault_iface (k : FaultKind) (cw : Word) (s : State) (i : Iface) :
    (takeFault k cw s).iface i = s.iface i := by cases i <;> rfl
@[simp] theorem takeFault_stopped (k : FaultKind) (cw : Word) (s : State) : (takeFault k cw s).stopped = true := rfl

/-! ### The return of a service operation -/

@[simp] theorem answered_cfg (s : State) : s.answered.cfg = s.cfg := rfl
@[simp] theorem answered_fg (s : State) : s.answered.fg = s.fg := rfl
@[simp] theorem answered_wake (s : State) : s.answered.wake = s.wake := rfl
@[simp] theorem answered_cs (s : State) : s.answered.cs = s.cs := rfl
@[simp] theorem answered_inIsr (s : State) : s.answered.inIsr = s.inIsr := rfl
@[simp] theorem answered_faults (s : State) : s.answered.faults = s.faults := rfl
@[simp] theorem answered_faultCw (s : State) : s.answered.faultCw = s.faultCw := rfl
@[simp] theorem answered_bridge (s : State) : s.answered.bridge = s.bridge := rfl
@[simp] theorem answered_filt (s : State) : s.answered.filt = s.filt := rfl
@[simp] theorem answered_mono (s : State) : s.answered.mono = s.mono := rfl
@[simp] theorem answered_utc (s : State) : s.answered.utc = s.utc := rfl
@[simp] theorem answered_poolOk (s : State) : s.answered.poolOk = s.poolOk := rfl
@[simp] theorem answered_by (s : State) : s.answered.by' = s.by' := rfl
@[simp] theorem answered_args (s : State) : s.answered.args = s.args := rfl
@[simp] theorem answered_res (s : State) : s.answered.res = s.res := rfl
@[simp] theorem answered_inner (s : State) : s.answered.inner = s.inner := rfl
@[simp] theorem answered_sched (s : State) : s.answered.sched = s.sched := rfl
@[simp] theorem answered_iface (s : State) (i : Iface) : s.answered.iface i = s.iface i := by cases i <;> rfl
@[simp] theorem answered_svcRes (s : State) :
    s.answered.svcRes = some ⟨.ok, .none⟩ := rfl


/-! ### The start of a class-H command -/

@[simp] theorem started_cfg (s : State) (i : Instr) (ph : Phase) : (s.started i ph).cfg = s.cfg := rfl
@[simp] theorem started_wake (s : State) (i : Instr) (ph : Phase) : (s.started i ph).wake = s.wake := rfl
@[simp] theorem started_cs (s : State) (i : Instr) (ph : Phase) : (s.started i ph).cs = s.cs := rfl
@[simp] theorem started_inIsr (s : State) (i : Instr) (ph : Phase) : (s.started i ph).inIsr = s.inIsr := rfl
@[simp] theorem started_faults (s : State) (i : Instr) (ph : Phase) : (s.started i ph).faults = s.faults := rfl
@[simp] theorem started_faultCw (s : State) (i : Instr) (ph : Phase) : (s.started i ph).faultCw = s.faultCw := rfl
@[simp] theorem started_bridge (s : State) (i : Instr) (ph : Phase) : (s.started i ph).bridge = s.bridge := rfl
@[simp] theorem started_filt (s : State) (i : Instr) (ph : Phase) : (s.started i ph).filt = s.filt := rfl
@[simp] theorem started_mono (s : State) (i : Instr) (ph : Phase) : (s.started i ph).mono = s.mono := rfl
@[simp] theorem started_utc (s : State) (i : Instr) (ph : Phase) : (s.started i ph).utc = s.utc := rfl
@[simp] theorem started_poolOk (s : State) (i : Instr) (ph : Phase) : (s.started i ph).poolOk = s.poolOk := rfl
@[simp] theorem started_by (s : State) (i : Instr) (ph : Phase) : (s.started i ph).by' = s.by' := rfl
@[simp] theorem started_args (s : State) (i : Instr) (ph : Phase) : (s.started i ph).args = s.args := rfl
@[simp] theorem started_svcRes (s : State) (i : Instr) (ph : Phase) : (s.started i ph).svcRes = s.svcRes := rfl
@[simp] theorem started_inner (s : State) (i : Instr) (ph : Phase) : (s.started i ph).inner = s.inner := rfl
@[simp] theorem started_sched (s : State) (i : Instr) (ph : Phase) : (s.started i ph).sched = s.sched := rfl
@[simp] theorem started_fg (s : State) (i : Instr) (ph : Phase) : (s.started i ph).fg = .busy i ph := rfl
@[simp] theorem started_res (s : State) (i : Instr) (ph : Phase) : (s.started i ph).res = none := rfl
@[simp] theorem started_iface (s : State) (i : Instr) (ph : Phase) (j : Iface) : (s.started i ph).iface j = s.iface j := by
  cases j <;> rfl

/-- The start again, at another phase. -/
@[simp] theorem started_mark (s : State) (i j : Instr) (ph ph' : Phase) :
    ({ s.started i ph with fg := .busy j ph' } : State) = s.started j ph' := rfl

end Sys2Proof.Machine
end

