-- ==== Sys2Proof/Laws/Ops.lean ====
section
/-! SUPPORT. One lemma per shared operation: what it answers. Proofs about an operation rewrite with these and do not
unfold the operation type. -/

namespace Sys2Proof.Machine

/-! ### Running an operation -/

@[simp] theorem pure_run {α : Type} (a : α) (s : State) : (pure a : Op α) s = .ok a s := rfl

@[simp] theorem bind_run {α β : Type} (x : Op α) (f : α → Op β) (s : State) :
    (x >>= f) s = match x s with
      | .ok a s' => f a s'
      | .error k s' => .error k s' := by
  show EStateM.bind x f s = _
  unfold EStateM.bind
  cases x s <;> rfl

@[simp] theorem map_run {α β : Type} (f : α → β) (x : Op α) (s : State) :
    (f <$> x) s = match x s with
      | .ok a s' => .ok (f a) s'
      | .error k s' => .error k s' := by
  show EStateM.map f x s = _
  unfold EStateM.map
  cases x s <;> rfl

@[simp] theorem ask_run {α : Type} (f : State → α) (s : State) : ask f s = .ok (f s) s := rfl

@[simp] theorem upd_run (f : State → State) (s : State) : upd f s = .ok () (f s) := rfl

@[simp] theorem raise_run {α : Type} (k : FaultKind) (s : State) : (raise k : Op α) s = .error k s := rfl

@[simp] theorem onlyIf_true (x : Op Unit) : onlyIf true x = x := rfl

@[simp] theorem onlyIf_false (x : Op Unit) : onlyIf false x = pure () := rfl

theorem ite_run {α : Type} (c : Prop) [Decidable c] (x y : Op α) (s : State) :
    (if c then x else y) s = if c then x s else y s := by split <;> rfl

/-! ### The critical section (20_memory.md R66, R70) -/

theorem enterCs_free {s : State} (h : s.cs = false) : enterCs s = .ok () { s with cs := true } := by
  simp [enterCs, h]

theorem enterCs_held {s : State} (h : s.cs = true) : enterCs s = .error .criticalSectionMisuse s := by
  simp [enterCs, h]

theorem exitCs_held {s : State} (h : s.cs = true) : exitCs s = .ok () { s with cs := false } := by
  simp [exitCs, h]

theorem exitCs_free {s : State} (h : s.cs = false) : exitCs s = .error .criticalSectionMisuse s := by
  simp [exitCs, h]

theorem guardShared_guarded {s : State} (h : s.inIsr = true ∨ s.cs = true) : guardShared s = .ok () s := by
  rcases h with h | h <;> simp [guardShared, h]

theorem guardShared_bare {s : State} (h : s.inIsr = false) (h' : s.cs = false) :
    guardShared s = .error .unguardedSharedAccess s := by simp [guardShared, h, h']

/-- `rb_push` from where it may be called (41_ring_buffer.md R132). -/
theorem rbPush_guarded {s : State} (h : s.inIsr = true ∨ s.cs = true) (i : Iface) (e : RxEntry) :
    rbPush i e s = .ok () (s.onIface i fun x => { x with rb := x.rb.push s.cfg.rxCapacity e }) := by
  simp [rbPush, guardShared_guarded h]

/-- `rb_pop` of a buffer that is not empty (41_ring_buffer.md R134). -/
theorem rbPop_nonempty {s : State} (h : s.inIsr = true ∨ s.cs = true) (i : Iface) (hn : (s.iface i).rb.len ≠ 0) :
    rbPop i s = .ok (s.iface i).rb.front
      (s.onIface i fun x => { x with rb := x.rb.drop s.cfg.rxCapacity }) := by
  simp [rbPop, guardShared_guarded h, hn]

/-! ### Interleaving points without other agents (20_memory.md R67) -/

theorem preempt_quiet {s : State} (h : s.quiet) : preempt s = .ok () s := by
  unfold State.quiet at h
  simp [preempt, h, preemptMoves]

@[simp] theorem mark_run (op : Instr) (ph : Phase) (s : State) : mark op ph s = .ok () { s with fg := .busy op ph } := rfl

/-- The point before a step, when nothing else moves: the foreground stands at that step (10_state.md R22). -/
theorem stepAt_quiet {s : State} (h : s.quiet) (op : Instr) (ph : Phase) :
    stepAt op ph s = .ok () { s with fg := .busy op ph } := by
  simp only [stepAt, bind_run, mark_run]
  exact preempt_quiet (s := { s with fg := .busy op ph }) h

theorem envPoint_quiet {s : State} (h : s.quiet) : envPoint s = .ok () s := by
  unfold State.quiet at h
  obtain ⟨⟩ := s
  subst h
  rfl

theorem dispatcherMove_idle {s : State} {i : Iface} {src : Source} (h : canStart s i src = false) :
    dispatcherMove i src s = .ok () s := by simp [dispatcherMove, h]

theorem dispatcherMove_start {s : State} {i : Iface} {src : Source} (h : canStart s i src = true) :
    dispatcherMove i src s = match entryOp i src s with
      | .ok _ s' => .ok () s'
      | .error k s' => .error k (takeFault k (encode (entryInstr i src)) s') := by
  simp only [dispatcherMove, h, if_true]
  all_goals rfl

theorem preemptMoves_env {s : State} {a : EnvAct} {l : List Inner} (h : s.inner = .env a :: l) (n : Nat) :
    preemptMoves (n + 1) s = preemptMoves n (envAct a { s with inner := l }) := by
  simp [preemptMoves, h]

theorem preemptMoves_irq {s : State} {i : Iface} {src : Source} {l : List Inner} (h : s.inner = .irq i src :: l)
    (n : Nat) :
    preemptMoves (n + 1) s = match dispatcherMove i src { s with inner := l } with
      | .ok _ s' => preemptMoves n s'
      | .error k s' => .error k s' := by
  simp only [preemptMoves, h]
  all_goals rfl

theorem preemptMoves_go {s : State} {l : List Inner} (h : s.inner = .go :: l) (n : Nat) :
    preemptMoves (n + 1) s = .ok () { s with inner := l } := by
  simp [preemptMoves, h]

theorem preemptMoves_nil {s : State} (h : s.inner = []) (n : Nat) : preemptMoves n s = .ok () s := by
  cases n <;> simp [preemptMoves, h]

/-! ### The register port (20_memory.md R60, R65) -/

/-- An access reaches a register of a clocked block, or raises a fault; deciding which changes nothing. -/
theorem accessTarget_cases (a : Word) (w : Nat) (s : State) :
    (∃ t, accessTarget a w s = .ok t s ∧ (s.iface t.1).clkEn = true ∧ locate s.cfg a = some t) ∨
      ∃ k, accessTarget a w s = .error k s := by
  by_cases hw : w = 4 ∧ a.toNat % 4 = 0
  · cases hl : locate s.cfg a with
    | none => exact .inr ⟨.illegalAccess, by simp [accessTarget, hw, hl]⟩
    | some t =>
      cases hc : (s.iface t.1).clkEn with
      | true => exact .inl ⟨t, by simp [accessTarget, hw, hl, hc], hc, rfl⟩
      | false => exact .inr ⟨.clockDisabledAccess, by simp [accessTarget, hw, hl, hc]⟩
  · exact .inr ⟨.illegalAccess, by simp [accessTarget, hw]⟩

theorem bits_sub_add (b o : Word) : b + o - b = o := by bv_omega

theorem regAt_off_if0 (r : Reg) : regAt .if0 r.off = some r := by
  cases r with
  | rfr f => cases f <;> decide
  | tir m => cases m <;> decide
  | tdtr m => cases m <;> decide
  | tdlr m => cases m <;> decide
  | tdhr m => cases m <;> decide
  | rir f => cases f <;> decide
  | rdtr f => cases f <;> decide
  | rdlr f => cases f <;> decide
  | rdhr f => cases f <;> decide
  | fr1 b => revert b; decide
  | fr2 b => revert b; decide
  | mcr | msr | tsr | ier | esr | btr | fmr | fm1r | fs1r | ffa1r | fa1r => decide

theorem regAt_off_if1 (r : Reg) (h : r.isFilter = false) : regAt .if1 r.off = some r := by
  cases r with
  | rfr f => cases f <;> decide
  | tir m => cases m <;> decide
  | tdtr m => cases m <;> decide
  | tdlr m => cases m <;> decide
  | tdhr m => cases m <;> decide
  | rir f => cases f <;> decide
  | rdtr f => cases f <;> decide
  | rdlr f => cases f <;> decide
  | rdhr f => cases f <;> decide
  | mcr | msr | tsr | ier | esr | btr => decide
  | fmr | fm1r | fs1r | ffa1r | fa1r | fr1 _ | fr2 _ => simp [Reg.isFilter] at h

/-- Every offset is inside a block of 0x400 bytes and word-aligned (20_memory.md R60). -/
theorem off_bound (r : Reg) : r.off.toNat < 0x400 ∧ r.off.toNat % 4 = 0 := by
  cases r with
  | rfr f => cases f <;> decide
  | tir m => cases m <;> decide
  | tdtr m => cases m <;> decide
  | tdlr m => cases m <;> decide
  | tdhr m => cases m <;> decide
  | rir f => cases f <;> decide
  | rdtr f => cases f <;> decide
  | rdlr f => cases f <;> decide
  | rdhr f => cases f <;> decide
  | fr1 b => revert b; decide
  | fr2 b => revert b; decide
  | mcr | msr | tsr | ier | esr | btr | fmr | fm1r | fs1r | ffa1r | fa1r => decide

theorem regAt_far {o : Word} (i : Iface) (h : 0x400 ≤ o.toNat) : regAt i o = none := by
  have key : ∀ r : Reg, (r.off == o) = false := by
    intro r
    have := off_bound r
    apply beq_false_of_ne
    intro e
    rw [e] at this
    omega
  cases i <;> simp [regAt, key]

/-- A register interface i's block has: its own ones, and for interface 0 the filter registers (10_state.md R33). -/
def hasReg (i : Iface) (r : Reg) : Prop := i = .if1 → r.isFilter = false

theorem locate_reg {p : Params} (hp : p.wf) {i : Iface} (hi : hasIface p i = true) {r : Reg} (hr : hasReg i r) :
    locate p (base p i + r.off) = some (i, r) := by
  cases i with
  | if0 => simp [locate, base, regAt_off_if0]
  | if1 =>
    have h2 : p.twoIfaces = true := by
      by_contra hc
      simp [hasIface, Iface.idx, Params.numIfaces, hc] at hi
    obtain ⟨-, -, -, hb⟩ := hp
    obtain ⟨-, h10, h01⟩ := hb h2
    have hfar : regAt .if0 (p.base1 + r.off - p.base0) = none := by
      apply regAt_far
      have := (off_bound r).1
      bv_omega
    simp [locate, base, h2, regAt_off_if1 r (hr rfl), hfar]

theorem base_aligned {p : Params} (hp : p.wf) {i : Iface} (hi : hasIface p i = true) : (base p i).toNat % 4 = 0 := by
  obtain ⟨-, -, h0, hb⟩ := hp
  cases i with
  | if0 => exact h0
  | if1 =>
    have h2 : p.twoIfaces = true := by
      by_contra hc
      simp [hasIface, Iface.idx, Params.numIfaces, hc] at hi
    exact (hb h2).1

theorem accessTarget_reg {s : State} (hp : s.cfg.wf) {i : Iface} (hi : hasIface s.cfg i = true) {r : Reg}
    (hr : hasReg i r) :
    accessTarget (base s.cfg i + r.off) 4 s =
      if (s.iface i).clkEn then .ok (i, r) s else .error .clockDisabledAccess s := by
  have ha : (base s.cfg i + r.off).toNat % 4 = 0 := by
    have h1 := base_aligned hp hi
    have h2 := (off_bound r).2
    rw [BitVec.toNat_add]
    omega
  simp only [accessTarget, ha, locate_reg hp hi hr, and_self, if_true]

/-- `RegRead` of a clocked block (00_scope.md R14; 20_memory.md R64, R65): the value, and no change. -/
theorem regRead_clocked {s : State} (hp : s.cfg.wf) {i : Iface} (hi : hasIface s.cfg i = true)
    (hc : (s.iface i).clkEn = true) {r : Reg} (hr : hasReg i r) : regRead i r s = .ok (s.readReg i r) s := by
  simp [regRead, memRead, accessTarget_reg hp hi hr, hc]

/-- `RegRead` of an unclocked block (20_memory.md R65). -/
theorem regRead_unclocked {s : State} (hp : s.cfg.wf) {i : Iface} (hi : hasIface s.cfg i = true)
    (hc : (s.iface i).clkEn = false) {r : Reg} (hr : hasReg i r) :
    regRead i r s = .error .clockDisabledAccess s := by
  simp [regRead, memRead, accessTarget_reg hp hi hr, hc]

/-- `RegWrite` to a clocked block (00_scope.md R14; 20_memory.md R65). -/
theorem regWrite_clocked {s : State} (hp : s.cfg.wf) {i : Iface} (hi : hasIface s.cfg i = true)
    (hc : (s.iface i).clkEn = true) {r : Reg} (hr : hasReg i r) (v : Word) :
    regWrite i r v s = .ok () (s.writeReg i r v) := by
  simp [regWrite, memWrite, accessTarget_reg hp hi hr, hc]

/-- `RegWrite` to an unclocked block (20_memory.md R65). -/
theorem regWrite_unclocked {s : State} (hp : s.cfg.wf) {i : Iface} (hi : hasIface s.cfg i = true)
    (hc : (s.iface i).clkEn = false) {r : Reg} (hr : hasReg i r) (v : Word) :
    regWrite i r v s = .error .clockDisabledAccess s := by
  simp [regWrite, memWrite, accessTarget_reg hp hi hr, hc]

end Sys2Proof.Machine
end

