-- ==== Sys2Proof/Laws/Triples.lean ====
section
/-! SUPPORT. Reasoning about operations without running them: what an operation meets when it is started in a given set of
states (`Meets`), and the relations that every operation keeps between the state it starts from and the state it ends in
(`Stays`), from the same facts about the elementary changes of state (`Closed`). -/

namespace Sys2Proof.Machine

/-! ### What an operation meets -/

/-- Started where `pre` holds, `x` ends where `post` holds, or raises a fault where `err` holds. -/
def Meets {α : Type} (pre : State → Prop) (x : Op α) (post : α → State → Prop) (err : FaultKind → State → Prop) : Prop :=
  ∀ s, pre s → match x s with
    | .ok a s' => post a s'
    | .error k s' => err k s'

variable {α β : Type} {pre : State → Prop} {post : α → State → Prop} {err : FaultKind → State → Prop}

theorem Meets.pure (a : α) (h : ∀ s, pre s → post a s) : Meets pre (pure a : Op α) post err := h

theorem Meets.bind {x : Op β} {f : β → Op α} (mid : β → State → Prop) (hx : Meets pre x mid err)
    (hf : ∀ b, Meets (mid b) (f b) post err) : Meets pre (x >>= f) post err := by
  intro s hs
  have := hx s hs
  rw [bind_run]
  cases hr : x s with
  | ok a s' => rw [hr] at this; exact hf a s' this
  | error k s' => rw [hr] at this; exact this

theorem Meets.ask {f : State → α} (h : ∀ s, pre s → post (f s) s) : Meets pre (ask f) post err := h

theorem Meets.upd {post : Unit → State → Prop} {f : State → State} (h : ∀ s, pre s → post () (f s)) :
    Meets pre (upd f) post err := h

theorem Meets.raise {k : FaultKind} (h : ∀ s, pre s → err k s) : Meets pre (raise k : Op α) post err := h

theorem Meets.ite {c : Prop} [Decidable c] {x y : Op α} (hx : c → Meets pre x post err)
    (hy : ¬c → Meets pre y post err) : Meets pre (if c then x else y) post err := by
  split
  · exact hx ‹_›
  · exact hy ‹_›

/-- Weaker before, stronger after. -/
theorem Meets.weaken {x : Op α} {pre' : State → Prop} {post' : α → State → Prop} {err' : FaultKind → State → Prop}
    (hx : Meets pre' x post' err') (h : ∀ s, pre s → pre' s) (ho : ∀ a s, post' a s → post a s)
    (he : ∀ k s, err' k s → err k s) : Meets pre x post err := by
  intro s hs
  have := hx s (h s hs)
  cases hr : x s with
  | ok a s' => rw [hr] at this; exact ho a s' this
  | error k s' => rw [hr] at this; exact he k s' this

theorem Meets.ok {x : Op α} (hx : Meets pre x post err) {s s' : State} {a : α} (hs : pre s) (h : x s = .ok a s') :
    post a s' := by
  have := hx s hs
  rwa [h] at this

theorem Meets.error {x : Op α} (hx : Meets pre x post err) {s s' : State} {k : FaultKind} (hs : pre s)
    (h : x s = .error k s') : err k s' := by
  have := hx s hs
  rwa [h] at this

/-- An operation that meets `post` and raises no fault ends. -/
theorem Meets.runs {x : Op α} (hx : Meets pre x post fun _ _ => False) {s : State} (hs : pre s) :
    ∃ a s', x s = .ok a s' ∧ post a s' := by
  have := hx s hs
  cases hr : x s with
  | ok a s' => rw [hr] at this; exact ⟨a, s', rfl, this⟩
  | error k s' => rw [hr] at this; exact this.elim

/-! ### What an operation keeps -/

/-- However the operation ends, the state it ends in is related by `P` to any state its starting state was related to. -/
def Stays {α : Type} (P : State → State → Prop) (x : Op α) : Prop :=
  ∀ s₀, Meets (P s₀) x (fun _ => P s₀) (fun _ => P s₀)

/-- The elementary changes of state that the commands other than `DRV.INIT` make all keep `P`. -/
structure Closed (P : State → State → Prop) : Prop where
  refl    : ∀ s, P s s
  trans   : ∀ {s t u}, P s t → P t u → P s u
  reg     : ∀ s i r v, P s (s.writeReg i r v)
  env     : ∀ s a, P s (envAct a s)
  inner   : ∀ s l, P s { s with inner := l }
  cs      : ∀ s b, P s { s with cs := b }
  isr     : ∀ s b, P s { s with inIsr := b }
  record  : ∀ s, P s s.answered
  fg      : ∀ s x, P s { s with fg := x }
  fault   : ∀ s k cw, P s (takeFault k cw s)
  wake    : ∀ s b, P s { s with wake := b }
  bridge  : ∀ s fr, s.bridge.length < s.cfg.bridgeCap → P s { s with bridge := s.bridge ++ [fr] }
  errCnt  : ∀ s i, P s (s.onIface i fun x => { x with errCnt := satInc32 x.errCnt })
  lastErr : ∀ s i (e : BitVec 3), P s (s.onIface i fun x => { x with lastHwErr := e.setWidth 8 })
  hadAct  : ∀ s i b, P s (s.onIface i fun x => { x with hadAct := b })
  push    : ∀ s i e, P s (s.onIface i fun x => { x with rb := x.rb.push s.cfg.rxCapacity e })
  drop    : ∀ s i, P s (s.onIface i fun x => { x with rb := x.rb.drop s.cfg.rxCapacity })
  pend    : ∀ s i m (f : PendSlot → PendSlot), P s (s.onIface i fun x => x.onPend m f)
  sem     : ∀ s i (f : Word → Word), P s (s.onIface i fun x => { x with mb0Sem := f x.mb0Sem })

/-- And so do the changes that `DRV.INIT` makes; a vector is enabled only after its interface is registered. -/
structure ClosedInit (P : State → State → Prop) : Prop extends Closed P where
  clock    : ∀ s i b, P s (s.onIface i fun x => { x with clkEn := b })
  pulse    : ∀ s i, P s (s.resetPulse i)
  registry : ∀ s i, P s (s.onIface i fun x => { x with registry := true })
  vector   : ∀ s i src, (s.iface i).registry = true → P s ((DispatchStep.vector src).effect i s)

variable {P : State → State → Prop}

theorem Stays.pure (a : α) : Stays P (pure a : Op α) := fun _ => Meets.pure a fun _ h => h
theorem Stays.ask (f : State → α) : Stays P (ask f) := fun _ => Meets.ask fun _ h => h
theorem Stays.raise (k : FaultKind) : Stays P (raise k : Op α) := fun _ => Meets.raise fun _ h => h

theorem Stays.bind {x : Op β} {f : β → Op α} (hx : Stays P x) (hf : ∀ b, Stays P (f b)) : Stays P (x >>= f) :=
  fun s₀ => Meets.bind _ (hx s₀) fun b => hf b s₀

theorem Stays.ite {c : Prop} [Decidable c] {x y : Op α} (hx : Stays P x) (hy : Stays P y) :
    Stays P (if c then x else y) := by split <;> assumption

theorem Stays.onlyIf {c : Bool} {x : Op Unit} (hx : Stays P x) : Stays P (onlyIf c x) := .ite hx (.pure _)

namespace Closed

variable (h : Closed P)
include h

theorem upd {f : State → State} (hf : ∀ s, P s (f s)) : Stays P (upd f) :=
  fun _ => Meets.upd fun s hs => h.trans hs (hf s)

/-- A service operation's return of its record. -/
theorem returning {x : Op Unit} (hx : Stays P x) : Stays P (returning x) := .bind hx fun _ => h.upd h.record

/-! ### The critical section -/

theorem enterCs : Stays P enterCs := by
  intro s₀ s hs
  unfold Machine.enterCs
  cases s.cs <;> simp [h.trans hs (h.cs s true), hs]

theorem exitCs : Stays P exitCs := by
  intro s₀ s hs
  unfold Machine.exitCs
  cases s.cs <;> simp [h.trans hs (h.cs s false), hs]

omit h in
theorem guardShared : Stays P guardShared := by
  intro s₀ s hs
  unfold Machine.guardShared
  cases s.inIsr <;> cases s.cs <;> simp [hs]

end Closed

end Sys2Proof.Machine
end

