-- ==== Sys2Proof/Laws/Stays.lean ====
section
/-! SUPPORT. One lemma per shared operation: it keeps every relation that the elementary changes of state keep. Monotone
counters, invariants and frames of whole commands follow from these by choosing the relation. -/

namespace Sys2Proof.Machine

variable {α : Type} {P : State → State → Prop}

namespace Closed

variable (h : Closed P)
include h

/-! ### The register port -/

omit h in
theorem accessTarget (a : Word) (w : Nat) : Stays P (accessTarget a w) := by
  intro s₀ s hs
  rcases accessTarget_cases a w s with ⟨t, ht, -⟩ | ⟨k, hk⟩
  · rw [ht]; exact hs
  · rw [hk]; exact hs

omit h in
theorem regRead (i : Iface) (r : Reg) : Stays P (regRead i r) :=
  .bind (.ask _) fun _ => .bind (accessTarget _ _) fun _ => .ask _

theorem regWrite (i : Iface) (r : Reg) (v : Word) : Stays P (regWrite i r v) :=
  .bind (.ask _) fun _ => .bind (accessTarget _ _) fun _ => h.upd fun s => h.reg s _ _ v

/-! ### Soft state -/

theorem signalWake : Stays P signalWake := h.upd fun s => h.wake s true

theorem mark (op : Instr) (ph : Phase) : Stays P (mark op ph) := h.upd fun s => h.fg s _

theorem countError (i : Iface) : Stays P (countError i) := h.upd fun s => h.errCnt s i

theorem markActivity (i : Iface) : Stays P (markActivity i) := h.upd fun s => h.hadAct s i true

theorem rbPush (i : Iface) (e : RxEntry) : Stays P (rbPush i e) :=
  .bind guardShared fun _ => h.upd fun s => h.push s i e

theorem rbPop (i : Iface) : Stays P (rbPop i) :=
  .bind guardShared fun _ => .bind (.ask _) fun _ =>
    .ite (.raise _) (.bind (.ask _) fun _ => .bind (h.upd fun s => h.drop s i) fun _ => .pure _)

theorem bridgeHook (fr : Frame) : Stays P (bridgeHook fr) := by
  refine h.upd fun s => ?_
  split
  · next hc =>
    apply h.bridge
    simp only [Bool.and_eq_true, decide_eq_true_eq] at hc
    exact hc.2
  · exact h.refl s

/-! ### Interleaving points of a service -/

theorem envMoves (l : List Inner) (s₀ s : State) (hs : P s₀ s) : P s₀ (envMoves l s) := by
  induction l generalizing s with
  | nil => exact h.trans hs (h.inner s _)
  | cons m l ih =>
    cases m with
    | env a => exact ih _ (h.trans hs (h.env s a))
    | irq i src => exact ih _ hs
    | go => exact h.trans hs (h.inner s _)

theorem envPoint : Stays P envPoint := fun s₀ s hs => envMoves h s.inner s₀ s hs

theorem svcRead (i : Iface) (r : Reg) : Stays P (svcRead i r) := .bind (envPoint h) fun _ => regRead i r

theorem svcWrite (i : Iface) (r : Reg) (v : Word) : Stays P (svcWrite i r v) :=
  .bind (envPoint h) fun _ => regWrite h i r v

/-! ### Services -/

theorem pollError (i : Iface) : Stays P (pollError i) :=
  returning h (.bind (svcRead h i _) fun _ => .ite (.pure _)
    (.bind (h.upd fun s => h.lastErr s i _) fun _ => .bind (svcWrite h i _ _) fun _ => countError h i))

theorem handleCompletion (i : Iface) (m : Mb) (txok : Bool) : Stays P (handleCompletion i m txok) :=
  .bind (.onlyIf (markActivity h i)) fun _ => .bind (.ask _) fun _ =>
    .bind (.onlyIf (.bind (.ask _) fun _ => .bind (.ask _) fun _ => rbPush h i _)) fun _ =>
      .bind (.onlyIf (countError h i)) fun _ =>
        .bind (h.upd fun s => h.pend s i m _) fun _ => .onlyIf (h.upd fun s => h.sem s i satInc32)

theorem serviceMailbox (i : Iface) (m : Mb) : Stays P (serviceMailbox i m) :=
  .bind (svcRead h i _) fun _ =>
    .ite (.bind (svcWrite h i _ _) fun _ => handleCompletion h i m _) (.pure _)

theorem txService (i : Iface) : Stays P (txService i) :=
  returning h (.bind (serviceMailbox h i _) fun _ => .bind (serviceMailbox h i _) fun _ =>
    .bind (serviceMailbox h i _) fun _ => .bind (pollError h i) fun _ => signalWake h)

theorem rxService (i : Iface) (f : Fifo) : Stays P (rxService i f) :=
  returning h <| .bind (svcRead h i _) fun _ => .ite (.raise _)
    (.bind (.onlyIf (countError h i)) fun _ =>
      .bind (svcRead h i _) fun _ => .bind (svcRead h i _) fun _ => .bind (svcRead h i _) fun _ =>
        .bind (svcRead h i _) fun _ => .bind (svcWrite h i _ _) fun _ => .bind (.ask _) fun _ =>
          .bind (rbPush h i _) fun _ => .bind (bridgeHook h _) fun _ => .bind (markActivity h i) fun _ =>
            .bind (pollError h i) fun _ => signalWake h)

theorem entryAround (i : Iface) {x : Op Unit} (hx : Stays P x) : Stays P (entryAround i x) :=
  returning h <| .bind (.ask _) fun _ =>
    .ite (.bind (h.upd fun s => h.isr s true) fun _ => .bind hx fun _ => h.upd fun s => h.isr s false) (.raise _)

theorem entryOp (i : Iface) (src : Source) : Stays P (entryOp i src) := by
  cases src
  · exact entryAround h i (txService h i)
  · exact entryAround h i (rxService h i _)
  · exact entryAround h i (rxService h i _)

/-! ### Interleaving points of the foreground -/

theorem dispatcherMove (i : Iface) (src : Source) : Stays P (dispatcherMove i src) := by
  intro s₀ s hs
  cases hc : canStart s i src with
  | false => rw [dispatcherMove_idle hc]; exact hs
  | true =>
    have := entryOp h i src s₀ s hs
    rw [dispatcherMove_start hc]
    cases hr : Machine.entryOp i src s with
    | ok a s' => rw [hr] at this; exact this
    | error k s' => rw [hr] at this; exact h.trans this (h.fault s' k _)

theorem preemptMoves (n : Nat) : Stays P (preemptMoves n) := by
  induction n with
  | zero => exact .pure ()
  | succ n ih =>
    intro s₀ s hs
    have hi (l) : P s₀ { s with inner := l } := h.trans hs (h.inner s l)
    cases hl : s.inner with
    | nil => rw [preemptMoves_nil hl]; exact hs
    | cons m l =>
      cases m with
      | env a => rw [preemptMoves_env hl]; exact ih s₀ _ (h.trans (hi l) (h.env _ a))
      | go => rw [preemptMoves_go hl]; exact hi l
      | irq i src =>
        have := dispatcherMove h i src s₀ _ (hi l)
        rw [preemptMoves_irq hl]
        cases hr : Machine.dispatcherMove i src { s with inner := l } with
        | ok a s' => rw [hr] at this; exact ih s₀ s' this
        | error k s' => rw [hr] at this; exact this

theorem preempt : Stays P preempt := fun s₀ s hs => preemptMoves h s.inner.length s₀ s hs

theorem stepAt (op : Instr) (ph : Phase) : Stays P (stepAt op ph) := .bind (mark h op ph) fun _ => preempt h

omit h in
theorem fgRead {point : Op Unit} (hp : Stays P point) (i : Iface) (r : Reg) : Stays P (fgRead point i r) :=
  .bind hp fun _ => regRead i r

theorem fgWrite {point : Op Unit} (hp : Stays P point) (i : Iface) (r : Reg) (v : Word) :
    Stays P (fgWrite point i r v) := .bind hp fun _ => regWrite h i r v

theorem enterCsAt {point : Op Unit} (hp : Stays P point) : Stays P (enterCsAt point) :=
  .bind hp fun _ => enterCs h

theorem fgUpd {point : Op Unit} (hp : Stays P point) {f : State → State} (hf : ∀ s, P s (f s)) :
    Stays P (fgUpd point f) := .bind hp fun _ => h.upd hf

/-! ### Bodies of the class-H commands, from each of their steps on -/

theorem exitCs_pure (a : α) : Stays P (do Machine.exitCs; Pure.pure a : Op α) := .bind (exitCs h) fun _ => .pure _

theorem csAsk {point : Op Unit} (hp : Stays P point) (f : State → α) : Stays P (csAsk point f) :=
  .bind (enterCsAt h hp) fun _ => .bind (.ask _) fun _ => exitCs_pure h _

theorem csTake {point : Op Unit} (hp : Stays P point) (f : State → α) {g : State → State} (hg : ∀ s, P s (g s)) :
    Stays P (csTake point f g) :=
  .bind (enterCsAt h hp) fun _ => .bind (.ask _) fun _ => .bind (h.upd hg) fun _ => exitCs_pure h _

theorem takeActivity {point : Op Unit} (hp : Stays P point) (i : Iface) : Stays P (takeActivity point i) :=
  csTake h hp _ fun s => h.hadAct s i false

theorem takeError {point : Op Unit} (hp : Stays P point) (i : Iface) : Stays P (takeError point i) :=
  csTake h hp _ fun s => by simpa using h.lastErr s i 0#3

theorem pushEntry (op : Instr) (i : Iface) (e : RxEntry) : Stays P (pushEntry op i e) :=
  .bind (enterCsAt h (stepAt h _ _)) fun _ => .bind (rbPush h i e) fun _ => exitCs_pure h _

theorem popEmpty (op : Instr) (i : Iface) : Stays P (popEmpty op i) := .bind (stepAt h _ _) fun _ => .raise _

theorem popEntry (op : Instr) (i : Iface) : Stays P (popEntry op i) :=
  .bind (enterCsAt h (stepAt h _ _)) fun _ => .bind (.ask _) fun _ =>
    .ite (.bind (exitCs h) fun _ => popEmpty h op i) (.bind (rbPop h i) fun _ => exitCs_pure h _)

omit h in
theorem pollInak {wait delay : Nat → Op Unit} (hw : ∀ n, Stays P (wait n)) (hd : ∀ n, Stays P (delay n)) (i : Iface)
    (want : Bool) (n : Nat) : Stays P (pollInak wait delay i want n) := by
  induction n with
  | zero => exact .pure _
  | succ n ih => exact .bind (fgRead (hw n) i _) fun _ => .ite (.pure _) (.bind (hd n) fun _ => ih)

section init

variable {point : InitPhase → Op Unit} (hp : ∀ p, Stays P (point p))
include hp

theorem writeFilters (f : Word) (l : List (Reg × Word)) : Stays P (writeFilters point f l) := by
  induction l with
  | nil => exact .pure _
  | cons x l ih => exact .bind (fgWrite h (hp _) _ _ _) fun _ => ih

theorem filterPhase (i : Iface) : Stays P (filterPhase point i) := by
  cases i
  · exact .bind (.bind (fgRead (hp _) _ _) fun _ => .bind (.ask _) fun _ => writeFilters h hp _ _) fun _ => .pure _
  · exact .pure _

theorem exitPoll (i : Iface) (n : Nat) : Stays P (exitPoll point i n) :=
  .bind (pollInak (fun _ => hp _) (fun _ => hp _) i _ n) fun _ => .ite (filterPhase h hp i) (.pure _)

theorem exitWrite (i : Iface) (m : Word) : Stays P (exitWrite point i m) :=
  .bind (fgWrite h (hp _) _ _ _) fun _ => exitPoll h hp i _

theorem exitConfig (i : Iface) : Stays P (exitConfig point i) :=
  .bind (fgRead (hp _) _ _) fun _ => exitWrite h hp i _

theorem programIer (i : Iface) : Stays P (programIer point i) :=
  .bind (fgWrite h (hp _) _ _ _) fun _ => exitConfig h hp i

theorem programTiming (i : Iface) (t : TimingParams) : Stays P (programTiming point i t) :=
  .bind (fgWrite h (hp _) _ _ _) fun _ => programIer h hp i

theorem enterPoll (i : Iface) (t : TimingParams) (n : Nat) : Stays P (enterPoll point i t n) :=
  .bind (pollInak (fun _ => hp _) (fun _ => hp _) i _ n) fun _ => .ite (programTiming h hp i t) (.pure _)

theorem enterWrite (i : Iface) (t : TimingParams) (m : Word) : Stays P (enterWrite point i t m) :=
  .bind (fgWrite h (hp _) _ _ _) fun _ => enterPoll h hp i t _

theorem enterConfig (i : Iface) (t : TimingParams) : Stays P (enterConfig point i t) :=
  .bind (fgRead (hp _) _ _) fun _ => enterWrite h hp i t _

theorem ifInit (i : Iface) (rate : Word) : Stays P (ifInit point i rate) := by
  refine .bind (hp _) fun _ => .bind (.ask _) fun c => ?_
  cases c with
  | none => exact .pure _
  | some t => exact enterConfig h hp i t

theorem initFrom (i : Iface) (p : InitPhase) : Stays P (initFrom point i p) := by
  cases p with
  | timing rate => exact ifInit h hp i rate
  | enterRead t => exact enterConfig h hp i t
  | enterWrite t m => exact enterWrite h hp i t m
  | enterWait t n => exact enterPoll h hp i t _
  | enterDelay t n => exact .bind (hp _) fun _ => enterPoll h hp i t n
  | programBtr t => exact programTiming h hp i t
  | programIer => exact programIer h hp i
  | exitRead => exact exitConfig h hp i
  | exitWrite m => exact exitWrite h hp i m
  | exitWait n => exact exitPoll h hp i _
  | exitDelay n => exact .bind (hp _) fun _ => exitPoll h hp i n
  | filterRead => exact filterPhase h hp i
  | filterWrite f todo => exact .bind (writeFilters h hp f todo) fun _ => .pure _

end init

theorem initPoint (op : Instr) (w : InitPhase → Phase) (p : InitPhase) : Stays P (initPoint op w p) := by
  cases p <;> first | exact mark h _ _ | exact stepAt h _ _

theorem initIfaces (op : Instr) (rate : Word) (is : List Iface) : Stays P (initIfaces op rate is) := by
  induction is with
  | nil => exact .pure _
  | cons i is ih => exact .bind (ifInit h (initPoint h _ _) i rate) fun _ => .ite ih (.pure _)

omit h in
theorem answer {x : Op ResultCode} (hx : Stays P x) : Stays P (answer x) := .bind hx fun _ => .pure _

section send

variable {point : SendPhase → Op Unit} (hp : ∀ p, Stays P (point p))
include hp

theorem sendLoad (x : Sending) (tsr : Word) (m : Mb) (l : List LoadStep) : Stays P (sendLoad point x tsr m l) := by
  induction l with
  | nil => exact .bind (h.upd fun s => h.pend s _ m _) fun _ => exitCs_pure h _
  | cons k l ih => exact .bind (fgWrite h (hp _) _ _ _) fun _ => ih

theorem sendScan (x : Sending) : Stays P (sendScan point x) := by
  refine .bind (fgRead (hp _) _ _) fun t => ?_
  split
  · exact exitCs_pure h _
  · exact sendLoad h hp _ _ _ _

theorem ifSend (x : Sending) : Stays P (ifSend point x) :=
  .ite (.pure _) (.bind (enterCsAt h (hp _)) fun _ => sendScan h hp x)

theorem sendFrom (x : Sending) (p : SendPhase) : Stays P (sendFrom point x p) := by
  cases p with
  | enter => exact ifSend h hp x
  | scan => exact sendScan h hp x
  | load tsr m todo => exact sendLoad h hp x tsr m todo

end send

theorem discardAbort {point : Op Unit} (hp : Stays P point) (i : Iface) (m : Mb) : Stays P (discardAbort point i m) :=
  .bind (fgWrite h hp _ _ _) fun _ => .bind (h.upd fun s => h.pend s i m _) fun _ => countError h i

theorem discardSlot {point : Op Unit} (hp : Stays P point) (i : Iface) (now : U64) (m : Mb) :
    Stays P (discardSlot point i now m) := .bind (.ask _) fun _ => .ite (discardAbort h hp i m) (.pure _)

section discard

variable {point : DiscardPhase → Op Unit} (hp : ∀ p, Stays P (point p))
include hp

theorem discardSlots (i : Iface) (now : U64) (ms : List Mb) : Stays P (discardSlots point i now ms) := by
  induction ms with
  | nil => exact exitCs h
  | cons m ms ih => exact .bind (discardSlot h (hp _) i now m) fun _ => ih

theorem ifDiscard (i : Iface) (now : U64) : Stays P (ifDiscard point i now) :=
  .bind (enterCsAt h (hp _)) fun _ => discardSlots h hp i now _

theorem discardFrom (i : Iface) (now : U64) (p : DiscardPhase) : Stays P (discardFrom point i now p) := by
  cases p with
  | enter => exact ifDiscard h hp i now
  | abort m todo => exact .bind (discardAbort h (hp _) i m) fun _ => discardSlots h hp i now todo

end discard

theorem waitAt (op : Instr) (i : Iface) (dl : U64) : Stays P (waitAt op i dl) :=
  .bind (enterCsAt h (stepAt h _ _)) fun _ => .bind (.ask _) fun _ =>
    .ite (exitCs_pure h _) (.bind (h.upd fun s => h.sem s i fun n => n - 1#32) fun _ => exitCs_pure h _)

theorem receiveAt (op : Instr) (i : Iface) (tm : U64) : Stays P (receiveAt op i tm) :=
  .bind (enterCsAt h (stepAt h _ _)) fun _ => .bind (.ask _) fun _ =>
    .ite (exitCs_pure h _) (.bind (rbPop h i) fun _ => exitCs_pure h _)

section ready

variable {point : ReadyPhase → Op Unit} (hp : ∀ p, Stays P (point p))
include hp

omit h in
theorem readyScan (i : Iface) (is : List Iface) (rd wr : Byte) (b : Bool) : Stays P (readyScan point i is rd wr b) :=
  .bind (fgRead (hp _) _ _) fun _ => .pure _

theorem readyFrom (is : List Iface) (rd wr : Byte) : Stays P (readyFrom point is rd wr) := by
  induction is generalizing rd wr with
  | nil => exact .pure _
  | cons i is ih => exact .bind (csAsk h (hp _) _) fun _ => .bind (readyScan hp _ _ _ _ _) fun _ => ih _ _

theorem ready : Stays P (ready point) := .bind (.ask _) fun _ => readyFrom h hp _ _ _

theorem readyRest (p : ReadyPhase) : Stays P (readyRest point p) := by
  cases p with
  | enter i is rd wr => exact readyFrom h hp _ _ _
  | scan i is rd wr b => exact .bind (readyScan hp _ _ _ _ _) fun _ => readyFrom h hp _ _ _

end ready

theorem sweep (op : Instr) (q : Selecting) (t : U64) (is : List Iface) : Stays P (sweep op q t is) := by
  induction is with
  | nil => exact .pure _
  | cons i is ih => exact .bind (ifDiscard h (fun _ => stepAt h _ _) i t) fun _ => ih

omit h in
theorem selectEnd (q : Selecting) (m : Byte × Byte) : Stays P (selectEnd q m) :=
  .bind (.ask _) fun _ => .ite (.pure _) (.pure _)

theorem selectCheck (op : Instr) (q : Selecting) : Stays P (selectCheck op q) :=
  .bind (ready h fun _ => stepAt h _ _) fun _ => selectEnd _ _

theorem select (op : Instr) (q : Selecting) : Stays P (select op q) :=
  .bind (.ask _) fun _ => .bind (.ask _) fun _ => .bind (sweep h _ _ _ _) fun _ => selectCheck h op q

theorem wakeSelect : Stays P wakeSelect :=
  .bind (h.upd fun s => h.wake s false) fun _ => .bind (ready h fun _ => envPoint h) fun _ => .pure _

theorem drvActivity (op : Instr) (is : List Iface) (v : Bool) : Stays P (drvActivity op is v) := by
  refine .bind ?_ fun _ => .pure _
  induction is generalizing v with
  | nil => exact .pure _
  | cons i is ih => exact .bind (takeActivity h (stepAt h _ _) i) fun _ => ih _

end Closed

namespace ClosedInit

variable (h : ClosedInit P)
include h

theorem startClocks (op : Instr) (rate : Word) (l : List ClockStep) : Stays P (startClocks op rate l) := by
  induction l with
  | nil => exact .pure _
  | cons k l ih =>
    refine .bind (h.fgUpd (h.stepAt _ _) fun s => ?_) fun _ => ih
    cases k with
    | enable i => exact h.clock s i true
    | pulse i => exact h.pulse s i

theorem stopClocks (op : Instr) (r : ResultCode) (is : List Iface) : Stays P (stopClocks op r is) := by
  induction is with
  | nil => exact .pure _
  | cons i is ih => exact .bind (h.fgUpd (h.stepAt _ _) fun s => h.clock s i false) fun _ => ih

end ClosedInit

end Sys2Proof.Machine
end

