-- ==== Sys2Proof/Laws/Steps.lean ====
section
/-! SUPPORT. From operations to commands and steps: a register write and an environment step as updates of a few fields, and
what a relation must keep for every command, and every step, to keep it. -/

namespace Sys2Proof.Machine

/-! ### What the register port and the environment can change -/

/-- A state with other controllers and filter registers. -/
def State.withCtrls (s : State) (c0 c1 : Ctrl) (fl : Filters) : State :=
  { s with if0 := { s.if0 with ctrl := c0 }, if1 := { s.if1 with ctrl := c1 }, filt := fl }

theorem onCtrl_shape (s : State) (i : Iface) (f : Ctrl → Ctrl) :
    ∃ c0 c1, s.onCtrl i f = s.withCtrls c0 c1 s.filt := by
  cases i
  · exact ⟨f s.if0.ctrl, s.if1.ctrl, rfl⟩
  · exact ⟨s.if0.ctrl, f s.if1.ctrl, rfl⟩

theorem filt_shape (s : State) (fl : Filters) : ∃ c0 c1, { s with filt := fl } = s.withCtrls c0 c1 fl :=
  ⟨s.if0.ctrl, s.if1.ctrl, rfl⟩

/-- A register write changes controllers and filter registers only. -/
theorem writeReg_shape (s : State) (i : Iface) (r : Reg) (v : Word) :
    ∃ c0 c1 fl, s.writeReg i r v = s.withCtrls c0 c1 fl := by
  have hc (f : Ctrl → Ctrl) : ∃ c0 c1 fl, s.onCtrl i f = s.withCtrls c0 c1 fl :=
    let ⟨c0, c1, h⟩ := onCtrl_shape s i f
    ⟨c0, c1, _, h⟩
  have hf (fl : Filters) : ∃ c0 c1 fl', { s with filt := fl } = s.withCtrls c0 c1 fl' :=
    let ⟨c0, c1, h⟩ := filt_shape s fl
    ⟨c0, c1, _, h⟩
  cases r <;> simp only [State.writeReg] <;> first
    | exact hc _
    | exact hf _
    | (split <;> exact hf _)

/-- A drift changes controllers and filter registers only. -/
theorem driftReg_shape (s : State) (i : Iface) (r : Reg) (v : Word) :
    ∃ c0 c1 fl, s.driftReg i r v = s.withCtrls c0 c1 fl := by
  have hc (f : Ctrl → Ctrl) : ∃ c0 c1 fl, s.onCtrl i f = s.withCtrls c0 c1 fl :=
    let ⟨c0, c1, h⟩ := onCtrl_shape s i f
    ⟨c0, c1, _, h⟩
  have hf (fl : Filters) : ∃ c0 c1 fl', { s with filt := fl } = s.withCtrls c0 c1 fl' :=
    let ⟨c0, c1, h⟩ := filt_shape s fl
    ⟨c0, c1, _, h⟩
  have h0 : ∃ c0 c1 fl, s = s.withCtrls c0 c1 fl := ⟨s.if0.ctrl, s.if1.ctrl, s.filt, rfl⟩
  cases r <;> simp only [State.driftReg] <;> first
    | exact h0
    | exact hc _
    | exact hf _

/-- An environment step is a controller's step or a drift, or a change of the clocks' readings, of the pool's answer or of
the bridge (47_controller_env.md; 60_exceptions.md R322, R323). -/
theorem envAct_shape (a : EnvAct) (s : State) :
    (∃ c0 c1 fl, envAct a s = s.withCtrls c0 c1 fl) ∨
      (∃ mono utc, s.mono ≤ mono ∧ envAct a s = { s with mono := mono, utc := utc }) ∨
      (∃ ok, envAct a s = { s with poolOk := ok }) ∨
      envAct a s = { s with bridge := s.bridge.tail } := by
  have h0 : ∃ c0 c1 fl, s = s.withCtrls c0 c1 fl := ⟨s.if0.ctrl, s.if1.ctrl, s.filt, rfl⟩
  have hc (i : Iface) (f : Ctrl → Ctrl) : ∃ c0 c1 fl, s.ctrlStep i f = s.withCtrls c0 c1 fl := by
    unfold State.ctrlStep
    split
    · obtain ⟨c0, c1, h⟩ := onCtrl_shape s i f
      exact ⟨c0, c1, _, h⟩
    · exact h0
  cases a with
  | enterConfig i => exact .inl (hc i _)
  | enterNormal i => exact .inl (hc i _)
  | complete i m txok => exact .inl (hc i _)
  | arrive i f msg replace => exact .inl (hc i _)
  | busError i lec => exact .inl (hc i _)
  | drift i r v =>
    refine .inl ?_
    simp only [envAct]
    split
    · exact driftReg_shape s i r v
    · exact h0
  | tick mono utc =>
    refine .inr (.inl ⟨if s.mono ≤ mono then mono else s.mono, utc, ?_, rfl⟩)
    split
    · assumption
    · exact BitVec.le_refl _
  | pool ok => exact .inr (.inr (.inl ⟨ok, rfl⟩))
  | consume => exact .inr (.inr (.inr rfl))

section withCtrls

variable (s : State) (c0 c1 : Ctrl) (fl : Filters)

@[simp] theorem withCtrls_cfg : (s.withCtrls c0 c1 fl).cfg = s.cfg := rfl
@[simp] theorem withCtrls_fg : (s.withCtrls c0 c1 fl).fg = s.fg := rfl
@[simp] theorem withCtrls_wake : (s.withCtrls c0 c1 fl).wake = s.wake := rfl
@[simp] theorem withCtrls_cs : (s.withCtrls c0 c1 fl).cs = s.cs := rfl
@[simp] theorem withCtrls_inIsr : (s.withCtrls c0 c1 fl).inIsr = s.inIsr := rfl
@[simp] theorem withCtrls_faults : (s.withCtrls c0 c1 fl).faults = s.faults := rfl
@[simp] theorem withCtrls_faultCw : (s.withCtrls c0 c1 fl).faultCw = s.faultCw := rfl
@[simp] theorem withCtrls_bridge : (s.withCtrls c0 c1 fl).bridge = s.bridge := rfl
@[simp] theorem withCtrls_filt : (s.withCtrls c0 c1 fl).filt = fl := rfl
@[simp] theorem withCtrls_mono : (s.withCtrls c0 c1 fl).mono = s.mono := rfl
@[simp] theorem withCtrls_utc : (s.withCtrls c0 c1 fl).utc = s.utc := rfl
@[simp] theorem withCtrls_poolOk : (s.withCtrls c0 c1 fl).poolOk = s.poolOk := rfl
@[simp] theorem withCtrls_by : (s.withCtrls c0 c1 fl).by' = s.by' := rfl
@[simp] theorem withCtrls_args : (s.withCtrls c0 c1 fl).args = s.args := rfl
@[simp] theorem withCtrls_res : (s.withCtrls c0 c1 fl).res = s.res := rfl
@[simp] theorem withCtrls_svcRes : (s.withCtrls c0 c1 fl).svcRes = s.svcRes := rfl
@[simp] theorem withCtrls_inner : (s.withCtrls c0 c1 fl).inner = s.inner := rfl
@[simp] theorem withCtrls_sched : (s.withCtrls c0 c1 fl).sched = s.sched := rfl

/-- The soft state of an interface stays. -/
theorem withCtrls_iface (i : Iface) : ∃ c, (s.withCtrls c0 c1 fl).iface i = { s.iface i with ctrl := c } := by
  cases i
  · exact ⟨c0, rfl⟩
  · exact ⟨c1, rfl⟩

end withCtrls

/-! ### Registration is never withdrawn (60_exceptions.md R309) -/

/-- Interface i stays registered. -/
def KeepsRegistry (i : Iface) (s t : State) : Prop := (s.iface i).registry = true → (t.iface i).registry = true

theorem keepsRegistry_of_eq {i : Iface} {s t : State} (h : (t.iface i).registry = (s.iface i).registry) :
    KeepsRegistry i s t := fun hr => h.trans hr

theorem onIface_registry (s : State) (i j : Iface) (f : IfaceState → IfaceState)
    (hf : ∀ x, (f x).registry = x.registry) : ((s.onIface j f).iface i).registry = (s.iface i).registry := by
  rw [iface_onIface]
  split
  · next h => rw [hf, h]
  · rfl

theorem keepsRegistry_closed (i : Iface) : ClosedInit (KeepsRegistry i) where
  refl _ h := h
  trans h₁ h₂ h := h₂ (h₁ h)
  reg s j r v := by
    obtain ⟨c0, c1, fl, e⟩ := writeReg_shape s j r v
    obtain ⟨c, hc⟩ := withCtrls_iface s c0 c1 fl i
    exact keepsRegistry_of_eq (by rw [e, hc])
  env s a := by
    apply keepsRegistry_of_eq
    rcases envAct_shape a s with ⟨c0, c1, fl, e⟩ | ⟨m, u, -, e⟩ | ⟨ok, e⟩ | e
    · obtain ⟨c, hc⟩ := withCtrls_iface s c0 c1 fl i
      rw [e, hc]
    all_goals rw [e]; cases i <;> rfl
  inner s l := keepsRegistry_of_eq (by cases i <;> rfl)
  cs s b := keepsRegistry_of_eq (by cases i <;> rfl)
  isr s b := keepsRegistry_of_eq (by cases i <;> rfl)
  record s := keepsRegistry_of_eq (by simp)
  fg s x := keepsRegistry_of_eq (by cases i <;> rfl)
  fault s k cw := keepsRegistry_of_eq (by simp)
  wake s b := keepsRegistry_of_eq (by cases i <;> rfl)
  bridge s fr _ := keepsRegistry_of_eq (by cases i <;> rfl)
  errCnt s j := keepsRegistry_of_eq (onIface_registry s i j _ fun _ => rfl)
  lastErr s j e := keepsRegistry_of_eq (onIface_registry s i j _ fun _ => rfl)
  hadAct s j b := keepsRegistry_of_eq (onIface_registry s i j _ fun _ => rfl)
  push s j e := keepsRegistry_of_eq (onIface_registry s i j _ fun _ => rfl)
  drop s j := keepsRegistry_of_eq (onIface_registry s i j _ fun _ => rfl)
  pend s j m f := keepsRegistry_of_eq (onIface_registry s i j _ fun x => by simp)
  sem s j f := keepsRegistry_of_eq (onIface_registry s i j _ fun _ => rfl)
  clock s j b := keepsRegistry_of_eq (onIface_registry s i j _ fun _ => rfl)
  pulse s j := keepsRegistry_of_eq (by cases j <;> cases i <;> rfl)
  registry s j h := by rw [iface_onIface]; split <;> first | rfl | exact h
  vector s j src _ := keepsRegistry_of_eq (by
    cases src <;> exact onIface_registry s i j _ fun _ => rfl)

/-! ### `DRV.INIT` -/

namespace ClosedInit

variable {P : State → State → Prop} (h : ClosedInit P)
include h

/-- Registration comes before the vectors (42_bringup.md R175). -/
theorem registerSteps (op : Instr) (i : Iface) (is : List Iface) : Stays P (registerSteps op i is dispatchSteps) := by
  intro s₀
  let K : State → Prop := fun s => P s₀ s ∧ (s.iface i).registry = true
  have hpoint (ph : Phase) : Meets K (stepAt op ph) (fun _ => K) (fun _ => P s₀) := by
    intro s hs
    have h1 := h.stepAt op ph s₀ s hs.1
    have h2 := (keepsRegistry_closed i).stepAt op ph s s ((keepsRegistry_closed i).refl s)
    cases hp : stepAt op ph s with
    | ok a s' => rw [hp] at h1 h2; exact ⟨h1, h2 hs.2⟩
    | error k s' => rw [hp] at h1; exact h1
  have hvec (ph : Phase) (src : Source) :
      Meets K (fgUpd (stepAt op ph) ((DispatchStep.vector src).effect i)) (fun _ => K) (fun _ => P s₀) :=
    Meets.bind _ (hpoint ph) fun _ => Meets.upd fun s hs =>
      ⟨h.trans hs.1 (h.vector s i src hs.2), (keepsRegistry_closed i).vector s i src hs.2 hs.2⟩
  have hreg (ph : Phase) :
      Meets (P s₀) (fgUpd (stepAt op ph) (DispatchStep.registry.effect i)) (fun _ => K) (fun _ => P s₀) :=
    Meets.bind _ (h.stepAt op ph s₀) fun _ => Meets.upd fun s hs =>
      ⟨h.trans hs (h.registry s i), by simp [DispatchStep.effect]⟩
  exact Meets.bind _ (hreg _) fun _ => Meets.bind _ (hvec _ .tx) fun _ => Meets.bind _ (hvec _ .rx0) fun _ =>
    Meets.bind _ (hvec _ .rx1) fun _ => Meets.pure _ fun _ hs => hs.1

theorem registerIfaces (op : Instr) (is : List Iface) : Stays P (registerIfaces op is) := by
  induction is with
  | nil => exact .pure _
  | cons i is ih => exact .bind (h.registerSteps op i is) fun _ => ih

theorem finishInit (op : Instr) (r : ResultCode) : Stays P (finishInit op r) :=
  .bind (.ask _) fun _ => .ite (.bind (h.registerIfaces _ _) fun _ => .pure _)
    (.bind (h.stopClocks _ _ _) fun _ => .pure _)

theorem drvInit (op : Instr) (rate : Word) (todo : List ClockStep) : Stays P (drvInit op rate todo) :=
  .bind (h.startClocks _ _ _) fun _ => .bind (.ask _) fun _ => .bind (h.initIfaces _ _ _) fun _ => h.finishInit _ _

theorem nextIface (op : Instr) (rate : Word) (is : List Iface) (r : ResultCode) : Stays P (nextIface op rate is r) :=
  .ite (.bind (h.initIfaces _ _ _) fun _ => h.finishInit _ _) (h.finishInit _ _)

/-- The rest of an operation, from any phase, for a relation that keeps an enabled vector unconditionally. -/
theorem resume (hv : ∀ s i src, P s ((DispatchStep.vector src).effect i s)) (op : Instr) (ph : Phase) :
    Stays P (resume op ph) := by
  have hstep (i : Iface) (is : List Iface) (l : List DispatchStep) :
      Stays P (Machine.registerSteps op i is l) := by
    induction l with
    | nil => exact .pure _
    | cons k l ih =>
      refine .bind (h.fgUpd (h.stepAt _ _) fun s => ?_) fun _ => ih
      cases k with
      | registry => exact h.registry s i
      | vector src => exact hv s i src
  cases ph with
  | timings rate => exact .ask _
  | push i e => exact h.pushEntry op i e
  | pop i => exact h.popEntry op i
  | popEmpty i => exact h.popEmpty op i
  | len i => exact .bind (h.csAsk (h.stepAt _ _) _) fun _ => .pure _
  | ovf i => exact .bind (h.csAsk (h.stepAt _ _) _) fun _ => .pure _
  | init i p => exact Closed.answer (h.initFrom (h.initPoint _ _) i p)
  | cfgfilt => exact .pure _
  | send x p => exact Closed.answer (h.sendFrom (fun _ => h.stepAt _ _) x p)
  | discard i now p => exact .bind (h.discardFrom (fun _ => h.stepAt _ _) i now p) fun _ => .pure _
  | txfull i => exact .bind (Closed.fgRead (h.stepAt _ _) _ _) fun _ => .pure _
  | waitStart i timeout => exact .bind (.ask _) fun _ => h.waitAt op i _
  | wait i dl => exact h.waitAt op i dl
  | recvStart i => exact .bind (.ask _) fun _ => h.receiveAt op i _
  | recv i tm => exact h.receiveAt op i tm
  | rxempty i => exact .bind (h.csAsk (h.stepAt _ _) _) fun _ => .pure _
  | rxlen i => exact .bind (h.csAsk (h.stepAt _ _) _) fun _ => .pure _
  | errcnt i => exact .bind (h.csAsk (h.stepAt _ _) _) fun _ => .pure _
  | lasterr i => exact .bind (h.takeError (h.stepAt _ _) i) fun _ => .pure _
  | hadact i => exact .bind (h.takeActivity (h.stepAt _ _) i) fun _ => .pure _
  | clocks rate todo => exact Closed.answer (h.drvInit op rate todo)
  | ifaces rate i todo p =>
    exact Closed.answer (.bind (h.initFrom (h.initPoint _ _) i p) fun _ => h.nextIface op rate todo _)
  | rollback r todo => exact Closed.answer (.bind (h.stopClocks op r todo) fun _ => .pure _)
  | dispatch i todo steps =>
    exact Closed.answer (.bind (hstep i todo steps) fun _ => .bind (h.registerIfaces op todo) fun _ =>
      .pure _)
  | ready p => exact .bind (h.readyRest (fun _ => h.stepAt _ _) p) fun _ => .pure _
  | selectStart q => exact h.select op q
  | sweep q t i todo p =>
    exact .bind (h.discardFrom (fun _ => h.stepAt _ _) i t p) fun _ => .bind (h.sweep op q t todo) fun _ =>
      h.selectCheck op q
  | check q p => exact .bind (h.readyRest (fun _ => h.stepAt _ _) p) fun _ => Closed.selectEnd _ _
  | activity i todo v => exact h.drvActivity op _ v

end ClosedInit

/-! ### Commands and steps -/

/-- What a relation must keep for every command to keep it, beside the changes its operation makes. -/
structure ClosedExec (P : State → State → Prop) : Prop extends Closed P where
  res : ∀ s r, P s { s with res := r }

/-- What a relation must keep for every step to keep it. -/
structure ClosedStep (P : State → State → Prop) : Prop extends ClosedInit P, ClosedExec P where
  sched : ∀ s l, P s { s with sched := l }
  port  : ∀ s q l, P s (s.atPort q l)

namespace ClosedExec

variable {P : State → State → Prop} (h : ClosedExec P)
include h

/-- The end of a foreground operation, from a state it started from. -/
theorem settle {i : Instr} {body : Op Ret} (hb : Stays P body) {s u t : State} (hu : P s u)
    (he : settle i (body u) = .next t) : P s t := by
  have := hb s u hu
  cases hr : body u with
  | error k s' =>
    rw [hr] at this he
    cases he
    exact h.trans this (h.fault s' k _)
  | ok r s' =>
    rw [hr] at this he
    cases r with
    | done x => cases he; exact h.trans this (h.trans (h.fg s' .idle) (h.res _ (some x)))
    | block fg => cases he; exact h.trans this (h.fg s' fg)

theorem hostCommand {i : Instr} {ph : Phase} {body : Op Ret} (hb : Stays P body) {s t : State}
    (he : hostCommand i ph body s = .next t) : P s t := by
  unfold Machine.hostCommand at he
  split at he
  · cases he
  · split at he
    · split at he
      · cases he
        exact h.refl s
      · exact h.settle hb (h.trans (h.fg s (.busy i ph)) (h.res _ none)) he
    · cases he
      exact h.fault s _ _

/-- The end of an interrupt-context operation. -/
theorem settleIsr {i : Instr} {body : Op Unit} (hb : Stays P body) {s t : State}
    (he : settleIsr i (body s) = .next t) : P s t := by
  have := hb s s (h.refl s)
  cases hr : body s with
  | error k s' =>
    rw [hr] at this he
    cases he
    exact h.trans this (h.fault s' k _)
  | ok r s' =>
    rw [hr] at this he
    cases he
    exact this

theorem isrCommand {i : Instr} {body : Op Unit} (hb : Stays P body) {s t : State}
    (he : isrCommand i body s = .next t) : P s t := by
  unfold Machine.isrCommand at he
  split at he
  · cases he
  · split at he
    · exact h.settleIsr hb he
    · cases he
      exact h.fault s _ _

theorem entryCommand {i : Instr} {j : Iface} {src : Source} {body : Op Unit} (hb : Stays P body) {s t : State}
    (he : entryCommand i j src body s = .next t) : P s t := by
  unfold Machine.entryCommand at he
  split at he
  · cases he
  · split at he
    · split at he
      · exact h.settleIsr hb he
      · cases he
        exact h.refl s
    · cases he
      exact h.fault s _ _

/-- Every command but `DRV.INIT` keeps what the elementary changes keep, at every schedule of the other agents. -/
theorem exec {i : Instr} (hi : i ≠ .drvInit) {s t : State} (he : exec i s = .next t) : P s t := by
  have c := h.toClosed
  cases i with
  | btCalc => exact h.hostCommand (.ask _) he
  | rbPush ifc => exact h.hostCommand (c.pushEntry _ _ _) he
  | rbPop ifc => exact h.hostCommand (c.popEntry _ _) he
  | rbLen ifc => exact h.hostCommand (.bind (c.csAsk (c.stepAt _ _) _) fun _ => .pure _) he
  | rbOvf ifc => exact h.hostCommand (.bind (c.csAsk (c.stepAt _ _) _) fun _ => .pure _) he
  | ifInit ifc => exact h.hostCommand (Closed.answer (c.ifInit (c.initPoint _ _) _ _)) he
  | ifCfgfilt ifc => exact h.hostCommand (.pure _) he
  | ifSend ifc => exact h.hostCommand (Closed.answer (c.ifSend (fun _ => c.stepAt _ _) _)) he
  | ifDiscard ifc => exact h.hostCommand (.bind (c.ifDiscard (fun _ => c.stepAt _ _) _ _) fun _ => .pure _) he
  | ifTxsvc ifc => exact h.isrCommand (c.txService _) he
  | ifTxfull ifc => exact h.hostCommand (.bind (Closed.fgRead (c.stepAt _ _) _ _) fun _ => .pure _) he
  | ifWaitmb0 ifc => exact h.hostCommand (.bind (.ask _) fun _ => c.waitAt _ _ _) he
  | ifRecv ifc => exact h.hostCommand (.bind (.ask _) fun _ => c.receiveAt _ _ _) he
  | ifRxsvc ifc f => exact h.isrCommand (c.rxService _ _) he
  | ifPollerr ifc => exact h.isrCommand (c.pollError _) he
  | ifRxempty ifc => exact h.hostCommand (.bind (c.csAsk (c.stepAt _ _) _) fun _ => .pure _) he
  | ifRxlen ifc => exact h.hostCommand (.bind (c.csAsk (c.stepAt _ _) _) fun _ => .pure _) he
  | ifErrcnt ifc => exact h.hostCommand (.bind (c.csAsk (c.stepAt _ _) _) fun _ => .pure _) he
  | ifLasterr ifc => exact h.hostCommand (.bind (c.takeError (c.stepAt _ _) _) fun _ => .pure _) he
  | ifHadact ifc => exact h.hostCommand (.bind (c.takeActivity (c.stepAt _ _) _) fun _ => .pure _) he
  | drvInit => exact absurd rfl hi
  | drvReady => exact h.hostCommand (.bind (c.ready fun _ => c.stepAt _ _) fun _ => .pure _) he
  | drvSelect => exact h.hostCommand (c.select _ _) he
  | drvHadact => exact h.hostCommand (c.drvActivity _ _ _) he
  | irqTx ifc => exact h.entryCommand (c.entryAround _ (c.txService _)) he
  | irqRx ifc f => exact h.entryCommand (c.entryAround _ (c.rxService _ _)) he

/-- So does the foreground agent's own step, if the rest of an operation in progress does. -/
theorem foregroundStep {timeout : Bool} {l : List Inner} {s t : State}
    (hb : ∀ op ph, s.fg = .busy op ph → Stays P (resume op ph)) (he : foregroundStep timeout l s = .next t) : P s t := by
  have hend (s : State) (r : Result) : P s { s with fg := .idle, res := some r } :=
    h.trans (h.fg s .idle) (h.res _ _)
  unfold Machine.foregroundStep at he
  split at he
  · cases he
  split at he
  · cases he; exact h.refl s
  · split at he
    · cases he; exact h.refl s
    · split at he
      · exact h.settle h.wakeSelect (h.inner s l) he
      · cases he; exact h.refl s
    · next i dl _ =>
      cases he
      unfold wakeMb0
      split
      · exact h.trans (h.sem s i fun n => n - 1#32) (hend _ _)
      · split
        · exact hend s _
        · exact h.refl s
    · next op ph hfg => exact h.settle (hb op ph hfg) (h.inner s l) he
    · cases he

end ClosedExec

namespace ClosedStep

variable {P : State → State → Prop} (h : ClosedStep P)
include h

theorem exec {i : Instr} {s t : State} (he : exec i s = .next t) : P s t := by
  by_cases hi : i = .drvInit
  · subst hi
    exact h.hostCommand (Closed.answer (h.drvInit _ _ _)) he
  · exact h.toClosedExec.exec hi he

/-- Every step keeps what the elementary changes keep, if the rest of an operation in progress does. -/
theorem step {s t : State} (hb : ∀ op ph, s.fg = .busy op ph → Stays P (resume op ph)) (he : step s = .next t) :
    P s t := by
  unfold Machine.step at he
  split at he
  · exact h.foregroundStep hb he
  · next b l' l _ => exact h.trans (h.sched s l) (h.foregroundStep (s := { s with sched := l }) hb he)
  · cases he
    exact h.trans (h.sched s _) (h.env _ _)
  · next i src l' l _ =>
    unfold dispatcherStep at he
    split at he
    · cases he
    · split at he
      · have hp := h.port { s with sched := l } ⟨.dispatcher, 0#32, s.args⟩ l'
        exact h.trans (h.trans (h.sched s l) hp) (h.exec (i := entryInstr i src) he)
      · cases he
        exact h.sched s _
  · next q l' l _ =>
    unfold issue at he
    split at he
    · cases he
    · split at he
      · cases he
        exact h.trans (h.trans (h.sched s _) (h.port _ q l')) (h.fault _ _ _)
      · exact h.trans (h.trans (h.sched s _) (h.port _ q l')) (h.exec he)

/-- Every step keeps what the elementary changes keep, a vector enabled with or without a registration among them. -/
theorem step_always (hv : ∀ s i src, P s ((DispatchStep.vector src).effect i s)) {s t : State}
    (he : Machine.step s = .next t) : P s t := h.step (fun op ph _ => h.resume hv op ph) he

end ClosedStep

end Sys2Proof.Machine
end

