-- ==== Sys2Proof/Laws/Inv.lean ====
section
/-! SUPPORT. Each elementary change of state keeps the legal states of the parts it touches (Safety.lean). -/

namespace Sys2Proof.Machine

/-! ### Ring buffer (41_ring_buffer.md R130) -/

theorem RingBuf.Wf.push {n : Nat} {b : RingBuf} (hb : b.Wf n) (e : RxEntry) : (b.push n e).Wf n := by
  obtain ⟨h1, h2, h3⟩ := hb
  have hn : 0 < n := by omega
  unfold RingBuf.push
  split
  · exact ⟨by simp [RingBuf.append, RingBuf.evict, h1], Nat.mod_lt _ hn, by simp [RingBuf.append, RingBuf.evict]; omega⟩
  · exact ⟨by simp [RingBuf.append, h1], h2, by simp [RingBuf.append]; omega⟩

theorem RingBuf.Wf.drop {n : Nat} {b : RingBuf} (hb : b.Wf n) : (b.drop n).Wf n := by
  obtain ⟨h1, h2, h3⟩ := hb
  exact ⟨h1, Nat.mod_lt _ (by omega), by simp [RingBuf.drop]; omega⟩

theorem RingBuf.reset_wf {n : Nat} (h : 1 ≤ n) : (RingBuf.reset n).Wf n :=
  ⟨by simp [RingBuf.reset], by simp [RingBuf.reset]; omega, by simp [RingBuf.reset]⟩

/-! ### Mailboxes and FIFOs -/

theorem Mailbox.reset_wf : Mailbox.reset.Wf := ⟨by decide, by decide⟩

theorem Mailbox.Wf.writeTsr {b : Mailbox} (h : b.Wf) (v : Byte) : (b.writeTsr v).Wf := by
  obtain ⟨h1, h2⟩ := h
  cases hst : b.st <;> rw [hst] at h1 h2 <;> cases hv : v.getLsbD 7 <;> constructor <;>
    simp_all [Mailbox.writeTsr, -BitVec.getLsbD_eq_getElem]

theorem Mailbox.Wf.writeTir {b : Mailbox} (h : b.Wf) (v : Word) : (b.writeTir v).Wf := by
  obtain ⟨h1, h2⟩ := h
  cases hst : b.st <;> cases hv : v.getLsbD 0 <;> constructor <;>
    simp_all [Mailbox.writeTir, Mailbox.tme, -BitVec.getLsbD_eq_getElem]

theorem Mailbox.Wf.complete {b : Mailbox} (h : b.Wf) (txok : Bool) : (b.complete txok).Wf := by
  unfold Mailbox.complete
  split
  · exact h
  · exact ⟨by simp, by simp⟩
  · exact ⟨by simp, by simp⟩

/-- A change that leaves the request and the completion alone keeps a mailbox legal. -/
theorem Mailbox.Wf.of_eq {b b' : Mailbox} (h : b.Wf) (h1 : b'.st = b.st) (h2 : b'.tir = b.tir) (h3 : b'.rqcp = b.rqcp)
    (h4 : b'.txok = b.txok) : b'.Wf := by
  exact ⟨by rw [h1, h2]; exact h.request, by rw [h1, h3, h4]; exact h.completion⟩

theorem RxFifo.reset_wf : RxFifo.reset.Wf := ⟨by simp [RxFifo.reset], by simp [RxFifo.reset]⟩

theorem RxFifo.Wf.write {x : RxFifo} (h : x.Wf) (v : Word) : (x.write v).Wf := by
  obtain ⟨h1, h2⟩ := h
  unfold RxFifo.write
  split
  · exact ⟨by simp; omega, fun m hm => h2 m (List.mem_of_mem_tail hm)⟩
  · exact ⟨h1, h2⟩

theorem RxFifo.Wf.arrive {x : RxFifo} (h : x.Wf) {m : RxMsg} (hm : m.admitted = true) (replace : Bool) :
    (x.arrive m replace).Wf := by
  obtain ⟨h1, h2⟩ := h
  unfold RxFifo.arrive
  split
  · refine ⟨by simp; omega, fun m' hm' => ?_⟩
    rcases List.mem_append.1 hm' with hm' | hm'
    · exact h2 m' hm'
    · rw [List.mem_singleton.1 hm']; exact hm
  · cases replace
    · exact ⟨h1, h2⟩
    · simp only [if_true]
      refine ⟨by simp [Config.fifoDepth] at *; omega, fun m' hm' => ?_⟩
      rcases List.mem_append.1 hm' with hm' | hm'
      · exact h2 m' (List.mem_of_mem_dropLast hm')
      · rw [List.mem_singleton.1 hm']; exact hm

theorem RxFifo.Wf.of_eq {x x' : RxFifo} (h : x.Wf) (hq : x'.q = x.q) : x'.Wf := by
  exact ⟨by rw [hq]; exact h.depth, by rw [hq]; exact h.frames⟩

/-! ### Controllers -/

theorem Ctrl.reset_wf : Ctrl.reset.Wf := by
  constructor
  · intro m; cases m <;> exact Mailbox.reset_wf
  · intro f; cases f <;> exact RxFifo.reset_wf

theorem Ctrl.Wf.onMb {c : Ctrl} (h : c.Wf) (m : Mb) {f : Mailbox → Mailbox} (hf : ∀ b, b.Wf → (f b).Wf) :
    (c.onMb m f).Wf := by
  refine ⟨fun n => ?_, fun g => by rw [rx_onMb]; exact h.fifos g⟩
  rw [mb_onMb]
  split
  · exact hf _ (h.1 m)
  · exact h.1 n

theorem Ctrl.Wf.onRx {c : Ctrl} (h : c.Wf) (f : Fifo) {g : RxFifo → RxFifo} (hg : ∀ x, x.Wf → (g x).Wf) :
    (c.onRx f g).Wf := by
  refine ⟨fun n => by rw [mb_onRx]; exact h.1 n, fun k => ?_⟩
  rw [rx_onRx]
  split
  · exact hg _ (h.2 f)
  · exact h.2 k

/-- A change of the three mailboxes' `TSR` bits keeps a controller legal. -/
theorem Ctrl.Wf.onTsr {c : Ctrl} (h : c.Wf) {f0 f1 f2 : Mailbox → Mailbox} (h0 : ∀ b, b.Wf → (f0 b).Wf)
    (h1 : ∀ b, b.Wf → (f1 b).Wf) (h2 : ∀ b, b.Wf → (f2 b).Wf) (code : BitVec 2) :
    ({ c with code := code, mb0 := f0 c.mb0, mb1 := f1 c.mb1, mb2 := f2 c.mb2 } : Ctrl).Wf := by
  refine ⟨fun m => ?_, fun f => ?_⟩
  · cases m
    · exact h0 _ (h.1 .mb0)
    · exact h1 _ (h.1 .mb1)
    · exact h2 _ (h.1 .mb2)
  · cases f
    · exact h.2 .rx0
    · exact h.2 .rx1

/-! ### The whole machine -/

theorem State.DataInv.onCtrl {s : State} (h : s.DataInv) (i : Iface) {f : Ctrl → Ctrl} (hf : ∀ c, c.Wf → (f c).Wf) :
    (s.onCtrl i f).DataInv where
  build := by simpa using h.build
  ifaces j := by
    rw [iface_onCtrl]
    split
    · have hi := h.ifaces i
      exact ⟨by simpa using hi.rb, hi.lastHwErr, hi.registered, hf _ hi.ctrl⟩
    · simpa using h.ifaces j
  faults := by simpa using h.faults
  bridge := by simpa using h.bridge
  banks := by simpa using h.banks

/-- A change that touches neither the build, the interfaces, the faults, the bridge nor the banks' count. -/
theorem State.DataInv.of_eq {s t : State} (h : s.DataInv) (hc : t.cfg = s.cfg) (hi : ∀ i, t.iface i = s.iface i)
    (hf : t.faults = s.faults) (hb : t.bridge = s.bridge)
    (hfl : t.filt.fr1.length = s.filt.fr1.length ∧ t.filt.fr2.length = s.filt.fr2.length) : t.DataInv where
  build := by rw [hc]; exact h.build
  ifaces i := by rw [hc, hi]; exact h.ifaces i
  faults := by rw [hf]; exact h.faults
  bridge := by rw [hb, hc]; exact h.bridge
  banks := by rw [hfl.1, hfl.2]; exact h.banks

theorem State.DataInv.writeReg {s : State} (h : s.DataInv) (i : Iface) (r : Reg) (v : Word) :
    (s.writeReg i r v).DataInv := by
  have hfilt (fl : Filters) (h1 : fl.fr1.length = s.filt.fr1.length) (h2 : fl.fr2.length = s.filt.fr2.length) :
      ({ s with filt := fl } : State).DataInv :=
    h.of_eq rfl (fun i => by cases i <;> rfl) rfl rfl ⟨h1, h2⟩
  cases r with
  | mcr | msr | ier | esr =>
    simp only [State.writeReg]
    exact h.onCtrl i fun c hc => ⟨hc.mailboxes, hc.fifos⟩
  | btr =>
    simp only [State.writeReg]
    exact h.onCtrl i fun c hc => by split <;> exact ⟨hc.mailboxes, hc.fifos⟩
  | tsr =>
    simp only [State.writeReg]
    exact h.onCtrl i fun c hc =>
      hc.onTsr (fun b hb => hb.writeTsr _) (fun b hb => hb.writeTsr _) (fun b hb => hb.writeTsr _) c.code
  | rfr f =>
    simp only [State.writeReg]
    exact h.onCtrl i fun c hc => hc.onRx f fun x hx => hx.write v
  | tir m =>
    simp only [State.writeReg]
    exact h.onCtrl i fun c hc => hc.onMb m fun b hb => hb.writeTir v
  | tdtr m | tdlr m | tdhr m =>
    simp only [State.writeReg]
    exact h.onCtrl i fun c hc => hc.onMb m fun b hb => by
      split
      · exact hb.of_eq rfl rfl rfl rfl
      · exact hb
  | rir | rdtr | rdlr | rdhr => exact h
  | fmr | fm1r | fs1r | ffa1r | fa1r => exact hfilt _ rfl rfl
  | fr1 b =>
    simp only [State.writeReg]
    split
    · exact hfilt _ (by simp) rfl
    · exact h
  | fr2 b =>
    simp only [State.writeReg]
    split
    · exact hfilt _ rfl (by simp)
    · exact h

theorem State.DataInv.driftReg {s : State} (h : s.DataInv) (i : Iface) (r : Reg) (v : Word) :
    (s.driftReg i r v).DataInv := by
  have hfilt (fl : Filters) (h1 : fl.fr1.length = s.filt.fr1.length) (h2 : fl.fr2.length = s.filt.fr2.length) :
      ({ s with filt := fl } : State).DataInv :=
    h.of_eq rfl (fun i => by cases i <;> rfl) rfl rfl ⟨h1, h2⟩
  have hd (v' : Byte) (low : Bool) (b : Mailbox) (hb : b.Wf) : (b.drift v' low).Wf := hb.of_eq rfl rfl rfl rfl
  cases r with
  | mcr | msr | ier | esr | btr =>
    simp only [State.driftReg]
    exact h.onCtrl i fun c hc => ⟨hc.mailboxes, hc.fifos⟩
  | tsr =>
    simp only [State.driftReg]
    exact h.onCtrl i fun c hc => hc.onTsr (hd _ _) (hd _ _) (hd _ _) _
  | rfr f | rir f | rdtr f | rdlr f | rdhr f =>
    simp only [State.driftReg]
    exact h.onCtrl i fun c hc => hc.onRx f fun x hx => hx.of_eq rfl
  | tdtr m =>
    simp only [State.driftReg]
    exact h.onCtrl i fun c hc => hc.onMb m fun b hb => hb.of_eq rfl rfl rfl rfl
  | tir | tdlr | tdhr | fr1 | fr2 => exact h
  | fmr | fm1r | fs1r | ffa1r | fa1r => exact hfilt _ rfl rfl

theorem State.DataInv.envAct {s : State} (h : s.DataInv) (a : EnvAct) : (envAct a s).DataInv := by
  have hc (i : Iface) (f : Ctrl → Ctrl) (hf : ∀ c, c.Wf → (f c).Wf) : (s.ctrlStep i f).DataInv := by
    unfold State.ctrlStep
    split
    · exact h.onCtrl i hf
    · exact h
  cases a with
  | enterConfig i => exact hc i _ fun c hw => by unfold Ctrl.enterConfig; split <;> exact ⟨hw.mailboxes, hw.fifos⟩
  | enterNormal i => exact hc i _ fun c hw => by unfold Ctrl.enterNormal; split <;> exact ⟨hw.mailboxes, hw.fifos⟩
  | complete i m txok => exact hc i _ fun c hw => hw.onMb m fun b hb => hb.complete txok
  | arrive i f msg replace =>
    refine hc i _ fun c hw => ?_
    split
    · next hm => exact hw.onRx f fun x hx => hx.arrive hm.2 replace
    · exact hw
  | busError i lec =>
    refine hc i _ fun c hw => ?_
    split
    · unfold Ctrl.busError; split <;> exact ⟨hw.mailboxes, hw.fifos⟩
    · exact hw
  | drift i r v =>
    simp only [Machine.envAct]
    split
    · exact h.driftReg i r v
    · exact h
  | tick | pool => exact h.of_eq rfl (fun i => by cases i <;> rfl) rfl rfl ⟨rfl, rfl⟩
  | consume =>
    refine ⟨h.build, fun i => ?_, h.faults, ?_, h.banks⟩
    · exact h.ifaces i
    · have := h.bridge
      simp [Machine.envAct]
      omega

theorem State.DataInv.onIface {s : State} (h : s.DataInv) (i : Iface) {f : IfaceState → IfaceState}
    (hf : ∀ x, x.Wf s.cfg.rxCapacity → (f x).Wf s.cfg.rxCapacity) : (s.onIface i f).DataInv where
  build := by simpa using h.build
  ifaces j := by
    rw [iface_onIface, onIface_cfg]
    split
    · exact hf _ (h.ifaces i)
    · exact h.ifaces j
  faults := by simpa using h.faults
  bridge := by simpa using h.bridge
  banks := by simpa using h.banks

/-- The recorded faults stay in rising order with no repeats. -/
theorem insertFault_sorted (k : FaultKind) {l : List FaultKind} (h : l.Pairwise fun a b => a.code < b.code) :
    (insertFault k l).Pairwise fun a b => a.code < b.code := by
  induction l with
  | nil => simp [insertFault]
  | cons x xs ih =>
    have hmem : ∀ y ∈ insertFault k xs, y = k ∨ y ∈ xs := by
      clear ih h
      induction xs with
      | nil => intro y hy; simp [insertFault] at hy; exact .inl hy
      | cons z zs ihz =>
        intro y hy
        unfold insertFault at hy
        split at hy
        · exact .inr hy
        · split at hy
          · exact (List.mem_cons.1 hy).imp id id
          · rcases List.mem_cons.1 hy with hy | hy
            · exact .inr (hy ▸ List.mem_cons_self)
            · exact (ihz y hy).imp id (List.mem_cons_of_mem z)
    obtain ⟨h1, h2⟩ := List.pairwise_cons.1 h
    unfold insertFault
    split
    · exact h
    · next hne =>
      split
      · next hlt =>
        refine List.pairwise_cons.2 ⟨fun y hy => ?_, h⟩
        rcases List.mem_cons.1 hy with hy | hy
        · rw [hy]; exact hlt
        · exact Nat.lt_trans hlt (h1 y hy)
      · next hge =>
        refine List.pairwise_cons.2 ⟨fun y hy => ?_, ih h2⟩
        rcases hmem y hy with hy | hy
        · have : k.code ≠ x.code := fun e => hne (by cases k <;> cases x <;> simp_all [FaultKind.code])
          rw [hy]
          omega
        · exact h1 y hy

/-- Every change a step makes keeps the legal states of the parts. -/
theorem dataInv_closed : ClosedStep fun s t => s.DataInv → t.DataInv where
  refl _ h := h
  trans h₁ h₂ h := h₂ (h₁ h)
  reg s i r v h := h.writeReg i r v
  env s a h := h.envAct a
  inner s l h := h.of_eq rfl (fun i => by cases i <;> rfl) rfl rfl ⟨rfl, rfl⟩
  cs s b h := h.of_eq rfl (fun i => by cases i <;> rfl) rfl rfl ⟨rfl, rfl⟩
  isr s b h := h.of_eq rfl (fun i => by cases i <;> rfl) rfl rfl ⟨rfl, rfl⟩
  record s h := h.of_eq rfl (fun i => by cases i <;> rfl) rfl rfl ⟨rfl, rfl⟩
  fg s x h := h.of_eq rfl (fun i => by cases i <;> rfl) rfl rfl ⟨rfl, rfl⟩
  fault s k cw h := ⟨h.build, fun i => by simpa using h.ifaces i, insertFault_sorted k h.faults, h.bridge, h.banks⟩
  wake s b h := h.of_eq rfl (fun i => by cases i <;> rfl) rfl rfl ⟨rfl, rfl⟩
  bridge s fr hb h := ⟨h.build, h.ifaces, h.faults, by simp; omega, h.banks⟩
  errCnt s i h := h.onIface i fun x hx => ⟨hx.rb, hx.lastHwErr, hx.registered, hx.ctrl⟩
  lastErr s i e h := h.onIface i fun x hx => ⟨hx.rb, by simp; omega, hx.registered, hx.ctrl⟩
  hadAct s i b h := h.onIface i fun x hx => ⟨hx.rb, hx.lastHwErr, hx.registered, hx.ctrl⟩
  push s i e h := h.onIface i fun x hx => ⟨hx.rb.push e, hx.lastHwErr, hx.registered, hx.ctrl⟩
  drop s i h := h.onIface i fun x hx => ⟨hx.rb.drop, hx.lastHwErr, hx.registered, hx.ctrl⟩
  pend s i m f h := h.onIface i fun x hx =>
    ⟨by simpa using hx.rb, by simpa using hx.lastHwErr,
      fun src hs => by simpa using hx.registered src (by cases src <;> simpa [IfaceState.vec] using hs),
      by simpa using hx.ctrl⟩
  sem s i f h := h.onIface i fun x hx => ⟨hx.rb, hx.lastHwErr, hx.registered, hx.ctrl⟩
  clock s i b h := h.onIface i fun x hx => ⟨hx.rb, hx.lastHwErr, hx.registered, hx.ctrl⟩
  pulse s i h := by
    have := h.onCtrl i (f := fun _ => Ctrl.reset) fun _ _ => Ctrl.reset_wf
    cases i
    · exact ⟨this.build, this.ifaces, this.faults, this.bridge, by simp [State.resetPulse, Filters.reset]⟩
    · exact this
  registry s i h := h.onIface i fun x hx => ⟨hx.rb, hx.lastHwErr, fun _ _ => rfl, hx.ctrl⟩
  vector s i src hr h := by
    cases src
    · have := h.onIface i (f := fun x => { x with vecTx := true, registry := true }) fun x hx =>
        ⟨hx.rb, hx.lastHwErr, fun _ _ => rfl, hx.ctrl⟩
      cases i <;> simp_all [State.onIface, DispatchStep.effect]
    · have := h.onIface i (f := fun x => { x with vecRx0 := true, registry := true }) fun x hx =>
        ⟨hx.rb, hx.lastHwErr, fun _ _ => rfl, hx.ctrl⟩
      cases i <;> simp_all [State.onIface, DispatchStep.effect]
    · have := h.onIface i (f := fun x => { x with vecRx1 := true, registry := true }) fun x hx =>
        ⟨hx.rb, hx.lastHwErr, fun _ _ => rfl, hx.ctrl⟩
      cases i <;> simp_all [State.onIface, DispatchStep.effect]
  res s r h := h.of_eq rfl (fun i => by cases i <;> rfl) rfl rfl ⟨rfl, rfl⟩
  sched s l h := h.of_eq rfl (fun i => by cases i <;> rfl) rfl rfl ⟨rfl, rfl⟩
  port s q l h := h.of_eq rfl (fun i => by cases i <;> rfl) rfl rfl ⟨rfl, rfl⟩

end Sys2Proof.Machine
end

