-- ==== Sys2Proof/Laws/Calm.lean ====
section
/-! SUPPORT. Contexts: every operation ends in the context (critical section, interrupt context) it started from, at every
schedule of the other agents; and where every register block is clocked and every enabled vector registered (`strict`), it
raises no fault. -/

namespace Sys2Proof.Machine

variable {α β : Type} {strict : Prop} {p : Params} {c r : Bool}

/-- A state of the build `p` in a given context with no fault taken; `strict` adds that the block is in normal
operation. -/
structure Calm (strict : Prop) (p : Params) (c r : Bool) (s : State) : Prop where
  cfg     : s.cfg = p
  cs      : s.cs = c
  isr     : s.inIsr = r
  faults  : s.faults = []
  clocked : strict → s.Clocked

/-- How an operation may stop: never in normal operation, and with no fault recorded but the one it stops with, which an
interrupt service at an interleaving point has recorded already (60_exceptions.md R312). -/
def Stop (strict : Prop) (k : FaultKind) (s : State) : Prop := ¬strict ∧ (s.faults = [] ∨ s.faults = [k])

/-- `x` ends in the context it starts from, and raises a fault only outside normal operation. -/
def Keeps (strict : Prop) (p : Params) (c r : Bool) (x : Op α) : Prop :=
  Meets (Calm strict p c r) x (fun _ => Calm strict p c r) (Stop strict)

theorem Keeps.pure (a : α) : Keeps strict p c r (pure a) := Meets.pure a fun _ h => h
theorem Keeps.ask (f : State → α) : Keeps strict p c r (ask f) := Meets.ask fun _ h => h

theorem Keeps.bind {x : Op β} {f : β → Op α} (hx : Keeps strict p c r x) (hf : ∀ b, Keeps strict p c r (f b)) :
    Keeps strict p c r (x >>= f) := Meets.bind _ hx hf

theorem Keeps.ite {q : Prop} [Decidable q] {x y : Op α} (hx : Keeps strict p c r x) (hy : Keeps strict p c r y) :
    Keeps strict p c r (if q then x else y) := Meets.ite (fun _ => hx) fun _ => hy

theorem Keeps.onlyIf {q : Bool} {x : Op Unit} (hx : Keeps strict p c r x) : Keeps strict p c r (onlyIf q x) :=
  Keeps.ite hx (.pure _)

theorem Keeps.upd {f : State → State} (hf : ∀ s, Calm strict p c r s → Calm strict p c r (f s)) :
    Keeps strict p c r (upd f) := Meets.upd hf

/-! ### Changes that keep a context -/

theorem Calm.withCtrls {s : State} (h : Calm strict p c r s) {c0 c1 : Ctrl} {fl : Filters}
    (hd : s.DataInv → (s.withCtrls c0 c1 fl).DataInv) : Calm strict p c r (s.withCtrls c0 c1 fl) where
  cfg := h.cfg
  cs := h.cs
  isr := h.isr
  faults := h.faults
  clocked hs := by
    refine ⟨hd (h.clocked hs).data, fun i hi => ?_⟩
    obtain ⟨c, e⟩ := withCtrls_iface s c0 c1 fl i
    rw [e]
    exact (h.clocked hs).clock i hi

theorem Calm.writeReg {s : State} (h : Calm strict p c r s) (i : Iface) (x : Reg) (v : Word) :
    Calm strict p c r (s.writeReg i x v) := by
  have hd : s.DataInv → (s.writeReg i x v).DataInv := fun hd => hd.writeReg i x v
  obtain ⟨c0, c1, fl, e⟩ := writeReg_shape s i x v
  rw [e] at hd ⊢
  exact h.withCtrls hd

/-- A change of fields that no context looks at. -/
theorem Calm.of_eq {s t : State} (h : Calm strict p c r s) (h1 : t.cfg = s.cfg) (h2 : t.cs = s.cs)
    (h3 : t.inIsr = s.inIsr) (h4 : t.faults = s.faults) (h5 : ∀ i, (t.iface i).clkEn = (s.iface i).clkEn)
    (hd : s.DataInv → t.DataInv) : Calm strict p c r t :=
  ⟨h1.trans h.cfg, h2.trans h.cs, h3.trans h.isr, h4.trans h.faults, fun hs =>
    ⟨hd (h.clocked hs).data, fun i hi => by rw [h5]; rw [h1] at hi; exact (h.clocked hs).clock i hi⟩⟩

theorem Calm.envAct {s : State} (h : Calm strict p c r s) (a : EnvAct) : Calm strict p c r (envAct a s) := by
  have hd : s.DataInv → (Machine.envAct a s).DataInv := fun hd => hd.envAct a
  rcases envAct_shape a s with ⟨c0, c1, fl, e⟩ | ⟨m, u, -, e⟩ | ⟨ok, e⟩ | e
  · rw [e] at hd ⊢; exact h.withCtrls hd
  all_goals rw [e] at hd ⊢; exact h.of_eq rfl rfl rfl rfl (fun i => by cases i <;> rfl) hd

theorem Calm.inner {s : State} (h : Calm strict p c r s) (l : List Inner) :
    Calm strict p c r { s with inner := l } :=
  h.of_eq rfl rfl rfl rfl (fun i => by cases i <;> rfl) (dataInv_closed.inner s l)

theorem Calm.fg {s : State} (h : Calm strict p c r s) (x : Fg) : Calm strict p c r { s with fg := x } :=
  h.of_eq rfl rfl rfl rfl (fun i => by cases i <;> rfl) (dataInv_closed.fg s x)

theorem Calm.wake {s : State} (h : Calm strict p c r s) (b : Bool) : Calm strict p c r { s with wake := b } :=
  h.of_eq rfl rfl rfl rfl (fun i => by cases i <;> rfl) (dataInv_closed.wake s b)

theorem Calm.res {s : State} (h : Calm strict p c r s) (x : Option Result) : Calm strict p c r { s with res := x } :=
  h.of_eq rfl rfl rfl rfl (fun i => by cases i <;> rfl) (dataInv_closed.res s x)

theorem Calm.answered {s : State} (h : Calm strict p c r s) : Calm strict p c r s.answered :=
  h.of_eq rfl rfl rfl rfl (fun i => by cases i <;> rfl) (dataInv_closed.record s)

/-- A change of one interface's soft state other than its clock. -/
theorem Calm.onIface {s : State} (h : Calm strict p c r s) {i : Iface} {f : IfaceState → IfaceState}
    (hd : s.DataInv → (s.onIface i f).DataInv) (hf : ∀ x, (f x).clkEn = x.clkEn) :
    Calm strict p c r (s.onIface i f) :=
  h.of_eq (by simp) (by simp) (by simp) (by simp)
    (fun j => by rw [iface_onIface]; split <;> simp_all) hd

theorem Calm.setCs {s : State} (h : Calm strict p c r s) (b : Bool) : Calm strict p b r { s with cs := b } where
  cfg := h.cfg
  cs := rfl
  isr := h.isr
  faults := h.faults
  clocked hs := ⟨dataInv_closed.cs s b (h.clocked hs).data, (h.clocked hs).clock⟩

theorem Calm.setIsr {s : State} (h : Calm strict p c r s) (b : Bool) : Calm strict p c b { s with inIsr := b } where
  cfg := h.cfg
  cs := h.cs
  isr := rfl
  faults := h.faults
  clocked hs := ⟨dataInv_closed.isr s b (h.clocked hs).data, (h.clocked hs).clock⟩

/-! ### Shared operations -/

theorem enterCs_meets : Meets (Calm strict p false r) enterCs (fun _ => Calm strict p true r) (Stop strict) := by
  intro s h
  rw [enterCs_free h.cs]
  exact h.setCs true

theorem exitCs_meets : Meets (Calm strict p true r) exitCs (fun _ => Calm strict p false r) (Stop strict) := by
  intro s h
  rw [exitCs_held h.cs]
  exact h.setCs false

theorem keeps_regRead {i : Iface} {x : Reg} (hi : strict → hasIface p i = true) (hr : hasReg i x) :
    Keeps strict p c r (regRead i x) := by
  intro s h
  by_cases hs : strict
  · have hc := h.clocked hs
    have hi' : hasIface s.cfg i = true := by rw [h.cfg]; exact hi hs
    rw [regRead_clocked hc.data.build hi' (hc.clock i hi') hr]
    exact h
  · have : regRead i x s = match accessTarget (base s.cfg i + x.off) 4 s with
        | .ok t s' => .ok (s'.readReg t.1 t.2) s'
        | .error k s' => .error k s' := by
      simp only [regRead, memRead, bind_run, ask_run]
      cases accessTarget (base s.cfg i + x.off) 4 s <;> rfl
    rw [this]
    rcases accessTarget_cases (base s.cfg i + x.off) 4 s with ⟨t, ht, -⟩ | ⟨k, hk⟩
    · rw [ht]; exact h
    · rw [hk]; exact ⟨hs, .inl h.faults⟩

theorem keeps_regWrite {i : Iface} {x : Reg} (hi : strict → hasIface p i = true) (hr : hasReg i x) (v : Word) :
    Keeps strict p c r (regWrite i x v) := by
  intro s h
  by_cases hs : strict
  · have hc := h.clocked hs
    have hi' : hasIface s.cfg i = true := by rw [h.cfg]; exact hi hs
    rw [regWrite_clocked hc.data.build hi' (hc.clock i hi') hr]
    exact h.writeReg i x v
  · have : regWrite i x v s = match accessTarget (base s.cfg i + x.off) 4 s with
        | .ok t s' => .ok () (s'.writeReg t.1 t.2 v)
        | .error k s' => .error k s' := by
      simp only [regWrite, memWrite, bind_run, ask_run]
      cases accessTarget (base s.cfg i + x.off) 4 s <;> rfl
    rw [this]
    rcases accessTarget_cases (base s.cfg i + x.off) 4 s with ⟨t, ht, -⟩ | ⟨k, hk⟩
    · rw [ht]; exact h.writeReg _ _ v
    · rw [hk]; exact ⟨hs, .inl h.faults⟩

/-- A service operation that ends in a context returns its record there. -/
theorem returning_meets {pre : State → Prop} {err : FaultKind → State → Prop} {x : Op Unit}
    (hx : Meets pre x (fun _ => Calm strict p c r) err) : Meets pre (returning x) (fun _ => Calm strict p c r) err :=
  Meets.bind _ hx fun _ => Meets.upd fun _ h => h.answered

theorem keeps_signalWake : Keeps strict p c r signalWake := .upd fun _ h => h.wake true

theorem keeps_mark (op : Instr) (ph : Phase) : Keeps strict p c r (mark op ph) := .upd fun _ h => h.fg _

theorem keeps_countError (i : Iface) : Keeps strict p c r (countError i) :=
  .upd fun s h => h.onIface (dataInv_closed.errCnt s i) fun _ => rfl

theorem keeps_markActivity (i : Iface) : Keeps strict p c r (markActivity i) :=
  .upd fun s h => h.onIface (dataInv_closed.hadAct s i true) fun _ => rfl

theorem keeps_bridgeHook (fr : Frame) : Keeps strict p c r (bridgeHook fr) :=
  .upd fun s h => h.of_eq rfl rfl rfl rfl (fun i => by cases i <;> rfl) (by
    split
    · next hc =>
      apply dataInv_closed.bridge
      simp only [Bool.and_eq_true, decide_eq_true_eq] at hc
      exact hc.2
    · exact id)

theorem keeps_rbPush (hg : c = true ∨ r = true) (i : Iface) (e : RxEntry) : Keeps strict p c r (rbPush i e) := by
  intro s h
  rw [rbPush_guarded (by rw [h.cs, h.isr]; exact hg.symm)]
  exact h.onIface (dataInv_closed.push s i e) fun _ => rfl

/-! ### Services -/

theorem Calm.envMoves {s : State} (h : Calm strict p c r s) (l : List Inner) : Calm strict p c r (envMoves l s) := by
  induction l generalizing s with
  | nil => exact h.inner []
  | cons m l ih =>
    cases m with
    | env a => exact ih (h.envAct a)
    | irq i src => exact ih h
    | go => exact h.inner l

theorem keeps_envPoint : Keeps strict p c r envPoint := fun s h => h.envMoves s.inner

theorem keeps_svcRead {i : Iface} {x : Reg} (hi : strict → hasIface p i = true) (hr : hasReg i x) :
    Keeps strict p c r (svcRead i x) := .bind keeps_envPoint fun _ => keeps_regRead hi hr

theorem keeps_svcWrite {i : Iface} {x : Reg} (hi : strict → hasIface p i = true) (hr : hasReg i x) (v : Word) :
    Keeps strict p c r (svcWrite i x v) := .bind keeps_envPoint fun _ => keeps_regWrite hi hr v

section service

variable {i : Iface} (hi : strict → hasIface p i = true)
include hi

theorem keeps_pollError : Keeps strict p c r (pollError i) :=
  returning_meets <| Keeps.bind (keeps_svcRead hi fun _ => rfl) fun _ => .ite (.pure _)
    (.bind (.upd fun s h => h.onIface (dataInv_closed.lastErr s i _) fun _ => rfl) fun _ =>
      .bind (keeps_svcWrite hi (fun _ => rfl) _) fun _ => keeps_countError i)

theorem keeps_serviceMailbox (m : Mb) : Keeps strict p c true (serviceMailbox i m) :=
  .bind (keeps_svcRead hi fun _ => rfl) fun _ => .ite
    (.bind (keeps_svcWrite hi (fun _ => rfl) _) fun _ => .bind (.onlyIf (keeps_markActivity i)) fun _ =>
      .bind (.ask _) fun _ =>
      .bind (.onlyIf (.bind (.ask _) fun _ => .bind (.ask _) fun _ => keeps_rbPush (.inr rfl) i _)) fun _ =>
      .bind (.onlyIf (keeps_countError i)) fun _ =>
      .bind (.upd fun s h => h.onIface (dataInv_closed.pend s i m _) fun _ => by simp) fun _ =>
      .onlyIf (.upd fun s h => h.onIface (dataInv_closed.sem s i satInc32) fun _ => rfl)) (.pure _)

theorem keeps_txService : Keeps strict p c true (txService i) :=
  returning_meets <| Keeps.bind (keeps_serviceMailbox hi _) fun _ => .bind (keeps_serviceMailbox hi _) fun _ =>
    .bind (keeps_serviceMailbox hi _) fun _ => .bind (keeps_pollError hi) fun _ => keeps_signalWake

/-- Everything an RX service does once it has found a message. -/
theorem keeps_drain (f : Fifo) (fovr : Bool) : Keeps strict p c true (do
    onlyIf fovr (countError i)
    let rir ← svcRead i (.rir f)
    let rdtr ← svcRead i (.rdtr f)
    let rdlr ← svcRead i (.rdlr f)
    let rdhr ← svcRead i (.rdhr f)
    let fr := rxDecode rir rdtr rdlr rdhr
    svcWrite i (.rfr f) rfrRelease
    let t ← nowUtc
    rbPush i ⟨fr, t, 0#16⟩
    bridgeHook fr
    markActivity i
    pollError i
    signalWake) :=
  .bind (.onlyIf (keeps_countError i)) fun _ => .bind (keeps_svcRead hi fun _ => rfl) fun _ =>
    .bind (keeps_svcRead hi fun _ => rfl) fun _ => .bind (keeps_svcRead hi fun _ => rfl) fun _ =>
    .bind (keeps_svcRead hi fun _ => rfl) fun _ => .bind (keeps_svcWrite hi (fun _ => rfl) _) fun _ =>
    .bind (.ask _) fun _ => .bind (keeps_rbPush (.inr rfl) i _) fun _ => .bind (keeps_bridgeHook _) fun _ =>
    .bind (keeps_markActivity i) fun _ => .bind (keeps_pollError hi) fun _ => keeps_signalWake

end service

/-! ### A FIFO that holds a message keeps one until it is released (47_controller_env.md R284) -/

theorem RxFifo.fmp_eq_zero (x : RxFifo) : x.fmp = 0#2 ↔ x.q = [] := by
  unfold RxFifo.fmp
  rw [← BitVec.toNat_inj, ← List.length_eq_zero_iff, BitVec.toNat_ofNat]
  show min x.q.length 3 % 4 = 0 ↔ _
  omega

theorem RxFifo.rfrFmp_rfrWord (x : RxFifo) : rfrFmp x.rfrWord = x.fmp := by
  unfold rfrFmp RxFifo.rfrWord
  generalize x.fmp = y
  apply BitVec.eq_of_getLsbD_eq
  intro i hi
  simp only [BitVec.getLsbD_extractLsb', BitVec.getLsbD_append]
  simp [hi]

theorem envAct_keeps_fifo {s : State} (a : EnvAct) {i : Iface} {f : Fifo} (h : ((s.ctrl i).rx f).q ≠ []) :
    (((envAct a s).ctrl i).rx f).q ≠ [] := by
  have key {j : Iface} {g : Ctrl → Ctrl} (hg : ∀ c : Ctrl, (c.rx f).q ≠ [] → ((g c).rx f).q ≠ []) :
      (((s.onCtrl j g).ctrl i).rx f).q ≠ [] := by
    unfold State.ctrl at *
    rw [iface_onCtrl]
    split
    · next e => subst e; exact hg _ h
    · exact h
  have hstep {j : Iface} {g : Ctrl → Ctrl} (hg : ∀ c : Ctrl, (c.rx f).q ≠ [] → ((g c).rx f).q ≠ []) :
      (((s.ctrlStep j g).ctrl i).rx f).q ≠ [] := by
    unfold State.ctrlStep
    split
    · exact key hg
    · exact h
  have hrx {c : Ctrl} {k : Fifo} {g : RxFifo → RxFifo} (hg : ∀ x : RxFifo, x.q ≠ [] → (g x).q ≠ [])
      (hc : (c.rx f).q ≠ []) : ((c.onRx k g).rx f).q ≠ [] := by
    rw [rx_onRx]
    split
    · next e => subst e; exact hg _ hc
    · exact hc
  cases a with
  | enterConfig j => exact hstep fun c hc => by unfold Ctrl.enterConfig; split <;> cases f <;> exact hc
  | enterNormal j => exact hstep fun c hc => by unfold Ctrl.enterNormal; split <;> cases f <;> exact hc
  | complete j m txok => exact hstep fun c hc => by rw [rx_onMb]; exact hc
  | arrive j k msg replace =>
    refine hstep fun c hc => ?_
    split
    · refine hrx (fun x hx => ?_) hc
      unfold RxFifo.arrive
      split
      · simp
      · cases replace
        · exact hx
        · simp
    · exact hc
  | busError j lec =>
    refine hstep fun c hc => ?_
    split
    · unfold Ctrl.busError; split <;> cases f <;> exact hc
    · exact hc
  | drift j x v =>
    simp only [envAct]
    split
    · cases x <;> simp only [State.driftReg] <;> first
        | exact h
        | exact key fun c hc => hrx (fun x hx => hx) hc
        | exact key fun c hc => by rw [rx_onMb]; exact hc
        | exact key fun c hc => by cases f <;> exact hc
    · exact h
  | tick | pool | consume => cases i <;> exact h

theorem envMoves_keeps_fifo {s : State} (l : List Inner) {i : Iface} {f : Fifo} (h : ((s.ctrl i).rx f).q ≠ []) :
    (((envMoves l s).ctrl i).rx f).q ≠ [] := by
  induction l generalizing s with
  | nil => cases i <;> exact h
  | cons m l ih =>
    cases m with
    | env a => exact ih (envAct_keeps_fifo a h)
    | irq j src => exact ih h
    | go => cases i <;> exact h

/-- An RX service of a FIFO that holds a message never finds it empty, at every schedule (44_rx_path.md R211). -/
theorem rxService_meets {i : Iface} (hi : strict → hasIface p i = true) (f : Fifo) :
    Meets (fun s => Calm strict p c true s ∧ (strict → ((s.ctrl i).rx f).q ≠ [])) (rxService i f)
      (fun _ => Calm strict p c true) (Stop strict) := by
  have hread : Meets (fun s => Calm strict p c true s ∧ (strict → ((s.ctrl i).rx f).q ≠ [])) (svcRead i (.rfr f))
      (fun v s => Calm strict p c true s ∧ (strict → rfrFmp v ≠ 0#2)) (Stop strict) := by
    intro s h
    have h1 := keeps_svcRead (strict := strict) (p := p) (c := c) (r := true) (x := .rfr f) hi (fun _ => rfl) s h.1
    by_cases hs : strict
    · have hc := h.1.envMoves s.inner
      have hq := envMoves_keeps_fifo s.inner (h.2 hs)
      have hi' : hasIface (envMoves s.inner s).cfg i = true := by rw [hc.cfg]; exact hi hs
      have e : svcRead i (.rfr f) s =
          .ok ((envMoves s.inner s).readReg i (.rfr f)) (envMoves s.inner s) := by
        simp only [svcRead, bind_run, envPoint]
        exact regRead_clocked (hc.clocked hs).data.build hi' ((hc.clocked hs).clock i hi') fun _ => rfl
      rw [e]
      refine ⟨hc, fun _ => ?_⟩
      simp only [State.readReg, RxFifo.rfrFmp_rfrWord]
      rw [Ne, RxFifo.fmp_eq_zero]
      exact hq
    · cases hr : svcRead i (.rfr f) s with
      | ok v s' => rw [hr] at h1; exact ⟨h1, fun h => absurd h hs⟩
      | error k s' => rw [hr] at h1; exact h1
  refine returning_meets <| Meets.bind _ hread fun v => Meets.ite (fun hv => Meets.raise fun s h => ⟨fun hs => h.2 hs hv, .inl h.1.faults⟩) fun _ => ?_
  exact (keeps_drain hi f _).weaken (fun s h => h.1) (fun _ _ h => h) fun _ _ h => h

/-! ### Entry operations and interleaving points -/

theorem entryAround_meets {i : Iface} {x : Op Unit} {Q : State → Prop}
    (hQ : ∀ s, Q s → Q { s with inIsr := true })
    (hx : Meets (fun s => Calm strict p c true s ∧ (strict → Q s)) x (fun _ => Calm strict p c true)
      (Stop strict)) :
    Meets (fun s => Calm strict p c r s ∧ (strict → (s.iface i).registry = true ∧ Q s)) (entryAround i x)
      (fun _ => Calm strict p c false) (Stop strict) := by
  refine returning_meets <| Meets.bind (fun b s => Calm strict p c r s ∧ (strict → b = true ∧ Q s))
    (Meets.ask fun s h => ⟨h.1, h.2⟩) fun b => Meets.ite (fun _ => ?_) fun hb => Meets.raise fun s h => ⟨fun hs => hb (h.2 hs).1, .inl h.1.faults⟩
  refine Meets.bind (fun _ s => Calm strict p c true s ∧ (strict → Q s))
    (Meets.upd fun s h => ⟨h.1.setIsr true, fun hs => hQ s (h.2 hs).2⟩) fun _ =>
    Meets.bind _ hx fun _ => Meets.upd fun s h => h.setIsr false

/-- An entry operation that the start condition admits (60_exceptions.md R304). -/
theorem entryOp_meets (i : Iface) (src : Source) :
    Meets (fun s => Calm strict p false false s ∧ canStart s i src = true) (entryOp i src)
      (fun _ => Calm strict p false false) (Stop strict) := by
  intro s₁ h₁
  have hcan := h₁.2
  simp only [canStart, Bool.and_eq_true] at hcan
  obtain ⟨⟨⟨⟨⟨hi, hp⟩, hv⟩, -⟩, -⟩, -⟩ := hcan
  have hi' : strict → hasIface p i = true := fun _ => by rw [← h₁.1.cfg]; exact hi
  have hreg : strict → (s₁.iface i).registry = true := fun hs => ((h₁.1.clocked hs).data.ifaces i).registered src hv
  have hq (f : Fifo) (h : rfrFmp (s₁.readReg i (.rfr f)) ≠ 0#2) : ((s₁.ctrl i).rx f).q ≠ [] := by
    simp only [State.readReg, RxFifo.rfrFmp_rfrWord] at h
    rwa [Ne, RxFifo.fmp_eq_zero] at h
  have hrx (f : Fifo) (h : rfrFmp (s₁.readReg i (.rfr f)) ≠ 0#2) := entryAround_meets (i := i)
    (Q := fun s => ((s.ctrl i).rx f).q ≠ []) (fun s h => by cases i <;> exact h)
    (rxService_meets (strict := strict) (p := p) hi' f) s₁ ⟨h₁.1, fun hs => ⟨hreg hs, hq f h⟩⟩
  cases src with
  | tx =>
    exact entryAround_meets (Q := fun _ => True) (fun _ _ => trivial)
      ((keeps_txService hi').weaken (fun s h => h.1) (fun _ _ h => h) fun _ _ h => h) s₁
      ⟨h₁.1, fun hs => ⟨hreg hs, trivial⟩⟩
  | rx0 =>
    simp only [pendingIrq, Bool.and_eq_true, bne_iff_ne] at hp
    exact hrx .rx0 hp.2
  | rx1 =>
    simp only [pendingIrq, Bool.and_eq_true, bne_iff_ne] at hp
    exact hrx .rx1 hp.2

theorem keeps_dispatcherMove (i : Iface) (src : Source) : Keeps strict p c r (dispatcherMove i src) := by
  intro s h
  cases hc : canStart s i src with
  | false => rw [dispatcherMove_idle hc]; exact h
  | true =>
    have hctx : c = false ∧ r = false := by
      have := hc
      simp only [canStart, Bool.and_eq_true, Bool.not_eq_true'] at this
      exact ⟨h.cs ▸ this.1.1.2, h.isr ▸ this.1.2⟩
    obtain ⟨rfl, rfl⟩ := hctx
    have := entryOp_meets i src s ⟨h, hc⟩
    rw [dispatcherMove_start hc]
    cases hr : entryOp i src s with
    | ok a s' => rw [hr] at this; exact this
    | error k s' =>
      rw [hr] at this
      refine ⟨this.1, .inr ?_⟩
      rcases this.2 with e | e <;> rw [takeFault_faults, e] <;> simp [insertFault]

theorem keeps_preemptMoves (n : Nat) : Keeps strict p c r (preemptMoves n) := by
  induction n with
  | zero => exact .pure ()
  | succ n ih =>
    intro s h
    cases hl : s.inner with
    | nil => rw [preemptMoves_nil hl]; exact h
    | cons m l =>
      cases m with
      | env a => rw [preemptMoves_env hl]; exact ih _ ((h.inner l).envAct a)
      | go => rw [preemptMoves_go hl]; exact h.inner l
      | irq i src =>
        have := keeps_dispatcherMove i src _ (h.inner l)
        rw [preemptMoves_irq hl]
        cases hr : dispatcherMove i src { s with inner := l } with
        | ok a s' => rw [hr] at this; exact ih _ this
        | error k s' => rw [hr] at this; exact this

theorem keeps_preempt : Keeps strict p c r preempt := fun s h => keeps_preemptMoves s.inner.length s h

theorem keeps_stepAt (op : Instr) (ph : Phase) : Keeps strict p c r (stepAt op ph) :=
  .bind (keeps_mark op ph) fun _ => keeps_preempt

/-! ### The foreground's operations, from each of their steps on -/

section point

variable {point : Op Unit}

theorem keeps_fgRead (hp : Keeps strict p c r point) {i : Iface} {x : Reg} (hi : strict → hasIface p i = true)
    (hr : hasReg i x) : Keeps strict p c r (fgRead point i x) := .bind hp fun _ => keeps_regRead hi hr

theorem keeps_fgWrite (hp : Keeps strict p c r point) {i : Iface} {x : Reg} (hi : strict → hasIface p i = true)
    (hr : hasReg i x) (v : Word) : Keeps strict p c r (fgWrite point i x v) := .bind hp fun _ => keeps_regWrite hi hr v

variable (hp : Keeps strict p false r point)
include hp

theorem enterCsAt_meets :
    Meets (Calm strict p false r) (enterCsAt point) (fun _ => Calm strict p true r) (Stop strict) :=
  Meets.bind _ hp fun _ => enterCs_meets

/-- A body between `enter_cs()` and `exit_cs()`. -/
theorem keeps_guarded {x : Op β} (hx : Keeps strict p true r x) {f : β → Op α}
    (hf : ∀ b, Meets (Calm strict p true r) (f b) (fun _ => Calm strict p false r) (Stop strict)) :
    Keeps strict p false r (do
      enterCsAt point
      let b ← x
      f b) :=
  Meets.bind _ (enterCsAt_meets hp) fun _ => Meets.bind _ hx hf

end point

theorem exitCs_then {x : Op α} (hx : Keeps strict p false r x) :
    Meets (Calm strict p true r) (do exitCs; x) (fun _ => Calm strict p false r) (Stop strict) :=
  Meets.bind _ exitCs_meets fun _ => hx

section reads

variable {point : Op Unit} (hp : Keeps strict p false r point)
include hp

theorem keeps_csAsk (f : State → α) : Keeps strict p false r (csAsk point f) :=
  keeps_guarded hp (.ask f) fun _ => exitCs_then (.pure _)

theorem keeps_csTake (f : State → α) {g : State → State}
    (hg : ∀ s, Calm strict p true r s → Calm strict p true r (g s)) : Keeps strict p false r (csTake point f g) :=
  keeps_guarded hp (.ask f) fun _ => Meets.bind _ (Keeps.upd hg) fun _ => exitCs_then (.pure _)

theorem keeps_takeActivity (i : Iface) : Keeps strict p false r (takeActivity point i) :=
  keeps_csTake hp _ fun s h => h.onIface (dataInv_closed.hadAct s i false) fun _ => rfl

/-- The read-and-clear of `last_hw_err` (45_status.md R241). -/
theorem keeps_takeError (i : Iface) : Keeps strict p false r (takeError point i) := by
  refine keeps_csTake hp _ fun s h => h.onIface ?_ fun _ => rfl
  have := dataInv_closed.lastErr s i 0#3
  simp only [BitVec.setWidth_zero] at this
  exact this

end reads

theorem keeps_pollInak {wait delay : Nat → Op Unit} (hw : ∀ n, Keeps strict p c r (wait n))
    (hd : ∀ n, Keeps strict p c r (delay n)) {i : Iface} (hi : strict → hasIface p i = true) (want : Bool) (n : Nat) :
    Keeps strict p c r (pollInak wait delay i want n) := by
  induction n with
  | zero => exact .pure _
  | succ n ih =>
    exact .bind (keeps_fgRead (hw n) hi fun _ => rfl) fun _ => .ite (.pure _) (.bind (hd n) fun _ => ih)

theorem hasIface_if0 (p : Params) : hasIface p .if0 = true := by
  unfold hasIface Params.numIfaces
  split <;> rfl

section init

variable {point : InitPhase → Op Unit} (hp : ∀ p', Keeps strict p c r (point p'))
include hp

theorem keeps_writeFilters (f : Word) (l : List (Reg × Word)) : Keeps strict p c r (writeFilters point f l) := by
  induction l with
  | nil => exact .pure _
  | cons x l ih =>
    exact .bind (keeps_fgWrite (hp _) (fun _ => hasIface_if0 p) (fun h => nomatch h) _) fun _ => ih

theorem keeps_filterPhase (i : Iface) : Keeps strict p c r (filterPhase point i) := by
  cases i
  · exact .bind (.bind (keeps_fgRead (hp _) (fun _ => hasIface_if0 p) (fun h => nomatch h)) fun _ =>
      .bind (.ask _) fun _ => keeps_writeFilters hp _ _) fun _ => .pure _
  · exact .pure _

variable {i : Iface} (hi : strict → hasIface p i = true)
include hi

theorem keeps_exitConfig : Keeps strict p c r (exitConfig point i) :=
  .bind (keeps_fgRead (hp _) hi fun _ => rfl) fun _ => .bind (keeps_fgWrite (hp _) hi (fun _ => rfl) _) fun _ =>
    .bind (keeps_pollInak (fun _ => hp _) (fun _ => hp _) hi _ _) fun _ => .ite (keeps_filterPhase hp i) (.pure _)

theorem keeps_programTiming (t : TimingParams) : Keeps strict p c r (programTiming point i t) :=
  .bind (keeps_fgWrite (hp _) hi (fun _ => rfl) _) fun _ => .bind (keeps_fgWrite (hp _) hi (fun _ => rfl) _) fun _ =>
    keeps_exitConfig hp hi

theorem keeps_enterConfig (t : TimingParams) : Keeps strict p c r (enterConfig point i t) :=
  .bind (keeps_fgRead (hp _) hi fun _ => rfl) fun _ => .bind (keeps_fgWrite (hp _) hi (fun _ => rfl) _) fun _ =>
    .bind (keeps_pollInak (fun _ => hp _) (fun _ => hp _) hi _ _) fun _ => .ite (keeps_programTiming hp hi t) (.pure _)

theorem keeps_ifInit (rate : Word) : Keeps strict p c r (ifInit point i rate) := by
  refine .bind (hp _) fun _ => .bind (.ask _) fun t => ?_
  cases t with
  | none => exact .pure _
  | some t => exact keeps_enterConfig hp hi t

end init

theorem keeps_initPoint (op : Instr) (w : InitPhase → Phase) (p' : InitPhase) :
    Keeps strict p c r (initPoint op w p') := by
  cases p' <;> first | exact keeps_mark _ _ | exact keeps_stepAt _ _

theorem keeps_sendLoad {point : SendPhase → Op Unit} (hp : ∀ p', Keeps strict p true r (point p')) {x : Sending}
    (hi : strict → hasIface p x.i = true) (tsr : Word) (m : Mb) (l : List LoadStep) :
    Meets (Calm strict p true r) (sendLoad point x tsr m l) (fun _ => Calm strict p false r) (Stop strict) := by
  induction l with
  | nil =>
    exact Meets.bind _ (Keeps.upd fun s h => h.onIface (dataInv_closed.pend s x.i m _) fun _ => by simp) fun _ =>
      exitCs_then (.pure _)
  | cons k l ih =>
    refine Meets.bind _ (keeps_fgWrite (hp _) hi ?_ _) fun _ => ih
    cases k <;> exact fun _ => rfl

theorem keeps_ifSend {point : SendPhase → Op Unit} (hp : ∀ c p', Keeps strict p c r (point p')) {x : Sending}
    (hi : strict → hasIface p x.i = true) : Keeps strict p false r (ifSend point x) := by
  refine Keeps.ite (.pure _) (Meets.bind _ (enterCsAt_meets (hp false _)) fun _ =>
    Meets.bind _ (keeps_fgRead (hp true _) hi fun _ => rfl) fun t => ?_)
  split
  · exact exitCs_then (.pure _)
  · exact keeps_sendLoad (hp true) hi _ _ _

theorem keeps_discardAbort {point : Op Unit} (hp : Keeps strict p c r point) {i : Iface}
    (hi : strict → hasIface p i = true) (m : Mb) : Keeps strict p c r (discardAbort point i m) :=
  .bind (keeps_fgWrite hp hi (fun _ => rfl) _) fun _ =>
    .bind (.upd fun s h => h.onIface (dataInv_closed.pend s i m _) fun _ => by simp) fun _ => keeps_countError i

theorem keeps_discardSlots {point : DiscardPhase → Op Unit} (hp : ∀ p', Keeps strict p true r (point p')) {i : Iface}
    (hi : strict → hasIface p i = true) (now : U64) (ms : List Mb) :
    Meets (Calm strict p true r) (discardSlots point i now ms) (fun _ => Calm strict p false r) (Stop strict) := by
  induction ms with
  | nil => exact exitCs_meets
  | cons m ms ih =>
    exact Meets.bind _ (Keeps.bind (.ask _) fun _ => .ite (keeps_discardAbort (hp _) hi m) (.pure _)) fun _ => ih

theorem keeps_ifDiscard {point : DiscardPhase → Op Unit} (hp : ∀ c p', Keeps strict p c r (point p')) {i : Iface}
    (hi : strict → hasIface p i = true) (now : U64) : Keeps strict p false r (ifDiscard point i now) :=
  Meets.bind _ (enterCsAt_meets (hp false _)) fun _ => keeps_discardSlots (hp true) hi now _

theorem keeps_waitAt (op : Instr) (i : Iface) (dl : U64) : Keeps strict p false r (waitAt op i dl) :=
  keeps_guarded (keeps_stepAt _ _) (.ask _) fun _ => Meets.ite (fun _ => exitCs_then (.pure _)) fun _ =>
    Meets.bind _ (Keeps.upd fun s h => h.onIface (dataInv_closed.sem s i fun n => n - 1#32) fun _ => rfl) fun _ =>
      exitCs_then (.pure _)

/-- A pop inside the critical section, where the length was checked (41_ring_buffer.md R134). -/
theorem rbPop_meets {i : Iface} :
    Meets (fun s => Calm strict p true r s ∧ (s.iface i).rb.len ≠ 0) (rbPop i) (fun _ => Calm strict p true r)
      (Stop strict) := by
  intro s h
  rw [rbPop_nonempty (.inr h.1.cs) i h.2]
  exact h.1.onIface (dataInv_closed.drop s i) fun _ => rfl

/-- A pop that checks the length first: `onEmpty` where the buffer is empty, and `f` on the oldest entry elsewhere
(41_ring_buffer.md R133; 44_rx_path.md R225). -/
theorem keeps_checkedPop {point : Op Unit} (hp : Keeps strict p false r point) (i : Iface) {onEmpty : Op α}
    {f : RxEntry → Op α} (he : Keeps strict p false r onEmpty) (hf : ∀ e, Keeps strict p false r (f e)) :
    Keeps strict p false r (do
      enterCsAt point
      let n ← ask fun s => (s.iface i).rb.len
      if n = 0 then do
        exitCs
        onEmpty
      else do
        let e ← rbPop i
        exitCs
        f e) := by
  refine Meets.bind _ (enterCsAt_meets hp) fun _ =>
    Meets.bind (fun n s => Calm strict p true r s ∧ n = (s.iface i).rb.len) (Meets.ask fun s h => ⟨h, rfl⟩) fun n =>
    Meets.ite (fun _ => ?_) fun hn => ?_
  · exact (exitCs_then he).weaken (fun s h => h.1) (fun _ _ h => h) fun _ _ h => h
  · exact Meets.bind _ (rbPop_meets.weaken (fun s h => ⟨h.1, h.2 ▸ hn⟩) (fun _ _ h => h) fun _ _ h => h) fun e =>
      exitCs_then (hf e)

theorem keeps_receiveAt (op : Instr) (i : Iface) (tm : U64) : Keeps strict p false r (receiveAt op i tm) :=
  keeps_checkedPop (keeps_stepAt _ _) i (.pure _) fun _ => .pure _

theorem mem_ifaces {p : Params} {i : Iface} (h : i ∈ ifaces p) : hasIface p i = true := by
  unfold ifaces at h
  unfold hasIface Params.numIfaces
  split at h <;> simp_all [Iface.idx]
  rcases h with rfl | rfl <;> decide

/-- The interfaces the driver's loops run over are those of the build. -/
theorem askIfaces_meets {c r : Bool} :
    Meets (Calm strict p c r) (ask fun s => ifaces s.cfg) (fun is s => is = ifaces p ∧ Calm strict p c r s)
      (Stop strict) := Meets.ask fun s h => ⟨by rw [h.cfg], h⟩

theorem keeps_ready {point : ReadyPhase → Op Unit} (hp : ∀ p', Keeps strict p false r (point p')) :
    Keeps strict p false r (ready point) := by
  have hfrom {is : List Iface} (hi : ∀ i ∈ is, strict → hasIface p i = true) (rd wr : Byte) :
      Keeps strict p false r (readyFrom point is rd wr) := by
    induction is generalizing rd wr with
    | nil => exact .pure _
    | cons i is ih =>
      exact .bind (keeps_csAsk (hp _) _) fun _ =>
        .bind (.bind (keeps_fgRead (hp _) (hi i List.mem_cons_self) fun _ => rfl) fun _ => .pure _) fun _ =>
          ih (fun j hj => hi j (List.mem_cons_of_mem i hj)) _ _
  refine Meets.bind _ askIfaces_meets fun is s h => ?_
  obtain ⟨rfl, h⟩ := h
  exact hfrom (fun i hi _ => mem_ifaces hi) _ _ s h

theorem keeps_select (op : Instr) (q : Selecting) : Keeps strict p false r (select op q) := by
  have hsweep (t : U64) {is : List Iface} (hi : ∀ i ∈ is, strict → hasIface p i = true) :
      Keeps strict p false r (sweep op q t is) := by
    induction is with
    | nil => exact .pure _
    | cons i is ih =>
      exact .bind (keeps_ifDiscard (fun _ _ => keeps_stepAt _ _) (hi i List.mem_cons_self) t) fun _ =>
        ih fun j hj => hi j (List.mem_cons_of_mem i hj)
  refine .bind (.ask _) fun t => Meets.bind _ askIfaces_meets fun is s h => ?_
  obtain ⟨rfl, h⟩ := h
  exact Keeps.bind (hsweep t fun i hi _ => mem_ifaces hi) (fun _ => .bind (keeps_ready fun _ => keeps_stepAt _ _)
    fun _ => .bind (.ask _) fun _ => .ite (.pure _) (.pure _)) s h

theorem keeps_wakeSelect : Keeps strict p false r wakeSelect :=
  .bind (.upd fun _ h => h.wake false) fun _ => .bind (keeps_ready fun _ => keeps_envPoint) fun _ => .pure _

theorem keeps_drvActivity (op : Instr) (is : List Iface) (v : Bool) : Keeps strict p false r (drvActivity op is v) := by
  refine .bind ?_ fun _ => .pure _
  induction is generalizing v with
  | nil => exact .pure _
  | cons i is ih => exact .bind (keeps_takeActivity (keeps_stepAt _ _) i) fun _ => ih _

/-! ### `DRV.INIT`, which leaves normal operation -/

theorem keeps_fgUpd {point : Op Unit} (hp : Keeps strict p c r point) {f : State → State}
    (hf : ∀ s, Calm strict p c r s → Calm strict p c r (f s)) : Keeps strict p c r (fgUpd point f) :=
  .bind hp fun _ => .upd hf

/-- Outside normal operation every change of an interface keeps the context. -/
theorem Calm.loose {s : State} (h : Calm False p c r s) (i : Iface) (f : IfaceState → IfaceState) :
    Calm False p c r (s.onIface i f) :=
  ⟨by simpa using h.cfg, by simpa using h.cs, by simpa using h.isr, by simpa using h.faults, False.elim⟩

theorem keeps_startClocks (op : Instr) (rate : Word) (l : List ClockStep) :
    Keeps False p c r (startClocks op rate l) := by
  induction l with
  | nil => exact .pure _
  | cons k l ih =>
    refine .bind (keeps_fgUpd (keeps_stepAt _ _) fun s h => ?_) fun _ => ih
    cases k with
    | enable i => exact h.loose i fun x => { x with clkEn := true }
    | pulse i =>
      have := h.loose i fun x => { x with ctrl := Ctrl.reset }
      cases i
      · exact ⟨this.cfg, this.cs, this.isr, this.faults, False.elim⟩
      · exact this

theorem keeps_stopClocks (op : Instr) (res : ResultCode) (is : List Iface) :
    Keeps False p c r (stopClocks op res is) := by
  induction is with
  | nil => exact .pure _
  | cons i is ih => exact .bind (keeps_fgUpd (keeps_stepAt _ _) fun s h => h.loose i _) fun _ => ih

theorem keeps_registerIfaces (op : Instr) (is : List Iface) : Keeps False p c r (registerIfaces op is) := by
  have hsteps (i : Iface) (is : List Iface) (l : List DispatchStep) : Keeps False p c r (registerSteps op i is l) := by
    induction l with
    | nil => exact .pure _
    | cons k l ih =>
      refine .bind (keeps_fgUpd (keeps_stepAt _ _) fun s h => ?_) fun _ => ih
      cases k with
      | registry => exact h.loose i fun x => { x with registry := true }
      | vector src =>
        cases src
        · exact h.loose i fun x => { x with vecTx := true }
        · exact h.loose i fun x => { x with vecRx0 := true }
        · exact h.loose i fun x => { x with vecRx1 := true }
  induction is with
  | nil => exact .pure _
  | cons i is ih => exact .bind (hsteps i is _) fun _ => ih

theorem keeps_initIfaces (op : Instr) (rate : Word) (is : List Iface) : Keeps False p c r (initIfaces op rate is) := by
  induction is with
  | nil => exact .pure _
  | cons i is ih => exact .bind (keeps_ifInit (keeps_initPoint _ _) False.elim rate) fun _ => .ite ih (.pure _)

theorem keeps_drvInit (op : Instr) (rate : Word) (todo : List ClockStep) : Keeps False p c r (drvInit op rate todo) :=
  .bind (keeps_startClocks _ _ _) fun _ => .bind (.ask _) fun _ => .bind (keeps_initIfaces _ _ _) fun _ =>
    .bind (.ask _) fun _ => .ite (.bind (keeps_registerIfaces _ _) fun _ => .pure _)
      (.bind (keeps_stopClocks _ _ _) fun _ => .pure _)

end Sys2Proof.Machine
end

