-- ==== Sys2Proof/Laws/Quiet.lean ====
section
/-! SUPPORT. Running an operation when nothing else moves, and when the schedule's next move is the operation's own: what each
shared operation answers, for the statements that give a command's result as an equation. -/

namespace Sys2Proof.Machine

/-! ### Words of the status registers as fields (10_state.md R35 to R37) -/

/-- The bits of mailbox m's byte of `TSR` (10_state.md R36). -/
theorem tsrByte_bits (b : Mailbox) :
    b.tsrByte.getLsbD 0 = b.rqcp ∧ b.tsrByte.getLsbD 1 = b.txok ∧ b.tsrByte.getLsbD 7 = b.abrq := by
  refine ⟨?_, ?_, ?_⟩ <;>
    simp [Mailbox.tsrByte, @BitVec.getLsbD_append 7 1, @BitVec.getLsbD_append 6 1, @BitVec.getLsbD_append 5 1,
      @BitVec.getLsbD_append 4 1, @BitVec.getLsbD_append 1 3, -BitVec.getLsbD_eq_getElem]

theorem tsrWord_byte0 (c : Ctrl) {k : Nat} (h : k < 8) : c.tsrWord.getLsbD k = c.mb0.tsrByte.getLsbD k := by
  simp [Ctrl.tsrWord, @BitVec.getLsbD_append 24 8, h, -BitVec.getLsbD_eq_getElem]

theorem tsrWord_byte1 (c : Ctrl) {k : Nat} (h : k < 8) : c.tsrWord.getLsbD (k + 8) = c.mb1.tsrByte.getLsbD k := by
  simp [Ctrl.tsrWord, @BitVec.getLsbD_append 24 8, @BitVec.getLsbD_append 16 8, h, -BitVec.getLsbD_eq_getElem]

theorem tsrWord_byte2 (c : Ctrl) {k : Nat} (h : k < 8) : c.tsrWord.getLsbD (k + 16) = c.mb2.tsrByte.getLsbD k := by
  simp [Ctrl.tsrWord, @BitVec.getLsbD_append 24 8, @BitVec.getLsbD_append 16 8, @BitVec.getLsbD_append 8 8, h,
    show ¬(k + 16 < 8) by omega, -BitVec.getLsbD_eq_getElem]

@[simp] theorem tsrRqcp_tsrWord (c : Ctrl) (m : Mb) : tsrRqcp c.tsrWord m = (c.mb m).rqcp := by
  cases m
  · exact (tsrWord_byte0 c (by decide)).trans (tsrByte_bits _).1
  · exact (tsrWord_byte1 c (k := 0) (by decide)).trans (tsrByte_bits _).1
  · exact (tsrWord_byte2 c (k := 0) (by decide)).trans (tsrByte_bits _).1

@[simp] theorem tsrTxok_tsrWord (c : Ctrl) (m : Mb) : tsrTxok c.tsrWord m = (c.mb m).txok := by
  cases m
  · exact (tsrWord_byte0 c (by decide)).trans (tsrByte_bits _).2.1
  · exact (tsrWord_byte1 c (k := 1) (by decide)).trans (tsrByte_bits _).2.1
  · exact (tsrWord_byte2 c (k := 1) (by decide)).trans (tsrByte_bits _).2.1

theorem tsrWord_tme (c : Ctrl) :
    c.tsrWord.getLsbD 26 = c.mb0.tme ∧ c.tsrWord.getLsbD 27 = c.mb1.tme ∧ c.tsrWord.getLsbD 28 = c.mb2.tme := by
  refine ⟨?_, ?_, ?_⟩ <;>
    simp [Ctrl.tsrWord, @BitVec.getLsbD_append 24 8, @BitVec.getLsbD_append 16 8, @BitVec.getLsbD_append 8 8,
      @BitVec.getLsbD_append 6 2, @BitVec.getLsbD_append 5 1, @BitVec.getLsbD_append 4 1, @BitVec.getLsbD_append 3 1,
      -BitVec.getLsbD_eq_getElem]

@[simp] theorem tsrTme_tsrWord (c : Ctrl) (m : Mb) : tsrTme c.tsrWord m = (c.mb m).tme := by
  obtain ⟨h0, h1, h2⟩ := tsrWord_tme c
  cases m
  · exact h0
  · exact h1
  · exact h2

theorem tsrTmeField_eq_zero (x : IfaceState) : tsrTmeField x.ctrl.tsrWord = 0#3 ↔ x.canSend = false := by
  obtain ⟨h0, h1, h2⟩ := tsrWord_tme x.ctrl
  have e : tsrTmeField x.ctrl.tsrWord =
      BitVec.ofBool x.ctrl.mb2.tme ++ BitVec.ofBool x.ctrl.mb1.tme ++ BitVec.ofBool x.ctrl.mb0.tme := by
    rw [← h0, ← h1, ← h2]
    unfold tsrTmeField
    generalize x.ctrl.tsrWord = w
    apply BitVec.eq_of_getLsbD_eq
    intro k hk
    have : k = 0 ∨ k = 1 ∨ k = 2 := by omega
    rcases this with rfl | rfl | rfl <;>
      simp [@BitVec.getLsbD_append 2 1, @BitVec.getLsbD_append 1 1, -BitVec.getLsbD_eq_getElem]
  rw [e]
  unfold IfaceState.canSend
  cases x.ctrl.mb0.tme <;> cases x.ctrl.mb1.tme <;> cases x.ctrl.mb2.tme <;> decide

@[simp] theorem msrWord_inak (c : Ctrl) : c.msrWord.getLsbD 0 = (c.mode == .config) := by
  simp [Ctrl.msrWord, @BitVec.getLsbD_append 31 1, -BitVec.getLsbD_eq_getElem]

theorem rfrWord_fovr (x : RxFifo) : x.rfrWord.getLsbD 4 = x.fovr := by
  simp [RxFifo.rfrWord, @BitVec.getLsbD_append 30 2, @BitVec.getLsbD_append 29 1, @BitVec.getLsbD_append 28 1,
    @BitVec.getLsbD_append 27 1, -BitVec.getLsbD_eq_getElem]

/-! ### A register block stays reachable -/

theorem State.Reaches.of_eq {s t : State} {i : Iface} (h : s.Reaches i) (hc : t.cfg = s.cfg)
    (hk : (t.iface i).clkEn = (s.iface i).clkEn) : t.Reaches i :=
  ⟨by rw [hc]; exact h.build, by rw [hc]; exact h.present, by rw [hk]; exact h.clocked⟩

theorem State.Reaches.writeReg {s : State} {i : Iface} (h : s.Reaches i) (j : Iface) (r : Reg) (v : Word) :
    (s.writeReg j r v).Reaches i := by
  obtain ⟨c0, c1, fl, e⟩ := writeReg_shape s j r v
  obtain ⟨c, hc⟩ := withCtrls_iface s c0 c1 fl i
  rw [e]
  exact h.of_eq rfl (by rw [hc])

theorem State.Reaches.onIface {s : State} {i : Iface} (h : s.Reaches i) (j : Iface) {f : IfaceState → IfaceState}
    (hf : ∀ x, (f x).clkEn = x.clkEn) : (s.onIface j f).Reaches i := by
  refine h.of_eq (by simp) ?_
  rw [iface_onIface]
  split
  · next e => rw [hf, e]
  · rfl

theorem State.Reaches.inner {s : State} {i : Iface} (h : s.Reaches i) (l : List Inner) :
    State.Reaches { s with inner := l } i := h.of_eq rfl (by cases i <;> rfl)

theorem State.Reaches.setCs {s : State} {i : Iface} (h : s.Reaches i) (b : Bool) :
    State.Reaches { s with cs := b } i := h.of_eq rfl (by cases i <;> rfl)

theorem State.Reaches.setFg {s : State} {i : Iface} (h : s.Reaches i) (x : Fg) :
    State.Reaches { s with fg := x } i := h.of_eq rfl (by cases i <;> rfl)

theorem State.Reaches.started {s : State} {i : Iface} (h : s.Reaches i) (j : Instr) (ph : Phase) :
    (s.started j ph).Reaches i := h.of_eq rfl (by simp)

/-! ### Interleaving points -/

theorem preempt_go {s : State} {l : List Inner} (h : s.inner = .go :: l) : preempt s = .ok () { s with inner := l } := by
  simp only [preempt, h, List.length_cons]
  exact preemptMoves_go h _

/-- An environment move, and then the operation's own step. -/
theorem preempt_env_go {s : State} {a : EnvAct} {l : List Inner} (h : s.inner = .env a :: .go :: l) :
    preempt s = .ok () { envAct a { s with inner := .go :: l } with inner := l } := by
  simp only [preempt, h, List.length_cons]
  rw [preemptMoves_env h]
  apply preemptMoves_go
  rcases envAct_shape a { s with inner := .go :: l } with ⟨c0, c1, fl, e⟩ | ⟨m, u, -, e⟩ | ⟨ok, e⟩ | e <;> rw [e]
  rfl

/-- The foreground's step at the next move (10_state.md R22). -/
theorem stepAt_go {s : State} {l : List Inner} (h : s.inner = .go :: l) (op : Instr) (ph : Phase) :
    stepAt op ph s = .ok () { s with fg := .busy op ph, inner := l } := by
  simp only [stepAt, bind_run, mark_run]
  exact preempt_go (s := { s with fg := .busy op ph }) h

/-- An environment move, and then the foreground's step. -/
theorem stepAt_env_go {s : State} {a : EnvAct} {l : List Inner} (h : s.inner = .env a :: .go :: l) (op : Instr)
    (ph : Phase) : stepAt op ph s =
      .ok () { envAct a { s with fg := .busy op ph, inner := .go :: l } with inner := l } := by
  simp only [stepAt, bind_run, mark_run]
  exact preempt_env_go (s := { s with fg := .busy op ph }) h

/-! ### Register accesses -/

/-- A register's value does not depend on the foreground agent. -/
@[simp] theorem readReg_fg (s : State) (x : Fg) (i : Iface) (r : Reg) :
    ({ s with fg := x } : State).readReg i r = s.readReg i r := by cases i <;> cases r <;> rfl

variable {s : State} {i : Iface} {r : Reg}

theorem regRead_reaches (h : s.Reaches i) (hr : hasReg i r) : regRead i r s = .ok (s.readReg i r) s :=
  regRead_clocked h.build h.present h.clocked hr

theorem regWrite_reaches (h : s.Reaches i) (hr : hasReg i r) (v : Word) :
    regWrite i r v s = .ok () (s.writeReg i r v) := regWrite_clocked h.build h.present h.clocked hr v

/-- A foreground read, where its interleaving point ends in `t`. -/
theorem fgRead_point {point : Op Unit} {t : State} (hp : point s = .ok () t) (h : t.Reaches i) (hr : hasReg i r) :
    fgRead point i r s = .ok (t.readReg i r) t := by simp only [fgRead, bind_run, hp, regRead_reaches h hr]

/-- A foreground write, where its interleaving point ends in `t`. -/
theorem fgWrite_point {point : Op Unit} {t : State} (hp : point s = .ok () t) (h : t.Reaches i) (hr : hasReg i r)
    (v : Word) : fgWrite point i r v s = .ok () (t.writeReg i r v) := by
  simp only [fgWrite, bind_run, hp, regWrite_reaches h hr]

theorem fgRead_quiet (hq : s.quiet) (h : s.Reaches i) (hr : hasReg i r) (op : Instr) (ph : Phase) :
    fgRead (stepAt op ph) i r s = .ok (s.readReg i r) { s with fg := .busy op ph } := by
  rw [fgRead_point (stepAt_quiet hq op ph) (h.setFg _) hr, readReg_fg]

theorem fgWrite_quiet (hq : s.quiet) (h : s.Reaches i) (hr : hasReg i r) (v : Word) (op : Instr) (ph : Phase) :
    fgWrite (stepAt op ph) i r v s = .ok () (({ s with fg := .busy op ph } : State).writeReg i r v) :=
  fgWrite_point (stepAt_quiet hq op ph) (h.setFg _) hr v

theorem svcRead_quiet (hq : s.quiet) (h : s.Reaches i) (hr : hasReg i r) : svcRead i r s = .ok (s.readReg i r) s := by
  simp only [svcRead, bind_run, envPoint_quiet hq, regRead_reaches h hr]

theorem svcWrite_quiet (hq : s.quiet) (h : s.Reaches i) (hr : hasReg i r) (v : Word) :
    svcWrite i r v s = .ok () (s.writeReg i r v) := by
  simp only [svcWrite, bind_run, envPoint_quiet hq, regWrite_reaches h hr]

/-! ### The start and the end of a command -/

theorem State.HostTurn.stopped (h : s.HostTurn) : s.stopped = false := by
  simp [State.stopped, h.idle, h.healthy]

theorem hostCommand_turn {x : Instr} {ph : Phase} {body : Op Ret} (h : s.HostTurn) (hc : x.cls = .host)
    (hw : x.wellFormed s.cfg.numIfaces = true) : hostCommand x ph body s = settle x (body (s.started x ph)) := by
  have : legal x s = true := by simp [legal, issuable, hw, hc, h.host, h.idle]
  simp [hostCommand, h.stopped, h.thread, this]

/-- Inside an interrupt service a class-H command does not run (60_exceptions.md R306, R316). -/
theorem hostCommand_isr {x : Instr} {ph : Phase} {body : Op Ret} (hs : s.stopped = false) (hl : legal x s = true)
    (hi : s.inIsr = true) : hostCommand x ph body s = .next s := by simp [hostCommand, hs, hl, hi]

/-- Nor does the foreground agent take a step (60_exceptions.md R306). -/
theorem foregroundStep_isr (hs : s.stopped = false) (hi : s.inIsr = true) (b : Bool) (l : List Inner) :
    foregroundStep b l s = .next s := by simp [foregroundStep, hs, hi]

theorem State.ServiceTurn.stopped {who : Issuer} (h : s.ServiceTurn who) : s.stopped = false := by
  simp [State.stopped, h.running, h.healthy]

theorem State.DispatcherTurn.stopped (h : s.DispatcherTurn) : s.stopped = false := by
  simp [State.stopped, h.running, h.healthy]

theorem isrCommand_service {x : Instr} {body : Op Unit} (h : s.ServiceTurn x.cls)
    (hc : x.cls = .entryTx ∨ x.cls = .entryRx ∨ x.cls = .service) (hw : x.wellFormed s.cfg.numIfaces = true) :
    isrCommand x body s = settleIsr x (body s) := by
  have : legal x s = true := by
    rcases hc with hc | hc | hc <;> simp [legal, issuable, hw, h.who, h.isr, hc]
  simp [isrCommand, h.stopped, this]

/-- A class-D command runs where the start condition holds, and elsewhere it starts nothing (60_exceptions.md R304). -/
theorem entryCommand_dispatcher {x : Instr} {j : Iface} {src : Source} {body : Op Unit} (h : s.DispatcherTurn)
    (hc : x.cls = .dispatcher) (hw : x.wellFormed s.cfg.numIfaces = true) :
    entryCommand x j src body s = if canStart s j src then settleIsr x (body s) else .next s := by
  have : legal x s = true := by simp [legal, issuable, hw, h.dispatcher, hc]
  simp [entryCommand, h.stopped, this]

/-- A source is pending in the registers where it is in the controller (60_exceptions.md R301). -/
theorem pendingIrq_iff (s : State) (i : Iface) (src : Source) : pendingIrq s i src = true ↔ (s.ctrl i).sourcePending src := by
  cases src <;>
    simp [pendingIrq, Ctrl.sourcePending, State.readReg, Ctrl.rx, Ctrl.mb, RxFifo.rfrFmp_rfrWord, RxFifo.fmp_eq_zero,
      or_assoc, -BitVec.getLsbD_eq_getElem]

/-- The dispatcher's test of an unfaulted block is the start condition (60_exceptions.md R304). -/
theorem canStart_iff {s : State} (hs : s.stopped = false) (i : Iface) (src : Source) :
    canStart s i src = true ↔ s.MayStart i src := by
  simp only [canStart, Bool.and_eq_true, Bool.not_eq_true', hs, pendingIrq_iff, and_true]
  exact ⟨fun ⟨⟨⟨⟨a, b⟩, c⟩, d⟩, e⟩ => ⟨a, b, c, d, e⟩, fun ⟨a, b, c, d, e⟩ => ⟨⟨⟨⟨a, b⟩, c⟩, d⟩, e⟩⟩

/-- IFACE field of an interface the build has. -/
theorem ifaceInRange_bits {p : Params} {j : Iface} (h : hasIface p j = true) : ifaceInRange p.numIfaces j.bits = true := by
  cases j <;> exact h

@[simp] theorem ifaceOf_bits (j : Iface) : ifaceOf j.bits = j := by cases j <;> rfl

@[simp] theorem fifoOf_bits (f : Fifo) : fifoOf f.bits = f := by cases f <;> rfl

@[simp] theorem fifoInRange_bits (f : Fifo) : fifoInRange f.bits = true := by cases f <;> rfl

/-! ### Reads of soft state inside the critical section -/

theorem enterCsAt_quiet (hq : s.quiet) (hc : s.cs = false) (op : Instr) (ph : Phase) :
    enterCsAt (stepAt op ph) s = .ok () { s with fg := .busy op ph, cs := true } := by
  simp only [enterCsAt, bind_run, stepAt_quiet hq op ph]
  exact enterCs_free (s := { s with fg := .busy op ph }) hc

theorem csAsk_quiet {α : Type} (hq : s.quiet) (hc : s.cs = false) (op : Instr) (ph : Phase) (f : State → α) :
    csAsk (stepAt op ph) f s =
      .ok (f { s with fg := .busy op ph, cs := true }) { s with fg := .busy op ph, cs := false } := by
  simp only [csAsk, bind_run, enterCsAt_quiet hq hc op ph, ask_run]
  rfl

end Sys2Proof.Machine
end

