-- ==== Sys2Proof/Laws/Ends.lean ====
section
/-! SUPPORT. How a command ends: in thread context with no fault, or with the one fault it raised. -/

namespace Sys2Proof.Machine

variable {α β : Type} {p : Params} {c r : Bool}

/-! ### What an operation answers, at every schedule -/

/-- Every value `x` ends with satisfies `Q`. -/
def Answers (x : Op α) (Q : α → Prop) : Prop := ∀ s a t, x s = .ok a t → Q a

theorem Answers.pure {a : α} {Q : α → Prop} (h : Q a) : Answers (pure a : Op α) Q := by
  intro s b t hb
  cases hb
  exact h

theorem Answers.bind {x : Op β} {f : β → Op α} {Q : α → Prop} (h : ∀ b, Answers (f b) Q) : Answers (x >>= f) Q := by
  intro s a t ht
  rw [bind_run] at ht
  cases hx : x s with
  | ok b s' => rw [hx] at ht; exact h b s' a t ht
  | error k s' => rw [hx] at ht; cases ht

theorem Answers.raise {k : FaultKind} {Q : α → Prop} : Answers (raise k : Op α) Q := by
  intro s a t h
  cases h

theorem Answers.ite {q : Prop} [Decidable q] {x y : Op α} {Q : α → Prop} (hx : Answers x Q) (hy : Answers y Q) :
    Answers (if q then x else y) Q := by split <;> assumption

/-- A state in which the foreground agent may be between two steps of an unfaulted block. -/
def Fg.rests : Fg → Prop
  | .idle => True
  | .busy _ _ => False
  | .blockedSelect _ _ _ => True
  | .blockedMb0 _ _ => True
  | .faulted => False

/-- The foreground returns, or is suspended in a blocked state. -/
def Ret.rests : Ret → Prop
  | .done _ => True
  | .block fg => fg.rests

/-- An unfaulted end: in thread context, outside the critical section, the foreground at rest. -/
structure State.Rests (s : State) : Prop where
  fg     : s.fg.rests
  faults : s.faults = []
  cs     : s.cs = false
  isr    : s.inIsr = false

/-- A faulted end: the one fault the command raised. -/
structure State.Failed (s : State) : Prop where
  fg     : s.fg = .faulted
  faults : ∃ k, s.faults = [k]

theorem insertFault_self (k : FaultKind) : insertFault k [k] = [k] := by simp [insertFault]

/-- Taking the fault an operation stopped with. -/
theorem Stop.failed {strict : Prop} {k : FaultKind} {s : State} (h : Stop strict k s) (cw : Word) :
    (takeFault k cw s).Failed := by
  refine ⟨rfl, k, ?_⟩
  rcases h.2 with e | e <;> rw [takeFault_faults, e] <;> simp [insertFault]

/-- Taking a fault in an unfaulted block. -/
theorem failed_of_clean {k : FaultKind} {s : State} (h : s.faults = []) (cw : Word) : (takeFault k cw s).Failed :=
  ⟨rfl, k, by simp [takeFault, h, insertFault]⟩

/-! ### A service leaves the foreground agent where it is (60_exceptions.md R306) -/

/-- The foreground agent's state stays. -/
def SameFg (s t : State) : Prop := t.fg = s.fg

theorem sameFg_upd {f : State → State} (hf : ∀ s, (f s).fg = s.fg) : Stays SameFg (upd f) :=
  fun _ => Meets.upd fun s h => (hf s).trans h

theorem sameFg_returning {x : Op Unit} (hx : Stays SameFg x) : Stays SameFg (returning x) :=
  .bind hx fun _ => sameFg_upd fun _ => rfl

theorem envMoves_fg (l : List Inner) (s : State) : (envMoves l s).fg = s.fg := by
  induction l generalizing s with
  | nil => rfl
  | cons m l ih =>
    cases m with
    | env a =>
      show (envMoves l (envAct a s)).fg = _
      rw [ih]
      rcases envAct_shape a s with ⟨c0, c1, fl, e⟩ | ⟨m, u, -, e⟩ | ⟨ok, e⟩ | e <;>
        rw [e] <;> rfl
    | irq i src => exact ih s
    | go => rfl

theorem sameFg_envPoint : Stays SameFg envPoint := fun _ s h => (envMoves_fg s.inner s).trans h

theorem sameFg_regRead (i : Iface) (x : Reg) : Stays SameFg (regRead i x) := by
  refine .bind (.ask _) fun b => .bind (fun s₀ s h => ?_) fun _ => .ask _
  rcases accessTarget_cases (b + x.off) 4 s with ⟨t, ht, -⟩ | ⟨k, hk⟩
  · rw [ht]; exact h
  · rw [hk]; exact h

theorem sameFg_regWrite (i : Iface) (x : Reg) (v : Word) : Stays SameFg (regWrite i x v) := by
  refine .bind (.ask _) fun b => .bind (fun s₀ s h => ?_) fun t => sameFg_upd fun s => ?_
  · rcases accessTarget_cases (b + x.off) 4 s with ⟨t, ht, -⟩ | ⟨k, hk⟩
    · rw [ht]; exact h
    · rw [hk]; exact h
  · obtain ⟨c0, c1, fl, e⟩ := writeReg_shape s t.1 t.2 v
    rw [e]
    rfl

theorem sameFg_svcRead (i : Iface) (x : Reg) : Stays SameFg (svcRead i x) :=
  .bind sameFg_envPoint fun _ => sameFg_regRead i x

theorem sameFg_svcWrite (i : Iface) (x : Reg) (v : Word) : Stays SameFg (svcWrite i x v) :=
  .bind sameFg_envPoint fun _ => sameFg_regWrite i x v

theorem sameFg_onIface (i : Iface) (f : IfaceState → IfaceState) : Stays SameFg (upd fun s => s.onIface i f) :=
  sameFg_upd fun s => by simp

theorem sameFg_rbPush (i : Iface) (e : RxEntry) : Stays SameFg (rbPush i e) :=
  .bind Closed.guardShared fun _ => sameFg_upd fun s => by simp

theorem sameFg_pollError (i : Iface) : Stays SameFg (pollError i) :=
  sameFg_returning <| .bind (sameFg_svcRead i _) fun _ => .ite (.pure _) (.bind (sameFg_onIface i _) fun _ =>
    .bind (sameFg_svcWrite i _ _) fun _ => sameFg_onIface i _)

theorem sameFg_serviceMailbox (i : Iface) (m : Mb) : Stays SameFg (serviceMailbox i m) :=
  .bind (sameFg_svcRead i _) fun _ => .ite
    (.bind (sameFg_svcWrite i _ _) fun _ => .bind (.onlyIf (sameFg_onIface i _)) fun _ => .bind (.ask _) fun _ =>
      .bind (.onlyIf (.bind (.ask _) fun _ => .bind (.ask _) fun _ => sameFg_rbPush i _)) fun _ =>
      .bind (.onlyIf (sameFg_onIface i _)) fun _ => .bind (sameFg_onIface i _) fun _ => .onlyIf (sameFg_onIface i _))
    (.pure _)

theorem sameFg_txService (i : Iface) : Stays SameFg (txService i) :=
  sameFg_returning <| .bind (sameFg_serviceMailbox i _) fun _ => .bind (sameFg_serviceMailbox i _) fun _ =>
    .bind (sameFg_serviceMailbox i _) fun _ => .bind (sameFg_pollError i) fun _ => sameFg_upd fun _ => rfl

theorem sameFg_rxService (i : Iface) (f : Fifo) : Stays SameFg (rxService i f) :=
  sameFg_returning <| .bind (sameFg_svcRead i _) fun _ => .ite (.raise _)
    (.bind (.onlyIf (sameFg_onIface i _)) fun _ => .bind (sameFg_svcRead i _) fun _ => .bind (sameFg_svcRead i _) fun _ =>
      .bind (sameFg_svcRead i _) fun _ => .bind (sameFg_svcRead i _) fun _ => .bind (sameFg_svcWrite i _ _) fun _ =>
      .bind (.ask _) fun _ => .bind (sameFg_rbPush i _) fun _ => .bind (sameFg_upd fun _ => rfl) fun _ =>
      .bind (sameFg_onIface i _) fun _ => .bind (sameFg_pollError i) fun _ => sameFg_upd fun _ => rfl)

theorem sameFg_entryAround (i : Iface) {x : Op Unit} (hx : Stays SameFg x) : Stays SameFg (entryAround i x) :=
  sameFg_returning <| .bind (.ask _) fun _ => .ite (.bind (sameFg_upd fun _ => rfl) fun _ => .bind hx fun _ => sameFg_upd fun _ => rfl)
    (.raise _)

/-! ### The end of a command -/

theorem settle_ends {x : Instr} {body : Op Ret} {s t : State} (hk : Keeps False p false false body)
    (ha : Answers body Ret.rests) (hs : Calm False p false false s)
    (h : settle x (body s) = .next t) : t.Rests ∨ t.Failed := by
  have := hk s hs
  cases hr : body s with
  | error k s' =>
    rw [hr] at h this
    cases h
    exact .inr (this.failed _)
  | ok v s' =>
    have hv := ha s v s' hr
    rw [hr] at h this
    cases v <;> cases h
    · exact .inl ⟨trivial, this.faults, this.cs, this.isr⟩
    · exact .inl ⟨hv, this.faults, this.cs, this.isr⟩

theorem hostCommand_ends {x : Instr} {ph : Phase} {body : Op Ret} {s t : State} (hk : Keeps False s.cfg false false body)
    (ha : Answers body Ret.rests) (hf : s.faults = []) (hc : s.cs = false) (hi : s.inIsr = false)
    (h : hostCommand x ph body s = .next t) : t.Rests ∨ t.Failed := by
  unfold hostCommand at h
  split at h
  · cases h
  · split at h
    · rw [if_neg (by simp [hi])] at h
      exact settle_ends hk ha (s := s.started x ph) ⟨rfl, hc, hi, hf, False.elim⟩ h
    · cases h
      exact .inr (failed_of_clean hf _)

/-- An interrupt-context operation leaves the interrupt context as it does. -/
theorem settleIsr_ends {x : Instr} {body : Op Unit} {s t : State} {r' : Bool}
    (hk : Meets (Calm False s.cfg false s.inIsr) body (fun _ => Calm False s.cfg false r') (Stop False))
    (hf : s.faults = []) (hc : s.cs = false) (hfg : Stays SameFg body) (h : settleIsr x (body s) = .next t) :
    (t.fg = s.fg ∧ t.faults = [] ∧ t.cs = false ∧ t.inIsr = r') ∨ t.Failed := by
  have h1 := hk s ⟨rfl, hc, rfl, hf, False.elim⟩
  have h2 := hfg s s rfl
  cases hr : body s with
  | error k s' =>
    rw [hr] at h h1
    cases h
    exact .inr (h1.failed _)
  | ok v s' =>
    rw [hr] at h h1 h2
    cases h
    exact .inl ⟨h2, h1.faults, h1.cs, h1.isr⟩

/-- How an entry operation ends when its checks are passed or not, outside normal operation too (60_exceptions.md R302,
R303, R309). -/
theorem entry_keeps (i : Iface) {x : Op Unit} (hx : Keeps False p c true x) :
    Meets (Calm False p c r) (entryAround i x) (fun _ => Calm False p c false) (Stop False) :=
  (entryAround_meets (Q := fun _ => True) (fun _ _ => trivial)
    (hx.weaken (fun _ h => h.1) (fun _ _ h => h) fun _ _ h => h)).weaken
    (fun _ h => ⟨h, False.elim⟩) (fun _ _ h => h) fun _ _ h => h

theorem keeps_rxService (i : Iface) (f : Fifo) : Keeps False p c true (rxService i f) :=
  (rxService_meets False.elim f).weaken (fun _ h => ⟨h, False.elim⟩) (fun _ _ h => h) fun _ _ h => h

/-- The command runs in an interrupt service (class S or N), where a service of the block must be running. -/
def inService (i : Instr) : Bool := i.cls == .entryTx || i.cls == .entryRx || i.cls == .service

/-- A command issued in thread context in an unfaulted block at rest ends at rest, or with the one fault it raised: at
every schedule of the other agents (60_exceptions.md R307, R310, R312; 70_reset_and_hazards.md R350). -/
theorem exec_ends {x : Instr} {s t : State} (hg : s.fg.rests) (hf : s.faults = []) (hc : s.cs = false)
    (hi : s.inIsr = false) (h : exec x s = .next t) : t.Rests ∨ t.Failed := by
  have hstep {c r : Bool} (op : Instr) (ph : Phase) : Keeps False s.cfg c r (stepAt op ph) := keeps_stepAt op ph
  have hcsAsk {γ : Type} {op : Instr} {ph : Phase} (f : State → γ) {g : γ → Op Ret}
      (hgk : ∀ b, Keeps False s.cfg false false (g b)) : Keeps False s.cfg false false (csAsk (stepAt op ph) f >>= g) :=
    .bind (keeps_csAsk (hstep _ _) f) hgk
  have hentry {y : Instr} {j : Iface} {src : Source} {body : Op Unit}
      (hk : Meets (Calm False s.cfg false false) body (fun _ => Calm False s.cfg false false) (Stop False))
      (hfg : Stays SameFg body) (h : entryCommand y j src body s = .next t) : t.Rests ∨ t.Failed := by
    unfold entryCommand at h
    split at h
    · cases h
    · split at h
      · split at h
        · rcases settleIsr_ends (r' := false) (by rw [hi]; exact hk) hf hc hfg h with h | h
          · exact .inl ⟨h.1 ▸ hg, h.2.1, h.2.2.1, h.2.2.2⟩
          · exact .inr h
        · cases h
          exact .inl ⟨hg, hf, hc, hi⟩
      · cases h
        exact .inr (failed_of_clean hf _)
  have hsvc {y : Instr} {body : Op Unit} (hy : inService y = true) (h : isrCommand y body s = .next t) :
      t.Rests ∨ t.Failed := by
    have hl : legal y s = false := by
      simp only [inService, Bool.or_eq_true, beq_iff_eq, or_assoc] at hy
      rcases hy with hy | hy | hy <;> simp [legal, issuable, hy, hi]
    unfold isrCommand at h
    split at h
    · cases h
    · rw [hl] at h
      cases h
      exact .inr (failed_of_clean hf _)
  have done {y : Result} : Answers (pure (.done y) : Op Ret) Ret.rests := .pure trivial
  cases x with
  | btCalc =>
    refine hostCommand_ends (.ask _) ?_ hf hc hi h
    intro s a t ht
    cases ht
    show (timingResult _).rests
    unfold timingResult
    split <;> trivial
  | rbPush ifc =>
    exact hostCommand_ends (Meets.bind _ (enterCsAt_meets (hstep _ _)) fun _ =>
      Meets.bind _ (keeps_rbPush (.inl rfl) _ _) fun _ => exitCs_then (.pure _))
      (.bind fun _ => .bind fun _ => .bind fun _ => done) hf hc hi h
  | rbPop ifc =>
    exact hostCommand_ends (keeps_checkedPop (hstep _ _) _ (Meets.bind _ (hstep _ _) fun _ =>
        Meets.raise fun _ h => ⟨id, .inl h.faults⟩) fun _ => .pure _)
      (.bind fun _ => .bind fun _ => .ite (.bind fun _ => .bind fun _ => .raise) (.bind fun _ => .bind fun _ => done))
      hf hc hi h
  | rbLen ifc => exact hostCommand_ends (hcsAsk _ fun _ => .pure _) (.bind fun _ => done) hf hc hi h
  | rbOvf ifc => exact hostCommand_ends (hcsAsk _ fun _ => .pure _) (.bind fun _ => done) hf hc hi h
  | ifInit ifc =>
    exact hostCommand_ends (.bind (keeps_ifInit (keeps_initPoint _ _) False.elim _) fun _ => .pure _)
      (.bind fun _ => done) hf hc hi h
  | ifCfgfilt ifc => exact hostCommand_ends (.pure _) done hf hc hi h
  | ifSend ifc =>
    exact hostCommand_ends (.bind (keeps_ifSend (fun _ _ => keeps_stepAt _ _) False.elim) fun _ => .pure _)
      (.bind fun _ => done) hf hc hi h
  | ifDiscard ifc =>
    exact hostCommand_ends (.bind (keeps_ifDiscard (fun _ _ => keeps_stepAt _ _) False.elim _) fun _ => .pure _)
      (.bind fun _ => done) hf hc hi h
  | ifTxsvc ifc => exact hsvc rfl h
  | ifTxfull ifc =>
    exact hostCommand_ends (.bind (keeps_fgRead (hstep _ _) False.elim fun _ => rfl) fun _ => .pure _)
      (.bind fun _ => done) hf hc hi h
  | ifWaitmb0 ifc =>
    exact hostCommand_ends (.bind (.ask _) fun _ => keeps_waitAt _ _ _)
      (.bind fun _ => .bind fun _ => .bind fun _ => .ite (.bind fun _ => .pure trivial)
        (.bind fun _ => .bind fun _ => done)) hf hc hi h
  | ifRecv ifc =>
    exact hostCommand_ends (.bind (.ask _) fun _ => keeps_receiveAt _ _ _)
      (.bind fun _ => .bind fun _ => .bind fun _ => .ite (.bind fun _ => done)
        (.bind fun _ => .bind fun _ => done)) hf hc hi h
  | ifRxsvc ifc f => exact hsvc rfl h
  | ifPollerr ifc => exact hsvc rfl h
  | ifRxempty ifc => exact hostCommand_ends (hcsAsk _ fun _ => .pure _) (.bind fun _ => done) hf hc hi h
  | ifRxlen ifc => exact hostCommand_ends (hcsAsk _ fun _ => .pure _) (.bind fun _ => done) hf hc hi h
  | ifErrcnt ifc => exact hostCommand_ends (hcsAsk _ fun _ => .pure _) (.bind fun _ => done) hf hc hi h
  | ifLasterr ifc =>
    exact hostCommand_ends (.bind (keeps_takeError (hstep _ _) _) fun _ => .pure _) (.bind fun _ => done) hf hc hi h
  | ifHadact ifc =>
    exact hostCommand_ends (.bind (keeps_takeActivity (hstep _ _) _) fun _ => .pure _) (.bind fun _ => done) hf hc hi h
  | drvInit =>
    exact hostCommand_ends (.bind (keeps_drvInit _ _ _) fun _ => .pure _) (.bind fun _ => done) hf hc hi h
  | drvReady =>
    exact hostCommand_ends (.bind (keeps_ready fun _ => keeps_stepAt _ _) fun _ => .pure _) (.bind fun _ => done)
      hf hc hi h
  | drvSelect =>
    exact hostCommand_ends (keeps_select _ _)
      (.bind fun _ => .bind fun _ => .bind fun _ => .bind fun _ => .bind fun _ => .ite done (.pure trivial)) hf hc hi h
  | drvHadact => exact hostCommand_ends (keeps_drvActivity _ _ _) (.bind fun _ => done) hf hc hi h
  | irqTx ifc =>
    exact hentry (entry_keeps _ (keeps_txService False.elim)) (sameFg_entryAround _ (sameFg_txService _)) h
  | irqRx ifc f =>
    exact hentry (entry_keeps _ (keeps_rxService _ _)) (sameFg_entryAround _ (sameFg_rxService _ _)) h

/-- A change of fields that no end looks at. -/
theorem State.Rests.envAct {s : State} (h : s.Rests) (a : EnvAct) : (envAct a s).Rests := by
  rcases envAct_shape a s with ⟨c0, c1, fl, e⟩ | ⟨m, u, -, e⟩ | ⟨ok, e⟩ | e <;> rw [e] <;>
    exact ⟨h.fg, h.faults, h.cs, h.isr⟩

/-- Every step from rest ends at rest, or with the one fault it raised. -/
theorem step_ends {s t : State} (hs : s.Rests) (h : step s = .next t) : t.Rests ∨ t.Failed := by
  have hsched (l : List Move) : ({ s with sched := l } : State).Rests := ⟨hs.fg, hs.faults, hs.cs, hs.isr⟩
  have hfg {b : Bool} {inner : List Inner} {u : State} (hu : u.Rests) (h : foregroundStep b inner u = .next t) :
      t.Rests ∨ t.Failed := by
    unfold foregroundStep at h
    rw [if_neg (c := u.inIsr = true) (by simp [hu.isr])] at h
    split at h
    · cases h
    · split at h
      · cases h
        exact .inl hu
      · split at h
        · refine settle_ends (s := { u with inner := inner }) keeps_wakeSelect
            (.bind fun _ => .bind fun _ => .pure trivial) ⟨rfl, hu.cs, hu.isr, hu.faults, False.elim⟩ h
        · cases h
          exact .inl hu
      · cases h
        unfold wakeMb0
        split
        · exact .inl ⟨trivial, by simpa using hu.faults, by simpa using hu.cs, by simpa using hu.isr⟩
        · split
          · exact .inl ⟨trivial, hu.faults, hu.cs, hu.isr⟩
          · exact .inl hu
      · next hb => exact absurd hu.fg (by rw [hb]; exact id)
      · cases h
  unfold step at h
  split at h
  · exact hfg hs h
  · exact hfg (hsched _) h
  · cases h
    exact .inl ((hsched _).envAct _)
  · next i src l' l _ =>
    unfold dispatcherStep at h
    split at h
    · cases h
    · split at h
      · exact exec_ends (x := entryInstr i src) (s := State.atPort { s with sched := l } ⟨.dispatcher, 0#32, s.args⟩ l')
          hs.fg hs.faults hs.cs hs.isr h
      · cases h
        exact .inl (hsched _)
  · next q l' l _ =>
    unfold issue at h
    split at h
    · cases h
    · split at h
      · cases h
        exact .inr (failed_of_clean (s := State.atPort { s with sched := l } q l') hs.faults _)
      · exact exec_ends (s := State.atPort { s with sched := l } q l') hs.fg hs.faults hs.cs hs.isr h

/-! ### Commands that do not run (30_encoding.md R86; 60_exceptions.md R310) -/

theorem hostCommand_illegal {x : Instr} {ph : Phase} {body : Op Ret} {s : State} (hs : s.stopped = false)
    (hl : legal x s = false) : hostCommand x ph body s = .next (takeFault .illegalCommand (encode x) s) := by simp [hostCommand, hs, hl]

theorem isrCommand_illegal {x : Instr} {body : Op Unit} {s : State} (hs : s.stopped = false) (hl : legal x s = false) :
    isrCommand x body s = .next (takeFault .illegalCommand (encode x) s) := by simp [isrCommand, hs, hl]

theorem entryCommand_illegal {x : Instr} {j : Iface} {src : Source} {body : Op Unit} {s : State}
    (hs : s.stopped = false) (hl : legal x s = false) :
    entryCommand x j src body s = .next (takeFault .illegalCommand (encode x) s) := by simp [entryCommand, hs, hl]

/-- An illegal command raises `IllegalCommand` with no other effect. -/
theorem exec_illegal {x : Instr} {s : State} (hs : s.stopped = false) (hl : legal x s = false) :
    exec x s = .next (takeFault .illegalCommand (encode x) s) := by
  cases x with
  | ifTxsvc | ifRxsvc | ifPollerr => exact isrCommand_illegal hs hl
  | irqTx | irqRx => exact entryCommand_illegal hs hl
  | btCalc | rbPush | rbPop | rbLen | rbOvf | ifInit | ifCfgfilt | ifSend | ifDiscard | ifTxfull | ifWaitmb0 | ifRecv
  | ifRxempty | ifRxlen | ifErrcnt | ifLasterr | ifHadact | drvInit | drvReady | drvSelect | drvHadact =>
    exact hostCommand_illegal hs hl

end Sys2Proof.Machine
end

