-- ==== Sys2Proof/Laws/PerInstr.lean ====
section
/-! SUPPORT. The encoder's fields, and the round trip of each command through the encoder and the decoder. -/

namespace Sys2Proof

/-- The four fields of a command's word (30_encoding.md R81). -/
theorem fields_encode (i : Instr) :
    rsvField (encode i) = 0#18 ∧ subField (encode i) = i.subBits ∧ ifaceField (encode i) = i.ifaceBits ∧
      opcField (encode i) = i.opc := by
  unfold rsvField subField ifaceField opcField encode
  generalize i.subBits = a
  generalize i.ifaceBits = b
  generalize i.opc = c
  refine ⟨?_, ?_, ?_, ?_⟩ <;>
  · apply BitVec.eq_of_getLsbD_eq
    intro k hk
    simp only [BitVec.getLsbD_extractLsb', @BitVec.getLsbD_append 24 8, @BitVec.getLsbD_append 20 4,
      @BitVec.getLsbD_append 18 2]
    simp +arith [hk]
    try omega

/-- A word is given by its four fields (30_encoding.md R81). -/
theorem word_of_fields (w : Word) : w = rsvField w ++ subField w ++ ifaceField w ++ opcField w := by
  unfold rsvField subField ifaceField opcField
  apply BitVec.eq_of_getLsbD_eq
  intro k hk
  simp only [BitVec.getLsbD_extractLsb', @BitVec.getLsbD_append 24 8, @BitVec.getLsbD_append 20 4,
    @BitVec.getLsbD_append 18 2]
  by_cases h1 : k < 8
  · simp [h1]
  · by_cases h2 : k - 8 < 4
    · simp [h1, h2, show 8 + (k - 8) = k by omega]
    · by_cases h3 : k - 8 - 4 < 2
      · simp [h1, h2, h3, show 12 + (k - 8 - 4) = k by omega]
      · simp [h1, h2, h3, show k - 8 - 4 - 2 < 18 by omega, show 14 + (k - 8 - 4 - 2) = k by omega]

/-- The round trip of one command: encoded, it is a word that decodes to it (30_encoding.md R81, R83, R85). -/
def Laws.RoundTrip.Statement (i : Instr) : Prop := ∀ n, i.wellFormed n = true → decode (encode i) = .ok i

/-- An opcode that takes no field. -/
theorem decode_fixed {i : Instr} (h : shapeOf i.opc.toNat = some (.fixed i)) (hi : i.ifaceBits = 0#4)
    (hs : i.subBits = 0#2) : Laws.RoundTrip.Statement i := by
  intro n _
  obtain ⟨h1, h2, h3, h4⟩ := fields_encode i
  simp [decode, h1, h2, h3, h4, h, hi, hs]

/-- An opcode that takes an interface. -/
theorem decode_iface {i : Instr} {f : BitVec 4 → Instr} (h : shapeOf i.opc.toNat = some (.iface f))
    (hi : f i.ifaceBits = i) (hs : i.subBits = 0#2) : Laws.RoundTrip.Statement i := by
  intro n _
  obtain ⟨h1, h2, h3, h4⟩ := fields_encode i
  simp [decode, h1, h2, h3, h4, h, hi, hs]

/-- An opcode that takes an interface and a FIFO. -/
theorem decode_ifaceFifo {i : Instr} {f : BitVec 4 → BitVec 2 → Instr}
    (h : shapeOf i.opc.toNat = some (.ifaceFifo f)) (hi : f i.ifaceBits i.subBits = i)
    (hw : ∀ n, i.wellFormed n = true → i.subBits.toNat ≤ 1) : Laws.RoundTrip.Statement i := by
  intro n hn
  obtain ⟨h1, h2, h3, h4⟩ := fields_encode i
  simp [decode, h1, h2, h3, h4, h, hi, Nat.not_lt.mpr (hw n hn)]

theorem fifo_le {n : Nat} {a : BitVec 4} {f : BitVec 2} (h : (ifaceInRange n a && fifoInRange f) = true) :
    f.toNat ≤ 1 := by
  simp only [fifoInRange, Bool.and_eq_true, decide_eq_true_eq] at h
  omega

namespace Laws.RoundTrip

theorem btCalc : Statement .btCalc := decode_fixed rfl rfl rfl
theorem rbPush (a : BitVec 4) : Statement (.rbPush a) := decode_iface rfl rfl rfl
theorem rbPop (a : BitVec 4) : Statement (.rbPop a) := decode_iface rfl rfl rfl
theorem rbLen (a : BitVec 4) : Statement (.rbLen a) := decode_iface rfl rfl rfl
theorem rbOvf (a : BitVec 4) : Statement (.rbOvf a) := decode_iface rfl rfl rfl
theorem ifInit (a : BitVec 4) : Statement (.ifInit a) := decode_iface rfl rfl rfl
theorem ifCfgfilt (a : BitVec 4) : Statement (.ifCfgfilt a) := decode_iface rfl rfl rfl
theorem ifSend (a : BitVec 4) : Statement (.ifSend a) := decode_iface rfl rfl rfl
theorem ifDiscard (a : BitVec 4) : Statement (.ifDiscard a) := decode_iface rfl rfl rfl
theorem ifTxsvc (a : BitVec 4) : Statement (.ifTxsvc a) := decode_iface rfl rfl rfl
theorem ifTxfull (a : BitVec 4) : Statement (.ifTxfull a) := decode_iface rfl rfl rfl
theorem ifWaitmb0 (a : BitVec 4) : Statement (.ifWaitmb0 a) := decode_iface rfl rfl rfl
theorem ifRecv (a : BitVec 4) : Statement (.ifRecv a) := decode_iface rfl rfl rfl
theorem ifRxsvc (a : BitVec 4) (f : BitVec 2) : Statement (.ifRxsvc a f) :=
  decode_ifaceFifo rfl rfl fun _ h => fifo_le h
theorem ifPollerr (a : BitVec 4) : Statement (.ifPollerr a) := decode_iface rfl rfl rfl
theorem ifRxempty (a : BitVec 4) : Statement (.ifRxempty a) := decode_iface rfl rfl rfl
theorem ifRxlen (a : BitVec 4) : Statement (.ifRxlen a) := decode_iface rfl rfl rfl
theorem ifErrcnt (a : BitVec 4) : Statement (.ifErrcnt a) := decode_iface rfl rfl rfl
theorem ifLasterr (a : BitVec 4) : Statement (.ifLasterr a) := decode_iface rfl rfl rfl
theorem ifHadact (a : BitVec 4) : Statement (.ifHadact a) := decode_iface rfl rfl rfl
theorem drvInit : Statement .drvInit := decode_fixed rfl rfl rfl
theorem drvReady : Statement .drvReady := decode_fixed rfl rfl rfl
theorem drvSelect : Statement .drvSelect := decode_fixed rfl rfl rfl
theorem drvHadact : Statement .drvHadact := decode_fixed rfl rfl rfl
theorem irqTx (a : BitVec 4) : Statement (.irqTx a) := decode_iface rfl rfl rfl
theorem irqRx (a : BitVec 4) (f : BitVec 2) : Statement (.irqRx a f) :=
  decode_ifaceFifo rfl rfl fun _ h => fifo_le h

end Laws.RoundTrip

end Sys2Proof
end

