-- ==== Sys2Proof/Tests/Slice0.lean ====
section
/-! SUPPORT. The model's own tests. The expected values are the spec's: the encodings of 30_encoding.md and the vectors of
95_test_vectors.md, named in each docstring. The last part has, for each statement of Obligations.lean that has
hypotheses, a state and operands that meet them. -/

open Sys2Proof Sys2Proof.Machine

namespace Sys2Proof.Tests

/-! ### Well-formedness: a term that each check refuses (30_encoding.md R83, R86; 10_state.md R23) -/

theorem test_wf_iface_one_of_one : Instr.wellFormed 1 (.ifSend 1#4) = false := by decide
theorem test_wf_iface_two_of_two : Instr.wellFormed 2 (.rbPush 2#4) = false := by decide
theorem test_wf_iface_last_of_two : Instr.wellFormed 2 (.rbPush 1#4) = true := by decide
theorem test_wf_fifo_two : Instr.wellFormed 1 (.ifRxsvc 0#4 2#2) = false := by decide
theorem test_wf_fifo_iface : Instr.wellFormed 1 (.irqRx 1#4 0#2) = false := by decide
theorem test_wf_standard_id_too_long : Frame.wellFormed ⟨2048#29, false, false, false, 0#4, zeroData⟩ = false := by decide

/-! ### Decoding: each command's word, written out from R81 and R85 (RSV, SUB, IFACE, OPC) -/

theorem test_decode_btCalc : decode 0b000000000000000000_00_0000_00000001#32 = .ok .btCalc := by decide
theorem test_decode_rbPush : decode 0b000000000000000000_00_0001_00001000#32 = .ok (.rbPush 1#4) := by decide
theorem test_decode_rbPop : decode 0b000000000000000000_00_0000_00001001#32 = .ok (.rbPop 0#4) := by decide
theorem test_decode_rbLen : decode 0b000000000000000000_00_0000_00001010#32 = .ok (.rbLen 0#4) := by decide
theorem test_decode_rbOvf : decode 0b000000000000000000_00_0001_00001011#32 = .ok (.rbOvf 1#4) := by decide
theorem test_decode_ifInit : decode 0b000000000000000000_00_0000_00010000#32 = .ok (.ifInit 0#4) := by decide
theorem test_decode_ifCfgfilt : decode 0b000000000000000000_00_0001_00010001#32 = .ok (.ifCfgfilt 1#4) := by decide
theorem test_decode_ifSend : decode 0b000000000000000000_00_0001_00100000#32 = .ok (.ifSend 1#4) := by decide
theorem test_decode_ifDiscard : decode 0b000000000000000000_00_0000_00100001#32 = .ok (.ifDiscard 0#4) := by decide
theorem test_decode_ifTxsvc : decode 0b000000000000000000_00_0001_00100010#32 = .ok (.ifTxsvc 1#4) := by decide
theorem test_decode_ifTxfull : decode 0b000000000000000000_00_0000_00100011#32 = .ok (.ifTxfull 0#4) := by decide
theorem test_decode_ifWaitmb0 : decode 0b000000000000000000_00_0001_00100100#32 = .ok (.ifWaitmb0 1#4) := by decide
theorem test_decode_ifRecv : decode 0b000000000000000000_00_0001_00110000#32 = .ok (.ifRecv 1#4) := by decide
theorem test_decode_ifRxsvc : decode 0b000000000000000000_01_0001_00110001#32 = .ok (.ifRxsvc 1#4 1#2) := by decide
theorem test_decode_ifPollerr : decode 0b000000000000000000_00_0000_00110010#32 = .ok (.ifPollerr 0#4) := by decide
theorem test_decode_ifRxempty : decode 0b000000000000000000_00_0001_00110011#32 = .ok (.ifRxempty 1#4) := by decide
theorem test_decode_ifRxlen : decode 0b000000000000000000_00_0001_00110100#32 = .ok (.ifRxlen 1#4) := by decide
theorem test_decode_ifErrcnt : decode 0b000000000000000000_00_0001_01000000#32 = .ok (.ifErrcnt 1#4) := by decide
theorem test_decode_ifLasterr : decode 0b000000000000000000_00_0001_01000001#32 = .ok (.ifLasterr 1#4) := by decide
theorem test_decode_ifHadact : decode 0b000000000000000000_00_0000_01000010#32 = .ok (.ifHadact 0#4) := by decide
theorem test_decode_drvInit : decode 0b000000000000000000_00_0000_01010000#32 = .ok .drvInit := by decide
theorem test_decode_drvReady : decode 0b000000000000000000_00_0000_01010001#32 = .ok .drvReady := by decide
theorem test_decode_drvSelect : decode 0b000000000000000000_00_0000_01010010#32 = .ok .drvSelect := by decide
theorem test_decode_drvHadact : decode 0b000000000000000000_00_0000_01010011#32 = .ok .drvHadact := by decide
theorem test_decode_irqTx : decode 0b000000000000000000_00_0001_01100000#32 = .ok (.irqTx 1#4) := by decide
theorem test_decode_irqRx : decode 0b000000000000000000_01_0000_01100001#32 = .ok (.irqRx 0#4 1#2) := by decide

/-- Vectors E1, E2, E3, E5, E6, E7. -/
theorem test_decode_rejects :
    decode 0x00000000#32 = .error .unassignedOpc ∧ decode 0x000000F0#32 = .error .unassignedOpc ∧
      decode 0x00004020#32 = .error .reservedBits ∧ decode 0x00000101#32 = .error .ifaceNotZero ∧
      decode 0x00002031#32 = .error .subOutOfRange ∧ decode 0x00001020#32 = .error .subNotZero := by decide

/-! ### Small states -/

/-- A build with both interfaces. -/
def two : Params := { Params.reference with twoIfaces := true }

/-- Reset, both register blocks clocked and both interfaces registered. -/
def running : State :=
  let s := State.resetWith two
  { s with if0 := { s.if0 with clkEn := true, registry := true }, if1 := { s.if1 with clkEn := true, registry := true } }

/-- Inside an interrupt service, at the turn of an agent. -/
def inService (who : Issuer) (s : State) : State := { s with by' := who, inIsr := true }

/-- The dispatcher's turn, with interface 0's three sources enabled and their vectors enabled. -/
def asDispatcher (s : State) : State :=
  { s with
    by' := .dispatcher
    if0 := { s.if0 with
      vecTx := true, vecRx0 := true, vecRx1 := true, ctrl := { s.if0.ctrl with ier := 0x13#32 } } }

/-- Frame `F` of the transmit vectors. -/
def frameF : Frame := ⟨0x123#29, false, false, false, 2#4, ⟨0x11#8, 0x22#8, 0#8, 0#8, 0#8, 0#8, 0#8, 0#8⟩⟩

/-- Operands with a frame, a deadline and flags. -/
def sending (fr : Frame) (deadline : U64) (flags : U16) : Args :=
  { zeroArgs with frame := fr, deadline := deadline, flags := flags }

/-- The operands with a bit rate. -/
def rated (rate : Word) : Args := { zeroArgs with rate := rate }

/-- What holds of the next state, if there is one. -/
def after (o : Host.Outcome State Fault Refusal) (p : State → Bool) : Bool :=
  match o with
  | .next t => p t
  | .fault _ => false
  | .refused _ => false

/-- The result returned. -/
def returns (o : Host.Outcome State Fault Refusal) (c : ResultCode) (v : Payload) : Bool :=
  after o fun t => t.res == some ⟨c, v⟩

/-- A ring buffer that holds entries numbered from 1, oldest at slot 0. -/
def buffered (capacity n : Nat) : RingBuf :=
  { RingBuf.reset capacity with
    slot := (List.range capacity).map fun k => ⟨frameF, BitVec.ofNat 64 (k + 1), 0#16⟩
    len := n }

/-- A message with a given frame. -/
def message (fr : Frame) : RxMsg := ⟨fr, 0xFFFFFFFF#32, 0xFFFFFFF0#32⟩

/-- The standard frame of vector X1. -/
def frameA : Frame := ⟨0x321#29, false, false, false, 1#4, ⟨0xAA#8, 0#8, 0#8, 0#8, 0#8, 0#8, 0#8, 0#8⟩⟩

/-! ### One step of each command -/

/-- Section 2.1: 42 MHz and 954 545 Hz, accepted on pass 6. -/
theorem test_btCalc_inexact :
    returns (exec .btCalc { running with args := rated 954545#32 }) .ok (.timing ⟨3#10, 0#2, 4#4, 4#3⟩) = true := by decide

/-- Section 2.1: 800 000 Hz is on no pass. -/
theorem test_btCalc_unachievable :
    returns (exec .btCalc { running with args := rated 800000#32 }) .errUnachievableBitrate .none = true := by decide

/-- Vector B2: a push onto a full buffer evicts the oldest entry. -/
theorem test_rbPush_full :
    after (exec (.rbPush 0#4) { running with if0 := { running.if0 with rb := buffered 8 8 } }) (fun t =>
      t.if0.rb.len == 8 && t.if0.rb.rd == 1 && t.if0.rb.ovf == 1#32) = true := by decide

/-- Vector B3: the oldest entry is returned. -/
theorem test_rbPop_oldest :
    returns (exec (.rbPop 0#4) { running with if0 := { running.if0 with rb := { buffered 8 8 with rd := 1 } } }) .ok
      (.entry frameF 2#64 0#16) = true := by decide

/-- Vector B5: the fault, outside the critical section. -/
theorem test_rbPop_empty :
    after (exec (.rbPop 0#4) running) (fun t =>
      t.faults == [.popEmpty] && t.fg == .faulted && t.faultCw == 0x9#32 && !t.cs) = true := by decide

/-- Vector B4. -/
theorem test_rbLen : returns (exec (.rbLen 1#4) { running with if1 := { running.if1 with rb := buffered 8 8 } }) .ok
    (.val 8) = true := by decide

/-- Vector B4. -/
theorem test_rbOvf : returns (exec (.rbOvf 1#4)
    { running with if1 := { running.if1 with rb := { buffered 8 8 with ovf := 1#32 } } }) .ok (.val 1) = true := by decide

/-- Vector I7's registers, from reset ones: `MCR`, `BTR` and `IER` after a bring-up at 500 000 Hz. -/
theorem test_ifInit_registers :
    after (exec (.ifInit 1#4) { running with args := rated 500000#32, inner := ackMoves .if1 }) (fun t =>
      t.res == some ⟨.ok, .none⟩ && t.readReg .if1 .mcr == 0x00010000#32 && t.readReg .if1 .btr == 0x00470005#32 &&
        t.readReg .if1 .ier == 0x13#32 && t.readReg .if0 .fmr == 0x2A1C0E01#32) = true := by decide +kernel

/-- Vector I9: the first `MCR` read of an unclocked controller is refused. -/
theorem test_ifInit_unclocked :
    after (exec (.ifInit 0#4) { State.reset with args := rated 1000000#32 }) (fun t =>
      t.faults == [.clockDisabledAccess] && t.faultCw == 0x10#32) = true := by decide

/-- Vector I8. -/
theorem test_ifCfgfilt : returns (exec (.ifCfgfilt 0#4) running) .errUnsupported .none = true := by decide

/-- Vector T1. -/
theorem test_ifSend_first_mailbox :
    after (exec (.ifSend 0#4) { running with args := sending frameF 5000#64 0#16 }) (fun t =>
      t.res == some ⟨.accepted, .none⟩ && t.readReg .if0 (.tir .mb0) == 0x24600001#32 &&
        t.readReg .if0 (.tdlr .mb0) == 0x2211#32 && t.readReg .if0 .tsr == 0x18000000#32 &&
        t.if0.pend0 == ⟨frameF, 5000#64, false, true⟩) = true := by decide

/-- Vector T4. -/
theorem test_ifSend_dlc_nine :
    returns (exec (.ifSend 0#4) { running with args := sending { frameF with dlc := 9#4 } 1#64 0#16 }) .errRejected
      .none = true := by decide

/-- Interface 0 with frame `F` in mailbox 0, deadline 5000 (after vector T1). -/
def sentF (loopback : Bool) : IfaceState :=
  running.if0.sent .mb0 frameF 5000#64 (if loopback then 1#16 else 0#16)

/-- Vector T7: a deadline at the time is not expired. -/
theorem test_ifDiscard_at_deadline :
    after (exec (.ifDiscard 0#4) { running with if0 := sentF false, args := { zeroArgs with now := 5000#64 } })
      (fun t => t.if0.pend0.pending && t.if0.errCnt == 0#32) = true := by decide

/-- Vector T8: the abort request shows as `ABRQ0`. -/
theorem test_ifDiscard_expired :
    after (exec (.ifDiscard 0#4) { running with if0 := sentF false, args := { zeroArgs with now := 5001#64 } })
      (fun t => !t.if0.pend0.pending && t.if0.errCnt == 1#32 && t.readReg .if0 .tsr == 0x18000080#32) = true := by decide

/-- Vectors T15 and T16. -/
theorem test_ifTxfull :
    returns (exec (.ifTxfull 0#4) running) .ok (.val 0) = true ∧
      returns (exec (.ifTxfull 0#4) { running with if0 :=
        (((sentF false).sent .mb1 frameF 0#64 0#16).sent .mb2 frameF 0#64 0#16) }) .ok (.val 1) = true := by decide

/-- Vector T10's state for the service: mailbox 0 completed and sent. -/
def completedF (loopback : Bool) : State :=
  envAct (.complete .if0 .mb0 true) { running with if0 := sentF loopback, utc := 777#64 }

/-- Vector T11: the loopback copy. -/
theorem test_ifTxsvc_loopback :
    after (exec (.ifTxsvc 0#4) (inService .entryTx (completedF true))) (fun t =>
      t.if0.hadAct && t.if0.rb.len == 1 && t.if0.rb.front == ⟨frameF, 777#64, 1#16⟩ && !t.if0.pend0.pending &&
        t.if0.mb0Sem == 1#32 && t.wake && t.readReg .if0 .tsr == 0x1C000000#32) = true := by decide

/-- Vector T10, through the entry operation. -/
theorem test_irqTx_no_loopback :
    after (exec (.irqTx 0#4) (asDispatcher (completedF false))) (fun t =>
      t.if0.hadAct && t.if0.rb.len == 0 && t.if0.mb0Sem == 1#32 && t.wake && !t.inIsr) = true := by decide

/-- Vector Q6. -/
theorem test_irqTx_unregistered :
    after (exec (.irqTx 0#4) (asDispatcher { completedF false with if0 :=
      { (completedF false).if0 with registry := false } })) (fun t => t.faults == [.unregisteredDispatch]) = true := by decide

/-- Vector T18: the deadline is 150. -/
theorem test_ifWaitmb0_blocks :
    after (exec (.ifWaitmb0 0#4) { running with mono := 100#64, args := { zeroArgs with timeout := 50#64 } })
      (fun t => t.fg == .blockedMb0 .if0 150#64 && t.res == none) = true := by decide

/-- Vector T17. -/
theorem test_ifWaitmb0_takes :
    after (exec (.ifWaitmb0 0#4) { running with if0 := { running.if0 with mb0Sem := 2#32 } })
      (fun t => t.if0.mb0Sem == 1#32 && t.res == some ⟨.ok, .none⟩) = true := by decide

/-- Vector X6. -/
theorem test_ifRecv :
    returns (exec (.ifRecv 0#4) { running with
      mono := 900#64
      if0 := { running.if0 with rb := { buffered 8 1 with slot := [⟨frameF, 123456#64, 0#16⟩] } } }) .ok
      (.received frameF 900#64 123456#64 0#16) = true := by decide

/-- Interface 0 with the frame of X1 in a FIFO, and `FOVR` as given. -/
def holding (f : Fifo) (fovr : Bool) : State :=
  { running with
    utc := 42#64
    if0 := { running.if0 with ctrl := running.if0.ctrl.onRx f fun x => { x with q := [message frameA], fovr := fovr } } }

/-- Vector X1: the head registers, with the free bits set, and the drained frame. -/
theorem test_ifRxsvc :
    (holding .rx0 false).readReg .if0 .msr = 0x00000C02#32 ∧
      ((holding .rx0 false).readReg .if0 (.rir .rx0) &&& 0xFFE00006#32) = 0x64200000#32 ∧
      after (exec (.ifRxsvc 0#4 0#2) (inService .entryRx (holding .rx0 false))) (fun t =>
        t.if0.rb.front == ⟨frameA, 42#64, 0#16⟩ && t.readReg .if0 (.rfr .rx0) == 0#32 && t.if0.errCnt == 0#32 &&
          t.if0.hadAct && t.wake) = true := by decide

/-- Vector X12. -/
theorem test_ifRxsvc_empty :
    after (exec (.ifRxsvc 0#4 1#2) (inService .entryRx (holding .rx0 false))) (fun t => t.faults == [.rxFifoEmpty]) = true := by decide

/-- Vector X2's overflow, through the entry operation. -/
theorem test_irqRx_overflow :
    after (exec (.irqRx 0#4 1#2) (asDispatcher (holding .rx1 true))) (fun t =>
      t.if0.errCnt == 1#32 && t.if0.rb.len == 1 && t.readReg .if0 (.rfr .rx1) == 0#32 && !t.inIsr) = true := by decide

/-- Vector X8. -/
theorem test_ifPollerr :
    after (exec (.ifPollerr 0#4) (inService .service { running with if0 :=
        { running.if0 with ctrl := { running.if0.ctrl with esr := 0x30#32 } } })) (fun t =>
      t.if0.lastHwErr == 3#8 && t.if0.errCnt == 1#32 && t.readReg .if0 .esr == 0#32 && t.svcRes.isSome) = true := by decide

/-- Vector X11. -/
theorem test_ifRxempty : returns (exec (.ifRxempty 0#4) running) .ok (.val 1) = true := by decide

/-- Vector X11. -/
theorem test_ifRxlen : returns (exec (.ifRxlen 0#4) { running with if0 := { running.if0 with rb := buffered 8 3 } }) .ok
    (.val 3) = true := by decide

/-- Vector S3: the sum saturates. -/
theorem test_ifErrcnt :
    returns (exec (.ifErrcnt 0#4) { running with if0 :=
      { running.if0 with errCnt := 0xFFFFFFF0#32, rb := { buffered 8 8 with ovf := 0x20#32 } } }) .ok
      (.val 0xFFFFFFFF) = true := by decide

/-- Vector S4. -/
theorem test_ifLasterr :
    after (exec (.ifLasterr 0#4) { running with if0 := { running.if0 with lastHwErr := 3#8 } }) (fun t =>
      t.res == some ⟨.ok, .val 3⟩ && t.if0.lastHwErr == 0#8) = true := by decide

/-- Vector S5. -/
theorem test_ifHadact :
    after (exec (.ifHadact 0#4) { running with if0 := { running.if0 with hadAct := true } }) (fun t =>
      t.res == some ⟨.ok, .val 1⟩ && !t.if0.hadAct) = true := by decide

/-- Vector I2: both interfaces up, the filters shared. -/
theorem test_drvInit_two :
    after (exec .drvInit { State.resetWith two with args := rated 1000000#32, inner := driverAckMoves two }) (fun t =>
      t.res == some ⟨.ok, .none⟩ && t.if0.registry && t.if1.vecRx1 && t.readReg .if1 .btr == 0x00470002#32 &&
        t.readReg .if0 .fs1r == 0x4001#32 && t.readReg .if0 .fa1r == 0x4001#32 &&
        t.readReg .if0 .fmr == 0x2A1C0E00#32) = true := by decide +kernel

/-- Vector I3: the clock is withdrawn. -/
theorem test_drvInit_rate :
    after (exec .drvInit { State.reset with args := rated 800000#32 }) (fun t =>
      t.res == some ⟨.errUnachievableBitrate, .none⟩ && !t.if0.clkEn && !t.if0.registry && !t.if0.vecTx) = true := by decide +kernel

/-- Vector M1. -/
theorem test_drvReady :
    returns (exec .drvReady { running with if0 :=
      { ((sentF false).sent .mb1 frameF 0#64 0#16).sent .mb2 frameF 0#64 0#16 with rb := buffered 8 1 } }) .ok
      (.mask 1#8 2#8) = true := by decide +kernel

/-- Vector M10: request bits of no interface are ignored, so the call blocks. -/
theorem test_drvSelect_blocks :
    after (exec .drvSelect { running with args := { zeroArgs with reqRd := 0xFC#8 } }) (fun t =>
      t.fg == .blockedSelect 0#64 0xFC#8 0#8) = true := by decide +kernel

/-- Vector M6: the wake step takes the event and answers the mask. -/
theorem test_drvSelect_wakes :
    after (step { running with
      fg := .blockedSelect 0xFFFFFFFFFFFFFFFF#64 1#8 0#8, wake := true, sched := [.go false []] }) (fun t =>
      t.res == some ⟨.ok, .mask 0#8 3#8⟩ && t.fg == .idle && !t.wake) = true := by decide +kernel

/-- Vector M9. -/
theorem test_drvHadact :
    after (exec .drvHadact { running with
      if0 := { running.if0 with hadAct := true }, if1 := { running.if1 with hadAct := true } }) (fun t =>
      t.res == some ⟨.ok, .val 1⟩ && !t.if0.hadAct && !t.if1.hadAct) = true := by decide +kernel

/-! ### Issuing a word (30_encoding.md R80, R86; 60_exceptions.md R310) -/

/-- `DRV.HADACT` as the first step after reset. -/
theorem test_fetch_drvHadact :
    after (step (State.reset.withFetchWord 32 0x53)) (fun t => t.res == some ⟨.ok, .val 0⟩ && t.faults == []) = true := by
  decide +kernel

/-- `IF.TXSVC` as the first step after reset: the register block is not clocked. -/
theorem test_fetch_ifTxsvc :
    after (step (State.reset.withFetchWord 32 0x22)) (fun t =>
      t.faults == [.clockDisabledAccess] && t.faultCw == 0x22#32) = true := by decide +kernel

/-- Vectors E4 and E8. -/
theorem test_issue_illegal :
    after (issue ⟨.host, 0x120#32, zeroArgs⟩ [] State.reset) (fun t =>
        t.faults == [.illegalCommand] && t.faultCw == 0x120#32) = true ∧
      after (issue ⟨.host, 0x60#32, zeroArgs⟩ [] running) (fun t => t.faults == [.illegalCommand]) = true := by
  decide +kernel

/-- A faulted block takes no command (program P5, step 4). -/
theorem test_stopped :
    step { running with fg := .faulted, faults := [.popEmpty], sched := [.issue ⟨.host, 0x51#32, zeroArgs⟩ []] } =
      .fault .blockStopped := rfl

/-- Vectors Q1 and Q2. -/
theorem test_start_condition :
    canStart { completedF false with if0 :=
        { (completedF false).if0 with
          vecTx := true, ctrl := { (completedF false).if0.ctrl with ier := 0x13#32 } } } .if0 .tx = true ∧
      canStart { completedF false with
        cs := true
        if0 := { (completedF false).if0 with
          vecTx := true, ctrl := { (completedF false).if0.ctrl with ier := 0x13#32 } } } .if0 .tx = false := by
  decide +kernel

/-- A class-D command whose start condition does not hold starts nothing (60_exceptions.md R304): here nothing is pending. -/
theorem test_irqTx_not_pending : exec (.irqTx 0#4) (asDispatcher running) = .next (asDispatcher running) := rfl

/-- 44_rx_path.md R210: the RX service is not a command of the TX entry operation's body. -/
theorem test_ifRxsvc_from_irqTx :
    after (exec (.ifRxsvc 0#4 0#2) (inService .entryTx (holding .rx0 false))) (fun t =>
      t.faults == [.illegalCommand] && t.if0.rb.len == 0) = true := by decide +kernel

/-- 41_ring_buffer.md R133: a frame received after the critical section was left does not undo the fault. -/
theorem test_rbPop_empty_then_received :
    after (exec (.rbPop 0#4) { asDispatcher (holding .rx0 false) with by' := .host, inner := [.go, .irq .if0 .rx0, .go] })
      (fun t => t.faults == [.popEmpty] && t.faultCw == 0x9#32 && t.if0.rb.len == 1 && !t.cs) = true := by decide +kernel

/-- 43_tx_path.md R182, R183: the last write of a mailbox load, by a foreground that stands before it. -/
theorem test_resume_ifSend :
    after (step { running with
      cs := true, fg := .busy (.ifSend 0#4) (.send ⟨.if0, frameF, 5000#64, 0#16⟩ (.load 0x1C000000#32 .mb0 [.request])) })
      (fun t => t.res == some ⟨.accepted, .none⟩ && t.readReg .if0 (.tir .mb0) == 0x24600001#32 &&
        t.if0.pend0 == ⟨frameF, 5000#64, false, true⟩ && t.fg == .idle && !t.cs) = true := by decide +kernel

/-- 60_exceptions.md R306, R316: inside an interrupt service a command of the host does not run. -/
theorem test_rbLen_in_service :
    after (step { running with inIsr := true, sched := [.issue ⟨.host, 0xA#32, zeroArgs⟩ []] })
      (fun t => t.res == none && t.fg == .idle && t.faults == [] && t.inIsr) = true := by decide +kernel

/-- 20_memory.md R65, 47_controller_env.md R285: the filter registers are in interface 0's block alone. -/
theorem test_drift_filters_not_if1 : envAct (.drift .if1 .fmr 0xFFFFFFFF#32) running = running := rfl

/-! ### The statements' hypotheses are met

One theorem for each statement that has hypotheses, named after it, with a part for each clause. -/

/-- The next state of an outcome that has one. -/
theorem next_of_after {o : Host.Outcome State Fault Refusal} {p : State → Bool} (h : after o p = true) :
    ∃ t, o = .next t ∧ p t = true := by
  cases o with
  | next t => exact ⟨t, rfl, h⟩
  | fault | refused => cases h

theorem two_wf : two.wf := by
  refine ⟨by decide, by decide, by decide, fun _ => ⟨by decide, by decide, by decide⟩⟩

/-- A host's turn. -/
theorem turn {s : State} (h1 : s.by' = .host) (h2 : s.fg = .idle) (h3 : s.faults = []) (h4 : s.cs = false)
    (h5 : s.inIsr = false) : s.HostTurn := ⟨h1, h2, h3, h4, h5⟩

theorem running_turn : running.HostTurn := turn rfl rfl rfl rfl rfl

theorem running_reaches (i : Iface) : running.Reaches i := ⟨two_wf, by cases i <;> rfl, by cases i <;> rfl⟩

theorem service_turn (who : Issuer) : (inService who running).ServiceTurn who :=
  ⟨rfl, fun h => (nomatch h), rfl, rfl⟩

theorem reset_rb_wf : (RingBuf.reset 8).Wf 8 := ⟨by decide, by decide, by decide⟩

theorem reset_ctrl_wf : Ctrl.reset.Wf :=
  ⟨fun m => by cases m <;> exact ⟨by decide, by decide⟩,
    fun f => by cases f <;> exact ⟨by decide, fun _ h => nomatch h⟩⟩

/-- The data invariant of a state in which both interfaces are those of `running`. -/
theorem running_data : running.DataInv where
  build := two_wf
  ifaces i := by
    cases i <;> exact ⟨reset_rb_wf, by decide, fun src h => (by cases src <;> cases h), reset_ctrl_wf⟩
  faults := .nil
  bridge := by decide
  banks := ⟨rfl, rfl⟩

theorem running_clocked : running.Clocked := ⟨running_data, fun i _ => by cases i <;> rfl⟩

theorem running_inv : running.Inv := ⟨running_data, by decide, fun _ _ h => (nomatch h), fun _ => rfl, fun _ => rfl⟩

theorem witness_DecodeOfEncode : Instr.wellFormed 2 (.irqRx 1#4 1#2) = true ∧ Instr.wellFormed 1 .drvInit = true := by
  decide

theorem witness_EncodeOfDecode : decode 0x00001161#32 = .ok (.irqRx 1#4 1#2) := by decide

theorem witness_WordIsCommandOrIllegal :
    (Instr.wellFormed 2 (.rbLen 1#4) = true ∧ encode (.rbLen 1#4) = 0x10A#32) ∧ illegalWord 1 0x10A#32 :=
  ⟨by decide, .inr (.inr (.inl (by decide)))⟩

/-- A word at the port, and an operation in progress. -/
theorem witness_StepRunsDecodedCommand :
    (let s : State := { running with sched := [.issue ⟨.host, 0x53#32, zeroArgs⟩ [.go]] }; s.stopped = false ∧
      s.sched = .issue ⟨.host, 0x53#32, zeroArgs⟩ [.go] :: [] ∧ decode 0x53#32 = .ok .drvHadact) ∧
    (let s : State := { running with fg := .busy (.rbLen 0#4) (.len .if0), sched := [.go false [.go]] }; s.faults = [] ∧
      s.inIsr = false ∧ s.fg = .busy (.rbLen 0#4) (.len .if0) ∧ s.sched = .go false [.go] :: []) :=
  ⟨⟨by decide, rfl, rfl⟩, rfl, rfl, rfl, rfl⟩

/-- One request for each item of 30_encoding.md R86. -/
theorem witness_IllegalCommandFaultsOnly :
    running.stopped = false ∧
      illegalRequest running ⟨.host, 0xF0#32, zeroArgs⟩ ∧ illegalRequest running ⟨.host, 0x4020#32, zeroArgs⟩ ∧
      illegalRequest running ⟨.host, 0x220#32, zeroArgs⟩ ∧ illegalRequest running ⟨.host, 0x101#32, zeroArgs⟩ ∧
      illegalRequest running ⟨.entryRx, 0x2031#32, zeroArgs⟩ ∧ illegalRequest running ⟨.host, 0x1020#32, zeroArgs⟩ ∧
      illegalRequest running ⟨.host, 0x60#32, zeroArgs⟩ ∧
      illegalRequest { running with fg := .blockedMb0 .if0 0#64 } ⟨.host, 0x51#32, zeroArgs⟩ :=
  ⟨by decide, .inl (.inl (by decide)), .inl (.inr (.inl (by decide))), .inl (.inr (.inr (.inl (by decide)))),
    .inl (.inr (.inr (.inr (.inl (by decide))))), .inl (.inr (.inr (.inr (.inr (.inl (by decide)))))),
    .inl (.inr (.inr (.inr (.inr (.inr (by decide)))))), .inr (.inl (by decide)), .inr (.inr (by decide))⟩

theorem witness_StoppedBlockStands :
    let s := { running with fg := .faulted, faults := [.rxFifoEmpty] }
    s.stopped = true ∧ (∀ a l, s.sched ≠ .env a :: l) ∧
      ({ s with sched := [.env .consume] } : State).stopped = true := ⟨by decide, fun _ _ h => (nomatch h), by decide⟩

/-- A step that raises a fault. -/
theorem witness_OneFaultPerStep :
    let s := { running with sched := [.issue ⟨.host, 0x0#32, zeroArgs⟩ []] }
    s.Inv ∧ s.faults = [] ∧ ∃ t, step s = .next t ∧ t.faults = [.illegalCommand] :=
  ⟨⟨⟨running_data.build, running_data.ifaces, .nil, by decide, ⟨rfl, rfl⟩⟩, by decide, fun _ _ h => (nomatch h),
    fun _ => rfl, fun _ => rfl⟩, rfl, _, rfl, rfl⟩

theorem witness_StepKeepsInvariant :
    let s := { running with sched := [.env (.arrive .if0 .rx0 (message frameA) true)] }
    s.Inv ∧ ∃ t, step s = .next t :=
  ⟨⟨⟨running_data.build, running_data.ifaces, .nil, by decide, ⟨rfl, rfl⟩⟩, by decide, fun _ _ h => (nomatch h),
    fun _ => rfl, fun _ => rfl⟩, _, rfl⟩

theorem not_expired {x : IfaceState} {now : U64} (h : ∀ m ∈ [Mb.mb0, .mb1, .mb2], (x.pend m).pending = false) :
    ¬ x.anyExpired now := fun ⟨m, hm, _⟩ => by rw [h m (by cases m <;> decide)] at hm; cases hm

/-- An unclocked block: of each interface, with the operands of every clause; no expired slot, and an expired one, the
primary interface's block clocked or without one; an expired slot of the clocked interface alone. -/
theorem witness_UnclockedAccessFaults :
    (let s : State := { State.reset with args := rated 500000#32 }; s.HostTurn ∧ s.quiet ∧ s.cfg.wf ∧ hasIface s.cfg .if0 = true ∧
      (s.iface .if0).clkEn = false ∧ rejected s.args.frame = false ∧ calcTimings s.cfg.pclk s.args.rate.toNat ≠ none ∧
      ∀ i, ¬ (s.iface i).anyExpired 1#64) ∧
    (let s : State := { running with mono := 5001#64, args := { zeroArgs with now := 5001#64 }, if1 := { sentF false with clkEn := false } }; s.HostTurn ∧
      s.quiet ∧ s.cfg.wf ∧ hasIface s.cfg .if1 = true ∧ (s.iface .if1).clkEn = false ∧ (s.iface .if0).clkEn = true ∧
      (s.iface .if1).anyExpired s.args.now ∧ (s.iface .if1).anyExpired s.mono) ∧
    (let s : State := { running with mono := 5001#64, if0 := { running.if0 with clkEn := false }, if1 := { sentF false with clkEn := false } };
      (s.iface .if1).clkEn = false ∧ ¬ (s.iface .if0).anyExpired s.mono ∧ (s.iface .if1).anyExpired s.mono) ∧
    (let s : State := { running with mono := 5001#64, if0 := sentF false, if1 := { running.if1 with clkEn := false } };
      (s.iface .if1).clkEn = false ∧ (s.iface .if0).anyExpired s.mono ∧
        ∀ j, (s.iface j).anyExpired s.mono → (s.iface j).clkEn = true) :=
  ⟨⟨turn rfl rfl rfl rfl rfl, rfl, ⟨by decide, by decide, by decide, fun h => (nomatch h)⟩, rfl, rfl, by decide,
      by decide, fun i ⟨m, hm, _⟩ => by cases i <;> cases m <;> cases hm⟩,
    ⟨turn rfl rfl rfl rfl rfl, rfl, two_wf, rfl, rfl, rfl, ⟨.mb0, by decide, by decide⟩, ⟨.mb0, by decide, by decide⟩⟩,
    ⟨rfl, not_expired (by decide), ⟨.mb0, by decide, by decide⟩⟩,
    rfl, ⟨.mb0, by decide, by decide⟩, fun j h => by
      cases j with
      | if0 => rfl
      | if1 => obtain ⟨m, hm, _⟩ := h; cases m <;> cases hm⟩

theorem reset_data : (State.resetWith two).DataInv where
  build := two_wf
  ifaces i := by
    cases i <;> exact ⟨reset_rb_wf, by decide, fun src h => (by cases src <;> cases h), reset_ctrl_wf⟩
  faults := .nil
  bridge := by decide
  banks := ⟨rfl, rfl⟩

/-- A command that may fault, one that does not, and `DRV.INIT` after reset. -/
theorem witness_NoFaultInNormalOperation :
    (running.HostTurn ∧ running.Clocked ∧ Instr.cls (.rbPop 1#4) = .host ∧
      Instr.wellFormed running.cfg.numIfaces (.rbPop 1#4) = true ∧ Instr.rbPop 1#4 ≠ .drvInit ∧
      Instr.cls .drvSelect = .host ∧ Instr.drvSelect ≠ .drvInit) ∧
    (let s := State.resetWith two; s.HostTurn ∧ s.DataInv ∧ s.noVectors) :=
  ⟨⟨running_turn, running_clocked, by decide, by decide, by decide, by decide, by decide⟩,
    turn rfl rfl rfl rfl rfl, reset_data, fun i src => by cases i <;> cases src <;> rfl⟩

theorem witness_ResetMeetsInvariant : two.wf := two_wf

/-- A step that counts an error. -/
theorem witness_ErrorCountersNeverDecrease :
    ∃ t, step { inService .entryRx (holding .rx0 true) with sched := [.issue ⟨.entryRx, 0x31#32, zeroArgs⟩ []] } = .next t ∧
      (t.if0.errCnt == 1#32) = true := next_of_after (by decide +kernel)

/-- A step in which the clocks move. -/
theorem witness_StepsNeverWithdraw :
    ∃ t, step { running with sched := [.env (.tick 5#64 6#64)] } = .next t ∧
      (t.if0.registry && t.mono == 5#64) = true := next_of_after (by decide +kernel)

theorem witness_OnlyDriverInitChangesClocks :
    Instr.ifSend 0#4 ≠ .drvInit ∧ ∃ t, exec (.ifSend 0#4) running = .next t ∧ t.if0.clkEn = true :=
  ⟨by decide, next_of_after (by decide +kernel)⟩

/-- The premises of the clauses: a clear code, a request, a completion. -/
theorem witness_EnvironmentLimits :
    let s := envAct (.complete .if0 .mb0 true) { running with if0 := (sentF false).sent .mb1 frameF 0#64 0#16 }
    esrLec (s.ctrl .if0).esr = 0#3 ∧ ((s.ctrl .if0).mb .mb1).tir.getLsbD 0 = true ∧
      ((s.ctrl .if0).mb .mb0).rqcp = true := by decide +kernel

theorem witness_EnvironmentFrame : (State.reset.iface .if0).clkEn = false := rfl

theorem witness_BtCalcResult : running.HostTurn := running_turn

/-- At 500 000 Hz, and at a rate whose square is below the clock, where the first four parts still hold. -/
theorem witness_TimingExactAndInRange :
    (∃ t, calcTimings 42000000 500000 = some t) ∧ 42000000 < 500000 * (500000 + 1) := ⟨⟨_, rfl⟩, by decide⟩

theorem buffered_wf {n : Nat} (h : n ≤ 8) : (buffered 8 n).Wf 8 := ⟨by simp [buffered], Nat.succ_pos 7, h⟩

/-- A full buffer, and one with room. -/
theorem witness_PushAppendsContent :
    (buffered 8 8).Wf 8 ∧ (buffered 8 8).len = 8 ∧ (buffered 8 7).Wf 8 ∧ (buffered 8 7).len ≠ 8 :=
  ⟨buffered_wf (by decide), rfl, buffered_wf (by decide), by decide⟩

theorem witness_PopTakesOldest : (buffered 8 1).Wf 8 ∧ (buffered 8 1).len ≠ 0 := ⟨buffered_wf (by decide), by decide⟩

theorem witness_OverflowKeepsNewest :
    let b := RingBuf.reset 8
    let es := List.replicate (8 + 1) (⟨frameF, 0#64, 0#16⟩ : RxEntry)
    b.Wf 8 ∧ b.len = 0 ∧ b.ovf = 0#32 ∧ 1 ≤ 1 ∧ 1 < 2 ^ 32 ∧ es.length = 8 + 1 :=
  ⟨reset_rb_wf, rfl, rfl, by decide, by decide, rfl⟩

/-- The host's turn in a quiet state, at both interfaces of a build: what the statements about one command of the host that
reaches no register ask for (RbPushResult, QueriesChangeNothing, LatchesReadAndClear, DriverActivityResult,
CfgfiltUnsupported). -/
theorem witness_HostCommands : running.HostTurn ∧ running.quiet ∧ ∀ i, hasIface running.cfg i = true :=
  ⟨running_turn, rfl, fun i => by cases i <;> rfl⟩

theorem witness_RbPopResult :
    let s := { running with if0 := { running.if0 with rb := buffered 8 1 } }
    s.HostTurn ∧ s.quiet ∧ hasIface s.cfg .if0 = true ∧ (s.iface .if0).rb.len ≠ 0 ∧ (s.iface .if1).rb.len = 0 :=
  ⟨turn rfl rfl rfl rfl rfl, rfl, rfl, by decide, rfl⟩

theorem timing_500k : calcTimings 42000000 (500000#32).toNat = some ⟨5#10, 0#2, 7#4, 4#3⟩ := by decide

/-- The same, for IfInitResult, at both interfaces. -/
theorem witness_IfInitResult (i : Iface) :
    let s := { running with args := rated 500000#32, inner := ackMoves i }
    s.HostTurn ∧ s.Reaches i ∧ s.inner = ackMoves i ∧
      calcTimings s.cfg.pclk s.args.rate.toNat = some ⟨5#10, 0#2, 7#4, 4#3⟩ :=
  ⟨turn rfl rfl rfl rfl rfl, ⟨two_wf, by cases i <;> rfl, by cases i <;> rfl⟩, rfl, timing_500k⟩

theorem witness_IfInitFailures :
    (let s : State := { running with args := rated 800000#32 }; s.HostTurn ∧ hasIface s.cfg .if1 = true ∧ calcTimings s.cfg.pclk s.args.rate.toNat = none) ∧
    (let s : State := { running with args := rated 500000#32 }; s.HostTurn ∧ s.Reaches .if1 ∧ s.quiet ∧ (s.ctrl .if1).mode ≠ .config ∧
        calcTimings s.cfg.pclk s.args.rate.toNat = some ⟨5#10, 0#2, 7#4, 4#3⟩) ∧
    (let s : State := { running with args := rated 500000#32, inner := [.go, .go, .env (.enterConfig .if1), .go] }; s.HostTurn ∧ s.Reaches .if1 ∧ s.inner = [.go, .go, .env (.enterConfig .if1), .go]) :=
  ⟨⟨turn rfl rfl rfl rfl rfl, rfl, by decide⟩,
    ⟨turn rfl rfl rfl rfl rfl, ⟨two_wf, rfl, rfl⟩, rfl, by decide, by decide⟩,
    ⟨turn rfl rfl rfl rfl rfl, ⟨two_wf, rfl, rfl⟩, rfl⟩⟩

theorem reference_wf : Params.reference.wf := ⟨by decide, by decide, by decide, fun h => (nomatch h)⟩

theorem timing_1M : calcTimings 42000000 (1000000#32).toNat = some ⟨2#10, 0#2, 7#4, 4#3⟩ := by decide

/-- In both builds. -/
theorem witness_DrvInitResult (two' : Bool) :
    let s := { State.resetWith { Params.reference with twoIfaces := two' } with
      args := rated 1000000#32, inner := driverAckMoves { Params.reference with twoIfaces := two' } }
    s.HostTurn ∧ s.cfg.wf ∧ s.inner = driverAckMoves s.cfg ∧
      calcTimings s.cfg.pclk s.args.rate.toNat = some ⟨2#10, 0#2, 7#4, 4#3⟩ :=
  ⟨turn rfl rfl rfl rfl rfl, ⟨reference_wf.1, reference_wf.2.1, reference_wf.2.2.1, fun _ => two_wf.2.2.2 rfl⟩, rfl,
    timing_1M⟩

/-- An initialization that returns `OK`, and one that fails; an unachievable and an achievable rate with no other move, and
the schedules on which interface 0 does not leave configuration mode and interface 1 does not enter it. -/
theorem witness_DrvInitAllOrNothing :
    (let s : State := { State.resetWith two with args := rated 1000000#32, inner := driverAckMoves two }; s.HostTurn ∧ ∃ t, exec .drvInit s = .next t ∧ (t.res == some ⟨.ok, .none⟩) = true) ∧
    (let s : State := { State.resetWith two with args := rated 800000#32 }; s.HostTurn ∧ ∃ t, exec .drvInit s = .next t ∧ (t.res == some ⟨.errUnachievableBitrate, .none⟩) = true) ∧
    (∀ rate l, let s : State := { State.resetWith two with args := rated rate, inner := l };
      s.HostTurn ∧ s.cfg.wf ∧ s.cfg.twoIfaces = true ∧ s.inner = l ∧ (l = [] → s.quiet)) ∧
    calcTimings two.pclk 800000 = none ∧ calcTimings two.pclk 1000000 = some ⟨2#10, 0#2, 7#4, 4#3⟩ :=
  ⟨⟨turn rfl rfl rfl rfl rfl, next_of_after (by decide +kernel)⟩,
    ⟨turn rfl rfl rfl rfl rfl, next_of_after (by decide +kernel)⟩,
    fun _ _ => ⟨turn rfl rfl rfl rfl rfl, two_wf, rfl, rfl, id⟩, by decide, by decide⟩

/-- With no vector enabled, and with interface 1's vectors enabled (vector I7). -/
theorem witness_InitOkMeansProgrammed :
    let s (v : Bool) : State := { running with
      args := rated 500000#32, inner := ackMoves .if1, if1 := { running.if1 with vecTx := v, vecRx0 := v, vecRx1 := v } }
    (∀ v, (s v).HostTurn ∧ (s v).Clocked ∧ hasIface (s v).cfg .if1 = true) ∧
      ∃ t, exec (.ifInit 1#4) (s true) = .next t ∧ (t.res == some ⟨.ok, .none⟩) = true :=
  ⟨fun v => ⟨turn rfl rfl rfl rfl rfl,
    ⟨⟨running_data.build, fun i => by
        have h := running_data.ifaces i
        cases i
        · exact h
        · exact ⟨h.rb, h.lastHwErr, fun _ _ => rfl, h.ctrl⟩, .nil, running_data.bridge, ⟨rfl, rfl⟩⟩,
      fun i _ => by cases i <;> rfl⟩, rfl⟩, next_of_after (by decide +kernel)⟩

/-- Each of the three mailboxes in turn is the lowest empty one. -/
theorem witness_SendAccepted :
    running.HostTurn ∧ running.quiet ∧ running.Reaches .if0 ∧ rejected running.args.frame = false ∧
      running.if0.firstEmpty .mb0 ∧ (sentF false).firstEmpty .mb1 ∧
      ((sentF false).sent .mb1 frameF 0#64 0#16).firstEmpty .mb2 :=
  ⟨running_turn, rfl, running_reaches _, by decide, ⟨rfl, trivial⟩, ⟨rfl, by decide⟩, ⟨rfl, by decide, by decide⟩⟩

/-- An error frame, a length code of 9, and no empty mailbox. -/
theorem witness_SendTurnedAway :
    running.HostTurn ∧ hasIface running.cfg .if1 = true ∧ ({ frameF with err := true } : Frame).err = true ∧
      8 < ({ frameF with dlc := 9#4 } : Frame).dlc.toNat ∧
      (let s : State := { running with if0 :=
          ((sentF false).sent .mb1 frameF 0#64 0#16).sent .mb2 frameF 0#64 0#16 }; s.HostTurn ∧ s.quiet ∧ s.Reaches .if0 ∧ rejected s.args.frame = false ∧ (s.iface .if0).canSend = false) :=
  ⟨running_turn, rfl, rfl, by decide, turn rfl rfl rfl rfl rfl, rfl, ⟨two_wf, rfl, rfl⟩, by decide, by decide⟩

/-- The host's turn with a reachable register block, at both interfaces (DiscardResult, TxfullResult, ReadyResult,
SelectResult). -/
theorem witness_RegisterCommands :
    running.HostTurn ∧ running.quiet ∧ (∀ i, running.Reaches i) ∧ running.inner = [] :=
  ⟨running_turn, rfl, running_reaches, rfl⟩

theorem witness_TxsvcResult : (inService .entryTx running).ServiceTurn .entryTx ∧ (inService .entryTx running).quiet ∧
    (inService .entryTx running).Reaches .if1 := ⟨service_turn _, rfl, ⟨two_wf, rfl, rfl⟩⟩

/-- A message in FIFO 0 of interface 0. -/
def oneMessage : State := { running with
  if0 := { running.if0 with ctrl := { running.if0.ctrl with rx0 := { RxFifo.reset with q := [message frameA] } } } }

theorem oneMessage_data : oneMessage.DataInv := by
  refine ⟨two_wf, fun i => ?_, .nil, by decide, ⟨rfl, rfl⟩⟩
  cases i
  · refine ⟨reset_rb_wf, by decide, fun src h => (by cases src <;> cases h), ⟨?_, ?_⟩⟩
    · intro m
      cases m <;> exact ⟨by decide, by decide⟩
    · intro f
      cases f
      · refine ⟨by decide, fun m hm => ?_⟩
        obtain rfl : m = message frameA := List.mem_singleton.mp hm
        decide
      · exact ⟨by decide, fun _ h => nomatch h⟩
  · exact ⟨reset_rb_wf, by decide, fun src h => (by cases src <;> cases h), reset_ctrl_wf⟩

/-- Each service's turn, the RX one with a message in its FIFO. -/
theorem witness_ServicesEndAtEverySchedule (who : Issuer) :
    let s := inService who oneMessage
    s.ServiceTurn who ∧ s.Clocked ∧ hasIface s.cfg .if0 = true ∧ ((s.ctrl .if0).rx .rx0).q ≠ [] := by
  obtain ⟨h1, h2, h3, h4, h5⟩ := oneMessage_data
  exact ⟨⟨rfl, fun h => (nomatch h), rfl, rfl⟩, ⟨⟨h1, fun i => by cases i; exacts [h2 .if0, h2 .if1], h3, h4, h5⟩,
    fun i _ => by cases i <;> rfl⟩, rfl, fun h => (nomatch h)⟩

theorem witness_LoopbackExactlyOnce :
    let s := inService .entryTx (completedF true)
    s.ServiceTurn .entryTx ∧ s.quiet ∧ s.Reaches .if0 ∧ (s.iface .if0).rb.Wf s.cfg.rxCapacity ∧
      (s.iface .if0).rb.len < s.cfg.rxCapacity ∧ ((s.ctrl .if0).mb .mb0).rqcp = true ∧
      ((s.ctrl .if0).mb .mb0).txok = true ∧ (∀ k, k ≠ .mb0 → ((s.ctrl .if0).mb k).rqcp = false) ∧
      ((s.iface .if0).pend .mb0).pending = true ∧ ((s.iface .if0).pend .mb0).loopback = true :=
  ⟨⟨rfl, by decide, rfl, rfl⟩, rfl, ⟨two_wf, rfl, rfl⟩, reset_rb_wf, by decide, by decide, by decide,
    fun k hk => by cases k <;> first | exact absurd rfl hk | rfl, by decide, by decide⟩

/-- A count, and none. -/
theorem witness_WaitMb0Result :
    let s := { running with if0 := { running.if0 with mb0Sem := 1#32 } }
    s.HostTurn ∧ s.quiet ∧ (∀ i, hasIface s.cfg i = true) ∧ (s.iface .if0).mb0Sem ≠ 0#32 ∧
      (s.iface .if1).mb0Sem = 0#32 :=
  ⟨turn rfl rfl rfl rfl rfl, rfl, fun i => by cases i <;> rfl, by decide, rfl⟩

/-- A count before the deadline; a count at the deadline, where the draw decides; no count at the deadline; no count
before it. -/
theorem witness_WakeMb0Step :
    let s (n : Word) (now : U64) (draw : Bool) : State := { running with
      fg := .blockedMb0 .if0 150#64, mono := now, sched := [.go draw []], if0 := { running.if0 with mb0Sem := n } }
    (∀ n now draw, (s n now draw).faults = [] ∧ (s n now draw).inIsr = false ∧ (s n now draw).fg = .blockedMb0 .if0 150#64 ∧
      (s n now draw).sched = [.go draw []]) ∧
    ((s 1#32 149#64 true).if0.mb0Sem ≠ 0#32 ∧ (s 1#32 149#64 true).mono < 150#64) ∧
    ((s 1#32 150#64 false).if0.mb0Sem ≠ 0#32 ∧ (150#64 : U64) ≤ (s 1#32 150#64 true).mono) ∧
    ((150#64 : U64) ≤ (s 0#32 150#64 false).mono ∧ (s 0#32 150#64 false).if0.mb0Sem = 0#32) ∧
    ((s 0#32 149#64 false).if0.mb0Sem = 0#32 ∧ (s 0#32 149#64 false).mono < 150#64) :=
  ⟨fun _ _ _ => ⟨rfl, rfl, rfl, rfl⟩, by decide, by decide, by decide, by decide⟩

theorem witness_RecvResult :
    let s := { running with if0 := { running.if0 with rb := buffered 8 1 } }
    s.HostTurn ∧ s.quiet ∧ (∀ i, hasIface s.cfg i = true) ∧ (s.iface .if0).rb.len ≠ 0 ∧ (s.iface .if1).rb.len = 0 :=
  ⟨turn rfl rfl rfl rfl rfl, rfl, fun i => by cases i <;> rfl, by decide, rfl⟩

/-- A FIFO with a message, and an empty one. -/
theorem witness_RxsvcResult :
    let s := inService .entryRx (holding .rx1 false)
    s.ServiceTurn .entryRx ∧ s.quiet ∧ s.Reaches .if0 ∧ ((s.ctrl .if0).rx .rx1).q = message frameA :: [] ∧
      (message frameA).admitted = true ∧ ((s.ctrl .if0).rx .rx0).q = [] :=
  ⟨⟨rfl, by decide, rfl, rfl⟩, rfl, ⟨two_wf, rfl, rfl⟩, rfl, by decide, rfl⟩

theorem witness_PollerrResult :
    let s := inService .service running
    s.ServiceTurn .service ∧ s.quiet ∧ s.Reaches .if0 := ⟨⟨rfl, by decide, rfl, rfl⟩, rfl, ⟨two_wf, rfl, rfl⟩⟩

/-- Enabled by the event; enabled at the deadline; not enabled. -/
theorem witness_WakeSelectStep :
    let s (event : Bool) (now : U64) : State := { running with
      fg := .blockedSelect 500#64 3#8 3#8, mono := now, wake := event, sched := [.go false []] }
    (∀ event now, (s event now).faults = [] ∧ (s event now).cs = false ∧
      (s event now).inIsr = false ∧ (s event now).fg = .blockedSelect 500#64 3#8 3#8 ∧ (s event now).sched = [.go false []] ∧
      ∀ i, (s event now).Reaches i) ∧
    (s true 499#64).wake = true ∧ (500#64 : U64) ≤ (s false 500#64).mono ∧
    ((s false 499#64).wake = false ∧ (s false 499#64).mono < 500#64) :=
  ⟨fun _ _ => ⟨rfl, rfl, rfl, rfl, rfl, fun i => ⟨two_wf, by cases i <;> rfl, by cases i <;> rfl⟩⟩, rfl, by decide, rfl,
    by decide⟩

/-- A source of each kind that may start. -/
theorem witness_EntryResults :
    (let s := asDispatcher (completedF true); s.DispatcherTurn ∧ s.quiet ∧ s.Reaches .if0 ∧ (s.iface .if0).registry = true ∧ s.MayStart .if0 .tx) ∧
    (let s := asDispatcher (holding .rx0 true); s.DispatcherTurn ∧ s.quiet ∧ s.Reaches .if0 ∧ (s.iface .if0).registry = true ∧ s.MayStart .if0 .rx0 ∧
      ((s.ctrl .if0).rx .rx0).q = message frameA :: [] ∧ (message frameA).admitted = true) ∧
    (let s := asDispatcher (holding .rx1 true); s.MayStart .if0 .rx1 ∧ ((s.ctrl .if0).rx .rx1).q = message frameA :: []) :=
  ⟨⟨⟨rfl, by decide, rfl⟩, rfl, ⟨two_wf, rfl, rfl⟩, rfl, rfl, ⟨by decide, .inl (by decide)⟩, rfl, rfl, rfl⟩,
    ⟨⟨rfl, by decide, rfl⟩, rfl, ⟨two_wf, rfl, rfl⟩, rfl, ⟨rfl, ⟨by decide, by decide⟩, rfl, rfl, rfl⟩, rfl, by decide⟩,
    ⟨rfl, ⟨by decide, by decide⟩, rfl, rfl, rfl⟩, rfl⟩

theorem witness_UnregisteredDispatchFaults :
    let s := asDispatcher { completedF false with if0 := { (completedF false).if0 with registry := false } }
    s.DispatcherTurn ∧ s.MayStart .if0 .tx ∧ (s.iface .if0).registry = false :=
  ⟨⟨rfl, by decide, rfl⟩, ⟨rfl, ⟨by decide, .inl (by decide)⟩, rfl, rfl, rfl⟩, rfl⟩

/-- A source that may start, and one masked by the critical section alone, at the dispatcher's move and as its command. -/
theorem witness_StartCondition :
    let s (masked : Bool) : State := { asDispatcher (holding .rx1 false) with cs := masked, sched := [.irq .if0 .rx1 []] }
    (∀ masked, (s masked).fg ≠ .faulted ∧ (s masked).faults = [] ∧ (s masked).sched = [.irq .if0 .rx1 []] ∧
      hasIface (s masked).cfg .if0 = true ∧ (s masked).by' = .dispatcher) ∧
    (s false).MayStart .if0 .rx1 ∧ ¬ (s true).MayStart .if0 .rx1 :=
  ⟨fun _ => ⟨fun h => (nomatch h), rfl, rfl, rfl, rfl⟩, ⟨rfl, ⟨by decide, by decide⟩, rfl, rfl, rfl⟩,
    fun h => (nomatch h.noCs)⟩

/-- The critical section taken; inside a service, the foreground blocked and Idle. -/
theorem witness_SectionsAndServicesExclude :
    (let s := { running with cs := true, inner := [.irq .if0 .tx, .env .consume, .go] }; s.cs = true) ∧
    (let s := { running with fg := .blockedMb0 .if0 0#64, inIsr := true, sched := [.go false []] }; s.fg ≠ .faulted ∧
      s.faults = [] ∧ s.inIsr = true ∧ s.sched = .go false [] :: []) ∧
    (let s := { running with inIsr := true }; s.by' = .host ∧ Instr.cls (.rbLen 1#4) = .host ∧
      (Instr.rbLen 1#4).wellFormed s.cfg.numIfaces = true ∧ s.fg = .idle ∧ s.faults = [] ∧ s.inIsr = true) :=
  ⟨rfl, ⟨fun h => (nomatch h), rfl, rfl, rfl⟩, rfl, rfl, by decide, rfl, rfl, rfl⟩

/-- Another width, a misaligned address, an address of no register; an unclocked register; a clocked one, in each block. -/
theorem witness_PortAccess :
    two.wf ∧ (2 : Nat) ≠ 4 ∧ (0x40006402#32).toNat % 4 ≠ 0 ∧ locate two 0x40006420#32 = none ∧
      (State.reset.iface .if0).clkEn = false ∧ (running.iface .if1).clkEn = true ∧
      0x4000681C#32 = base two .if1 + Reg.off .btr ∧ 0x40006600#32 = base two .if0 + Reg.off .fmr ∧
      Reg.isFilter .btr = false := ⟨two_wf, by decide, by decide, by decide, rfl, rfl, by decide, by decide, rfl⟩

/-- In and out of `Config`, and a mailbox that is not empty. -/
theorem witness_StatusWrites :
    let s := { running with if0 := sentF false, if1 := { running.if1 with ctrl := { running.if1.ctrl with mode := .config } } }
    s.Reaches .if0 ∧ s.Reaches .if1 ∧ (s.ctrl .if0).mode ≠ .config ∧ (s.ctrl .if1).mode = .config ∧
      ((s.ctrl .if0).mb .mb0).st ≠ .empty :=
  ⟨⟨two_wf, rfl, rfl⟩, ⟨two_wf, rfl, rfl⟩, by decide, rfl, by decide⟩

/-- A requested mailbox, and an aborting one; a FIFO with room for two, with room for the last, and a full one, in and out
of `Normal`; a bus error. -/
theorem witness_CompletionShows :
    (let s : State := { running with if0 := sentF false, if1 := ((sentF false).aborted 5001#64 .mb0) }; s.Reaches .if0 ∧ s.Reaches .if1 ∧
      ((s.ctrl .if0).mb .mb0).st = .requested ∧ ((s.ctrl .if1).mb .mb0).st = .aborting) ∧
    (∀ n mode, let s : State := { running with if0 := { running.if0 with ctrl := { running.if0.ctrl with
        mode := mode, rx1 := { RxFifo.reset with q := List.replicate n (message frameA) } } } }; s.Reaches .if0 ∧
      (s.ctrl .if0).mode = mode ∧ ((s.ctrl .if0).rx .rx1).q.length = n) ∧
    (message frameA).admitted = true ∧ (6#3 : BitVec 3) ≠ 0#3 ∧ (6#3 : BitVec 3) ≠ 7#3 :=
  ⟨⟨⟨two_wf, rfl, rfl⟩, ⟨two_wf, rfl, by decide⟩, by decide, by decide⟩,
    fun n _ => ⟨⟨two_wf, rfl, rfl⟩, rfl, List.length_replicate⟩, by decide, by decide, by decide⟩

/-- A standard and an extended frame, and a message. -/
theorem witness_PackingInverse :
    (frameF.wellFormed = true ∧ frameF.err = false) ∧
      (let fr : Frame := ⟨0x1FFFFFFF#29, true, true, false, 15#4, zeroData⟩; fr.wellFormed = true ∧ fr.err = false) ∧ (message frameA).admitted = true := by decide

end Sys2Proof.Tests
end

section
/-! The family 10_state.md: the soft state and the registers at reset, the invariant, and what steps and commands leave as it
is. -/

namespace Sys2Proof.Machine

/-! ### Reset (10_state.md R54) -/

@[simp] theorem resetWith_iface (p : Params) (i : Iface) :
    (State.resetWith p).iface i = IfaceState.reset p.rxCapacity := by cases i <;> rfl

@[simp] theorem resetWith_ctrl (p : Params) (i : Iface) : (State.resetWith p).ctrl i = Ctrl.reset := by cases i <;> rfl

@[simp] theorem reset_pend (n : Nat) (m : Mb) : (IfaceState.reset n).pend m = PendSlot.reset := by cases m <;> rfl

@[simp] theorem reset_vec (n : Nat) (src : Source) : (IfaceState.reset n).vec src = false := by cases src <;> rfl

@[simp] theorem reset_mb (m : Mb) : Ctrl.reset.mb m = Mailbox.reset := by cases m <;> rfl

@[simp] theorem reset_rx (f : Fifo) : Ctrl.reset.rx f = RxFifo.reset := by cases f <;> rfl

theorem IfaceState.reset_wf {n : Nat} (h : 1 ≤ n) : (IfaceState.reset n).Wf n where
  rb := RingBuf.reset_wf h
  lastHwErr := Nat.zero_le _
  registered src hs := by simp at hs
  ctrl := Ctrl.reset_wf

theorem resetWith_inv {p : Params} (hp : p.wf) : (State.resetWith p).Inv where
  data :=
    { build := hp
      ifaces i := by rw [resetWith_iface]; exact IfaceState.reset_wf hp.1
      faults := .nil
      bridge := Nat.zero_le _
      banks := by simp [State.resetWith, Filters.reset] }
  faulted := ⟨fun h => Fg.noConfusion h, fun h => absurd rfl h⟩
  notBusy _ _ h := Fg.noConfusion h
  noCs _ := rfl
  noIsr _ := rfl

theorem reference_wf : Params.reference.wf := ⟨by decide, by decide, by decide, nofun⟩

/-! ### The invariant from how a step ends -/

/-- Outside a fault, the invariant says that the block rests. -/
theorem State.Inv.rests {s : State} (h : s.Inv) (hf : s.faults = []) : s.Rests where
  fg := by
    cases e : s.fg with
    | idle | blockedSelect | blockedMb0 => trivial
    | busy op ph => exact absurd e (h.notBusy op ph)
    | faulted => exact absurd hf (h.faulted.1 e)
  faults := hf
  cs := h.noCs hf
  isr := h.noIsr hf

theorem State.Rests.inv {s : State} (h : s.Rests) (hd : s.DataInv) : s.Inv where
  data := hd
  faulted := ⟨fun e => absurd h.fg (by simp [e, Fg.rests]), fun hf => absurd h.faults hf⟩
  notBusy op ph e := absurd h.fg (by simp [e, Fg.rests])
  noCs _ := h.cs
  noIsr _ := h.isr

/-- Where a fault was taken the invariant asks for the data and for Faulted. -/
theorem inv_of_faulted {s : State} (hd : s.DataInv) (hg : s.fg = .faulted) (hf : s.faults ≠ []) : s.Inv where
  data := hd
  faulted := ⟨fun _ => hf, fun _ => hg⟩
  notBusy op ph e := by simp [hg] at e
  noCs h := absurd h hf
  noIsr h := absurd h hf

theorem State.Failed.inv {s : State} (h : s.Failed) (hd : s.DataInv) : s.Inv :=
  let ⟨_, hk⟩ := h.faults
  inv_of_faulted hd h.fg (by simp [hk])

theorem envAct_fg (a : EnvAct) (s : State) : (envAct a s).fg = s.fg := by
  rcases envAct_shape a s with ⟨c0, c1, fl, e⟩ | ⟨m, u, -, e⟩ | ⟨ok, e⟩ | e <;> simp [e]

theorem envAct_faults (a : EnvAct) (s : State) : (envAct a s).faults = s.faults := by
  rcases envAct_shape a s with ⟨c0, c1, fl, e⟩ | ⟨m, u, -, e⟩ | ⟨ok, e⟩ | e <;> simp [e]

/-- In a stopped block only the environment steps (60_exceptions.md R310). -/
theorem step_of_stopped {s t : State} (hs : s.stopped = true) (h : step s = .next t) :
    ∃ a l, t = envAct a { s with sched := l } := by
  have hl (l : List Move) : ({ s with sched := l } : State).stopped = true := hs
  unfold step at h
  split at h
  · simp [foregroundStep, hs] at h
  · simp [foregroundStep, hl] at h
  · next a l _ =>
    cases h
    exact ⟨a, l, rfl⟩
  · simp [dispatcherStep, hl] at h
  · simp [issue, hl] at h

/-- Settles O14: the data is kept by every elementary change; a step from rest ends at rest or with its one fault, and after
a fault only the environment steps. -/
theorem stepKeepsInvariant : Obligations.StepKeepsInvariant := by
  intro s t hs h
  have hd : t.DataInv := dataInv_closed.step (fun op ph e => absurd e (hs.notBusy op ph)) h hs.data
  by_cases hf : s.faults = []
  · rcases step_ends (hs.rests hf) h with ht | ht
    · exact ht.inv hd
    · exact ht.inv hd
  · obtain ⟨a, l, rfl⟩ := step_of_stopped (by simp [State.stopped, hf]) h
    exact inv_of_faulted hd ((envAct_fg a _).trans (hs.faulted.2 hf)) (by rw [envAct_faults]; exact hf)

/-! ### Relations on one interface's state

A relation that an interface's own changes keep is kept by every command, or by every step: nothing else reaches the
interface. -/

/-- The changes that the commands other than `DRV.INIT` and the environment make of an interface all keep `Q`. -/
structure IfaceClosed (Q : IfaceState → IfaceState → Prop) : Prop where
  refl      : ∀ x, Q x x
  trans     : ∀ {x y z}, Q x y → Q y z → Q x z
  ctrl      : ∀ x c, Q x { x with ctrl := c }
  errCnt    : ∀ x, Q x { x with errCnt := satInc32 x.errCnt }
  lastHwErr : ∀ x e, Q x { x with lastHwErr := e }
  hadAct    : ∀ x b, Q x { x with hadAct := b }
  push      : ∀ x n e, Q x { x with rb := x.rb.push n e }
  drop      : ∀ x n, Q x { x with rb := x.rb.drop n }
  pend      : ∀ x m f, Q x (x.onPend m f)
  sem       : ∀ x n, Q x { x with mb0Sem := n }

namespace IfaceClosed

variable {Q : IfaceState → IfaceState → Prop} (h : IfaceClosed Q)
include h

theorem of_eq {j : Iface} {s t : State} (e : t.iface j = s.iface j) : Q (s.iface j) (t.iface j) := e ▸ h.refl _

theorem onIface (s : State) (i j : Iface) {f : IfaceState → IfaceState} (hf : ∀ x, Q x (f x)) :
    Q (s.iface j) ((s.onIface i f).iface j) := by
  rw [iface_onIface]
  split
  · next e => exact e ▸ hf _
  · exact h.refl _

theorem withCtrls (s : State) (c0 c1 : Ctrl) (fl : Filters) (j : Iface) :
    Q (s.iface j) ((s.withCtrls c0 c1 fl).iface j) := by
  obtain ⟨c, e⟩ := withCtrls_iface s c0 c1 fl j
  exact e ▸ h.ctrl _ c

theorem closedExec (j : Iface) : ClosedExec fun s t => Q (s.iface j) (t.iface j) where
  refl s := h.refl _
  trans := h.trans
  reg s i r v := by
    obtain ⟨c0, c1, fl, e⟩ := writeReg_shape s i r v
    exact e ▸ h.withCtrls s c0 c1 fl j
  env s a := by
    rcases envAct_shape a s with ⟨c0, c1, fl, e⟩ | ⟨m, u, -, e⟩ | ⟨ok, e⟩ | e <;> rw [e]
    · exact h.withCtrls s c0 c1 fl j
    all_goals exact h.of_eq (by cases j <;> rfl)
  inner s l := h.of_eq (by cases j <;> rfl)
  cs s b := h.of_eq (by cases j <;> rfl)
  isr s b := h.of_eq (by cases j <;> rfl)
  record s := h.of_eq (answered_iface s j)
  fg s x := h.of_eq (by cases j <;> rfl)
  fault s k cw := h.of_eq (takeFault_iface k cw s j)
  wake s b := h.of_eq (by cases j <;> rfl)
  bridge s fr _ := h.of_eq (by cases j <;> rfl)
  errCnt s i := h.onIface s i j h.errCnt
  lastErr s i e := h.onIface s i j fun x => h.lastHwErr x _
  hadAct s i b := h.onIface s i j fun x => h.hadAct x b
  push s i e := h.onIface s i j fun x => h.push x _ e
  drop s i := h.onIface s i j fun x => h.drop x _
  pend s i m f := h.onIface s i j fun x => h.pend x m f
  sem s i f := h.onIface s i j fun x => h.sem x _
  res s r := h.of_eq (by cases j <;> rfl)

theorem resetPulse (s : State) (i j : Iface) : Q (s.iface j) ((s.resetPulse i).iface j) := by
  have hc : Q (s.iface j) ((s.onCtrl i fun _ => Ctrl.reset).iface j) := h.onIface s i j fun x => h.ctrl x _
  cases i
  · exact h.trans hc (h.of_eq (by cases j <;> rfl))
  · exact hc

/-- Where `DRV.INIT`'s own changes of an interface keep the relation too, every step does. -/
theorem closedStep (hclk : ∀ x b, Q x { x with clkEn := b }) (hreg : ∀ x, Q x { x with registry := true })
    (hvec : ∀ (s : State) i j src, Q (s.iface j) (((DispatchStep.vector src).effect i s).iface j)) (j : Iface) :
    ClosedStep fun s t => Q (s.iface j) (t.iface j) :=
  { h.closedExec j with
    clock := fun s i b => h.onIface s i j fun x => hclk x b
    pulse := fun s i => h.resetPulse s i j
    registry := fun s i => h.onIface s i j hreg
    vector := fun s i src _ => hvec s i j src
    sched := fun s l => h.of_eq (by cases j <;> rfl)
    port := fun s q l => h.of_eq (by cases j <;> rfl) }

end IfaceClosed

/-! ### Monotone counters (10_state.md R27; 41_ring_buffer.md R136) -/

theorem le_satInc32 (x : Word) : x ≤ satInc32 x := by
  unfold satInc32
  split
  · exact BitVec.le_refl x
  · bv_omega

theorem ovf_le_push (b : RingBuf) (n : Nat) (e : RxEntry) : b.ovf ≤ (b.push n e).ovf := by
  unfold RingBuf.push
  split
  · exact le_satInc32 b.ovf
  · exact BitVec.le_refl _

/-- Neither the error counter nor the overflow counter decreases. -/
def CountersGrow (x y : IfaceState) : Prop := x.errCnt ≤ y.errCnt ∧ x.rb.ovf ≤ y.rb.ovf

theorem CountersGrow.of_eq {x y : IfaceState} (he : y.errCnt = x.errCnt) (hr : y.rb = x.rb) : CountersGrow x y :=
  ⟨he ▸ BitVec.le_refl _, hr ▸ BitVec.le_refl _⟩

theorem countersGrow_ifaceClosed : IfaceClosed CountersGrow where
  refl _ := .of_eq rfl rfl
  trans h₁ h₂ := ⟨BitVec.le_trans h₁.1 h₂.1, BitVec.le_trans h₁.2 h₂.2⟩
  ctrl _ _ := .of_eq rfl rfl
  errCnt _ := ⟨le_satInc32 _, BitVec.le_refl _⟩
  lastHwErr _ _ := .of_eq rfl rfl
  hadAct _ _ := .of_eq rfl rfl
  push x n e := ⟨BitVec.le_refl _, ovf_le_push x.rb n e⟩
  drop _ _ := ⟨BitVec.le_refl _, BitVec.le_refl _⟩
  pend x m f := .of_eq (onPend_errCnt x m f) (onPend_rb x m f)
  sem _ _ := .of_eq rfl rfl

theorem countersGrow_vector (s : State) (i j : Iface) (src : Source) :
    CountersGrow (s.iface j) (((DispatchStep.vector src).effect i s).iface j) := by
  cases src <;> exact countersGrow_ifaceClosed.onIface s i j fun _ => .of_eq rfl rfl

/-- Settles O15: a counter only ever moves by a saturating increment. -/
theorem errorCountersNeverDecrease : Obligations.ErrorCountersNeverDecrease := by
  intro s t i h
  have hc := countersGrow_ifaceClosed.closedStep (fun _ _ => .of_eq rfl rfl) (fun _ => .of_eq rfl rfl)
    countersGrow_vector i
  exact hc.step_always (fun s j src => countersGrow_vector s j i src) h

/-! ### Clocks, registrations and vectors (10_state.md R31; 42_bringup.md R172 to R175) -/

/-- The clock enable, the registration and the vector enables stay. -/
def SameWiring (x y : IfaceState) : Prop :=
  y.clkEn = x.clkEn ∧ y.registry = x.registry ∧ ∀ src, y.vec src = x.vec src

theorem onPend_vec (x : IfaceState) (m : Mb) (f : PendSlot → PendSlot) (src : Source) :
    (x.onPend m f).vec src = x.vec src := by cases m <;> rfl

theorem sameWiring_ifaceClosed : IfaceClosed SameWiring where
  refl _ := ⟨rfl, rfl, fun _ => rfl⟩
  trans h₁ h₂ := ⟨h₂.1.trans h₁.1, h₂.2.1.trans h₁.2.1, fun src => (h₂.2.2 src).trans (h₁.2.2 src)⟩
  ctrl _ _ := ⟨rfl, rfl, fun _ => rfl⟩
  errCnt _ := ⟨rfl, rfl, fun _ => rfl⟩
  lastHwErr _ _ := ⟨rfl, rfl, fun _ => rfl⟩
  hadAct _ _ := ⟨rfl, rfl, fun _ => rfl⟩
  push _ _ _ := ⟨rfl, rfl, fun _ => rfl⟩
  drop _ _ := ⟨rfl, rfl, fun _ => rfl⟩
  pend x m f := ⟨onPend_clkEn x m f, onPend_registry x m f, onPend_vec x m f⟩
  sem _ _ := ⟨rfl, rfl, fun _ => rfl⟩

/-- Settles O17: of the changes a command makes, only those of `DRV.INIT` touch clocks, registrations and vectors. -/
theorem onlyDriverInitChangesClocks : Obligations.OnlyDriverInitChangesClocks := by
  intro i s t hi h j
  exact (sameWiring_ifaceClosed.closedExec j).exec hi h

/-! ### The state right after reset -/

/-- Settles O11: each row of R54 is read off `State.resetWith`. -/
theorem resetSoftState : Obligations.ResetSoftState := by
  intro p s
  refine ⟨rfl, rfl, rfl, rfl, rfl, rfl, rfl, fun i => ?_⟩
  simp only [s, resetWith_iface, reset_pend]
  exact ⟨rfl, rfl, rfl, fun _ => rfl, rfl, rfl, rfl, rfl, rfl, rfl, reset_vec _⟩

/-- Settles O12: an interface's controller is `Ctrl.reset` and the filter registers are `Filters.reset`, whose views are
closed words. -/
theorem resetRegisters : Obligations.ResetRegisters := by
  intro p i s
  have hmsr : Ctrl.reset.msrWord = 0x00000C02#32 := by decide
  have htsr : Ctrl.reset.tsrWord = 0x1C000000#32 := by decide
  have hrfr : RxFifo.reset.rfrWord = 0#32 := by decide
  simp only [s, State.readReg, resetWith_ctrl, reset_mb, reset_rx]
  exact ⟨rfl, hmsr, htsr, fun _ => hrfr, rfl, rfl, rfl, fun _ => rfl, rfl, rfl, rfl, rfl, rfl, rfl, fun _ => rfl,
    fun _ => rfl⟩

/-- Settles O13: the reference build is one of the builds the model admits. -/
theorem resetMeetsInvariant : Obligations.ResetMeetsInvariant :=
  ⟨resetWith_inv reference_wf, fun _ hp => resetWith_inv hp⟩

end Sys2Proof.Machine
end

section
/-! The family 20_memory.md: the register port, the critical section, and commands that reach an unclocked block. -/

namespace Sys2Proof.Machine

/-! ### The critical section and interrupt services (20_memory.md R66, R67) -/

theorem onCtrl_setInner (s : State) (l : List Inner) (i : Iface) (f : Ctrl → Ctrl) :
    ({ s with inner := l } : State).onCtrl i f = { s.onCtrl i f with inner := l } := by cases i <;> rfl

theorem ctrlRuns_setInner (s : State) (l : List Inner) (i : Iface) :
    ctrlRuns { s with inner := l } i = ctrlRuns s i := by cases i <;> rfl

theorem ctrlStep_setInner (s : State) (l : List Inner) (i : Iface) (f : Ctrl → Ctrl) :
    ({ s with inner := l } : State).ctrlStep i f = { s.ctrlStep i f with inner := l } := by
  simp only [State.ctrlStep, ctrlRuns_setInner]
  split
  · exact onCtrl_setInner s l i f
  · rfl

theorem driftReg_setInner (s : State) (l : List Inner) (i : Iface) (r : Reg) (v : Word) :
    ({ s with inner := l } : State).driftReg i r v = { s.driftReg i r v with inner := l } := by
  cases i <;> cases r <;> rfl

/-- The moves still to come inside the operation make no difference to an environment step. -/
theorem envAct_setInner (a : EnvAct) (s : State) (l : List Inner) :
    envAct a { s with inner := l } = { envAct a s with inner := l } := by
  cases a with
  | enterConfig | enterNormal | complete | arrive | busError => exact ctrlStep_setInner s l _ _
  | drift i r v =>
    simp only [envAct, ctrlRuns_setInner]
    split
    · exact driftReg_setInner s l i r v
    · rfl
  | tick | pool | consume => rfl

/-- The moves taken do not depend on the list the state still holds. -/
theorem envMoves_setInner (l l' : List Inner) (s : State) : envMoves l { s with inner := l' } = envMoves l s := by
  induction l generalizing s with
  | nil => rfl
  | cons x l ih =>
    cases x with
    | env a => simp only [envMoves, envAct_setInner, ih]
    | irq i src => exact ih s
    | go => rfl

theorem envAct_cs (a : EnvAct) (s : State) : (envAct a s).cs = s.cs := by
  rcases envAct_shape a s with ⟨c0, c1, fl, e⟩ | ⟨m, u, -, e⟩ | ⟨ok, e⟩ | e <;> simp [e]

/-- The critical section masks every source (60_exceptions.md R304). -/
theorem canStart_cs {s : State} (h : s.cs = true) (i : Iface) (src : Source) : canStart s i src = false := by
  simp [canStart, h]

theorem envMoves_none {s : State} (h : s.inner = []) : envMoves s.inner s = s := by
  obtain ⟨⟩ := s
  cases h
  rfl

/-- Inside the critical section the moves of an interleaving point are the environment's alone. -/
theorem preemptMoves_cs {s : State} (hc : s.cs = true) {n : Nat} (hn : s.inner.length ≤ n) :
    preemptMoves n s = .ok () (envMoves s.inner s) := by
  induction n generalizing s with
  | zero =>
    have hl : s.inner = [] := List.length_eq_zero_iff.mp (by omega)
    rw [preemptMoves_nil hl, envMoves_none hl]
  | succ n ih =>
    cases hl : s.inner with
    | nil => rw [preemptMoves_nil hl, ← hl, envMoves_none hl]
    | cons x l =>
      have hlen : l.length ≤ n := by simpa [hl] using hn
      cases x with
      | env a =>
        have hin : (envAct a { s with inner := l }).inner = l := by rw [envAct_setInner]
        rw [preemptMoves_env hl, ih (by rw [envAct_cs]; exact hc) (by rw [hin]; exact hlen), hin, envAct_setInner,
          envMoves_setInner]
        rfl
      | irq i src =>
        rw [preemptMoves_irq hl, dispatcherMove_idle (canStart_cs (s := { s with inner := l }) hc i src)]
        refine (ih (s := { s with inner := l }) hc hlen).trans ?_
        rw [envMoves_setInner]
        rfl
      | go => rw [preemptMoves_go hl]; rfl

/-- Inside a service a class-H command is passed over, whichever it is (60_exceptions.md R306, R316). -/
theorem exec_host_isr {x : Instr} {s : State} (hx : x.cls = .host) (hs : s.stopped = false) (hl : legal x s = true)
    (hi : s.inIsr = true) : exec x s = .next s := by
  cases x with
  | ifTxsvc | ifRxsvc | ifPollerr | irqTx | irqRx => cases hx
  | btCalc | rbPush | rbPop | rbLen | rbOvf | ifInit | ifCfgfilt | ifSend | ifDiscard | ifTxfull | ifWaitmb0 | ifRecv
  | ifRxempty | ifRxlen | ifErrcnt | ifLasterr | ifHadact | drvInit | drvReady | drvSelect | drvHadact =>
    exact hostCommand_isr hs hl hi

/-- Settles O55: the critical section masks the dispatcher's moves, and a service passes over the foreground. -/
theorem sectionsAndServicesExclude : Obligations.SectionsAndServicesExclude := by
  refine ⟨fun s hc => preemptMoves_cs hc le_rfl, ?_, ?_⟩
  · intro s b inner l hg hf hi hl
    have hs : ({ s with sched := l } : State).stopped = false := by simp [State.stopped, hg, hf]
    simp only [step, hl]
    exact foregroundStep_isr hs hi b inner
  · intro s i hby hcls hw hg hf hi
    have hs : s.stopped = false := by simp [State.stopped, hg, hf]
    have hl : legal i s = true := by simp [legal, issuable, hby, hcls, hw, hg]
    exact exec_host_isr hcls hs hl hi

/-! ### What an address names (20_memory.md R60, R76) -/

theorem ctrlRegs_not_filter {r : Reg} (h : r ∈ ctrlRegs) : r.isFilter = false := by
  revert r
  decide

theorem hasIface_if1 (p : Params) : hasIface p .if1 = p.twoIfaces := by
  cases h : p.twoIfaces <;> simp [hasIface, Params.numIfaces, Iface.idx, h]

/-- An offset that names a register is the offset of a register the block has. -/
theorem regAt_some {i : Iface} {o : Word} {r : Reg} (h : regAt i o = some r) : r.off = o ∧ hasReg i r := by
  unfold regAt at h
  cases i with
  | if0 => exact ⟨by simpa using List.find?_some h, nofun⟩
  | if1 => exact ⟨by simpa using List.find?_some h, fun _ => ctrlRegs_not_filter (List.mem_of_find?_eq_some h)⟩

/-- An address that names a register is the address of a register of the build. -/
theorem locate_some {p : Params} {a : Word} {i : Iface} {r : Reg} (h : locate p a = some (i, r)) :
    hasIface p i = true ∧ hasReg i r ∧ a = base p i + r.off := by
  unfold locate at h
  split at h
  · next hr =>
    cases h
    obtain ⟨ho, hb⟩ := regAt_some hr
    refine ⟨hasIface_if0 p, hb, ?_⟩
    rw [ho, base]
    bv_omega
  · split at h
    · next hp =>
      split at h
      · next hr =>
        cases h
        obtain ⟨ho, hb⟩ := regAt_some hr
        refine ⟨(hasIface_if1 p).trans hp, hb, ?_⟩
        rw [ho, base]
        bv_omega
      · cases h
    · cases h

/-- An access of another width, at a misaligned address or at an address of no register (20_memory.md R60). -/
theorem accessTarget_illegal {s : State} {a : Word} {width : Nat}
    (h : width ≠ 4 ∨ a.toNat % 4 ≠ 0 ∨ locate s.cfg a = none) :
    accessTarget a width s = .error .illegalAccess s := by
  unfold accessTarget
  split
  · next hw =>
    rcases h with h | h | h
    · exact absurd hw.1 h
    · exact absurd hw.2 h
    · rw [h]
  · rfl

/-- Settles O56: `locate` finds the registers of the build at their addresses and nothing elsewhere. -/
theorem portAccess : Obligations.PortAccess := by
  intro s a width v hp
  constructor
  · intro h
    have ht : accessTarget a width s = .error .illegalAccess s := by
      refine accessTarget_illegal (h.imp_right (Or.imp_right fun hno => ?_))
      cases hl : locate s.cfg a with
      | none => rfl
      | some t =>
        obtain ⟨hi, hr, ha⟩ := locate_some hl
        exact absurd ha (hno t.1 t.2 hi hr)
    simp [memRead, memWrite, ht]
  · rintro i r hi hr rfl
    have ht := accessTarget_reg hp hi hr
    exact ⟨fun hc => by simp [memRead, memWrite, ht, hc], fun hc => by simp [memRead, memWrite, ht, hc]⟩

/-! ### Changes of one interface -/

theorem onIface_onIface (s : State) (i : Iface) (f g : IfaceState → IfaceState) :
    (s.onIface i f).onIface i g = s.onIface i fun x => g (f x) := by cases i <;> rfl

theorem onIface_setFg (s : State) (x : Fg) (i : Iface) (f : IfaceState → IfaceState) :
    ({ s with fg := x } : State).onIface i f = { s.onIface i f with fg := x } := by cases i <;> rfl

/-- Two changes of an interface that agree where it stands. -/
theorem onIface_congr {s : State} {i : Iface} {f g : IfaceState → IfaceState} (h : f (s.iface i) = g (s.iface i)) :
    s.onIface i f = s.onIface i g := by
  cases i <;>
  · simp only [State.iface] at h
    simp only [State.onIface, h]

@[simp] theorem iface_setFgCs (s : State) (x : Fg) (b : Bool) (i : Iface) :
    ({ s with fg := x, cs := b } : State).iface i = s.iface i := by cases i <;> rfl

/-- A change of an interface that changes nothing where it stands. -/
theorem onIface_eq_self {s : State} {i : Iface} {f : IfaceState → IfaceState} (h : f (s.iface i) = s.iface i) :
    s.onIface i f = s := (onIface_congr (g := id) h).trans (by cases i <;> rfl)

@[simp] theorem iface_setFg (s : State) (x : Fg) (i : Iface) : ({ s with fg := x } : State).iface i = s.iface i := by
  cases i <;> rfl

/-! ### What the block's writes do to a controller (20_memory.md R63; 47_controller_env.md R271) -/

/-- Two changes of a controller that agree where it stands. -/
theorem onCtrl_congr {s : State} {i : Iface} {f g : Ctrl → Ctrl} (h : f (s.ctrl i) = g (s.ctrl i)) :
    s.onCtrl i f = s.onCtrl i g := onIface_congr (congrArg (fun c => { s.iface i with ctrl := c }) h)

/-- A change of a controller that changes nothing where it stands. -/
theorem onCtrl_eq_self {s : State} {i : Iface} {f : Ctrl → Ctrl} (h : f (s.ctrl i) = s.ctrl i) : s.onCtrl i f = s :=
  onIface_eq_self (congrArg (fun c => { s.iface i with ctrl := c }) h)

/-- A change of a mailbox that changes nothing where it stands. -/
theorem onMb_eq_self {c : Ctrl} {m : Mb} {f : Mailbox → Mailbox} (h : f (c.mb m) = c.mb m) : c.onMb m f = c := by
  cases m <;>
  · simp only [Ctrl.mb] at h
    simp only [Ctrl.onMb, h]

theorem writeTsr_zero (b : Mailbox) : b.writeTsr 0#8 = b := by simp [Mailbox.writeTsr]

/-- Acknowledging a completion (10_state.md R36). -/
theorem writeTsr_rqcp (b : Mailbox) :
    b.writeTsr 1#8 = { b with rqcp := false, txok := false, alst := false, terr := false } := by
  simp [Mailbox.writeTsr]

/-- Requesting an abort (47_controller_env.md R275). -/
theorem writeTsr_abrq (b : Mailbox) :
    b.writeTsr 0x80#8 = { b with st := if b.st = .requested then .aborting else b.st } := by
  simp [Mailbox.writeTsr]

/-- A word with one mailbox's byte alone reaches that mailbox alone (10_state.md R36). -/
theorem writeReg_tsr_rqcp (s : State) (i : Iface) (m : Mb) :
    s.writeReg i .tsr (rqcpBit m) = s.onCtrl i fun c => c.onMb m fun b =>
      { b with rqcp := false, txok := false, alst := false, terr := false } := by
  cases m <;> simp [State.writeReg, rqcpBit, writeTsr_zero, writeTsr_rqcp, Ctrl.onMb]

theorem writeReg_tsr_abrq (s : State) (i : Iface) (m : Mb) :
    s.writeReg i .tsr (abrqBit m) = s.onCtrl i fun c => c.onMb m fun b =>
      { b with st := if b.st = .requested then .aborting else b.st } := by
  cases m <;> simp [State.writeReg, abrqBit, writeTsr_zero, writeTsr_abrq, Ctrl.onMb]

/-- Releasing a FIFO's head message (44_rx_path.md R216). -/
theorem write_rfrRelease (x : RxFifo) : x.write rfrRelease = x.released := by
  simp [RxFifo.write, RxFifo.released, rfrRelease]

/-- `BTR` is write-protected outside `Config` (10_state.md R40). -/
theorem writeReg_btr (s : State) (i : Iface) (v : Word) :
    s.writeReg i .btr v = if (s.ctrl i).mode = .config then
        s.onCtrl i fun c => { c with btr := (c.btr &&& 0x3C80FC00#32) ||| (v &&& 0xC37F03FF#32) }
      else s := by
  simp only [State.writeReg]
  split
  · next h => exact onCtrl_congr (by simp [h, merge, btrRw])
  · next h => exact onCtrl_eq_self (by simp [h])

/-- The registers of a mailbox that is not Empty ignore writes (10_state.md R41). -/
theorem writeReg_mailbox_busy {s : State} {i : Iface} {m : Mb} {r : Reg} (hr : r ∈ [Reg.tir m, .tdtr m, .tdlr m, .tdhr m])
    (hm : ((s.ctrl i).mb m).st ≠ .empty) (v : Word) : s.writeReg i r v = s := by
  have ht : ((s.ctrl i).mb m).tme = false := by simp [Mailbox.tme, hm]
  simp only [List.mem_cons, List.not_mem_nil, or_false] at hr
  rcases hr with rfl | rfl | rfl | rfl <;>
  · simp only [State.writeReg]
    exact onCtrl_eq_self (onMb_eq_self (by simp [Mailbox.writeTir, ht]))

/-- Settles O57: each write reaches its register, and `writeReg` does there what the lemmas above say. -/
theorem statusWrites : Obligations.StatusWrites := by
  intro s i h
  refine ⟨fun m => ?_, fun m => ?_, fun f => ?_, fun v => ?_, fun m r v hr hm => ?_⟩
  · rw [regWrite_reaches h (fun _ => rfl), writeReg_tsr_rqcp]
  · rw [regWrite_reaches h (fun _ => rfl), writeReg_tsr_abrq]
  · rw [regWrite_reaches h (fun _ => rfl)]
    simp only [State.writeReg, write_rfrRelease]
  · rw [regWrite_reaches h (fun _ => rfl), writeReg_btr]
  · have hreg : hasReg i r := by
      simp only [List.mem_cons, List.not_mem_nil, or_false] at hr
      rcases hr with rfl | rfl | rfl | rfl <;> exact fun _ => rfl
    rw [regWrite_reaches h hreg, writeReg_mailbox_busy hr hm]

/-! ### Accesses of an unclocked block (20_memory.md R65) -/

/-- Interface i is part of the build and its register block is not clocked. -/
structure State.Unclocked (s : State) (i : Iface) : Prop where
  build     : s.cfg.wf
  present   : hasIface s.cfg i = true
  unclocked : (s.iface i).clkEn = false

theorem State.Unclocked.of_eq {s t : State} {i : Iface} (h : s.Unclocked i) (hc : t.cfg = s.cfg)
    (hk : (t.iface i).clkEn = (s.iface i).clkEn) : t.Unclocked i :=
  ⟨hc ▸ h.build, hc ▸ h.present, hk ▸ h.unclocked⟩

/-- An access changes nothing there, but the foreground stands at it. -/
theorem fgRead_unclocked {s : State} {i : Iface} {r : Reg} (hq : s.quiet) (h : s.Unclocked i) (hr : hasReg i r)
    (op : Instr) (ph : Phase) :
    fgRead (stepAt op ph) i r s = .error .clockDisabledAccess { s with fg := .busy op ph } := by
  have ht : ({ s with fg := .busy op ph } : State).Unclocked i := h.of_eq rfl (by rw [iface_setFg])
  simp only [fgRead, bind_run, stepAt_quiet hq, regRead_unclocked ht.build ht.present ht.unclocked hr]

theorem fgWrite_unclocked {s : State} {i : Iface} {r : Reg} (hq : s.quiet) (h : s.Unclocked i) (hr : hasReg i r)
    (v : Word) (op : Instr) (ph : Phase) :
    fgWrite (stepAt op ph) i r v s = .error .clockDisabledAccess { s with fg := .busy op ph } := by
  have ht : ({ s with fg := .busy op ph } : State).Unclocked i := h.of_eq rfl (by rw [iface_setFg])
  simp only [fgWrite, bind_run, stepAt_quiet hq, regWrite_unclocked ht.build ht.present ht.unclocked hr]

/-! ### The timeout aborts of one interface (43_tx_path.md R185, R186) -/

theorem expired_iff (x : PendSlot) (now : U64) : x.expired now = true ↔ x.pending = true ∧ x.deadline < now := by
  simp [PendSlot.expired]

/-- An interface after the timeout aborts of the mailboxes `ms`, in order. -/
def IfaceState.abortedAll (x : IfaceState) (now : U64) (ms : List Mb) : IfaceState := ms.foldl (·.aborted now) x

theorem aborted_fresh {x : IfaceState} {now : U64} {m : Mb} (h : (x.pend m).expired now = false) :
    x.aborted now m = x := by
  rw [IfaceState.aborted, if_neg]
  rw [← expired_iff, h]
  exact Bool.false_ne_true

@[simp] theorem aborted_clkEn (x : IfaceState) (now : U64) (m : Mb) : (x.aborted now m).clkEn = x.clkEn := by
  unfold IfaceState.aborted
  split
  · rw [onPend_clkEn]
  · rfl

@[simp] theorem swept_clkEn (x : IfaceState) (now : U64) : (x.swept now).clkEn = x.clkEn := by simp [IfaceState.swept]

/-- A record of the interface has an expired deadline where one of the three slots is expired. -/
theorem anyExpired_iff (x : IfaceState) (now : U64) :
    x.anyExpired now ↔ ∃ m ∈ [Mb.mb0, .mb1, .mb2], (x.pend m).expired now = true := by
  have hall : ∀ m : Mb, m ∈ [Mb.mb0, .mb1, .mb2] := by intro m; cases m <;> decide
  simp only [IfaceState.anyExpired, expired_iff, hall, true_and]

theorem abortedAll_swept (x : IfaceState) (now : U64) : x.abortedAll now [.mb0, .mb1, .mb2] = x.swept now := rfl

theorem abortedAll_fresh {x : IfaceState} {now : U64} {ms : List Mb} (h : ∀ m ∈ ms, (x.pend m).expired now = false) :
    x.abortedAll now ms = x := by
  induction ms with
  | nil => rfl
  | cons m ms ih =>
    obtain ⟨hm, hms⟩ := List.forall_mem_cons.mp h
    show (x.aborted now m).abortedAll now ms = x
    rw [aborted_fresh hm, ih hms]

theorem expired_of_not_any {x : IfaceState} {now : U64} (h : ¬ x.anyExpired now) (m : Mb) (hm : m ∈ [Mb.mb0, .mb1, .mb2]) :
    (x.pend m).expired now = false := by
  by_contra he
  exact h ((anyExpired_iff x now).mpr ⟨m, hm, by simpa using he⟩)

/-! ### Running `if_discard` (43_tx_path.md R185) -/

variable {s : State} {i : Iface} {now : U64} {op : Instr}

theorem discardSlot_fresh {point : Op Unit} {m : Mb} (h : ((s.iface i).pend m).expired now = false) :
    discardSlot point i now m s = .ok () s := by
  simp [discardSlot, h]

theorem discardSlot_clocked {m : Mb} {ph : Phase} (hq : s.quiet) (h : s.Reaches i)
    (he : ((s.iface i).pend m).expired now = true) : discardSlot (stepAt op ph) i now m s =
      .ok () { s.onIface i (·.aborted now m) with fg := .busy op ph } := by
  have hw := fgWrite_quiet (r := .tsr) hq h (fun _ => rfl) (abrqBit m) op ph
  rw [writeReg_tsr_abrq] at hw
  simp only [discardSlot, bind_run, ask_run, he, if_true, discardAbort, hw, upd_run, countError, State.onCtrl,
    onIface_onIface, onIface_setFg]
  rw [onIface_congr]
  show _ = (s.iface i).aborted now m
  rw [IfaceState.aborted, if_pos ((expired_iff _ _).mp he)]
  cases m <;> rfl

theorem discardSlot_unclocked {m : Mb} {ph : Phase} (hq : s.quiet) (h : s.Unclocked i)
    (he : ((s.iface i).pend m).expired now = true) :
    discardSlot (stepAt op ph) i now m s = .error .clockDisabledAccess { s with fg := .busy op ph } := by
  simp only [discardSlot, bind_run, ask_run, he, if_true, discardAbort, fgWrite_unclocked (r := .tsr) hq h (fun _ => rfl)]

theorem discardSlots_fresh {point : DiscardPhase → Op Unit} {ms : List Mb}
    (h : ∀ m ∈ ms, ((s.iface i).pend m).expired now = false) : discardSlots point i now ms s = exitCs s := by
  induction ms with
  | nil => rfl
  | cons m ms ih =>
    obtain ⟨hm, hms⟩ := List.forall_mem_cons.mp h
    simp only [discardSlots, bind_run, discardSlot_fresh hm, ih hms]

section discard

variable {point : DiscardPhase → Op Unit} (hpt : ∀ p, ∃ ph, point p = stepAt op ph)
include hpt

theorem discardSlots_clocked (hq : s.quiet) (h : s.Reaches i) (ms : List Mb) :
    ∃ g, discardSlots point i now ms s = exitCs { s.onIface i (·.abortedAll now ms) with fg := g } := by
  induction ms generalizing s with
  | nil => exact ⟨s.fg, by cases i <;> rfl⟩
  | cons m ms ih =>
    cases he : ((s.iface i).pend m).expired now with
    | false =>
      obtain ⟨g, hg⟩ := ih hq h
      refine ⟨g, ?_⟩
      simp only [discardSlots, bind_run, discardSlot_fresh he, hg]
      rw [onIface_congr]
      show _ = ((s.iface i).aborted now m).abortedAll now ms
      rw [aborted_fresh he]
    | true =>
      obtain ⟨ph, hph⟩ := hpt (.abort m ms)
      obtain ⟨g, hg⟩ := ih (s := { s.onIface i (·.aborted now m) with fg := .busy op ph })
        (by simpa [State.quiet] using hq) ((h.onIface i fun x => aborted_clkEn x now m).setFg _)
      refine ⟨g, ?_⟩
      simp only [discardSlots, bind_run, hph, discardSlot_clocked hq h he, hg, onIface_setFg, onIface_onIface]
      rfl

theorem discardSlots_unclocked (hq : s.quiet) (h : s.Unclocked i) {ms : List Mb}
    (he : ∃ m ∈ ms, ((s.iface i).pend m).expired now = true) :
    ∃ g, discardSlots point i now ms s = .error .clockDisabledAccess { s with fg := g } := by
  induction ms with
  | nil => obtain ⟨m, hm, -⟩ := he; cases hm
  | cons m ms ih =>
    cases hm : ((s.iface i).pend m).expired now with
    | false =>
      obtain ⟨g, hg⟩ := ih (by simpa [hm] using he)
      exact ⟨g, by simp only [discardSlots, bind_run, discardSlot_fresh hm, hg]⟩
    | true =>
      obtain ⟨ph, hph⟩ := hpt (.abort m ms)
      exact ⟨.busy op ph, by simp only [discardSlots, bind_run, hph, discardSlot_unclocked hq h hm]⟩

/-- The aborts end where no expired slot is behind a disabled clock. -/
theorem discardSlots_ends (hq : s.quiet) (hb : s.cfg.wf) (hp : hasIface s.cfg i = true) {ms : List Mb}
    (hc : (∃ m ∈ ms, ((s.iface i).pend m).expired now = true) → (s.iface i).clkEn = true) :
    ∃ g, discardSlots point i now ms s = exitCs { s.onIface i (·.abortedAll now ms) with fg := g } := by
  cases hk : (s.iface i).clkEn with
  | true => exact discardSlots_clocked hpt hq ⟨hb, hp, hk⟩ ms
  | false =>
    have hfresh : ∀ m ∈ ms, ((s.iface i).pend m).expired now = false := fun m hm => by
      by_contra he
      simpa [hk] using hc ⟨m, hm, by simpa using he⟩
    refine ⟨s.fg, ?_⟩
    rw [discardSlots_fresh hfresh, onIface_eq_self (abortedAll_fresh hfresh)]

/-- `if_discard` ends there with the interface swept and the critical section left. -/
theorem ifDiscard_ends (hq : s.quiet) (hcs : s.cs = false) (hb : s.cfg.wf) (hp : hasIface s.cfg i = true)
    (hc : (s.iface i).anyExpired now → (s.iface i).clkEn = true) :
    ∃ g, ifDiscard point i now s = .ok () { s.onIface i (·.swept now) with fg := g } := by
  obtain ⟨ph, hph⟩ := hpt .enter
  obtain ⟨g, hg⟩ := discardSlots_ends (s := { s with fg := .busy op ph, cs := true }) hpt hq hb hp
    (by rw [iface_setFgCs, ← anyExpired_iff]; exact hc)
  refine ⟨g, ?_⟩
  simp only [ifDiscard, bind_run, hph, enterCsAt_quiet hq hcs, hg]
  rw [exitCs_held (onIface_cs _ i _)]
  obtain ⟨⟩ := s
  cases hcs
  cases i <;> rfl

/-- `if_discard` with no expired slot reaches no register. -/
theorem ifDiscard_fresh (hq : s.quiet) (hcs : s.cs = false) (he : ¬ (s.iface i).anyExpired now) :
    ∃ g, ifDiscard point i now s = .ok () { s with fg := g } := by
  obtain ⟨ph, hph⟩ := hpt .enter
  have hfresh : ∀ m ∈ [Mb.mb0, .mb1, .mb2], ((s.iface i).pend m).expired now = false :=
    expired_of_not_any he
  rw [← iface_setFgCs s (.busy op ph) true i] at hfresh
  refine ⟨.busy op ph, ?_⟩
  simp only [ifDiscard, bind_run, hph, enterCsAt_quiet hq hcs, discardSlots_fresh hfresh]
  rw [exitCs_held rfl, ← hcs]

/-- `if_discard` stops at the first expired slot behind a disabled clock, with the critical section taken. -/
theorem ifDiscard_unclocked (hq : s.quiet) (hcs : s.cs = false) (h : s.Unclocked i) (he : (s.iface i).anyExpired now) :
    ∃ g, ifDiscard point i now s = .error .clockDisabledAccess { s with cs := true, fg := g } := by
  obtain ⟨ph, hph⟩ := hpt .enter
  obtain ⟨g, hg⟩ := discardSlots_unclocked (s := { s with fg := .busy op ph, cs := true }) hpt hq
    (h.of_eq rfl (by rw [iface_setFgCs])) (by rw [iface_setFgCs]; exact (anyExpired_iff _ _).mp he)
  exact ⟨g, by simp only [ifDiscard, bind_run, hph, enterCsAt_quiet hq hcs, hg]⟩

end discard

/-! ### The sweep and the readiness query of `DRV.SELECT` (46_multiplexer.md R250, R253) -/

@[simp] theorem sweptAll_clkEn (s : State) (now : U64) (j : Iface) :
    ((s.sweptAll now).iface j).clkEn = (s.iface j).clkEn := by
  cases j with
  | if0 => exact swept_clkEn _ _
  | if1 =>
    simp only [State.sweptAll, iface_if1]
    split
    · exact swept_clkEn _ _
    · rfl

theorem ifaces_two {p : Params} (h : p.twoIfaces = true) : ifaces p = [.if0, .if1] := by simp [ifaces, h]

theorem ifaces_one {p : Params} (h : p.twoIfaces = false) : ifaces p = [.if0] := by simp [ifaces, h]

theorem mem_ifaces_of_hasIface {p : Params} {j : Iface} (h : hasIface p j = true) : j ∈ ifaces p := by
  cases j with
  | if0 => unfold ifaces; split <;> simp
  | if1 => simp [ifaces_two ((hasIface_if1 p).symm.trans h)]

/-- The sweep of every interface ends where no expired slot is behind a disabled clock. -/
theorem sweep_ends {q : Selecting} (hq : s.quiet) (hcs : s.cs = false) (hb : s.cfg.wf)
    (hc : ∀ j, hasIface s.cfg j = true → (s.iface j).anyExpired now → (s.iface j).clkEn = true) :
    ∃ g, sweep op q now (ifaces s.cfg) s = .ok () { s.sweptAll now with fg := g } := by
  have h0 := hasIface_if0 s.cfg
  cases h2 : s.cfg.twoIfaces with
  | false =>
    obtain ⟨g, hg⟩ := ifDiscard_ends (op := op) (point := sweepPoint op q now .if0 []) (fun _ => ⟨_, rfl⟩) hq hcs hb h0
      (hc _ h0)
    refine ⟨g, ?_⟩
    simp only [ifaces_one h2, sweep, bind_run, hg, pure_run, State.sweptAll, h2, Bool.false_eq_true, if_false]
    rfl
  | true =>
    have h1 := (hasIface_if1 s.cfg).trans h2
    obtain ⟨g, hg⟩ := ifDiscard_ends (op := op) (point := sweepPoint op q now .if0 [.if1]) (fun _ => ⟨_, rfl⟩) hq hcs hb
      h0 (hc _ h0)
    obtain ⟨g', hg'⟩ := ifDiscard_ends (op := op) (point := sweepPoint op q now .if1 []) (fun _ => ⟨_, rfl⟩)
      (s := { s.onIface .if0 (·.swept now) with fg := g }) hq hcs hb h1 (hc _ h1)
    refine ⟨g', ?_⟩
    simp only [ifaces_two h2, sweep, bind_run, hg, hg', pure_run, State.sweptAll, h2, if_true]
    rfl

/-- The sweep stops at an expired slot behind a disabled clock, the interface before it swept. -/
theorem sweep_unclocked {q : Selecting} (hq : s.quiet) (hcs : s.cs = false) (h : s.Unclocked i)
    (he : (s.iface i).anyExpired now)
    (h0 : i = .if1 → (s.iface .if0).anyExpired now → (s.iface .if0).clkEn = true) :
    ∃ g, sweep op q now (ifaces s.cfg) s = .error .clockDisabledAccess
      { s with if0 := if i = .if1 then s.if0.swept now else s.if0, cs := true, fg := g } := by
  cases i with
  | if0 =>
    obtain ⟨is, his⟩ : ∃ is, ifaces s.cfg = .if0 :: is := by unfold ifaces; split <;> exact ⟨_, rfl⟩
    obtain ⟨g, hg⟩ := ifDiscard_unclocked (op := op) (point := sweepPoint op q now .if0 is) (fun _ => ⟨_, rfl⟩) hq hcs h he
    exact ⟨g, by simp only [his, sweep, bind_run, hg]; rfl⟩
  | if1 =>
    have his := ifaces_two ((hasIface_if1 s.cfg).symm.trans h.present)
    obtain ⟨g, hg⟩ := ifDiscard_ends (op := op) (point := sweepPoint op q now .if0 [.if1]) (fun _ => ⟨_, rfl⟩) hq hcs
      h.build (hasIface_if0 _) (h0 rfl)
    obtain ⟨g', hg'⟩ := ifDiscard_unclocked (op := op) (point := sweepPoint op q now .if1 []) (fun _ => ⟨_, rfl⟩)
      (s := { s.onIface .if0 (·.swept now) with fg := g }) hq hcs (h.of_eq rfl rfl) he
    exact ⟨g', by simp only [his, sweep, bind_run, hg, hg']; rfl⟩

section ready

variable {α : Type} {point : ReadyPhase → Op Unit} (hpt : ∀ p, ∃ ph, point p = stepAt op ph) {j : Iface} {js : List Iface}
include hpt

theorem csAsk_free (hq : s.quiet) (hcs : s.cs = false) (p : ReadyPhase) (f : State → α) :
    ∃ a g, csAsk (point p) f s = .ok a { s with fg := g } := by
  obtain ⟨ph, hph⟩ := hpt p
  exact ⟨_, .busy op ph, by rw [hph, csAsk_quiet hq hcs, ← hcs]⟩

theorem readyScan_clocked (hq : s.quiet) (h : s.Reaches j) (rd wr : Byte) (b : Bool) :
    ∃ m g, readyScan point j js rd wr b s = .ok m { s with fg := g } := by
  obtain ⟨ph, hph⟩ := hpt (.scan j js rd wr b)
  simp only [readyScan, bind_run, hph, fgRead_quiet (r := .tsr) hq h fun _ => rfl]
  exact ⟨_, _, rfl⟩

theorem readyScan_unclocked (hq : s.quiet) (h : s.Unclocked j) (rd wr : Byte) (b : Bool) :
    ∃ g, readyScan point j js rd wr b s = .error .clockDisabledAccess { s with fg := g } := by
  obtain ⟨ph, hph⟩ := hpt (.scan j js rd wr b)
  exact ⟨.busy op ph, by simp only [readyScan, bind_run, hph, fgRead_unclocked (r := .tsr) hq h fun _ => rfl]⟩

/-- The readiness query stops at the first interface whose block is not clocked. -/
theorem readyFrom_unclocked (hq : s.quiet) (hcs : s.cs = false) (hb : s.cfg.wf) {is : List Iface}
    (hp : ∀ j ∈ is, hasIface s.cfg j = true) (hu : ∃ j ∈ is, (s.iface j).clkEn = false) (rd wr : Byte) :
    ∃ g, readyFrom point is rd wr s = .error .clockDisabledAccess { s with fg := g } := by
  induction is generalizing s rd wr with
  | nil => obtain ⟨j, hj, -⟩ := hu; cases hj
  | cons j js ih =>
    obtain ⟨hj, hjs⟩ := List.forall_mem_cons.mp hp
    obtain ⟨b, g, hask⟩ := csAsk_free hpt hq hcs (.enter j js rd wr) fun s => decide (0 < (s.iface j).rb.len)
    cases hk : (s.iface j).clkEn with
    | false =>
      have ht : ({ s with fg := g } : State).Unclocked j := ⟨hb, hj, by rw [iface_setFg, hk]⟩
      obtain ⟨g', hscan⟩ := readyScan_unclocked (s := { s with fg := g }) (js := js) hpt hq ht rd wr b
      exact ⟨g', by simp only [readyFrom, bind_run, hask, hscan]⟩
    | true =>
      have ht : ({ s with fg := g } : State).Reaches j := ⟨hb, hj, by rw [iface_setFg, hk]⟩
      obtain ⟨m, g', hscan⟩ := readyScan_clocked (s := { s with fg := g }) (js := js) hpt hq ht rd wr b
      have hu' : ∃ k ∈ js, (({ s with fg := g' } : State).iface k).clkEn = false := by
        simpa [hk, iface_setFg] using hu
      obtain ⟨g'', hrest⟩ := ih (s := { s with fg := g' }) hq hcs hb hjs hu' m.1 m.2
      exact ⟨g'', by simp only [readyFrom, bind_run, hask, hscan, hrest]⟩

theorem ready_unclocked (hq : s.quiet) (hcs : s.cs = false) (h : s.Unclocked i) :
    ∃ g, ready point s = .error .clockDisabledAccess { s with fg := g } :=
  readyFrom_unclocked hpt hq hcs h.build (fun _ => mem_ifaces) ⟨i, mem_ifaces_of_hasIface h.present, h.unclocked⟩ _ _

end ready

/-! ### Commands that stop at an unclocked block (20_memory.md R65; 70_reset_and_hazards.md R346) -/

theorem bind_raises {α β : Type} {x : Op α} {f : α → Op β} {k : FaultKind} {t : State}
    (h : ∃ g, x s = .error k { t with fg := g }) : ∃ g, (x >>= f) s = .error k { t with fg := g } := by
  obtain ⟨g, h⟩ := h
  exact ⟨g, by rw [bind_run, h]⟩

/-- A command of the host whose operation raises a fault: the effects before it stay (60_exceptions.md R310). -/
theorem hostCommand_raises {x : Instr} {ph : Phase} {body : Op Ret} {k : FaultKind} {t : State} (h : s.HostTurn)
    (hc : x.cls = .host) (hw : x.wellFormed s.cfg.numIfaces = true) (hf : t.faults = [])
    (hb : ∃ g, body (s.started x ph) = .error k { t with fg := g }) :
    hostCommand x ph body s = .next { t with faults := [k], faultCw := encode x, fg := .faulted } := by
  obtain ⟨g, hb⟩ := hb
  rw [hostCommand_turn h hc hw, hb]
  simp only [settle, takeFault, hf, insertFault, if_true]

/-- A command of the host that returns. -/
theorem hostCommand_returns {x : Instr} {ph : Phase} {body : Op Ret} {r : Result} {t : State} (h : s.HostTurn)
    (hc : x.cls = .host) (hw : x.wellFormed s.cfg.numIfaces = true) (hf : t.fg = .idle)
    (hb : ∃ g, body (s.started x ph) = .ok (.done r) { t with fg := g }) :
    hostCommand x ph body s = .next { t with res := some r } := by
  obtain ⟨g, hb⟩ := hb
  rw [hostCommand_turn h hc hw, hb, settle, ← hf]

/-- `if_send` stops at its read of `TSR`, with the critical section taken. -/
theorem ifSend_unclocked {x : Sending} {w : SendPhase → Phase} (hq : s.quiet) (hcs : s.cs = false) (h : s.Unclocked x.i)
    (hr : rejected x.frame = false) : ifSend (fun p => stepAt op (w p)) x s =
      .error .clockDisabledAccess { s with cs := true, fg := .busy op (w .scan) } := by
  have ht : ({ s with fg := .busy op (w .enter), cs := true } : State).Unclocked x.i :=
    h.of_eq rfl (by rw [iface_setFgCs])
  have hscan := fgRead_unclocked (s := { s with fg := .busy op (w .enter), cs := true }) (r := .tsr) hq ht
    (fun _ => rfl) op (w .scan)
  simp only [ifSend, hr, Bool.false_eq_true, if_false, sendScan, bind_run, enterCsAt_quiet hq hcs, hscan]

/-- `if_init` at an achievable rate stops at its read of `MCR`. -/
theorem ifInit_unclocked {rate : Word} {w : InitPhase → Phase} (hq : s.quiet) (h : s.Unclocked i)
    (hr : calcTimings s.cfg.pclk rate.toNat ≠ none) :
    ∃ g, ifInit (initPoint op w) i rate s = .error .clockDisabledAccess { s with fg := g } := by
  obtain ⟨t, ht⟩ := Option.ne_none_iff_exists'.mp hr
  have hu : ({ s with fg := .busy op (w (.timing rate)) } : State).Unclocked i := h.of_eq rfl (by rw [iface_setFg])
  have hread := fgRead_unclocked (s := { s with fg := .busy op (w (.timing rate)) }) (r := .mcr) hq hu (fun _ => rfl) op
    (w (.enterRead t))
  refine ⟨.busy op (w (.enterRead t)), ?_⟩
  simp only [ifInit, bind_run, initPoint, mark_run, ask_run, ht, enterConfig, hread]

/-- `select` stops in its readiness query where its sweep ends. -/
theorem select_unclocked {q : Selecting} (hq : s.quiet) (hcs : s.cs = false) (h : s.Unclocked i)
    (hc : ∀ j, hasIface s.cfg j = true → (s.iface j).anyExpired s.mono → (s.iface j).clkEn = true) :
    ∃ g, select op q s = .error .clockDisabledAccess { s.sweptAll s.mono with fg := g } := by
  obtain ⟨g, hsweep⟩ := sweep_ends (op := op) (q := q) hq hcs h.build hc
  have hu : ({ s.sweptAll s.mono with fg := g } : State).Unclocked i := h.of_eq rfl (by rw [iface_setFg, sweptAll_clkEn])
  obtain ⟨g', hready⟩ := ready_unclocked (op := op) (point := checkPoint op q) (s := { s.sweptAll s.mono with fg := g })
    (fun _ => ⟨_, rfl⟩) hq hcs hu
  exact ⟨g', by simp only [select, nowMono, bind_run, ask_run, hsweep, selectCheck, hready]⟩

/-- `select` stops in its sweep at an expired slot behind a disabled clock. -/
theorem select_sweep_unclocked {q : Selecting} (hq : s.quiet) (hcs : s.cs = false) (h : s.Unclocked i)
    (he : (s.iface i).anyExpired s.mono)
    (h0 : i = .if1 → (s.iface .if0).anyExpired s.mono → (s.iface .if0).clkEn = true) :
    ∃ g, select op q s = .error .clockDisabledAccess
      { s with if0 := if i = .if1 then s.if0.swept s.mono else s.if0, cs := true, fg := g } := by
  obtain ⟨g, hsweep⟩ := sweep_unclocked (op := op) (q := q) hq hcs h he h0
  exact ⟨g, by simp only [select, nowMono, bind_run, ask_run, hsweep]⟩

theorem discarded_ends {x : Op Unit} {t : State} (h : ∃ g, x s = .ok () { t with fg := g }) :
    ∃ g, discarded x s = .ok (status .ok) { t with fg := g } := by
  obtain ⟨g, h⟩ := h
  exact ⟨g, by simp only [discarded, bind_run, h, pure_run]⟩

/-- Settles O9: each operation runs up to its first access of the unclocked block, and the fault is taken there. -/
theorem unclockedAccessFaults : Obligations.UnclockedAccessFaults := by
  intro s i ht hq hwf hp hk
  have hi := ifaceInRange_bits hp
  have h (x : Instr) (ph : Phase) : (s.started x ph).Unclocked i :=
    State.Unclocked.of_eq (s := s) ⟨hwf, hp, hk⟩ rfl (by rw [started_iface])
  have hb (x : Instr) (ph : Phase) : (s.started x ph).Unclocked (ifaceOf i.bits) := by rw [ifaceOf_bits]; exact h x ph
  have hx (x : Instr) (ph : Phase) (j : Iface) : (s.started x ph).iface j = s.iface j := started_iface ..
  refine ⟨fun hfr => ?_, ?_, fun hcalc => ?_, fun he => ?_, fun he => ?_, ?_, fun hc => ?_, fun he h0 => ?_⟩
  · exact hostCommand_raises (t := { s with cs := true, res := none }) ht rfl hi ht.healthy
      (bind_raises ⟨_, ifSend_unclocked hq ht.noCs (hb _ _) hfr⟩)
  · exact hostCommand_raises (t := { s with res := none }) ht rfl hi ht.healthy
      (bind_raises ⟨_, fgRead_unclocked (s := s.started _ _) hq (hb _ _) (fun _ => rfl) _ _⟩)
  · exact hostCommand_raises (t := { s with res := none }) ht rfl hi ht.healthy
      (bind_raises (ifInit_unclocked (s := s.started _ _) hq (hb _ _) hcalc))
  · exact hostCommand_raises (t := { s with cs := true, res := none }) ht rfl hi ht.healthy
      (bind_raises (ifDiscard_unclocked (s := s.started _ _) (fun _ => ⟨_, rfl⟩) hq ht.noCs (hb _ _)
        (by rw [hx, ifaceOf_bits]; exact he)))
  · exact hostCommand_returns (t := { s with res := none }) ht rfl hi ht.idle
      (discarded_ends (ifDiscard_fresh (s := s.started _ _) (fun _ => ⟨_, rfl⟩) hq ht.noCs
        (by rw [hx, ifaceOf_bits]; exact he)))
  · exact hostCommand_raises (t := { s with res := none }) ht rfl rfl ht.healthy
      (bind_raises (ready_unclocked (s := s.started _ _) (fun _ => ⟨_, rfl⟩) hq ht.noCs (h _ _)))
  · exact hostCommand_raises (t := { s.sweptAll s.mono with res := none }) ht rfl rfl ht.healthy
      (select_unclocked hq ht.noCs (h _ _) (fun j hj he => by rw [hx] at he ⊢; exact hc j hj he))
  · exact hostCommand_raises (t := { s with
      if0 := if i = .if1 then s.if0.swept s.mono else s.if0, cs := true, res := none }) ht rfl rfl ht.healthy
      (select_sweep_unclocked hq ht.noCs (h _ _) (by rw [hx]; exact he) h0)

end Sys2Proof.Machine
end

section
/-! The family 30_encoding.md: command words and commands, illegal requests, and the words that frames and timings are
packed into. -/

namespace Sys2Proof

open Sys2Proof.Machine

/-! ### Commands and their words (30_encoding.md R81 to R87) -/

/-- The round trip of every command, from that of each. -/
theorem decode_encode (i : Instr) : Laws.RoundTrip.Statement i := by
  cases i with
  | btCalc => exact Laws.RoundTrip.btCalc
  | rbPush a => exact Laws.RoundTrip.rbPush a
  | rbPop a => exact Laws.RoundTrip.rbPop a
  | rbLen a => exact Laws.RoundTrip.rbLen a
  | rbOvf a => exact Laws.RoundTrip.rbOvf a
  | ifInit a => exact Laws.RoundTrip.ifInit a
  | ifCfgfilt a => exact Laws.RoundTrip.ifCfgfilt a
  | ifSend a => exact Laws.RoundTrip.ifSend a
  | ifDiscard a => exact Laws.RoundTrip.ifDiscard a
  | ifTxsvc a => exact Laws.RoundTrip.ifTxsvc a
  | ifTxfull a => exact Laws.RoundTrip.ifTxfull a
  | ifWaitmb0 a => exact Laws.RoundTrip.ifWaitmb0 a
  | ifRecv a => exact Laws.RoundTrip.ifRecv a
  | ifRxsvc a f => exact Laws.RoundTrip.ifRxsvc a f
  | ifPollerr a => exact Laws.RoundTrip.ifPollerr a
  | ifRxempty a => exact Laws.RoundTrip.ifRxempty a
  | ifRxlen a => exact Laws.RoundTrip.ifRxlen a
  | ifErrcnt a => exact Laws.RoundTrip.ifErrcnt a
  | ifLasterr a => exact Laws.RoundTrip.ifLasterr a
  | ifHadact a => exact Laws.RoundTrip.ifHadact a
  | drvInit => exact Laws.RoundTrip.drvInit
  | drvReady => exact Laws.RoundTrip.drvReady
  | drvSelect => exact Laws.RoundTrip.drvSelect
  | drvHadact => exact Laws.RoundTrip.drvHadact
  | irqTx a => exact Laws.RoundTrip.irqTx a
  | irqRx a f => exact Laws.RoundTrip.irqRx a f

/-- Settles O1: the round trip of every command. -/
theorem decodeOfEncode : Obligations.DecodeOfEncode := fun n i => decode_encode i n

/-- The fields `opc`, `ifc` and `sub` are those of the command `i`. -/
def HasFields (i : Instr) (opc : BitVec 8) (ifc : BitVec 4) (sub : BitVec 2) : Prop :=
  i.opc = opc ∧ i.ifaceBits = ifc ∧ i.subBits = sub

/-- A row of the opcode map (R85) for the opcode `c`: the opcode list of R86's items `c` stands in, and the fields and the
well-formedness of the row's commands. -/
def Shape.Row (c : BitVec 8) : Shape → Prop
  | .fixed i => c ∈ driverOpcs ∧ HasFields i c 0#4 0#2 ∧ ∀ n, i.wellFormed n = true
  | .iface f => c ∈ ifaceOpcs ∧ ∀ a, HasFields (f a) c a 0#2 ∧ ∀ n, (f a).wellFormed n = ifaceInRange n a
  | .ifaceFifo f => c ∈ fifoOpcs ∧
      ∀ a b, HasFields (f a b) c a b ∧ ∀ n, (f a b).wellFormed n = (ifaceInRange n a && fifoInRange b)

theorem shapeOf_row {k : Nat} {sh : Shape} (h : shapeOf k = some sh) : sh.Row (BitVec.ofNat 8 k) := by
  unfold shapeOf at h
  split at h <;> cases h <;>
    simp [Shape.Row, HasFields, driverOpcs, ifaceOpcs, fifoOpcs, Instr.opc, Instr.ifaceBits, Instr.subBits,
      Instr.wellFormed]

/-- The row of a word's opcode. -/
theorem shapeOf_opcField {w : Word} {sh : Shape} (h : shapeOf (opcField w).toNat = some sh) : sh.Row (opcField w) := by
  simpa using shapeOf_row h

/-- An opcode without a row is in none of the lists. -/
theorem shapeOf_none {c : BitVec 8} (h : shapeOf c.toNat = none) : c ∉ driverOpcs ++ ifaceOpcs ++ fifoOpcs := by
  have hrow : ∀ c ∈ driverOpcs ++ ifaceOpcs ++ fifoOpcs, (shapeOf c.toNat).isSome = true := by decide
  intro hc
  simpa [h] using hrow c hc

/-- The lists exclude each other: the item of R86 for one kind of operation says nothing of the other two. -/
theorem opcs_disjoint (c : BitVec 8) :
    (c ∈ driverOpcs → c ∉ ifaceOpcs ∧ c ∉ fifoOpcs) ∧ (c ∈ ifaceOpcs → c ∉ driverOpcs ∧ c ∉ fifoOpcs) ∧
      (c ∈ fifoOpcs → c ∉ driverOpcs ∧ c ∉ ifaceOpcs) :=
  ⟨(by decide : ∀ c ∈ driverOpcs, c ∉ ifaceOpcs ∧ c ∉ fifoOpcs) c,
    (by decide : ∀ c ∈ ifaceOpcs, c ∉ driverOpcs ∧ c ∉ fifoOpcs) c,
    (by decide : ∀ c ∈ fifoOpcs, c ∉ driverOpcs ∧ c ∉ ifaceOpcs) c⟩

/-- A word without reserved bits is the word of the command that has its fields (R81). -/
theorem encode_of_fields {w : Word} {i : Instr} (hr : rsvField w = 0#18)
    (h : HasFields i (opcField w) (ifaceField w) (subField w)) : encode i = w := by
  obtain ⟨ho, ha, hs⟩ := h
  rw [word_of_fields w, encode, hr, ho, ha, hs]

/-- What the decoder gives: a command that has the word's fields, by the row of its opcode, from a word without reserved
bits; and every check but that of `IFACE` was made. -/
theorem decode_ok {w : Word} {i : Instr} (h : decode w = .ok i) :
    rsvField w = 0#18 ∧ HasFields i (opcField w) (ifaceField w) (subField w) ∧ i.wellFormed 16 = true := by
  unfold decode at h
  split at h
  · cases h
  next hr =>
    have hr : rsvField w = 0#18 := not_not.mp hr
    have hif : ifaceInRange 16 (ifaceField w) = true := decide_eq_true (ifaceField w).isLt
    split at h
    · cases h
    next j hsh =>
      obtain ⟨-, hf, hw⟩ := shapeOf_opcField hsh
      split at h
      · cases h
      split at h
      · cases h
      next ha hs =>
        cases h
        exact ⟨hr, by rwa [not_not.mp ha, not_not.mp hs], hw 16⟩
    next f hsh =>
      obtain ⟨-, hf⟩ := shapeOf_opcField hsh
      split at h
      · cases h
      next hs =>
        cases h
        obtain ⟨hf, hw⟩ := hf (ifaceField w)
        exact ⟨hr, by rwa [not_not.mp hs], (hw 16).trans hif⟩
    next f hsh =>
      obtain ⟨-, hf⟩ := shapeOf_opcField hsh
      split at h
      · cases h
      next hs =>
        cases h
        obtain ⟨hf, hw⟩ := hf (ifaceField w) (subField w)
        have hfifo : fifoInRange (subField w) = true := decide_eq_true (by omega)
        exact ⟨hr, hf, by rw [hw, hif, hfifo]; rfl⟩

/-- Settles O2: a word and a command with the same fields. -/
theorem encodeOfDecode : Obligations.EncodeOfDecode := by
  intro w i h
  obtain ⟨hr, hf, hw⟩ := decode_ok h
  exact ⟨encode_of_fields hr hf, hw⟩

/-- The decoder and the check of `IFACE` reject exactly the words that the first five items of R86 make illegal. -/
theorem decodes_iff_legal (n : Nat) (w : Word) :
    (∃ i, i.wellFormed n = true ∧ decode w = .ok i) ↔ ¬ illegalWord n w := by
  obtain ⟨hd, hi, hf⟩ := opcs_disjoint (opcField w)
  unfold decode illegalWord
  by_cases hr : rsvField w = 0#18
  · cases hsh : shapeOf (opcField w).toNat with
    | none => exact iff_of_false (by simp [hr]) (not_not.mpr (.inl (shapeOf_none hsh)))
    | some sh =>
      cases sh with
      | fixed i =>
        obtain ⟨hc, -, hw⟩ := shapeOf_opcField hsh
        obtain ⟨h1, h2⟩ := hd hc
        by_cases ha : ifaceField w = 0#4 <;> by_cases hs : subField w = 0#2 <;> simp [hr, hc, h1, h2, ha, hs, hw]
      | iface f =>
        obtain ⟨hc, hrow⟩ := shapeOf_opcField hsh
        obtain ⟨h1, h2⟩ := hi hc
        by_cases hs : subField w = 0#2 <;> simp [hr, hc, h1, h2, hs, hrow, ifaceInRange]
      | ifaceFifo f =>
        obtain ⟨hc, hrow⟩ := shapeOf_opcField hsh
        obtain ⟨h1, h2⟩ := hf hc
        by_cases hs : 1 < (subField w).toNat
        · simp [hr, hc, h1, h2, hs]
        · have hfifo : (subField w).toNat < 2 := by omega
          simp [hr, hc, h1, h2, hs, hrow, ifaceInRange, fifoInRange, hfifo]
  · simp [hr]

/-- Settles O3: the decoder rejects the illegal words, and two commands of one word are what it decodes to. -/
theorem wordIsCommandOrIllegal : Obligations.WordIsCommandOrIllegal := by
  refine fun n w => ⟨decodes_iff_legal n w, fun i j hi hj hiw hjw => ?_⟩
  have hdi : decode w = .ok i := hiw ▸ decode_encode i n hi
  have hdj : decode w = .ok j := hjw ▸ decode_encode j n hj
  exact Except.ok.inj (hdi.symm.trans hdj)

/-- Settles O4: the decoder runs on closed words. -/
theorem sampleWordsDecode : Obligations.SampleWordsDecode := by
  unfold Obligations.SampleWordsDecode
  decide

end Sys2Proof

namespace Sys2Proof.Machine

/-! ### The step that issues a command (30_encoding.md R80, R84, R86) -/

section issue

variable {s : State} {q : Request} {inner : List Inner} {l : List Move}

theorem step_issue_error {e : DecodeError} (hs : s.stopped = false) (hl : s.sched = .issue q inner :: l)
    (hd : decode q.cw = .error e) :
    step s = .next (takeFault .illegalCommand q.cw (State.atPort { s with sched := l } q inner)) := by
  have hs' : ({ s with sched := l } : State).stopped = false := hs
  simp [step, hl, issue, hs', hd]

theorem step_issue_ok {i : Instr} (hs : s.stopped = false) (hl : s.sched = .issue q inner :: l)
    (hd : decode q.cw = .ok i) : step s = exec i (State.atPort { s with sched := l } q inner) := by
  have hs' : ({ s with sched := l } : State).stopped = false := hs
  simp [step, hl, issue, hs', hd]

/-- The opcode of a command is one its class may issue (R84, R85). -/
theorem opc_mem_classOpcs (i : Instr) : i.opc ∈ classOpcs i.cls := by
  cases i <;> simp [Instr.opc, Instr.cls, classOpcs]

/-- The items of R86 on word, class and foreground are the check the command makes. -/
theorem not_legal_of_illegalRequest {i : Instr} (hd : decode q.cw = .ok i) (h : illegalRequest s q) {t : State}
    (hc : t.cfg = s.cfg) (hg : t.fg = s.fg) (hb : t.by' = q.by') : legal i t = false := by
  obtain ⟨-, ⟨ho, -⟩, -⟩ := decode_ok hd
  rw [illegalRequest, ← ho] at h
  rw [Bool.eq_false_iff]
  intro hl
  simp only [legal, issuable, hc, hg, hb, Bool.and_eq_true, decide_eq_true_eq] at hl
  obtain ⟨hw, hby, hturn⟩ := hl
  rcases h with hword | hclass | ⟨hhost, hidle⟩
  · exact (decodes_iff_legal _ _).mp ⟨i, hw, hd⟩ hword
  · exact hclass (hby ▸ opc_mem_classOpcs i)
  · rw [← hby, hhost] at hturn
    exact hidle (eq_of_beq hturn)

/-- The first fault of a block, as a state. -/
theorem takeFault_first {k : FaultKind} {cw : Word} {t : State} (h : t.stopped = false) :
    takeFault k cw t = { t with faults := [k], faultCw := cw, fg := .faulted } := by
  have hf : t.faults = [] := by simp_all [State.stopped]
  simp [takeFault, hf, insertFault]

end issue

/-- Settles O6: an undecodable word faults at the port, any other illegal request at its command's own check. -/
theorem illegalCommandFaultsOnly : Obligations.IllegalCommandFaultsOnly := by
  intro s q inner l hs hl h
  have hs' : (State.atPort { s with sched := l } q inner).stopped = false := hs
  cases hd : decode q.cw with
  | error e => rw [step_issue_error hs hl hd, takeFault_first hs']; rfl
  | ok i =>
    obtain ⟨hw, -⟩ := encodeOfDecode _ _ hd
    rw [step_issue_ok hs hl hd, exec_illegal hs' (not_legal_of_illegalRequest hd h rfl rfl rfl), hw, takeFault_first hs']
    rfl

theorem foregroundStep_busy {s : State} {op : Instr} {ph : Phase} (hf : s.faults = []) (hi : s.inIsr = false)
    (hg : s.fg = .busy op ph) (b : Bool) (inner : List Inner) :
    foregroundStep b inner s = settle op (resume op ph { s with inner := inner }) := by
  have hs : s.stopped = false := by simp [State.stopped, hg, hf]
  simp [foregroundStep, hs, hi, hg]

/-- Settles O5: the issuing step, and the foreground's own from a Busy state. -/
theorem stepRunsDecodedCommand : Obligations.StepRunsDecodedCommand := by
  refine ⟨fun s q inner l i hs hl hd => step_issue_ok hs hl hd, fun s op ph b inner l hf hi hg hl => ?_⟩
  have hstep : step s = foregroundStep b inner { s with sched := l } := by simp [step, hl]
  rw [hstep]
  exact foregroundStep_busy (s := { s with sched := l }) hf hi hg b inner

/-! ### Frames and their words (30_encoding.md R89 to R92) -/

/-- The bytes of a little-endian word (R91; 20_memory.md R61). -/
theorem bytes_of_append (a b c d : Byte) :
    let w : Word := a ++ b ++ c ++ d
    w.extractLsb' 0 8 = d ∧ w.extractLsb' 8 8 = c ∧ w.extractLsb' 16 8 = b ∧ w.extractLsb' 24 8 = a := by
  simp [@BitVec.extractLsb'_append_eq_of_le 24 8, @BitVec.extractLsb'_append_eq_of_le 16 8,
    @BitVec.extractLsb'_append_eq_of_le 8 8, @BitVec.extractLsb'_append_eq_of_add_le 24 8,
    @BitVec.extractLsb'_append_eq_of_add_le 16 8, @BitVec.extractLsb'_append_eq_of_add_le 8 8]

/-- The data registers decode to the data bytes. -/
theorem rxDecode_data (rir rdtr : Word) (d : Data8) : (rxDecode rir rdtr (tdlrOf d) (tdhrOf d)).data = d := by
  obtain ⟨h0, h1, h2, h3⟩ := bytes_of_append d.b3 d.b2 d.b1 d.b0
  obtain ⟨h4, h5, h6, h7⟩ := bytes_of_append d.b7 d.b6 d.b5 d.b4
  simp only [rxDecode, tdlrOf, tdhrOf, h0, h1, h2, h3, h4, h5, h6, h7]

/-- `IDE` and `RTR` of a head register, in both of its layouts. -/
theorem rirOf_flags (m : RxMsg) : (rirOf m).getLsbD 2 = m.frame.ext ∧ (rirOf m).getLsbD 1 = m.frame.rtr := by
  unfold rirOf
  split
  all_goals simp only [@BitVec.getLsbD_append 31 1, @BitVec.getLsbD_append 30 1, @BitVec.getLsbD_append 29 1]
  all_goals simp [*]

theorem rirOf_ident_ext {m : RxMsg} (h : m.frame.ext = true) : (rirOf m).extractLsb' 3 29 = m.frame.id := by
  simp [rirOf, h, @BitVec.extractLsb'_append_eq_of_le 31 1, @BitVec.extractLsb'_append_eq_of_le 30 1,
    @BitVec.extractLsb'_append_eq_of_le 29 1]

theorem rirOf_ident_std {m : RxMsg} (h : m.frame.ext = false) :
    (rirOf m).extractLsb' 21 11 = m.frame.id.extractLsb' 0 11 := by
  simp [rirOf, h, @BitVec.extractLsb'_append_eq_of_le 31 1, @BitVec.extractLsb'_append_eq_of_le 30 1,
    @BitVec.extractLsb'_append_eq_of_le 29 1, @BitVec.extractLsb'_append_eq_of_le 11 18]

/-- The identifier of a standard frame has 11 bits (10_state.md R23), so its low 11 bits give it back. -/
theorem setWidth_ident {id : BitVec 29} (h : id.toNat < 2048) : (id.extractLsb' 0 11).setWidth 29 = id := by
  apply BitVec.eq_of_toNat_eq
  rw [BitVec.toNat_setWidth, BitVec.extractLsb'_toNat, Nat.shiftRight_zero]
  omega

/-- The head registers of a message decode to its frame (R92; 47_controller_env.md R280). -/
theorem rxDecode_head {m : RxMsg} (hw : m.frame.wellFormed = true) (he : m.frame.err = false) :
    rxDecode (rirOf m) (rdtrOf m) (tdlrOf m.frame.data) (tdhrOf m.frame.data) = m.frame := by
  obtain ⟨hide, hrtr⟩ := rirOf_flags m
  have hdlc : (rdtrOf m).extractLsb' 0 4 = m.frame.dlc := BitVec.extractLsb'_append_eq_right
  have hid : (if m.frame.ext then (rirOf m).extractLsb' 3 29 else ((rirOf m).extractLsb' 21 11).setWidth 29) =
      m.frame.id := by
    split
    next h => exact rirOf_ident_ext h
    next h =>
      rw [rirOf_ident_std (by simpa using h)]
      exact setWidth_ident (by simpa [Frame.wellFormed, h] using hw)
  have hdata := rxDecode_data (rirOf m) (rdtrOf m) m.frame.data
  simp only [rxDecode] at hdata ⊢
  simp only [hide, hrtr, hdlc, hid, hdata, ← he]

/-- The identifier word of a mailbox load is the head register of the frame with every free bit 0. -/
theorem tirOf_eq_rirOf (fr : Frame) : tirOf fr = rirOf ⟨fr, 0#32, 0#32⟩ := by
  unfold tirOf rirOf
  split
  · rfl
  · apply BitVec.eq_of_toNat_eq
    simp only [@BitVec.toNat_append 31 1, @BitVec.toNat_append 30 1, @BitVec.toNat_append 29 1,
      @BitVec.toNat_append 11 18, @BitVec.toNat_append 11 19]
    simp [← Nat.shiftLeft_add]

theorem tdtrOf_eq_rdtrOf (fr : Frame) : tdtrOf fr = rdtrOf ⟨fr, 0#32, 0#32⟩ := by
  apply BitVec.eq_of_toNat_eq
  have hlt : fr.dlc.toNat < 2 ^ 32 := fr.dlc.isLt.trans (by decide)
  simp only [tdtrOf, rdtrOf, @BitVec.toNat_append 28 4]
  simpa using hlt

/-- Settles O59: packing a frame is the case of a message with no free bit set. -/
theorem packingInverse : Obligations.PackingInverse := by
  refine ⟨fun fr hw he => ?_, fun m hm => ?_⟩
  · rw [tirOf_eq_rirOf, tdtrOf_eq_rdtrOf]
    exact rxDecode_head (m := ⟨fr, 0#32, 0#32⟩) hw he
  · simp only [RxMsg.admitted, Bool.and_eq_true, Bool.not_eq_true'] at hm
    obtain ⟨he, hw⟩ := hm
    exact rxDecode_head hw he

/-! ### Packed words as shifted fields (30_encoding.md R89 to R91, R94) -/

theorem bytes_shifts (a b c d : Byte) : (a ++ b ++ c ++ d : Word) =
    (a.setWidth 32 <<< 24) ||| (b.setWidth 32 <<< 16) ||| (c.setWidth 32 <<< 8) ||| d.setWidth 32 := by
  rw [← BitVec.setWidth_eq (a ++ b ++ c ++ d)]
  exact BitVec.setWidth_append_append_append_eq_shiftLeft_setWidth_or

theorem tirOf_shifts (fr : Frame) : tirOf fr = (if fr.ext = true then
      (fr.id.setWidth 32 <<< 3) ||| 4#32 ||| (if fr.rtr = true then 2#32 else 0#32)
    else ((fr.id.extractLsb' 0 11).setWidth 32 <<< 21) ||| (if fr.rtr = true then 2#32 else 0#32)) := by
  rw [← BitVec.setWidth_eq (tirOf fr), tirOf]
  split <;> rw [BitVec.setWidth_append_append_append_eq_shiftLeft_setWidth_or] <;> cases fr.rtr <;> simp

theorem btrOf_shifts (t : TimingParams) : btrOf t =
    (t.sjw.setWidth 32 <<< 24) ||| (t.bs2.setWidth 32 <<< 20) ||| (t.bs1.setWidth 32 <<< 16) ||| t.presc.setWidth 32 := by
  rw [← BitVec.setWidth_eq (btrOf t), btrOf]
  iterate 6 rw [BitVec.setWidth_append_eq_shiftLeft_setWidth_or]
  simp [BitVec.shiftLeft_or_distrib, ← BitVec.shiftLeft_add]

/-- `LBKM`, `SILM` and the reserved bits of the bit-timing word are 0 (R94): the mask is cut like the word. -/
theorem btrOf_clear (t : TimingParams) : btrOf t &&& 0xFC80FC00#32 = 0#32 := by
  have hmask : (0xFC80FC00#32 : Word) = 0x3F#6 ++ 0#2 ++ 1#1 ++ 0#3 ++ 0#4 ++ 0x3F#6 ++ 0#10 := by decide
  rw [hmask, btrOf, @BitVec.and_append 22 10, @BitVec.and_append 16 6, @BitVec.and_append 12 4,
    @BitVec.and_append 9 3, @BitVec.and_append 8 1, @BitVec.and_append 6 2]
  simp

theorem btrOf_clear_bit (t : TimingParams) {k : Nat} (hk : (0xFC80FC00#32 : Word).getLsbD k = true) :
    (btrOf t).getLsbD k = false := by
  have h : (btrOf t &&& 0xFC80FC00#32).getLsbD k = false := by rw [btrOf_clear, BitVec.getLsbD_zero]
  rwa [BitVec.getLsbD_and, hk, Bool.and_true] at h

theorem btrOf_reserved (t : TimingParams) : btrOf t &&& 0x3C80FC00#32 = 0#32 := by
  have hmask : (0x3C80FC00#32 : Word) = 0xFC80FC00#32 &&& 0x3C80FC00#32 := by decide
  rw [hmask, ← BitVec.and_assoc, btrOf_clear, BitVec.zero_and]

/-- Settles O60: the words of all frames and timings field by field; the examples and the codes are closed. -/
theorem packedWords : Obligations.PackedWords := by
  refine ⟨fun fr => ⟨tirOf_shifts fr, (BitVec.ofNat_toNat ..).symm, bytes_shifts .., bytes_shifts ..⟩, fun t => ?_, ?_⟩
  · exact ⟨btrOf_shifts t, btrOf_clear_bit t (by decide), btrOf_clear_bit t (by decide), btrOf_reserved t⟩
  · decide

end Sys2Proof.Machine
end

section
/-! The family 40_bit_timing.md: the search of the calculator as a walk over the pairs of segments, and what an accepted
pair gives. -/

namespace Sys2Proof.Machine

/-! ### The search visits the trajectory (40_bit_timing.md R112 to R114) -/

/-- The pairs of segments `searchTimings` visits from `seg` in at most `passes` passes where it accepts none. -/
def searchPath : Nat → Nat × Nat → List (Nat × Nat)
  | 0, _ => []
  | passes + 1, seg =>
    seg :: if (shrink seg.1 seg.2).1 = 0 ∨ (shrink seg.1 seg.2).2 = 0 then []
      else searchPath passes (shrink seg.1 seg.2)

theorem searchPath_init : searchPath Config.searchPasses (Config.bs1Init, Config.bs2Init) = trajectory := by decide

theorem accepts_prescalerAt (clock rate : Nat) (seg : Nat × Nat) :
    accepts clock rate (prescalerAt clock rate seg) (1 + seg.1 + seg.2) = fits clock rate seg := by
  simp only [accepts, fits, Bool.decide_and, Bool.and_assoc]

/-- The search returns the first pair of its path that fits. -/
theorem searchTimings_eq_find? (clock rate passes : Nat) (seg : Nat × Nat) :
    searchTimings clock rate passes seg.1 seg.2 =
      ((searchPath passes seg).find? (fits clock rate)).map fun seg => (prescalerAt clock rate seg, seg) := by
  induction passes generalizing seg with
  | zero => rfl
  | succ passes ih =>
    have hacc := accepts_prescalerAt clock rate seg
    unfold prescalerAt at hacc
    simp only [searchTimings, searchPath, List.find?_cons, hacc]
    cases fits clock rate seg with
    | true => rfl
    | false =>
      simp only [Bool.false_eq_true, if_false, ih]
      split <;> rfl

/-- The timing stored for an accepted pair of segments (40_bit_timing.md R115). -/
def timingAt (clock rate : Nat) (seg : Nat × Nat) : TimingParams :=
  storedTiming (prescalerAt clock rate seg) seg.1 seg.2

/-- `calc_timings` in the terms of R117. -/
theorem calcTimings_eq_find? (clock rate : Nat) : calcTimings clock rate =
    if rate < 20000 ∨ 1000000 < rate then none
    else (trajectory.find? (fits clock rate)).map (timingAt clock rate) := by
  have hsearch := searchTimings_eq_find? clock rate Config.searchPasses (Config.bs1Init, Config.bs2Init)
  rw [searchPath_init] at hsearch
  unfold calcTimings physicalTimings
  by_cases hr : rate < 20000 ∨ 1000000 < rate
  · rw [if_pos hr, if_pos hr]
  · rw [if_neg hr, if_neg hr, hsearch]
    cases trajectory.find? (fits clock rate) <;> rfl

/-! ### The result of `BT.CALC` (40_bit_timing.md R110, R117) -/

theorem timingResult_calcTimings (clock rate : Nat) :
    timingResult (calcTimings clock rate) = .done (timingAnswer clock rate) := by
  rw [calcTimings_eq_find?]
  unfold timingAnswer
  split
  · rfl
  · cases trajectory.find? (fits clock rate) <;> rfl

/-- Settles O20: the search returns the first pair of the trajectory that fits, and the command only reads the clock. -/
theorem btCalcResult : Obligations.BtCalcResult := by
  intro s h
  refine hostCommand_returns (t := { s with res := none }) h rfl rfl h.idle ⟨.busy .btCalc (.timings s.args.rate), ?_⟩
  rw [btCalc, ask_run, timingResult_calcTimings]
  rfl

/-! ### Ranges and exactness of an accepted timing (40_bit_timing.md R115, R116) -/

/-- An accepted timing is the one stored for a pair of the trajectory that fits. -/
theorem calcTimings_some {clock rate : Nat} {t : TimingParams} (h : calcTimings clock rate = some t) :
    ∃ seg ∈ trajectory, fits clock rate seg = true ∧ timingAt clock rate seg = t := by
  rw [calcTimings_eq_find?] at h
  split at h
  · cases h
  · obtain ⟨seg, hfind, ht⟩ := Option.map_eq_some_iff.mp h
    exact ⟨seg, List.mem_of_find?_eq_some hfind, List.find?_some hfind, ht⟩

theorem trajectory_range : ∀ seg ∈ trajectory, 1 ≤ seg.1 ∧ seg.1 ≤ 10 ∧ 1 ≤ seg.2 ∧ seg.2 ≤ 5 := by decide

/-- A stored field is one less than the physical value `n`, which it holds up to `2 ^ w`. -/
theorem stored_add_one {w n : Nat} (h1 : 1 ≤ n) (h2 : n ≤ 2 ^ w) : (BitVec.ofNat w (n - 1)).toNat + 1 = n := by
  rw [BitVec.toNat_ofNat, Nat.mod_eq_of_lt (by omega), Nat.sub_add_cancel h1]

/-- The physical values are read back from the stored ones (30_encoding.md R93). -/
theorem storedTiming_physical {p bs1 bs2 : Nat} (hp : 1 ≤ p ∧ p ≤ 1024) (h1 : 1 ≤ bs1 ∧ bs1 ≤ 10)
    (h2 : 1 ≤ bs2 ∧ bs2 ≤ 5) :
    (storedTiming p bs1 bs2).presc.toNat + 1 = p ∧ (storedTiming p bs1 bs2).bs1.toNat + 1 = bs1 ∧
      (storedTiming p bs1 bs2).bs2.toNat + 1 = bs2 :=
  ⟨stored_add_one hp.1 hp.2, stored_add_one h1.1 (by omega), stored_add_one h2.1 (by omega)⟩

/-- R116's reason: `(clock / (rate + 1), clock / rate]` holds at most one integer below the bound. -/
theorem eq_div_of_div_eq {clock rate n : Nat} (hn : n ≤ clock / rate) (hpos : 0 < n) (hdiv : clock / n = rate)
    (hb : clock < rate * (rate + 1)) : n = clock / rate := by
  have hrate : 0 < rate := Nat.pos_of_mul_pos_right (Nat.zero_lt_of_lt hb)
  have hlow : rate * n ≤ clock := hdiv ▸ Nat.div_mul_le_self clock n
  have hupp : clock < (rate + 1) * n := (Nat.div_lt_iff_lt_mul hpos).mp (hdiv ▸ Nat.lt_succ_self _)
  by_contra hne
  have hnext : (n + 1) * rate ≤ clock := (Nat.le_div_iff_mul_le hrate).mp (Nat.lt_of_le_of_ne hn hne)
  have hlt : rate + 1 ≤ n := by
    rw [Nat.add_mul, Nat.one_mul] at hnext hupp
    rw [Nat.mul_comm n] at hnext
    omega
  exact Nat.not_le_of_lt hb (Nat.le_trans (Nat.mul_le_mul_left rate hlt) hlow)

/-- Settles O21: the pair is one of the trajectory's, and its prescaler times its sum is at most `PCLK / rate`. -/
theorem timingExactAndInRange : Obligations.TimingExactAndInRange := by
  intro clock rate t h
  obtain ⟨seg, hmem, hfit, rfl⟩ := calcTimings_some h
  obtain ⟨h1, h1', h2, h2'⟩ := trajectory_range seg hmem
  obtain ⟨hp, hp', hdiv⟩ := of_decide_eq_true hfit
  obtain ⟨hpresc, hbs1, hbs2⟩ := storedTiming_physical ⟨hp, hp'⟩ ⟨h1, h1'⟩ ⟨h2, h2'⟩
  rw [timingAt, hpresc, hbs1, hbs2]
  exact ⟨h1', h2', hp', rfl, eq_div_of_div_eq (Nat.div_mul_le_self _ _) (Nat.mul_pos hp (by omega)) hdiv⟩

end Sys2Proof.Machine
end

section
/-! The family 41_ring_buffer.md: what the primitives do to the content of a buffer, and the commands of the host that read
or change soft state inside the critical section. -/

namespace Sys2Proof.Machine

/-! ### The content of a buffer (41_ring_buffer.md R130) -/

@[simp] theorem length_content (n : Nat) (b : RingBuf) : (b.content n).length = b.len := by simp [RingBuf.content]

theorem content_of_empty {n : Nat} {b : RingBuf} (h : b.len = 0) : b.content n = [] :=
  List.eq_nil_of_length_eq_zero ((length_content n b).trans h)

/-- Where there is room, the slot behind the newest entry is none of the content's. -/
theorem content_append {n : Nat} {b : RingBuf} (hb : b.Wf n) (hlen : b.len < n) (e : RxEntry) :
    (b.append n e).content n = b.content n ++ [e] := by
  have hslot : (b.rd + b.len) % n < b.slot.length := by
    rw [hb.slots]
    exact Nat.mod_lt _ (Nat.zero_lt_of_lt hlen)
  have hother : ∀ k < b.len, (b.rd + b.len) % n ≠ (b.rd + k) % n := by
    intro k hk heq
    have : b.len % n = k % n := Nat.ModEq.add_left_cancel' b.rd heq
    rw [Nat.mod_eq_of_lt hlen, Nat.mod_eq_of_lt (hk.trans hlen)] at this
    omega
  simp only [RingBuf.content, RingBuf.append, List.range_succ, List.map_append, List.map_cons, List.map_nil]
  congr 1
  · refine List.map_congr_left fun k hk => ?_
    simp only [List.getD_eq_getElem?_getD, List.getElem?_set_ne (hother k (List.mem_range.mp hk))]
  · rw [List.getD_eq_getElem?_getD, List.getElem?_set_self hslot, Option.getD_some]

/-- The entry at the read cursor is the oldest, and the next one is the oldest without it (41_ring_buffer.md R134). -/
theorem content_eq_front_cons {n : Nat} {b : RingBuf} (hb : b.Wf n) (hlen : b.len ≠ 0) :
    b.content n = b.front :: (b.drop n).content n := by
  obtain ⟨m, hm⟩ := Nat.exists_eq_succ_of_ne_zero hlen
  have hnext : ∀ k, (b.rd + (k + 1)) % n = ((b.rd + 1) % n + k) % n := by
    intro k
    rw [Nat.mod_add_mod, Nat.add_assoc, Nat.add_comm 1 k]
  simp only [RingBuf.content, RingBuf.drop, hm, List.range_succ_eq_map, List.map_cons, List.map_map, Nat.add_zero,
    Nat.mod_eq_of_lt hb.cursor]
  exact congrArg _ (List.map_congr_left fun k _ => congrArg (b.slot.getD · _) (hnext k))

/-! ### A push (41_ring_buffer.md R132) -/

section push

variable {n : Nat} {b : RingBuf} (hb : b.Wf n) (e : RxEntry)

theorem push_of_full (h : b.len = n) : b.push n e = ({ b.drop n with ovf := satInc32 b.ovf } : RingBuf).append n e :=
  if_pos h

theorem push_of_room (h : b.len ≠ n) : b.push n e = b.append n e := if_neg h

theorem ovf_push (n : Nat) (b : RingBuf) (e : RxEntry) :
    (b.push n e).ovf = if b.len = n then satInc32 b.ovf else b.ovf := by
  split
  · next h => rw [push_of_full e h]; rfl
  · next h => rw [push_of_room e h]; rfl

include hb

theorem content_push :
    (b.push n e).content n = (if b.len = n then (b.content n).tail else b.content n) ++ [e] := by
  have hcur := hb.cursor
  split
  · next h =>
    have hdrop : ({ b.drop n with ovf := satInc32 b.ovf } : RingBuf).Wf n :=
      ⟨hb.drop.slots, hb.drop.cursor, hb.drop.length⟩
    have hroom : (b.drop n).len < n := show b.len - 1 < n by omega
    rw [push_of_full e h, content_append hdrop hroom, content_eq_front_cons hb (by omega), List.tail_cons]
    rfl
  · next h => rw [push_of_room e h, content_append hb (Nat.lt_of_le_of_ne hb.length h)]

end push

/-- Settles O22: a push on a full buffer is a pop and an append, elsewhere an append alone. -/
theorem pushAppendsContent : Obligations.PushAppendsContent :=
  fun n b e hb => ⟨hb.push e, content_push hb e, ovf_push n b e⟩

/-- Settles O23: the content without its first entry is that of the dropped buffer. -/
theorem popTakesOldest : Obligations.PopTakesOldest :=
  fun _ _ hb hlen => ⟨content_eq_front_cons hb hlen, hb.drop, rfl⟩

/-! ### A run of pushes (41_ring_buffer.md R137) -/

section pushes

variable {n : Nat} {b : RingBuf} (hb : b.Wf n)

theorem toNat_satInc32 (x : Word) : (satInc32 x).toNat = min (x.toNat + 1) (2 ^ 32 - 1) := by
  unfold satInc32
  split
  · next h => rw [h]; rfl
  · bv_omega

include hb

/-- A push as the newest `n` of the entries (`Nat` subtraction: nothing is lost before the buffer is full). -/
theorem content_push_eq_drop (e : RxEntry) :
    (b.push n e).content n = (b.content n ++ [e]).drop (b.len + 1 - n) := by
  have hle := hb.length
  have hcur := hb.cursor
  rw [content_push hb]
  split
  · next h =>
    have hne : b.content n ≠ [] := List.ne_nil_of_length_pos (by rw [length_content]; omega)
    rw [h, Nat.add_sub_cancel_left, List.drop_one, List.tail_append_of_ne_nil hne]
  · next h => rw [Nat.sub_eq_zero_of_le (by omega), List.drop_zero]

theorem len_push (e : RxEntry) : (b.push n e).len = b.len + 1 - (b.len + 1 - n) := by
  rw [← length_content n, content_push_eq_drop hb]
  simp

theorem toNat_ovf_push (e : RxEntry) :
    (b.push n e).ovf.toNat = min (b.ovf.toNat + (b.len + 1 - n)) (2 ^ 32 - 1) := by
  have hle := hb.length
  have hovf := b.ovf.isLt
  rw [ovf_push]
  split
  · rw [toNat_satInc32]; omega
  · omega

/-- After a run of pushes the buffer holds the newest `n` of the old content and the pushed entries. -/
theorem content_pushes (es : List RxEntry) :
    (es.foldl (RingBuf.push n) b).content n = (b.content n ++ es).drop (b.len + es.length - n) := by
  induction es generalizing b with
  | nil => simp [Nat.sub_eq_zero_of_le hb.length]
  | cons e es ih =>
    have hlost : b.len + 1 - n ≤ (b.content n ++ [e]).length := by simp
    have hsum : b.len + 1 - n + ((b.push n e).len + es.length - n) = b.len + (e :: es).length - n := by
      rw [len_push hb, List.length_cons]
      omega
    rw [List.foldl_cons, ih (hb.push e), content_push_eq_drop hb, ← List.drop_append_of_le_length hlost,
      List.drop_drop, hsum, List.append_assoc, List.singleton_append]

/-- After a run of pushes the overflow count has grown, with saturation, by the number of entries dropped. -/
theorem toNat_ovf_pushes (es : List RxEntry) :
    (es.foldl (RingBuf.push n) b).ovf.toNat = min (b.ovf.toNat + (b.len + es.length - n)) (2 ^ 32 - 1) := by
  induction es generalizing b with
  | nil =>
    have hovf := b.ovf.isLt
    rw [List.foldl_nil, List.length_nil, Nat.add_zero, Nat.sub_eq_zero_of_le hb.length]
    omega
  | cons e es ih =>
    rw [List.foldl_cons, ih (hb.push e), toNat_ovf_push hb, len_push hb, List.length_cons]
    omega

end pushes

/-- Settles O24: of `n + k` entries pushed onto an empty buffer, the newest `n` stay and `k` are counted. -/
theorem overflowKeepsNewest : Obligations.OverflowKeepsNewest := by
  intro n k b es hb hlen hovf _ hk hes
  have hcontent : (es.foldl (RingBuf.push n) b).content n = es.drop k := by
    rw [content_pushes hb, content_of_empty hlen, hlen, hes, List.nil_append, Nat.zero_add, Nat.add_sub_cancel_left]
  refine ⟨?_, ?_, ?_⟩
  · rw [← length_content n, hcontent, List.length_drop, hes, Nat.add_sub_cancel]
  · rw [toNat_ovf_pushes hb, hlen, hovf, hes, BitVec.toNat_zero]
    omega
  · rw [hcontent, List.head?_drop]

/-! ### Commands that change a buffer (41_ring_buffer.md R131 to R134) -/

/-- Leaving a critical section in which nothing changed (20_memory.md R66). -/
theorem exitCs_inside {s : State} (hc : s.cs = false) (g : Fg) :
    exitCs { s with fg := g, cs := true } = .ok () { s with fg := g } := by rw [exitCs_held rfl, ← hc]

/-- Leaving a critical section in which an interface changed. -/
theorem exitCs_onIface {s : State} (hc : s.cs = false) (g : Fg) (i : Iface) (f : IfaceState → IfaceState) :
    exitCs (({ s with fg := g, cs := true } : State).onIface i f) = .ok () { s.onIface i f with fg := g } := by
  have hcomm : ({ s with fg := g, cs := true } : State).onIface i f = { s.onIface i f with fg := g, cs := true } := by
    cases i <;> rfl
  rw [hcomm, exitCs_inside ((onIface_cs s i f).trans hc)]

section commands

variable {s : State} {op : Instr} {i : Iface} (hq : s.quiet) (hc : s.cs = false)
include hq hc

theorem pushEntry_quiet (e : RxEntry) :
    pushEntry op i e s = .ok (status .ok)
      { s.onIface i fun x => { x with rb := x.rb.push s.cfg.rxCapacity e } with fg := .busy op (.push i e) } := by
  have hpush := rbPush_guarded (s := { s with fg := .busy op (.push i e), cs := true }) (.inr rfl) i e
  simp only [pushEntry, bind_run, enterCsAt_quiet hq hc, hpush, exitCs_onIface hc, pure_run]

theorem popEntry_nonempty (hn : (s.iface i).rb.len ≠ 0) :
    popEntry op i s = .ok (.done ⟨.ok, .entry (s.iface i).rb.front.frame (s.iface i).rb.front.tsUtc
        (s.iface i).rb.front.flags⟩)
      { s.onIface i fun x => { x with rb := x.rb.drop s.cfg.rxCapacity } with fg := .busy op (.pop i) } := by
  have hface := iface_setFgCs s (.busy op (.pop i)) true i
  have hpop := rbPop_nonempty (s := { s with fg := .busy op (.pop i), cs := true }) (.inr rfl) i (by rwa [hface])
  simp only [popEntry, bind_run, enterCsAt_quiet hq hc, ask_run, hface, hn, if_false, hpop, exitCs_onIface hc, pure_run]

theorem popEntry_empty (hn : (s.iface i).rb.len = 0) :
    popEntry op i s = .error .popEmpty { s with fg := .busy op (.popEmpty i) } := by
  have hpoint := stepAt_quiet (s := { s with fg := .busy op (.pop i) }) hq op (.popEmpty i)
  simp only [popEntry, bind_run, enterCsAt_quiet hq hc, ask_run, iface_setFgCs, hn, if_true, exitCs_inside hc, popEmpty,
    hpoint, raise_run]

/-- A query of interface i's soft state: its value, and no change. -/
theorem csAskIface_quiet {α : Type} (ph : Phase) (f : IfaceState → α) :
    csAsk (stepAt op ph) (fun s => f (s.iface i)) s = .ok (f (s.iface i)) { s with fg := .busy op ph } := by
  rw [csAsk_quiet hq hc, iface_setFgCs, ← hc]

end commands

/-- A command of the host that changes an interface and returns. -/
theorem hostCommand_onIface {x : Instr} {ph : Phase} {body : Op Ret} {r : Result} {s : State} {i : Iface}
    {f : IfaceState → IfaceState} (h : s.HostTurn) (hc : x.cls = .host) (hw : x.wellFormed s.cfg.numIfaces = true)
    (hb : ∃ g, body (s.started x ph) = .ok (.done r) { (s.started x ph).onIface i f with fg := g }) :
    hostCommand x ph body s = .next { s.onIface i f with res := some r } := by
  refine hostCommand_returns (t := { s.onIface i f with res := none }) h hc hw ((onIface_fg s i f).trans h.idle) ?_
  obtain ⟨g, hb⟩ := hb
  exact ⟨g, hb.trans (by cases i <;> rfl)⟩

/-- Settles O25: the push runs inside the critical section. -/
theorem rbPushResult : Obligations.RbPushResult := by
  intro s i h hq hi
  simp only [exec, execRbPush, ifaceOf_bits]
  exact hostCommand_onIface h rfl (ifaceInRange_bits hi) ⟨_, pushEntry_quiet (s := s.started _ _) hq h.noCs _⟩

/-- Settles O26: the length, read inside the critical section, decides between the pop and the raise outside it. -/
theorem rbPopResult : Obligations.RbPopResult := by
  intro s i h hq hi
  have hw : (Instr.rbPop i.bits).wellFormed s.cfg.numIfaces = true := ifaceInRange_bits hi
  have hface := started_iface s (.rbPop i.bits) (.pop i) i
  simp only [exec, execRbPop, ifaceOf_bits]
  refine ⟨fun hn => ?_, fun hn => ?_⟩
  · rw [← hface] at hn ⊢
    exact hostCommand_onIface h rfl hw ⟨_, popEntry_nonempty (s := s.started _ _) hq h.noCs hn⟩
  · exact hostCommand_raises (t := { s with res := none }) h rfl hw h.healthy
      ⟨_, popEntry_empty (s := s.started _ _) hq h.noCs (hface ▸ hn)⟩

/-! ### Queries of soft state (41_ring_buffer.md R135, R136; 44_rx_path.md R233, R234; 45_status.md R240) -/

/-- A command of the host that answers a number read from an interface's soft state. -/
theorem query_result {α : Type} {x : Instr} {ph : Phase} {s : State} {i : Iface} (h : s.HostTurn) (hq : s.quiet)
    (hi : hasIface s.cfg i = true) (hc : x.cls = .host)
    (hw : x.wellFormed s.cfg.numIfaces = ifaceInRange s.cfg.numIfaces i.bits) (f : IfaceState → α) (v : α → Nat) :
    hostCommand x ph (csAsk (stepAt x ph) (fun s => f (s.iface i)) >>= fun a => pure (okVal (v a))) s =
      .next { s with res := some ⟨.ok, .val (v (f (s.iface i)))⟩ } := by
  refine hostCommand_returns (t := { s with res := none }) h hc (hw.trans (ifaceInRange_bits hi)) h.idle
    ⟨.busy x ph, ?_⟩
  rw [bind_run, csAskIface_quiet (s := s.started x ph) hq h.noCs, started_iface]
  rfl

theorem toNat_satAdd32 (a b : Word) : (satAdd32 a b).toNat = min (a.toNat + b.toNat) (2 ^ 32 - 1) := by
  rw [satAdd32, BitVec.toNat_ofNat, Nat.mod_eq_of_lt (by omega)]

theorem boolVal_beq_zero (n : Nat) : boolVal (n == 0) = if n = 0 then 1 else 0 := by simp [boolVal]

/-- Settles O27: each of the five is a query. -/
theorem queriesChangeNothing : Obligations.QueriesChangeNothing := by
  intro s i h hq hi x
  simp only [exec, execRbLen, execRbOvf, execIfRxlen, execIfRxempty, execIfErrcnt, rbLength, rbOverflow, rxLength, rxEmpty,
    errorCount, ifaceOf_bits, ← boolVal_beq_zero, ← toNat_satAdd32]
  exact ⟨query_result h hq hi rfl rfl (·.rb.len) id, query_result h hq hi rfl rfl (·.rb.ovf) BitVec.toNat,
    query_result h hq hi rfl rfl (·.rb.len) id, query_result h hq hi rfl rfl (·.rb.len) fun n => boolVal (n == 0),
    query_result h hq hi rfl rfl (fun x => satAdd32 x.errCnt x.rb.ovf) BitVec.toNat⟩

end Sys2Proof.Machine
end

section
/-! The family 42_bringup.md: register words of a bring-up, `IF.INIT` and `DRV.INIT` on a given schedule, and what holds of
them at every schedule. -/

namespace Sys2Proof.Machine

/-- Settles O30: the command returns before it reaches any step of another agent. -/
theorem cfgfiltUnsupported : Obligations.CfgfiltUnsupported := by
  intro s i h hi
  exact hostCommand_returns (t := { s with res := none }) h rfl (ifaceInRange_bits hi) h.idle
    ⟨.busy (.ifCfgfilt i.bits) .cfgfilt, rfl⟩

/-! ### Words written by a bring-up (42_bringup.md R154 to R158, R162) -/

/-- A word read back, changed inside the mask and written: the bits outside the mask are the ones that were there. -/
theorem merge_edit {mask a b : Word} (ha : ~~~a &&& ~~~mask = 0#32) (hb : b &&& ~~~mask = 0#32) (w : Word) :
    merge mask w ((w &&& a) ||| b) = (w &&& a) ||| b := by
  apply BitVec.eq_of_getLsbD_eq
  intro k hk
  have hak := congrArg (·.getLsbD k) ha
  have hbk := congrArg (·.getLsbD k) hb
  simp only [BitVec.getLsbD_and, BitVec.getLsbD_not, hk, decide_true, Bool.true_and, BitVec.getLsbD_zero] at hak hbk
  simp only [merge, BitVec.getLsbD_or, BitVec.getLsbD_and, BitVec.getLsbD_not, hk, decide_true, Bool.true_and]
  grind

/-- Writing back what was read in `MCR.RESET` leaves it. -/
theorem or_and_self (v m : Word) : v ||| (v &&& m) = v := by
  apply BitVec.eq_of_getLsbD_eq
  intro k _
  simp only [BitVec.getLsbD_or, BitVec.getLsbD_and]
  grind

/-- A write to `MCR` that keeps its reserved bits stores the word. -/
theorem writeReg_mcr {s : State} {i : Iface} {v : Word} (h : merge mcrRw (s.ctrl i).mcr v = v) :
    s.writeReg i .mcr v = s.onCtrl i fun c => { c with mcr := v } := by
  simp only [State.writeReg]
  exact onCtrl_congr (by simp only [h, or_and_self])

theorem writeReg_mcr_enter (s : State) (i : Iface) :
    s.writeReg i .mcr (((s.ctrl i).mcr &&& ~~~mcrSleep) ||| mcrInrq) =
      s.onCtrl i fun c => { c with mcr := (c.mcr &&& 0xFFFFFFFD#32) ||| 0x00000001#32 } :=
  (writeReg_mcr (merge_edit (by decide) (by decide) _)).trans (onCtrl_congr rfl)

theorem writeReg_mcr_exit (s : State) (i : Iface) :
    s.writeReg i .mcr ((s.ctrl i).mcr &&& ~~~mcrInrq) =
      s.onCtrl i fun c => { c with mcr := c.mcr &&& 0xFFFFFFFE#32 } := by
  have h := merge_edit (mask := mcrRw) (a := ~~~mcrInrq) (b := 0#32) (by decide) (by decide) (s.ctrl i).mcr
  rw [BitVec.or_zero] at h
  exact (writeReg_mcr h).trans (onCtrl_congr rfl)

/-- The bit-timing word has rw bits only (10_state.md R40; 30_encoding.md R94). -/
theorem btrOf_and_btrRw (t : TimingParams) : btrOf t &&& btrRw = btrOf t := by
  have hmask : btrRw = (0x30#6 ++ 0x3#2 ++ 0#1 ++ 0x7#3 ++ 0xF#4 ++ 0#6 ++ 0x3FF#10 : Word) := by decide
  have h2 (x : BitVec 2) : x &&& 0x3#2 = x := BitVec.and_allOnes
  have h3 (x : BitVec 3) : x &&& 0x7#3 = x := BitVec.and_allOnes
  have h4 (x : BitVec 4) : x &&& 0xF#4 = x := BitVec.and_allOnes
  have h10 (x : BitVec 10) : x &&& 0x3FF#10 = x := BitVec.and_allOnes
  rw [hmask]
  unfold btrOf
  rw [BitVec.and_append (w := 22) (v := 10), BitVec.and_append (w := 16) (v := 6), BitVec.and_append,
    BitVec.and_append, BitVec.and_append, BitVec.and_append, h2, h3, h4, h10]
  rfl

theorem writeReg_btr_config {s : State} {i : Iface} (h : (s.ctrl i).mode = .config) (t : TimingParams) :
    s.writeReg i .btr (btrOf t) = s.onCtrl i fun c => { c with btr := (c.btr &&& 0x3C80FC00#32) ||| btrOf t } := by
  rw [writeReg_btr, if_pos h, btrOf_and_btrRw]

theorem writeReg_ier_value (s : State) (i : Iface) :
    s.writeReg i .ier ierValue = s.onCtrl i fun c => { c with ier := (c.ier &&& 0xFFFC7080#32) ||| 0x00000013#32 } :=
  rfl

/-! ### Inside an operation -/

/-- A state inside an operation: the foreground agent at `g`, the moves `l` still to come. -/
def State.during (s : State) (g : Fg) (l : List Inner) : State := { s with fg := g, inner := l }

section during

variable (s : State) (g : Fg) (l : List Inner)

@[simp] theorem during_cfg : (s.during g l).cfg = s.cfg := rfl

@[simp] theorem during_iface (i : Iface) : (s.during g l).iface i = s.iface i := by cases i <;> rfl

@[simp] theorem during_ctrl (i : Iface) : (s.during g l).ctrl i = s.ctrl i := by cases i <;> rfl

@[simp] theorem during_readReg (i : Iface) (r : Reg) : (s.during g l).readReg i r = s.readReg i r := by
  cases i <;> cases r <;> rfl

theorem onIface_during (i : Iface) (f : IfaceState → IfaceState) :
    (s.during g l).onIface i f = (s.onIface i f).during g l := by cases i <;> rfl

theorem onCtrl_during (i : Iface) (f : Ctrl → Ctrl) : (s.during g l).onCtrl i f = (s.onCtrl i f).during g l :=
  onIface_during s g l i _

theorem writeReg_during (i : Iface) (r : Reg) (v : Word) :
    (s.during g l).writeReg i r v = (s.writeReg i r v).during g l := by
  cases r with
  | fr1 b | fr2 b => simp only [State.writeReg]; split <;> simp_all [State.during]
  | _ => cases i <;> rfl

theorem State.Reaches.during {s : State} {i : Iface} (h : s.Reaches i) (g : Fg) (l : List Inner) :
    (s.during g l).Reaches i := h.of_eq rfl (by rw [during_iface])

end during

/-- The next `n` moves are the operation's own steps. Past the end of the list nobody else moves (log 1). -/
def OwnMoves (n : Nat) (l : List Inner) : Prop := ∀ m ∈ l.take n, m = .go

theorem ownMoves_nil (n : Nat) : OwnMoves n [] := by simp [OwnMoves]

theorem ownMoves_append {n : Nat} (l : List Inner) : OwnMoves n (List.replicate n .go ++ l) := by
  intro m hm
  rw [List.take_append_of_le_length (by simp), List.take_of_length_le (by simp)] at hm
  exact List.eq_of_mem_replicate hm

theorem OwnMoves.next {l : List Inner} {n : Nat} (h : OwnMoves (n + 1) l) : OwnMoves n (l.drop 1) := by
  cases l with
  | nil => exact ownMoves_nil n
  | cons m l => exact fun m' hm => h m' (List.mem_cons_of_mem m hm)

section own

variable {s : State} {g : Fg} {l : List Inner} {n : Nat} (op : Instr)

theorem stepAt_own (h : OwnMoves (n + 1) l) (ph : Phase) :
    stepAt op ph (s.during g l) = .ok () (s.during (.busy op ph) (l.drop 1)) := by
  cases l with
  | nil => exact stepAt_quiet (s := s.during g []) rfl op ph
  | cons m l =>
    obtain rfl : m = .go := h m List.mem_cons_self
    exact stepAt_go (s := s.during g (.go :: l)) rfl op ph

theorem fgRead_own {i : Iface} {r : Reg} (h : OwnMoves (n + 1) l) (hs : s.Reaches i) (hr : hasReg i r) (ph : Phase) :
    fgRead (stepAt op ph) i r (s.during g l) = .ok (s.readReg i r) (s.during (.busy op ph) (l.drop 1)) := by
  rw [fgRead_point (stepAt_own op h ph) (hs.during _ _) hr, during_readReg]

theorem fgWrite_own {i : Iface} {r : Reg} (h : OwnMoves (n + 1) l) (hs : s.Reaches i) (hr : hasReg i r) (v : Word)
    (ph : Phase) :
    fgWrite (stepAt op ph) i r v (s.during g l) = .ok () ((s.writeReg i r v).during (.busy op ph) (l.drop 1)) := by
  rw [fgWrite_point (stepAt_own op h ph) (hs.during _ _) hr, writeReg_during]

/-- A step of the controller, and then the foreground's own. -/
theorem stepAt_ctrlStep {i : Iface} {a : EnvAct} {f : Ctrl → Ctrl} (ha : ∀ s, envAct a s = s.ctrlStep i f)
    (hs : s.Reaches i) (ph : Phase) :
    stepAt op ph (s.during g (.env a :: .go :: l)) = .ok () ((s.onCtrl i f).during (.busy op ph) l) := by
  have hrun : ctrlRuns (s.during (.busy op ph) (.go :: l)) i = true := by
    simp [ctrlRuns, hs.present, hs.clocked]
  have hstep : envAct a (s.during (.busy op ph) (.go :: l)) = (s.onCtrl i f).during (.busy op ph) (.go :: l) := by
    rw [ha, State.ctrlStep, if_pos hrun, onCtrl_during]
  rw [stepAt_env_go (s := s.during g (.env a :: .go :: l)) rfl]
  exact congrArg (fun t : State => EStateM.Result.ok () { t with inner := l }) hstep

end own

/-! ### Waiting for a mode (42_bringup.md R152) -/

section polls

variable {s : State} {i : Iface} {want : Bool}

theorem readReg_msr_inak (s : State) (i : Iface) :
    (s.readReg i .msr).getLsbD 0 = ((s.ctrl i).mode == .config) := msrWord_inak _

/-- The wait ends at the first poll where the mode is there at that poll. -/
theorem pollInak_found {wait delay : Nat → Op Unit} {n : Nat} {t : State} (hw : wait n s = .ok () t)
    (ht : t.Reaches i) (hm : ((t.ctrl i).mode == .config) = want) :
    pollInak wait delay i want (n + 1) s = .ok true t := by
  have hread := fgRead_point (r := .msr) hw ht fun _ => rfl
  simp only [pollInak, bind_run, hread, readReg_msr_inak, hm, if_true, pure_run]

/-- Where nobody else moves the mode stays, and every poll is made in vain. -/
theorem pollInak_silent (op : Instr) (wait delay : Nat → Phase) (hs : s.Reaches i)
    (hm : ((s.ctrl i).mode == .config) ≠ want) (n : Nat) (g : Fg) :
    ∃ g', pollInak (fun n => stepAt op (wait n)) (fun n => stepAt op (delay n)) i want n (s.during g []) =
      .ok false (s.during g' []) := by
  induction n generalizing g with
  | zero => exact ⟨g, rfl⟩
  | succ n ih =>
    have hread := fgRead_own (g := g) op (ownMoves_nil 1) hs (r := .msr) (fun _ => rfl) (wait n)
    have hdelay := stepAt_own (s := s) (g := .busy op (wait n)) op (ownMoves_nil 1) (delay n)
    obtain ⟨g', hrest⟩ := ih (.busy op (delay n))
    refine ⟨g', ?_⟩
    simp only [pollInak, bind_run, hread, readReg_msr_inak, hm, if_false, List.drop_nil, hdelay, hrest]

end polls

/-! ### `IF.INIT` on a given schedule (42_bringup.md R154 to R162) -/

theorem onCtrl_onCtrl (s : State) (i : Iface) (f h : Ctrl → Ctrl) :
    (s.onCtrl i f).onCtrl i h = s.onCtrl i fun c => h (f c) := by cases i <;> rfl

theorem State.Reaches.onCtrl {s : State} {i : Iface} (h : s.Reaches i) (j : Iface) (f : Ctrl → Ctrl) :
    (s.onCtrl j f).Reaches i := h.onIface j fun _ => rfl

/-- A controller asked for configuration mode (42_bringup.md R154). -/
def Ctrl.entering (c : Ctrl) : Ctrl := { c with mcr := (c.mcr &&& 0xFFFFFFFD#32) ||| 0x00000001#32 }

/-- A controller programmed, and asked to leave configuration mode (42_bringup.md R156 to R158). -/
def Ctrl.configured (c : Ctrl) (t : TimingParams) : Ctrl :=
  { c with
    mcr := c.mcr &&& 0xFFFFFFFE#32
    btr := (c.btr &&& 0x3C80FC00#32) ||| btrOf t
    ier := (c.ier &&& 0xFFFC7080#32) ||| 0x00000013#32 }

/-- Both mode requests and the programming leave a controller brought up, but for the mode. -/
theorem entering_configured (c : Ctrl) (t : TimingParams) (m : Mode) :
    ({ c.entering with mode := m } : Ctrl).configured t = { c.broughtUp t with mode := m } := by
  have hmcr : ((c.mcr &&& 0xFFFFFFFD#32) ||| 0x00000001#32) &&& 0xFFFFFFFE#32 = c.mcr &&& 0xFFFFFFFC#32 := by
    rw [BitVec.and_or_distrib_right, BitVec.and_assoc]
    exact BitVec.or_zero
  simp only [Ctrl.configured, Ctrl.broughtUp, Ctrl.entering, hmcr]

theorem entering_inrq (c : Ctrl) : c.entering.mcr.getLsbD 0 = true := by simp [Ctrl.entering]

theorem broughtUp_mcr_low (c : Ctrl) (t : TimingParams) :
    (c.broughtUp t).mcr.getLsbD 0 = false ∧ (c.broughtUp t).mcr.getLsbD 1 = false := by simp [Ctrl.broughtUp]

section bringup

variable {s : State} {i : Iface} (op : Instr) (w : InitPhase → Phase) (t : TimingParams) (hs : s.Reaches i)
include hs

theorem enterConfig_own {l : List Inner} (h : OwnMoves 2 l) (g : Fg) :
    ∃ g', enterConfig (initPoint op w) i t (s.during g l) =
      enterPoll (initPoint op w) i t Config.modeRetryLimit ((s.onCtrl i Ctrl.entering).during g' (l.drop 2)) := by
  have hread := fgRead_own (g := g) op h hs (r := .mcr) (fun _ => rfl) (w (.enterRead t))
  have hwrite := fgWrite_own (g := .busy op (w (.enterRead t))) op h.next hs (r := .mcr) (fun _ => rfl)
    (((s.ctrl i).mcr &&& ~~~mcrSleep) ||| mcrInrq) (w (.enterWrite t (s.ctrl i).mcr))
  rw [writeReg_mcr_enter, List.drop_drop] at hwrite
  exact ⟨_, by simp only [enterConfig, enterWrite, initPoint, bind_run, hread, State.readReg, hwrite]; rfl⟩

theorem enterPoll_found {n : Nat} (hm : (s.ctrl i).mcr.getLsbD 0 = true) (g : Fg) (l : List Inner) :
    ∃ g', enterPoll (initPoint op w) i t (n + 1) (s.during g (.env (.enterConfig i) :: .go :: l)) =
      programTiming (initPoint op w) i t ((s.onCtrl i fun c => { c with mode := .config }).during g' l) := by
  have hstep : s.onCtrl i Ctrl.enterConfig = s.onCtrl i fun c => { c with mode := .config } :=
    onCtrl_congr (by simp only [Ctrl.enterConfig, hm, if_true])
  have hpoint := stepAt_ctrlStep (g := g) (l := l) op (a := .enterConfig i) (fun _ => rfl) hs (w (.enterWait t n))
  rw [hstep] at hpoint
  have hpoll := pollInak_found (want := true) (wait := fun n => initPoint op w (.enterWait t n))
    (delay := fun n => initPoint op w (.enterDelay t n)) hpoint ((hs.onCtrl i _).during _ _) (by simp)
  exact ⟨.busy op (w (.enterWait t n)), by simp only [enterPoll, bind_run, hpoll, if_true]⟩

theorem enterPoll_silent (hm : (s.ctrl i).mode ≠ .config) (n : Nat) (g : Fg) :
    ∃ g', enterPoll (initPoint op w) i t n (s.during g []) = .ok .errModeEntryTimeout (s.during g' []) := by
  obtain ⟨g', hpoll⟩ := pollInak_silent (want := true) op (fun n => w (.enterWait t n)) (fun n => w (.enterDelay t n)) hs
    (by simpa using hm) n g
  refine ⟨g', ?_⟩
  simp only [enterPoll, initPoint, bind_run, hpoll, Bool.false_eq_true, if_false, pure_run]

theorem exitConfig_own {l : List Inner} (h : OwnMoves 2 l) (g : Fg) :
    ∃ g', exitConfig (initPoint op w) i (s.during g l) = exitPoll (initPoint op w) i Config.modeRetryLimit
      ((s.onCtrl i fun c => { c with mcr := c.mcr &&& 0xFFFFFFFE#32 }).during g' (l.drop 2)) := by
  have hread := fgRead_own (g := g) op h hs (r := .mcr) (fun _ => rfl) (w .exitRead)
  have hwrite := fgWrite_own (g := .busy op (w .exitRead)) op h.next hs (r := .mcr) (fun _ => rfl)
    ((s.ctrl i).mcr &&& ~~~mcrInrq) (w (.exitWrite (s.ctrl i).mcr))
  rw [writeReg_mcr_exit, List.drop_drop] at hwrite
  exact ⟨_, by simp only [exitConfig, exitWrite, initPoint, bind_run, hread, State.readReg, hwrite]; rfl⟩

theorem programIer_own {l : List Inner} (h : OwnMoves 3 l) (g : Fg) :
    ∃ g', programIer (initPoint op w) i (s.during g l) = exitPoll (initPoint op w) i Config.modeRetryLimit
      ((s.onCtrl i fun c => { c with
        mcr := c.mcr &&& 0xFFFFFFFE#32, ier := (c.ier &&& 0xFFFC7080#32) ||| 0x00000013#32 }).during g' (l.drop 3)) := by
  have hwrite := fgWrite_own (g := g) op h hs (r := .ier) (fun _ => rfl) ierValue (w .programIer)
  obtain ⟨g', hexit⟩ := exitConfig_own op w (hs.writeReg i .ier ierValue) h.next (.busy op (w .programIer))
  rw [writeReg_ier_value, onCtrl_onCtrl, List.drop_drop] at hexit
  exact ⟨g', by simp only [programIer, initPoint, bind_run, hwrite]; exact hexit⟩

theorem programTiming_own (hm : (s.ctrl i).mode = .config) {l : List Inner} (h : OwnMoves 4 l) (g : Fg) :
    ∃ g', programTiming (initPoint op w) i t (s.during g l) = exitPoll (initPoint op w) i Config.modeRetryLimit
      ((s.onCtrl i (·.configured t)).during g' (l.drop 4)) := by
  have hwrite := fgWrite_own (g := g) op h hs (r := .btr) (fun _ => rfl) (btrOf t) (w (.programBtr t))
  obtain ⟨g', hrest⟩ := programIer_own op w (hs.writeReg i .btr (btrOf t)) h.next (.busy op (w (.programBtr t)))
  have hcfg := congrArg (State.onCtrl · i fun c => { c with
    mcr := c.mcr &&& 0xFFFFFFFE#32, ier := (c.ier &&& 0xFFFC7080#32) ||| 0x00000013#32 }) (writeReg_btr_config hm t)
  rw [hcfg, onCtrl_onCtrl, List.drop_drop] at hrest
  exact ⟨g', by simp only [programTiming, initPoint, bind_run, hwrite]; exact hrest⟩

theorem exitPoll_found {n : Nat} (hm : (s.ctrl i).mcr.getLsbD 0 = false ∧ (s.ctrl i).mcr.getLsbD 1 = false) (g : Fg)
    (l : List Inner) :
    ∃ g', exitPoll (initPoint op w) i (n + 1) (s.during g (.env (.enterNormal i) :: .go :: l)) =
      filterPhase (initPoint op w) i ((s.onCtrl i fun c => { c with mode := .normal }).during g' l) := by
  have hstep : s.onCtrl i Ctrl.enterNormal = s.onCtrl i fun c => { c with mode := .normal } :=
    onCtrl_congr (by simp only [Ctrl.enterNormal, hm, Bool.not_false, Bool.and_self, if_true])
  have hpoint := stepAt_ctrlStep (g := g) (l := l) op (a := .enterNormal i) (fun _ => rfl) hs (w (.exitWait n))
  rw [hstep] at hpoint
  have hpoll := pollInak_found (want := false) (wait := fun n => initPoint op w (.exitWait n))
    (delay := fun n => initPoint op w (.exitDelay n)) hpoint ((hs.onCtrl i _).during _ _) (by simp)
  exact ⟨.busy op (w (.exitWait n)), by simp only [exitPoll, bind_run, hpoll, if_true]⟩

theorem exitPoll_silent (hm : (s.ctrl i).mode = .config) (n : Nat) (g : Fg) :
    ∃ g', exitPoll (initPoint op w) i n (s.during g []) = .ok .errModeExitTimeout (s.during g' []) := by
  obtain ⟨g', hpoll⟩ := pollInak_silent (want := false) op (fun n => w (.exitWait n)) (fun n => w (.exitDelay n)) hs
    (by simp [hm]) n g
  exact ⟨g', by simp only [exitPoll, initPoint, bind_run, hpoll, Bool.false_eq_true, if_false, pure_run]⟩

end bringup

/-- An unachievable rate reaches no access (42_bringup.md R151). -/
theorem ifInit_unachievable {s : State} {rate : Word} (h : calcTimings s.cfg.pclk rate.toNat = none) (op : Instr)
    (w : InitPhase → Phase) (i : Iface) (g : Fg) (l : List Inner) :
    ∃ g', ifInit (initPoint op w) i rate (s.during g l) = .ok .errUnachievableBitrate (s.during g' l) := by
  have hcalc : calcTimings (s.during g l).cfg.pclk rate.toNat = none := h
  exact ⟨.busy op (w (.timing rate)), by simp only [ifInit, initPoint, bind_run, mark_run, ask_run, hcalc, pure_run]; rfl⟩

section init

variable {s : State} {i : Iface} {t : TimingParams} {rate : Word} (op : Instr) (w : InitPhase → Phase)
  (hs : s.Reaches i) (ht : calcTimings s.cfg.pclk rate.toNat = some t)
include hs ht

/-- The bring-up up to its first wait. -/
theorem ifInit_own {l : List Inner} (h : OwnMoves 2 l) (g : Fg) :
    ∃ g', ifInit (initPoint op w) i rate (s.during g l) =
      enterPoll (initPoint op w) i t Config.modeRetryLimit ((s.onCtrl i Ctrl.entering).during g' (l.drop 2)) := by
  have hcalc : calcTimings (s.during g l).cfg.pclk rate.toNat = some t := ht
  obtain ⟨g', hrest⟩ := enterConfig_own op w t hs h (.busy op (w (.timing rate)))
  exact ⟨g', by simp only [ifInit, initPoint, bind_run, mark_run, ask_run, hcalc]; exact hrest⟩

/-- A controller that never acknowledges the request for configuration mode (42_bringup.md R155). -/
theorem ifInit_entry_timeout (hm : (s.ctrl i).mode ≠ .config) {l : List Inner} (h : OwnMoves 2 l) (hl : l.drop 2 = [])
    (g : Fg) :
    ∃ g', ifInit (initPoint op w) i rate (s.during g l) =
      .ok .errModeEntryTimeout ((s.onCtrl i Ctrl.entering).during g' []) := by
  obtain ⟨g₁, h₁⟩ := ifInit_own op w hs ht h g
  rw [hl] at h₁
  obtain ⟨g₂, h₂⟩ := enterPoll_silent op w t (hs.onCtrl i Ctrl.entering) (by rw [ctrl_onCtrl_same]; exact hm)
    Config.modeRetryLimit g₁
  exact ⟨g₂, h₁.trans h₂⟩

/-- A controller that acknowledges the request for configuration mode before the first poll: the bring-up up to its second
wait. -/
theorem ifInit_entered {l : List Inner} (h : OwnMoves 4 l) (g : Fg) :
    ∃ g', ifInit (initPoint op w) i rate (s.during g (.go :: .go :: .env (.enterConfig i) :: .go :: l)) =
      exitPoll (initPoint op w) i Config.modeRetryLimit
        ((s.onCtrl i fun c => { c.broughtUp t with mode := .config }).during g' (l.drop 4)) := by
  obtain ⟨g₁, h₁⟩ := ifInit_own op w hs ht (l := .go :: .go :: .env (.enterConfig i) :: .go :: l) (by simp [OwnMoves]) g
  obtain ⟨g₂, h₂⟩ := enterPoll_found op w t (n := 499) (hs.onCtrl i Ctrl.entering)
    (by rw [ctrl_onCtrl_same]; exact entering_inrq _) g₁ l
  rw [onCtrl_onCtrl] at h₂
  obtain ⟨g₃, h₃⟩ := programTiming_own op w t (hs.onCtrl i fun c => { c.entering with mode := .config })
    (by rw [ctrl_onCtrl_same]) h g₂
  simp only [onCtrl_onCtrl, entering_configured] at h₃
  exact ⟨g₃, h₁.trans (h₂.trans h₃)⟩

/-- A controller that never acknowledges the exit from configuration mode (42_bringup.md R159). -/
theorem ifInit_exit_timeout (g : Fg) :
    ∃ g', ifInit (initPoint op w) i rate (s.during g [.go, .go, .env (.enterConfig i), .go]) =
      .ok .errModeExitTimeout ((s.onCtrl i fun c => { c.broughtUp t with mode := .config }).during g' []) := by
  obtain ⟨g₁, h₁⟩ := ifInit_entered op w hs ht (ownMoves_nil 4) g
  obtain ⟨g₂, h₂⟩ := exitPoll_silent op w (hs.onCtrl i fun c => { c.broughtUp t with mode := .config })
    (by rw [ctrl_onCtrl_same]) Config.modeRetryLimit g₁
  exact ⟨g₂, h₁.trans h₂⟩

/-- A controller that acknowledges both requests before the first poll: the bring-up up to its filter phase. -/
theorem ifInit_acknowledged (g : Fg) (l : List Inner) :
    ∃ g', ifInit (initPoint op w) i rate (s.during g (ackMoves i ++ l)) =
      filterPhase (initPoint op w) i ((s.onCtrl i (·.broughtUp t)).during g' l) := by
  obtain ⟨g₁, h₁⟩ := ifInit_entered op w hs ht (l := .go :: .go :: .go :: .go :: .env (.enterNormal i) :: .go :: l)
    (by simp [OwnMoves]) g
  obtain ⟨g₂, h₂⟩ := exitPoll_found op w (n := 499) (hs.onCtrl i fun c => { c.broughtUp t with mode := .config })
    (by rw [ctrl_onCtrl_same]; exact broughtUp_mcr_low _ t) g₁ l
  rw [onCtrl_onCtrl] at h₂
  exact ⟨g₂, h₁.trans h₂⟩

end init

/-! ### The filter phase (42_bringup.md R160 to R162) -/

/-- A run of register writes to interface 0's block. -/
def State.writeRegs (s : State) (ws : List (Reg × Word)) : State := ws.foldl (fun s x => s.writeReg .if0 x.1 x.2) s

theorem State.Reaches.writeRegs {s : State} {i : Iface} (h : s.Reaches i) (ws : List (Reg × Word)) :
    (s.writeRegs ws).Reaches i := by
  induction ws generalizing s with
  | nil => exact h
  | cons x ws ih => exact ih (h.writeReg .if0 x.1 x.2)

/-- The word of `FMR` in filter-initialization mode as an edit of the word read (42_bringup.md R162). -/
theorem fmrInit_eq_edit (p : Params) (f : Word) :
    fmrInit p f = (f &&& if p.twoIfaces then 0xFFFFC0FF#32 else 0xFFFFFFFF#32) |||
      if p.twoIfaces then 0x00000E01#32 else 0x00000001#32 := by
  cases h : p.twoIfaces with
  | false =>
    have hall : f &&& 0xFFFFFFFF#32 = f := BitVec.and_allOnes
    simp [fmrInit, h, hall]
  | true =>
    simp only [fmrInit, h, if_true, BitVec.and_or_distrib_right, BitVec.or_assoc]
    rfl

/-- A write of that word to `FMR` stores it. -/
theorem merge_fmrInit (p : Params) (f : Word) : merge fmrRw f (fmrInit p f) = fmrInit p f := by
  rw [fmrInit_eq_edit]
  cases p.twoIfaces <;> exact merge_edit (by decide) (by decide) f

theorem fmrInit_finit (p : Params) (f : Word) : (fmrInit p f).getLsbD 0 = true := by
  rw [fmrInit_eq_edit]
  cases p.twoIfaces <;> simp

/-- Leaving filter-initialization mode. -/
theorem fmrInit_left (p : Params) (f : Word) :
    fmrInit p f &&& ~~~fmrFinit =
      (if p.twoIfaces then (f &&& 0xFFFFC0FF#32) ||| 0x00000E00#32 else f) &&& 0xFFFFFFFE#32 := by
  have hone : (0x00000001#32 : Word) &&& 0xFFFFFFFE#32 = 0#32 := by decide
  have htwo : (0x00000E01#32 : Word) &&& 0xFFFFFFFE#32 = 0x00000E00#32 &&& 0xFFFFFFFE#32 := by decide
  have hall : f &&& 0xFFFFFFFF#32 = f := BitVec.and_allOnes
  change fmrInit p f &&& 0xFFFFFFFE#32 = _
  rw [fmrInit_eq_edit]
  cases p.twoIfaces with
  | false => simp only [Bool.false_eq_true, if_false, hall, BitVec.and_or_distrib_right, hone, BitVec.or_zero]
  | true => simp only [if_true, BitVec.and_or_distrib_right, htwo]

/-- A state with other filter registers. -/
def State.setFilt (s : State) (x : Filters) : State := { s with filt := x }

section setFilt

variable (s : State) (x : Filters) (v : Word)

theorem writeReg_fmr : (s.setFilt x).writeReg .if0 .fmr v = s.setFilt { x with fmr := merge fmrRw x.fmr v } := rfl

theorem writeReg_fa1r : (s.setFilt x).writeReg .if0 .fa1r v = s.setFilt { x with fa1r := merge bankBits x.fa1r v } := rfl

/-- In filter-initialization mode every bank is open (10_state.md R50). -/
theorem open_of_finit {x : Filters} (h : x.fmr.getLsbD 0 = true) : x.open' = bankBits := if_pos h

variable {x} (h : x.fmr.getLsbD 0 = true)
include h

theorem writeReg_fm1r : (s.setFilt x).writeReg .if0 .fm1r v = s.setFilt { x with fm1r := merge bankBits x.fm1r v } := by
  simp only [State.writeReg, State.setFilt, open_of_finit h]

theorem writeReg_fs1r : (s.setFilt x).writeReg .if0 .fs1r v = s.setFilt { x with fs1r := merge bankBits x.fs1r v } := by
  simp only [State.writeReg, State.setFilt, open_of_finit h]

theorem writeReg_ffa1r :
    (s.setFilt x).writeReg .if0 .ffa1r v = s.setFilt { x with ffa1r := merge bankBits x.ffa1r v } := by
  simp only [State.writeReg, State.setFilt, open_of_finit h]

theorem open_getLsbD (b : Fin 28) : x.open'.getLsbD b.val = true := by
  rw [open_of_finit h]
  clear h
  revert b
  decide

theorem writeReg_fr1 (b : Fin 28) :
    (s.setFilt x).writeReg .if0 (.fr1 b) v = s.setFilt { x with fr1 := x.fr1.set b.val v } := by
  simp only [State.writeReg]
  exact if_pos (open_getLsbD h b)

theorem writeReg_fr2 (b : Fin 28) :
    (s.setFilt x).writeReg .if0 (.fr2 b) v = s.setFilt { x with fr2 := x.fr2.set b.val v } := by
  simp only [State.writeReg]
  exact if_pos (open_getLsbD h b)

end setFilt

theorem writeRegs_cons (s : State) (x : Reg × Word) (ws : List (Reg × Word)) :
    s.writeRegs (x :: ws) = (s.writeReg .if0 x.1 x.2).writeRegs ws := rfl

theorem writeRegs_nil (s : State) : s.writeRegs [] = s := rfl

theorem writeRegs_append (s : State) (ws ws' : List (Reg × Word)) :
    s.writeRegs (ws ++ ws') = (s.writeRegs ws).writeRegs ws' := List.foldl_append

/-- Identifier 0 and mask 0 in every bank of a list. -/
def Filters.cleared (x : Filters) (bs : List (Fin 28)) : Filters :=
  { x with
    fr1 := bs.foldl (fun l b => l.set b.val 0#32) x.fr1
    fr2 := bs.foldl (fun l b => l.set b.val 0#32) x.fr2 }

theorem writeRegs_bankWrites (s : State) {x : Filters} (h : x.fmr.getLsbD 0 = true) (bs : List (Fin 28)) :
    (s.setFilt x).writeRegs (bankWrites bs) = s.setFilt (x.cleared bs) := by
  induction bs generalizing x with
  | nil => rfl
  | cons b bs ih =>
    have hcons : bankWrites (b :: bs) = (.fr1 b, 0#32) :: (.fr2 b, 0#32) :: bankWrites bs := rfl
    simp only [hcons, writeRegs_cons, writeReg_fr1, writeReg_fr2, h]
    exact ih h

theorem bankMask_filterBanks (p : Params) : bankMask (filterBanks p) = acceptBanks p := by
  unfold filterBanks acceptBanks
  cases p.twoIfaces <;> decide

theorem merge_bankBits_zero (w : Word) : merge bankBits w 0#32 = w &&& 0xF0000000#32 := by
  rw [merge, BitVec.zero_and, BitVec.or_zero]
  rfl

theorem merge_bankBits_banks (p : Params) (w : Word) :
    merge bankBits w (acceptBanks p) = (w &&& 0xF0000000#32) ||| acceptBanks p := by
  have hbanks : acceptBanks p &&& bankBits = acceptBanks p := by
    unfold acceptBanks
    cases p.twoIfaces <;> decide
  rw [merge, hbanks]
  rfl

/-- The writes of `program_filters` set the banks of the build to accept all (42_bringup.md R162). -/
theorem writeRegs_filterWrites (s : State) (x : Filters) (p : Params) :
    (s.setFilt x).writeRegs (filterWrites p (fmrInit p x.fmr)) = s.setFilt (x.acceptAll p) := by
  have hinit := fmrInit_finit p x.fmr
  have hclose := merge_edit (mask := fmrRw) (a := ~~~fmrFinit) (b := 0#32) (by decide) (by decide) (fmrInit p x.fmr)
  rw [BitVec.or_zero, fmrInit_left] at hclose
  have htwice (w : Word) : w &&& 0xF0000000#32 &&& 0xF0000000#32 = w &&& 0xF0000000#32 := by
    rw [BitVec.and_assoc, BitVec.and_self]
  have hfr (l : List Word) : (filterBanks p).foldl (fun l b => l.set b.val 0#32) l =
      if p.twoIfaces then (l.set 0 0#32).set 14 0#32 else l.set 0 0#32 := by
    unfold filterBanks
    cases p.twoIfaces <;> rfl
  simp only [filterWrites, bankMask_filterBanks, writeRegs_append, writeRegs_cons, writeRegs_nil, writeReg_fmr,
    writeReg_fa1r, merge_fmrInit, writeReg_fm1r, writeReg_ffa1r, writeReg_fs1r, hinit, writeRegs_bankWrites,
    Filters.cleared, hfr, fmrInit_left, hclose, merge_bankBits_zero, merge_bankBits_banks, htwice]
  rfl

/-- The accesses of interface 0's filter phase: a read of `FMR` and the writes (42_bringup.md R162). -/
def filterAccesses (p : Params) : Nat := if p.twoIfaces then 12 else 10

theorem length_filterWrites (p : Params) (f : Word) : (filterWrites p f).length + 1 = filterAccesses p := by
  unfold filterWrites filterBanks filterAccesses
  cases p.twoIfaces <;> rfl

section filters

variable {s : State} (op : Instr) (w : InitPhase → Phase) (hs : s.Reaches .if0)
include hs

theorem writeFilters_own (f : Word) (ws : List (Reg × Word)) {l : List Inner} (h : OwnMoves ws.length l) (g : Fg) :
    ∃ g', writeFilters (initPoint op w) f ws (s.during g l) =
      .ok () ((s.writeRegs ws).during g' (l.drop ws.length)) := by
  induction ws generalizing s g l with
  | nil => exact ⟨g, rfl⟩
  | cons x ws ih =>
    have hwrite := fgWrite_own (g := g) op h hs (r := x.1) (fun h => nomatch h) x.2 (w (.filterWrite f (x :: ws)))
    obtain ⟨g', hrest⟩ := ih (hs.writeReg .if0 x.1 x.2) h.next (.busy op (w (.filterWrite f (x :: ws))))
    rw [List.drop_drop, Nat.add_comm] at hrest
    exact ⟨g', by simp only [writeFilters, initPoint, bind_run, hwrite]; exact hrest⟩

theorem filterPhase_own {l : List Inner} (h : OwnMoves (filterAccesses s.cfg) l) (g : Fg) :
    ∃ g', filterPhase (initPoint op w) .if0 (s.during g l) =
      .ok .ok ((s.setFilt (s.filt.acceptAll s.cfg)).during g' (l.drop (filterAccesses s.cfg))) := by
  rw [← length_filterWrites s.cfg (fmrInit s.cfg s.filt.fmr)] at h ⊢
  have hread := fgRead_own (g := g) op h hs (r := .fmr) (fun h => nomatch h) (w .filterRead)
  obtain ⟨g', hwrites⟩ := writeFilters_own op w hs (fmrInit s.cfg s.filt.fmr)
    (filterWrites s.cfg (fmrInit s.cfg s.filt.fmr)) h.next (.busy op (w .filterRead))
  have hprogram : s.writeRegs (filterWrites s.cfg (fmrInit s.cfg s.filt.fmr)) = s.setFilt (s.filt.acceptAll s.cfg) :=
    writeRegs_filterWrites s s.filt s.cfg
  rw [hprogram, List.drop_drop, Nat.add_comm] at hwrites
  exact ⟨g', by simp only [filterPhase, programFilters, initPoint, bind_run, hread, ask_run, during_cfg, State.readReg,
    hwrites, pure_run]⟩

end filters

/-- Interface i brought up with the timing `t`, and the filters by interface 0 (42_bringup.md R154 to R162). -/
def State.up (s : State) (i : Iface) (t : TimingParams) : State :=
  (s.onCtrl i (·.broughtUp t)).setFilt (if i = .if0 then s.filt.acceptAll s.cfg else s.filt)

theorem State.Reaches.up {s : State} {i : Iface} (h : s.Reaches i) (j : Iface) (t : TimingParams) :
    (s.up j t).Reaches i :=
  (h.onCtrl j (·.broughtUp t)).of_eq rfl (by cases i <;> rfl)

section up

variable {s : State} {t : TimingParams} {rate : Word} (op : Instr) (w : InitPhase → Phase)

/-- Interface 0 acknowledges both requests, and its filter phase is not interleaved. -/
theorem ifInit_if0_up (hs : s.Reaches .if0) (ht : calcTimings s.cfg.pclk rate.toNat = some t) {l : List Inner}
    (h : OwnMoves (filterAccesses s.cfg) l) (g : Fg) :
    ∃ g', ifInit (initPoint op w) .if0 rate (s.during g (ackMoves .if0 ++ l)) =
      .ok .ok ((s.up .if0 t).during g' (l.drop (filterAccesses s.cfg))) := by
  obtain ⟨g₁, h₁⟩ := ifInit_acknowledged op w hs ht g l
  obtain ⟨g₂, h₂⟩ := filterPhase_own op w (hs.onCtrl .if0 (·.broughtUp t)) h g₁
  exact ⟨g₂, h₁.trans h₂⟩

/-- The controller acknowledges both requests, and nobody else moves after that. -/
theorem ifInit_up {i : Iface} (hs : s.Reaches i) (ht : calcTimings s.cfg.pclk rate.toNat = some t) (g : Fg) :
    ∃ g', ifInit (initPoint op w) i rate (s.during g (ackMoves i)) = .ok .ok ((s.up i t).during g' []) := by
  rw [← List.append_nil (ackMoves i)]
  cases i with
  | if0 =>
    obtain ⟨g', h⟩ := ifInit_if0_up op w hs ht (ownMoves_nil _) g
    exact ⟨g', by rw [h, List.drop_nil]⟩
  | if1 => exact ifInit_acknowledged op w hs ht g []

end up

/-! ### The commands of one interface -/

/-- The state in which a command of the host starts: no result has been returned. -/
def State.unanswered (s : State) : State := { s with res := none }

theorem State.Reaches.unanswered {s : State} {i : Iface} (h : s.Reaches i) : s.unanswered.Reaches i :=
  h.of_eq rfl (by cases i <;> rfl)

/-- A command of the host that answers a result code. -/
theorem hostCommand_answers {x : Instr} {ph : Phase} {body : Op ResultCode} {r : ResultCode} {l : List Inner}
    {s t : State} (h : s.HostTurn) (hc : x.cls = .host) (hw : x.wellFormed s.cfg.numIfaces = true) (hf : t.fg = .idle)
    (hb : ∃ g, body (s.unanswered.during (.busy x ph) s.inner) = .ok r (t.during g l)) :
    hostCommand x ph (answer body) s = .next { t with inner := l, res := some ⟨r, .none⟩ } := by
  obtain ⟨g, hb⟩ := hb
  refine hostCommand_returns (t := { t with inner := l }) h hc hw hf ⟨g, ?_⟩
  have hstart : s.started x ph = s.unanswered.during (.busy x ph) s.inner := rfl
  simp only [answer, bind_run, hstart, hb, pure_run]
  rfl

theorem exec_ifInit {s t : State} {i : Iface} {r : ResultCode} {l : List Inner} (h : s.HostTurn)
    (hi : hasIface s.cfg i = true)
    (hb : ∀ op w g, ∃ g', ifInit (initPoint op w) i s.args.rate (s.unanswered.during g s.inner) =
      .ok r (t.during g' l)) (hf : t.fg = s.fg) :
    exec (.ifInit i.bits) s = .next { t with inner := l, res := some ⟨r, .none⟩ } := by
  have hw : (Instr.ifInit i.bits).wellFormed s.cfg.numIfaces = true := ifaceInRange_bits hi
  simp only [exec, execIfInit, ifaceOf_bits]
  exact hostCommand_answers h rfl hw (hf.trans h.idle) (hb ..)

/-- Settles O31: both requests are acknowledged, and the filter phase runs with no other agent. -/
theorem ifInitResult : Obligations.IfInitResult := by
  intro s i t h hr hl ht
  have hbody (op : Instr) (w : InitPhase → Phase) (g : Fg) := ifInit_up op w hr.unanswered ht g
  rw [exec_ifInit h hr.present (hl ▸ hbody) (by cases i <;> rfl)]
  cases i <;> rfl

/-- Settles O32: no access, no acknowledgement of the entry, and none of the exit. -/
theorem ifInitFailures : Obligations.IfInitFailures := by
  intro s i h hi
  refine ⟨fun hnone => ?_, fun t ht hr => ⟨fun hq hm => ?_, fun hl => ?_⟩⟩
  · exact exec_ifInit (t := s.unanswered) h hi
      (fun op w g => ifInit_unachievable (s := s.unanswered) hnone op w i g s.inner) rfl
  · have hquiet : s.inner = [] := hq
    have hmode : (s.unanswered.ctrl i).mode ≠ .config := by cases i <;> exact hm
    have hbody (op : Instr) (w : InitPhase → Phase) (g : Fg) :=
      ifInit_entry_timeout op w hr.unanswered ht hmode (ownMoves_nil 2) rfl g
    rw [exec_ifInit h hi (hquiet ▸ hbody) (by cases i <;> rfl)]
    cases i <;> rfl
  · have hbody (op : Instr) (w : InitPhase → Phase) (g : Fg) := ifInit_exit_timeout op w hr.unanswered ht g
    rw [exec_ifInit h hi (hl ▸ hbody) (by cases i <;> rfl)]
    cases i <;> rfl

/-! ### `DRV.INIT` on a given schedule (42_bringup.md R170 to R175) -/

/-- A change of every interface of the build. -/
def State.everyIface (s : State) (f : IfaceState → IfaceState) : State :=
  { s with if0 := f s.if0, if1 := if s.cfg.twoIfaces then f s.if1 else s.if1 }

theorem foldl_ifaces (s : State) (f : IfaceState → IfaceState) :
    (ifaces s.cfg).foldl (fun s i => s.onIface i f) s = s.everyIface f := by
  unfold ifaces State.everyIface
  cases s.cfg.twoIfaces <;> rfl

/-- An interface clocked, its controller reset (42_bringup.md R170 to R172). -/
def IfaceState.pulsed (x : IfaceState) : IfaceState := { x with clkEn := true, ctrl := Ctrl.reset }

/-- An interface with its clock disabled (42_bringup.md R174). -/
def IfaceState.unclocked (x : IfaceState) : IfaceState := { x with clkEn := false }

/-- An interface registered, its vectors enabled (42_bringup.md R175). -/
def IfaceState.wired (x : IfaceState) : IfaceState :=
  { x with registry := true, vecTx := true, vecRx0 := true, vecRx1 := true }

/-- The state after the phase CLOCKS (42_bringup.md R170 to R172). -/
def State.pulsed (s : State) : State := (s.everyIface IfaceState.pulsed).setFilt Filters.reset

theorem foldl_clockSteps (s : State) :
    (clockSteps (ifaces s.cfg)).foldl (fun s k => k.effect s) s = s.pulsed := by
  unfold ifaces State.pulsed State.everyIface
  cases s.cfg.twoIfaces <;> rfl

/-- An interface after `DRV.INIT` ended with the result `r`, its controller at `c` (42_bringup.md R174, R175). -/
def IfaceState.ended (x : IfaceState) (r : ResultCode) (c : Ctrl) : IfaceState :=
  if r = .ok then IfaceState.wired { x with ctrl := c, clkEn := true } else x.rolledBack c

/-- The state after the phase IFACES ended with the result `r`, and what follows it (42_bringup.md R174, R175). -/
def State.finished (s : State) (r : ResultCode) : State :=
  s.everyIface (if r = .ok then IfaceState.wired else IfaceState.unclocked)

/-- Where the phase IFACES changed the controller of interface 0 alone. -/
theorem finished_if0 (s : State) (r : ResultCode) (f : Ctrl → Ctrl) (fl : Filters) :
    ((s.pulsed.onCtrl .if0 f).setFilt fl).finished r =
      { s with
        if0 := s.if0.ended r (f Ctrl.reset)
        if1 := if s.cfg.twoIfaces then s.if1.ended r Ctrl.reset else s.if1
        filt := fl } := by
  cases h2 : s.cfg.twoIfaces <;> by_cases hr : r = .ok <;>
    simp [State.finished, State.everyIface, State.pulsed, State.setFilt, State.onCtrl, State.onIface, h2, hr,
      IfaceState.ended, IfaceState.wired, IfaceState.pulsed, IfaceState.unclocked, IfaceState.rolledBack]

/-- Where it changed both controllers of a build with two interfaces. -/
theorem finished_two (s : State) (h2 : s.cfg.twoIfaces = true) (r : ResultCode) (f h : Ctrl → Ctrl) (fl : Filters) :
    (((s.pulsed.onCtrl .if0 f).setFilt fl).onCtrl .if1 h).finished r =
      { s with if0 := s.if0.ended r (f Ctrl.reset), if1 := s.if1.ended r (h Ctrl.reset), filt := fl } := by
  by_cases hr : r = .ok <;>
    simp [State.finished, State.everyIface, State.pulsed, State.setFilt, State.onCtrl, State.onIface, h2, hr,
      IfaceState.ended, IfaceState.wired, IfaceState.pulsed, IfaceState.unclocked, IfaceState.rolledBack]

theorem State.Reaches.pulsed {s : State} {i : Iface} (hw : s.cfg.wf) (hi : hasIface s.cfg i = true) :
    s.pulsed.Reaches i where
  build := hw
  present := hi
  clocked := by
    cases i with
    | if0 => rfl
    | if1 =>
      have h2 := (hasIface_if1 s.cfg).symm.trans hi
      simp [State.pulsed, State.everyIface, State.setFilt, h2, IfaceState.pulsed]

section steps

variable {s : State} {op : Instr}

theorem fgUpd_own {l : List Inner} {n : Nat} (h : OwnMoves (n + 1) l) {f : State → State}
    (hf : ∀ g l, f (s.during g l) = (f s).during g l) (g : Fg) (ph : Phase) :
    fgUpd (stepAt op ph) f (s.during g l) = .ok () ((f s).during (.busy op ph) (l.drop 1)) := by
  simp only [fgUpd, bind_run, stepAt_own op h, upd_run, hf]

theorem startClocks_own (rate : Word) (ks : List ClockStep) {l : List Inner} (h : OwnMoves ks.length l) (g : Fg) :
    ∃ g', startClocks op rate ks (s.during g l) =
      .ok () ((ks.foldl (fun s k => k.effect s) s).during g' (l.drop ks.length)) := by
  induction ks generalizing s g l with
  | nil => exact ⟨g, rfl⟩
  | cons k ks ih =>
    have hk : ∀ g l, k.effect (s.during g l) = (k.effect s).during g l := by
      cases k with
      | enable i => exact fun g l => onIface_during s g l i fun x => { x with clkEn := true }
      | pulse i => cases i <;> exact fun _ _ => rfl
    have hstep := fgUpd_own (op := op) h hk g (.clocks rate (k :: ks))
    obtain ⟨g', hrest⟩ := ih (s := k.effect s) h.next (.busy op (.clocks rate (k :: ks)))
    rw [List.drop_drop, Nat.add_comm] at hrest
    exact ⟨g', by simp only [startClocks, bind_run, hstep]; exact hrest⟩

theorem stopClocks_quiet (r : ResultCode) (is : List Iface) (g : Fg) :
    ∃ g', stopClocks op r is (s.during g []) =
      .ok () ((is.foldl (fun s i => s.onIface i IfaceState.unclocked) s).during g' []) := by
  induction is generalizing s g with
  | nil => exact ⟨g, rfl⟩
  | cons i is ih =>
    have hstep := fgUpd_own (op := op) (ownMoves_nil 1) (f := fun s => s.onIface i fun x => { x with clkEn := false })
      (fun g l => onIface_during s g l i _) g (.rollback r (i :: is))
    obtain ⟨g', hrest⟩ := ih (s := s.onIface i IfaceState.unclocked) (.busy op (.rollback r (i :: is)))
    exact ⟨g', by simp only [stopClocks, bind_run, hstep, List.drop_nil]; exact hrest⟩

theorem registerSteps_quiet (i : Iface) (is : List Iface) (ks : List DispatchStep) (g : Fg) :
    ∃ g', registerSteps op i is ks (s.during g []) =
      .ok () ((ks.foldl (fun s k => k.effect i s) s).during g' []) := by
  induction ks generalizing s g with
  | nil => exact ⟨g, rfl⟩
  | cons k ks ih =>
    have hk : ∀ g l, k.effect i (s.during g l) = (k.effect i s).during g l := by
      cases i <;> rcases k with _ | (_ | _ | _) <;> exact fun _ _ => rfl
    have hstep := fgUpd_own (op := op) (ownMoves_nil 1) hk g (.dispatch i is (k :: ks))
    obtain ⟨g', hrest⟩ := ih (s := k.effect i s) (.busy op (.dispatch i is (k :: ks)))
    exact ⟨g', by simp only [registerSteps, bind_run, hstep, List.drop_nil, hrest, List.foldl_cons]⟩

theorem foldl_dispatchSteps (s : State) (i : Iface) :
    dispatchSteps.foldl (fun s k => k.effect i s) s = s.onIface i IfaceState.wired := by cases i <;> rfl

theorem registerIfaces_quiet (is : List Iface) (g : Fg) :
    ∃ g', registerIfaces op is (s.during g []) =
      .ok () ((is.foldl (fun s i => s.onIface i IfaceState.wired) s).during g' []) := by
  induction is generalizing s g with
  | nil => exact ⟨g, rfl⟩
  | cons i is ih =>
    obtain ⟨g₁, hsteps⟩ := registerSteps_quiet (s := s) (op := op) i is dispatchSteps g
    rw [foldl_dispatchSteps] at hsteps
    obtain ⟨g₂, hrest⟩ := ih (s := s.onIface i IfaceState.wired) g₁
    exact ⟨g₂, by simp only [registerIfaces, bind_run, hsteps, hrest, List.foldl_cons]⟩

theorem finishInit_quiet (r : ResultCode) (g : Fg) :
    ∃ g', finishInit op r (s.during g []) = .ok r ((s.finished r).during g' []) := by
  by_cases hr : r = .ok
  · obtain ⟨g', h⟩ := registerIfaces_quiet (s := s) (op := op) (ifaces s.cfg) g
    rw [foldl_ifaces] at h
    exact ⟨g', by simp only [finishInit, bind_run, ask_run, during_cfg, hr, if_true, h, pure_run, State.finished]⟩
  · obtain ⟨g', h⟩ := stopClocks_quiet (s := s) (op := op) r (ifaces s.cfg) g
    rw [foldl_ifaces] at h
    exact ⟨g', by simp only [finishInit, bind_run, ask_run, during_cfg, hr, if_false, h, pure_run, State.finished]⟩

/-- `drv_init` where its phase CLOCKS is not interleaved and its phase IFACES ends with no other move to come. -/
theorem drvInit_run {rate : Word} {u : State} {r : ResultCode} {l : List Inner}
    (h : OwnMoves (clockSteps (ifaces s.cfg)).length l) (g : Fg)
    (hi : ∀ g, ∃ g', initIfaces op rate (ifaces s.cfg)
      (s.pulsed.during g (l.drop (clockSteps (ifaces s.cfg)).length)) = .ok r (u.during g' [])) :
    ∃ g', drvInit op rate (clockSteps (ifaces s.cfg)) (s.during g l) = .ok r ((u.finished r).during g' []) := by
  obtain ⟨g₁, hclocks⟩ := startClocks_own (s := s) (op := op) rate (clockSteps (ifaces s.cfg)) h g
  rw [foldl_clockSteps] at hclocks
  obtain ⟨g₂, hifaces⟩ := hi g₁
  obtain ⟨g₃, hfinish⟩ := finishInit_quiet (s := u) (op := op) r g₂
  have hcfg : s.pulsed.cfg = s.cfg := rfl
  exact ⟨g₃, by simp only [drvInit, initDriver, bind_run, hclocks, ask_run, during_cfg, hcfg, hifaces, hfinish]⟩

theorem initIfaces_cons {rate : Word} {i : Iface} {is : List Iface} {r : ResultCode} {t : State}
    (h : ifInit (initPoint op (.ifaces rate i is)) i rate s = .ok r t) :
    initIfaces op rate (i :: is) s = if r = .ok then initIfaces op rate is t else .ok r t := by
  simp only [initIfaces, bind_run, h, ite_run, pure_run]

theorem initIfaces_failed {rate : Word} {i : Iface} {is : List Iface} {r : ResultCode} (hr : r ≠ .ok) {t : State}
    (h : ifInit (initPoint op (.ifaces rate i is)) i rate s = .ok r t) :
    initIfaces op rate (i :: is) s = .ok r t := (initIfaces_cons h).trans (if_neg hr)

theorem initIfaces_last {rate : Word} {i : Iface} {r : ResultCode} {t : State}
    (h : ifInit (initPoint op (.ifaces rate i [])) i rate s = .ok r t) :
    initIfaces op rate [i] s = .ok r t := by
  rw [initIfaces_cons h]
  split
  · next hr => rw [hr]; rfl
  · rfl

end steps

/-- The moves left after the phase CLOCKS. -/
def State.afterClocks (s : State) : List Inner := s.inner.drop (clockSteps (ifaces s.cfg)).length

section driver

variable {s : State} {t : TimingParams} {r : ResultCode} (h : s.HostTurn)

theorem length_clockSteps (p : Params) : (clockSteps (ifaces p)).length = if p.twoIfaces then 4 else 2 := by
  unfold ifaces
  cases p.twoIfaces <;> rfl

theorem ownMoves_clocks {l : List Inner} (hl : s.inner = List.replicate (if s.cfg.twoIfaces then 4 else 2) .go ++ l) :
    OwnMoves (clockSteps (ifaces s.cfg)).length s.inner ∧ s.afterClocks = l := by
  rw [State.afterClocks, length_clockSteps, hl]
  exact ⟨ownMoves_append l, List.drop_left' List.length_replicate⟩

theorem ownMoves_quiet (hq : s.quiet) : OwnMoves (clockSteps (ifaces s.cfg)).length s.inner ∧ s.afterClocks = [] := by
  have hquiet : s.inner = [] := hq
  rw [State.afterClocks, hquiet]
  exact ⟨ownMoves_nil _, List.drop_nil⟩

include h

theorem exec_drvInit {u : State} (hown : OwnMoves (clockSteps (ifaces s.cfg)).length s.inner)
    (hi : ∀ g, ∃ g', initIfaces .drvInit s.args.rate (ifaces s.cfg) (s.unanswered.pulsed.during g s.afterClocks) =
      .ok r (u.during g' [])) (hf : u.fg = s.fg) :
    exec .drvInit s = .next { u.finished r with inner := [], res := some ⟨r, .none⟩ } := by
  have hfg : (u.finished r).fg = .idle := hf.trans h.idle
  exact hostCommand_answers h rfl rfl hfg (drvInit_run (s := s.unanswered) hown _ hi)

/-- The bring-up of interface 0 decides the result: it fails, or there is no other interface. -/
theorem exec_drvInit_if0 {f : Ctrl → Ctrl} {fl : Filters} (hown : OwnMoves (clockSteps (ifaces s.cfg)).length s.inner)
    (hr : r ≠ .ok ∨ s.cfg.twoIfaces = false)
    (hb : ∀ op w g, ∃ g', ifInit (initPoint op w) .if0 s.args.rate (s.unanswered.pulsed.during g s.afterClocks) =
      .ok r (((s.unanswered.pulsed.onCtrl .if0 f).setFilt fl).during g' [])) :
    exec .drvInit s = .next { s with
      if0 := s.if0.ended r (f Ctrl.reset)
      if1 := if s.cfg.twoIfaces then s.if1.ended r Ctrl.reset else s.if1
      filt := fl
      inner := []
      res := some ⟨r, .none⟩ } := by
  have hi (g : Fg) : ∃ g', initIfaces .drvInit s.args.rate (ifaces s.cfg)
      (s.unanswered.pulsed.during g s.afterClocks) =
        .ok r (((s.unanswered.pulsed.onCtrl .if0 f).setFilt fl).during g' []) := by
    obtain ⟨is, his⟩ : ∃ is, ifaces s.cfg = .if0 :: is := by unfold ifaces; split <;> exact ⟨_, rfl⟩
    obtain ⟨g', h0⟩ := hb .drvInit (.ifaces s.args.rate .if0 is) g
    rw [his]
    refine ⟨g', ?_⟩
    rcases hr with hr | h2
    · exact initIfaces_failed hr h0
    · obtain rfl : is = [] := by simpa [ifaces_one h2] using his.symm
      exact initIfaces_last h0
  rw [exec_drvInit h hown hi rfl, finished_if0]
  rfl

/-- Interface 0 comes up, and the bring-up of interface 1 decides the result. -/
theorem exec_drvInit_if1 {f : Ctrl → Ctrl} {l : List Inner} (hw : s.cfg.wf) (h2 : s.cfg.twoIfaces = true)
    (ht : calcTimings s.cfg.pclk s.args.rate.toNat = some t)
    (hl : s.inner = List.replicate 4 .go ++ (ackMoves .if0 ++ (List.replicate 12 .go ++ l)))
    (hb : ∀ op w g, ∃ g', ifInit (initPoint op w) .if1 s.args.rate ((s.unanswered.pulsed.up .if0 t).during g l) =
      .ok r (((s.unanswered.pulsed.up .if0 t).onCtrl .if1 f).during g' [])) :
    exec .drvInit s = .next { s with
      if0 := s.if0.ended r (Ctrl.reset.broughtUp t)
      if1 := s.if1.ended r (f Ctrl.reset)
      filt := Filters.reset.acceptAll s.cfg
      inner := []
      res := some ⟨r, .none⟩ } := by
  obtain ⟨hown, hrest⟩ := ownMoves_clocks (s := s) (by rw [hl, h2]; rfl)
  have haccess : filterAccesses s.unanswered.pulsed.cfg = 12 := if_pos h2
  have hi (g : Fg) : ∃ g', initIfaces .drvInit s.args.rate (ifaces s.cfg)
      (s.unanswered.pulsed.during g s.afterClocks) =
        .ok r (((s.unanswered.pulsed.up .if0 t).onCtrl .if1 f).during g' []) := by
    obtain ⟨g₀, h0⟩ := ifInit_if0_up .drvInit (.ifaces s.args.rate .if0 [.if1])
      (s := s.unanswered.pulsed) (.pulsed hw (hasIface_if0 _)) ht (l := List.replicate 12 .go ++ l)
      (by rw [haccess]; exact ownMoves_append l) g
    rw [haccess, List.drop_left' List.length_replicate] at h0
    obtain ⟨g₁, h1⟩ := hb .drvInit (.ifaces s.args.rate .if1 []) g₀
    refine ⟨g₁, ?_⟩
    rw [ifaces_two h2, hrest, initIfaces_cons h0]
    exact initIfaces_last h1
  rw [exec_drvInit h hown hi rfl]
  exact congrArg (fun u : State => Host.Outcome.next { u with inner := [], res := some ⟨r, .none⟩ })
    (finished_two s.unanswered h2 r (·.broughtUp t) f (Filters.reset.acceptAll s.cfg))

end driver

/-- Settles O33: in a build of one interface it comes up alone; in one of two, interface 1 comes up after interface 0's
filter phase. -/
theorem drvInitResult : Obligations.DrvInitResult := by
  intro s t h hw hl ht
  have hr0 : s.unanswered.pulsed.Reaches .if0 := .pulsed hw (hasIface_if0 _)
  cases h2 : s.cfg.twoIfaces with
  | false =>
    obtain ⟨hown, hrest⟩ := ownMoves_clocks (s := s) (l := ackMoves .if0) (by simp [hl, driverAckMoves, h2])
    rw [exec_drvInit_if0 h hown (.inr h2) (by rw [hrest]; exact fun op w g => ifInit_up op w hr0 ht g)]
    simp only [h2]
    rfl
  | true =>
    have hr1 : s.unanswered.pulsed.Reaches .if1 := .pulsed hw ((hasIface_if1 _).trans h2)
    rw [exec_drvInit_if1 h hw h2 ht (l := ackMoves .if1) (f := (·.broughtUp t)) (by simp [hl, driverAckMoves, h2])
      fun op w g => ifInit_up op w (hr1.up .if0 t) ht g]
    rfl

/-! ### How `DRV.INIT` fails on a given schedule (95_test_vectors.md I3 to I6) -/

section failures

variable {s : State} {t : TimingParams} (h : s.HostTurn)
include h

theorem drvInit_unachievable (hq : s.quiet) (hnone : calcTimings s.cfg.pclk s.args.rate.toNat = none) :
    exec .drvInit s = .next { s with
      if0 := s.if0.rolledBack Ctrl.reset
      if1 := if s.cfg.twoIfaces then s.if1.rolledBack Ctrl.reset else s.if1
      filt := Filters.reset
      inner := []
      res := some ⟨.errUnachievableBitrate, .none⟩ } := by
  obtain ⟨hown, hrest⟩ := ownMoves_quiet hq
  exact exec_drvInit_if0 h (r := .errUnachievableBitrate) (f := id) (fl := Filters.reset) hown (.inl nofun)
    (by rw [hrest]; exact fun op w g => ifInit_unachievable (s := s.unanswered.pulsed) hnone op w .if0 g [])

variable (hw : s.cfg.wf) (ht : calcTimings s.cfg.pclk s.args.rate.toNat = some t)
include hw ht

theorem drvInit_if0_entry_timeout (hq : s.quiet) :
    exec .drvInit s = .next { s with
      if0 := s.if0.rolledBack Ctrl.asked
      if1 := if s.cfg.twoIfaces then s.if1.rolledBack Ctrl.reset else s.if1
      filt := Filters.reset
      inner := []
      res := some ⟨.errModeEntryTimeout, .none⟩ } := by
  obtain ⟨hown, hrest⟩ := ownMoves_quiet hq
  have hr0 : s.unanswered.pulsed.Reaches .if0 := .pulsed hw (hasIface_if0 _)
  exact exec_drvInit_if0 h (r := .errModeEntryTimeout) (f := Ctrl.entering) (fl := Filters.reset) hown (.inl nofun)
    (by rw [hrest]; exact fun op w g => ifInit_entry_timeout op w hr0 ht nofun (ownMoves_nil 2) rfl g)

theorem drvInit_if0_exit_timeout (hl : s.inner =
    List.replicate (if s.cfg.twoIfaces then 4 else 2) .go ++ [.go, .go, .env (.enterConfig .if0), .go]) :
    exec .drvInit s = .next { s with
      if0 := s.if0.rolledBack { Ctrl.reset.broughtUp t with mode := .config }
      if1 := if s.cfg.twoIfaces then s.if1.rolledBack Ctrl.reset else s.if1
      filt := Filters.reset
      inner := []
      res := some ⟨.errModeExitTimeout, .none⟩ } := by
  obtain ⟨hown, hrest⟩ := ownMoves_clocks hl
  have hr0 : s.unanswered.pulsed.Reaches .if0 := .pulsed hw (hasIface_if0 _)
  exact exec_drvInit_if0 h (r := .errModeExitTimeout) (f := fun c => { c.broughtUp t with mode := .config })
    (fl := Filters.reset) hown (.inl nofun) (by rw [hrest]; exact fun op w g => ifInit_exit_timeout op w hr0 ht g)

theorem drvInit_if1_entry_timeout (h2 : s.cfg.twoIfaces = true)
    (hl : s.inner = List.replicate 4 .go ++ ackMoves .if0 ++ List.replicate 12 .go) :
    exec .drvInit s = .next { s with
      if0 := s.if0.rolledBack (Ctrl.reset.broughtUp t)
      if1 := s.if1.rolledBack Ctrl.asked
      filt := Filters.reset.acceptAll s.cfg
      inner := []
      res := some ⟨.errModeEntryTimeout, .none⟩ } := by
  have hr1 : s.unanswered.pulsed.Reaches .if1 := .pulsed hw ((hasIface_if1 _).trans h2)
  have hmode : ((s.unanswered.pulsed.up .if0 t).ctrl .if1).mode ≠ .config := by
    simp [State.up, State.setFilt, State.pulsed, State.everyIface, State.onCtrl, State.onIface, State.ctrl,
      State.unanswered, h2, IfaceState.pulsed, Ctrl.reset]
  exact exec_drvInit_if1 h (f := Ctrl.entering) hw h2 ht (l := []) (by simp [hl])
    fun op w g => ifInit_entry_timeout op w (hr1.up .if0 t) ht hmode (ownMoves_nil 2) rfl g

end failures

/-! ### `DRV.INIT` at every schedule (42_bringup.md R172 to R175) -/

/-- The build and the host's last result stay. -/
def SameHost (s t : State) : Prop := t.cfg = s.cfg ∧ t.res = s.res

theorem sameHost_onIface (s : State) (i : Iface) (f : IfaceState → IfaceState) : SameHost s (s.onIface i f) :=
  ⟨onIface_cfg s i f, onIface_res s i f⟩

theorem sameHost_closed : ClosedInit SameHost where
  refl _ := ⟨rfl, rfl⟩
  trans h₁ h₂ := ⟨h₂.1.trans h₁.1, h₂.2.trans h₁.2⟩
  reg s i r v := by
    obtain ⟨c0, c1, fl, e⟩ := writeReg_shape s i r v
    exact e ▸ ⟨rfl, rfl⟩
  env s a := by
    rcases envAct_shape a s with ⟨c0, c1, fl, e⟩ | ⟨m, u, -, e⟩ | ⟨ok, e⟩ | e <;> exact e ▸ ⟨rfl, rfl⟩
  inner _ _ := ⟨rfl, rfl⟩
  cs _ _ := ⟨rfl, rfl⟩
  isr _ _ := ⟨rfl, rfl⟩
  record _ := ⟨rfl, rfl⟩
  fg _ _ := ⟨rfl, rfl⟩
  fault _ _ _ := ⟨rfl, rfl⟩
  wake _ _ := ⟨rfl, rfl⟩
  bridge _ _ _ := ⟨rfl, rfl⟩
  errCnt s i := sameHost_onIface s i _
  lastErr s i _ := sameHost_onIface s i _
  hadAct s i _ := sameHost_onIface s i _
  push s i _ := sameHost_onIface s i _
  drop s i := sameHost_onIface s i _
  pend s i _ _ := sameHost_onIface s i _
  sem s i _ := sameHost_onIface s i _
  clock s i _ := sameHost_onIface s i _
  pulse s i := by cases i <;> exact ⟨rfl, rfl⟩
  registry s i := sameHost_onIface s i _
  vector s i src _ := by cases src <;> exact sameHost_onIface s i _

/-- The build, the host's last result, the clocks, the registrations and the vectors stay. -/
def Alike (s t : State) : Prop := SameHost s t ∧ ∀ j, SameWiring (s.iface j) (t.iface j)

theorem Alike.refl (s : State) : Alike s s := ⟨sameHost_closed.refl s, fun _ => sameWiring_ifaceClosed.refl _⟩

/-- An operation that keeps every relation the elementary changes keep leaves a state alike. -/
theorem alike_stays {α : Type} {x : Op α} (hx : ∀ P : State → State → Prop, Closed P → Stays P x) : Stays Alike x := by
  intro s₀ s hs
  have hhost := hx _ sameHost_closed.toClosed s₀ s hs.1
  have hwiring j := hx _ (sameWiring_ifaceClosed.closedExec j).toClosed s₀ s (hs.2 j)
  cases hr : x s with
  | ok a t =>
    simp only [hr] at hhost hwiring
    exact ⟨hhost, hwiring⟩
  | error k t =>
    simp only [hr] at hhost hwiring
    exact ⟨hhost, hwiring⟩

/-- A change that leaves alike states alike. -/
def Congruent (f : State → State) : Prop := ∀ s t, Alike s t → Alike (f s) (f t)

theorem congruent_onIface (i : Iface) {f : IfaceState → IfaceState}
    (hf : ∀ x y, SameWiring x y → SameWiring (f x) (f y)) : Congruent fun s => s.onIface i f := by
  intro s t h
  obtain ⟨⟨hcfg, hres⟩, hwiring⟩ := h
  refine ⟨⟨by simp [hcfg], by simp [hres]⟩, fun j => ?_⟩
  rw [iface_onIface, iface_onIface]
  split
  · exact hf _ _ (hwiring i)
  · exact hwiring j

theorem congruent_clockStep (k : ClockStep) : Congruent k.effect := by
  cases k with
  | enable i => exact congruent_onIface i fun x y h => ⟨rfl, h.2.1, h.2.2⟩
  | pulse i =>
    have hctrl := congruent_onIface i (f := fun x => { x with ctrl := Ctrl.reset }) fun x y h => h
    intro s t h
    obtain ⟨hhost, hwiring⟩ := hctrl s t h
    cases i with
    | if0 => exact ⟨hhost, fun j => by cases j <;> [exact hwiring .if0; exact hwiring .if1]⟩
    | if1 => exact ⟨hhost, hwiring⟩

theorem congruent_dispatchStep (i : Iface) (k : DispatchStep) : Congruent (k.effect i) := by
  rcases k with _ | (_ | _ | _)
  · exact congruent_onIface i fun x y h => ⟨h.1, rfl, h.2.2⟩
  · exact congruent_onIface i fun x y h =>
      ⟨h.1, h.2.1, fun src => by cases src <;> [rfl; exact h.2.2 .rx0; exact h.2.2 .rx1]⟩
  · exact congruent_onIface i fun x y h =>
      ⟨h.1, h.2.1, fun src => by cases src <;> [exact h.2.2 .tx; rfl; exact h.2.2 .rx1]⟩
  · exact congruent_onIface i fun x y h =>
      ⟨h.1, h.2.1, fun src => by cases src <;> [exact h.2.2 .tx; exact h.2.2 .rx0; rfl]⟩

section alike

/-- Where a fault may stop an operation at any state. -/
abbrev anyStop : FaultKind → State → Prop := fun _ _ => True

variable {s : State} {op : Instr}

theorem Stays.meets {α : Type} {P : State → State → Prop} {x : Op α} (hx : Stays P x) :
    Meets (P s) x (fun _ => P s) anyStop := (hx s).weaken (fun _ h => h) (fun _ _ h => h) fun _ _ _ => trivial

theorem Meets.answers {α : Type} {pre : State → Prop} {x : Op α} {post : α → State → Prop}
    {err : FaultKind → State → Prop} {Q : α → Prop} (hx : Meets pre x post err) (hQ : Answers x Q) :
    Meets pre x (fun a t => post a t ∧ Q a) err := by
  intro s hs
  have h := hx s hs
  cases hr : x s with
  | ok a t =>
    rw [hr] at h
    exact ⟨h, hQ s a t hr⟩
  | error k t =>
    rw [hr] at h
    exact h

theorem alike_fgUpd (ph : Phase) {f : State → State} (hf : Congruent f) :
    Meets (Alike s) (fgUpd (stepAt op ph) f) (fun _ => Alike (f s)) anyStop :=
  Meets.bind _ (alike_stays fun _ h => h.stepAt op ph).meets fun _ => Meets.upd fun t h => hf s t h

theorem alike_startClocks (rate : Word) (ks : List ClockStep) :
    Meets (Alike s) (startClocks op rate ks) (fun _ => Alike (ks.foldl (fun s k => k.effect s) s)) anyStop := by
  induction ks generalizing s with
  | nil => exact Meets.pure _ fun _ h => h
  | cons k ks ih => exact Meets.bind _ (alike_fgUpd _ (congruent_clockStep k)) fun _ => ih

theorem alike_stopClocks (r : ResultCode) (is : List Iface) :
    Meets (Alike s) (stopClocks op r is)
      (fun _ => Alike (is.foldl (fun s i => s.onIface i IfaceState.unclocked) s)) anyStop := by
  induction is generalizing s with
  | nil => exact Meets.pure _ fun _ h => h
  | cons i is ih =>
    exact Meets.bind _ (alike_fgUpd _ (congruent_onIface i fun x y h => ⟨rfl, h.2.1, h.2.2⟩)) fun _ => ih

theorem alike_registerSteps (i : Iface) (is : List Iface) (ks : List DispatchStep) :
    Meets (Alike s) (registerSteps op i is ks) (fun _ => Alike (ks.foldl (fun s k => k.effect i s) s)) anyStop := by
  induction ks generalizing s with
  | nil => exact Meets.pure _ fun _ h => h
  | cons k ks ih => exact Meets.bind _ (alike_fgUpd _ (congruent_dispatchStep i k)) fun _ => ih

theorem alike_registerIfaces (is : List Iface) :
    Meets (Alike s) (registerIfaces op is)
      (fun _ => Alike (is.foldl (fun s i => s.onIface i IfaceState.wired) s)) anyStop := by
  induction is generalizing s with
  | nil => exact Meets.pure _ fun _ h => h
  | cons i is ih =>
    have hsteps := alike_registerSteps (s := s) (op := op) i is dispatchSteps
    rw [foldl_dispatchSteps] at hsteps
    exact Meets.bind _ hsteps fun _ => ih

/-- The interfaces the driver's loops run over are known from any state that is alike. -/
theorem alike_askIfaces :
    Meets (Alike s) (ask fun s => ifaces s.cfg) (fun is t => is = ifaces s.cfg ∧ Alike s t) anyStop :=
  Meets.ask fun t h => ⟨by rw [h.1.1], h⟩

theorem alike_finishInit (r : ResultCode) :
    Meets (Alike s) (finishInit op r) (fun r' t => r' = r ∧ Alike (s.finished r) t) anyStop := by
  refine Meets.bind _ alike_askIfaces fun is t ht => ?_
  obtain ⟨rfl, ht⟩ := ht
  by_cases hr : r = .ok
  · have h := alike_registerIfaces (s := s) (op := op) (ifaces s.cfg)
    rw [foldl_ifaces] at h
    subst hr
    exact Meets.bind _ h (fun _ => Meets.pure _ fun _ h => ⟨rfl, h⟩) t ht
  · have h := alike_stopClocks (s := s) (op := op) r (ifaces s.cfg)
    rw [foldl_ifaces] at h
    have hstop : s.finished r = s.everyIface IfaceState.unclocked := by rw [State.finished, if_neg hr]
    simp only [hr, if_false, hstop]
    exact Meets.bind _ h (fun _ => Meets.pure _ fun _ h => ⟨rfl, h⟩) t ht

/-- The result codes of a bring-up: one for an unachievable rate, else success or a mode timeout (42_bringup.md R151 to
R159). -/
def initCodes : Option TimingParams → List ResultCode
  | none => [.errUnachievableBitrate]
  | some _ => [.ok, .errModeEntryTimeout, .errModeExitTimeout]

theorem enterConfig_codes (point : InitPhase → Op Unit) (i : Iface) (t : TimingParams) :
    Answers (enterConfig point i t) (· ∈ initCodes (some t)) := by
  have hfilter : Answers (filterPhase point i) (· ∈ initCodes (some t)) := by
    cases i
    · exact .bind fun _ => .pure (by simp [initCodes])
    · exact .pure (by simp [initCodes])
  refine .bind fun _ => .bind fun _ => .bind fun _ => .ite ?_ (.pure (by simp [initCodes]))
  exact .bind fun _ => .bind fun _ => .bind fun _ => .bind fun _ => .bind fun _ =>
    .ite hfilter (.pure (by simp [initCodes]))

theorem alike_ifInit (w : InitPhase → Phase) (i : Iface) (rate : Word) :
    Meets (Alike s) (ifInit (initPoint op w) i rate)
      (fun r t => Alike s t ∧ r ∈ initCodes (calcTimings s.cfg.pclk rate.toNat)) anyStop := by
  refine Meets.bind _ (alike_stays fun _ h => h.initPoint op w (.timing rate)).meets fun _ => ?_
  refine Meets.bind (fun c t => c = calcTimings s.cfg.pclk rate.toNat ∧ Alike s t)
    (Meets.ask fun t h => ⟨by rw [h.1.1], h⟩) fun c t ht => ?_
  obtain ⟨rfl, ht⟩ := ht
  cases hc : calcTimings s.cfg.pclk rate.toNat with
  | none => exact ⟨ht, by simp [initCodes]⟩
  | some p =>
    have h := (alike_stays fun _ h => h.enterConfig (h.initPoint op w) i p).meets (s := s).answers
      (enterConfig_codes (initPoint op w) i p)
    exact h t ht

theorem alike_initIfaces (rate : Word) (i : Iface) (is : List Iface) :
    Meets (Alike s) (initIfaces op rate (i :: is))
      (fun r t => Alike s t ∧ r ∈ initCodes (calcTimings s.cfg.pclk rate.toNat)) anyStop := by
  induction is generalizing i with
  | nil =>
    exact Meets.bind _ (alike_ifInit _ i rate) fun r =>
      Meets.ite (fun hok => Meets.pure _ fun t h => hok ▸ h) fun _ => Meets.pure _ fun _ h => h
  | cons j is ih =>
    exact Meets.bind _ (alike_ifInit _ i rate) fun r =>
      Meets.ite (fun _ => (ih j).weaken (fun _ h => h.1) (fun _ _ h => h) fun _ _ h => h) fun _ =>
        Meets.pure _ fun _ h => h

theorem ifaces_eq_cons (p : Params) : ifaces p = .if0 :: if p.twoIfaces then [.if1] else [] := by
  unfold ifaces
  cases p.twoIfaces <;> rfl

theorem alike_drvInit (rate : Word) :
    Meets (Alike s) (drvInit op rate (clockSteps (ifaces s.cfg)))
      (fun r t => Alike (s.pulsed.finished r) t ∧ r ∈ initCodes (calcTimings s.cfg.pclk rate.toNat)) anyStop := by
  have hclocks := alike_startClocks (s := s) (op := op) rate (clockSteps (ifaces s.cfg))
  rw [foldl_clockSteps] at hclocks
  refine Meets.bind _ hclocks fun _ => Meets.bind _ alike_askIfaces fun is t ⟨his, ht⟩ => ?_
  subst his
  rw [ifaces_eq_cons]
  refine Meets.bind _ (alike_initIfaces rate _ _) (fun r t ⟨ht, hr⟩ => ?_) t ht
  have h := alike_finishInit (op := op) (s := s.pulsed) r t ht
  cases hf : finishInit op r t with
  | ok r' t' =>
    simp only [hf] at h
    exact ⟨h.1 ▸ h.2, h.1 ▸ hr⟩
  | error k t' => trivial

end alike

/-- A command that returned a result did not fault: a fault leaves the host's result empty. -/
theorem hostCommand_answered {s t : State} {x : Instr} {ph : Phase} {body : Op ResultCode} {r : Result} (h : s.HostTurn)
    (hc : x.cls = .host) (hw : x.wellFormed s.cfg.numIfaces = true) (hb : Stays SameHost body)
    (he : hostCommand x ph (answer body) s = .next t) (hr : t.res = some r) :
    ∃ code u, body (s.started x ph) = .ok code u ∧ r = ⟨code, .none⟩ ∧ t = { u with fg := .idle, res := some r } := by
  rw [hostCommand_turn h hc hw] at he
  have hres := hb (s.started x ph) (s.started x ph) (sameHost_closed.refl _)
  cases hrun : body (s.started x ph) with
  | ok code u =>
    simp only [answer, bind_run, hrun, pure_run] at he
    cases he
    cases hr
    exact ⟨code, u, rfl, rfl, rfl⟩
  | error k u =>
    simp only [hrun] at hres
    simp only [answer, bind_run, hrun] at he
    cases he
    cases hres.2.symm.trans hr

/-! ### What `DRV.INIT` leaves in the wiring of an interface -/

theorem iface_everyIface (s : State) (f : IfaceState → IfaceState) (i : Iface) :
    (s.everyIface f).iface i = if hasIface s.cfg i = true then f (s.iface i) else s.iface i := by
  cases i with
  | if0 => rw [if_pos (hasIface_if0 _)]; rfl
  | if1 => rw [hasIface_if1]; rfl

theorem iface_pulsed (s : State) (i : Iface) :
    s.pulsed.iface i = if hasIface s.cfg i = true then (s.iface i).pulsed else s.iface i := by
  rw [← iface_everyIface]
  cases i <;> rfl

theorem iface_finished (s : State) (r : ResultCode) (i : Iface) (hi : hasIface s.cfg i = true) :
    (s.pulsed.finished r).iface i =
      if r = .ok then (s.iface i).pulsed.wired else (s.iface i).pulsed.unclocked := by
  have hcfg : s.pulsed.cfg = s.cfg := rfl
  rw [State.finished, iface_everyIface, hcfg, if_pos hi, iface_pulsed, if_pos hi]
  split <;> rfl

theorem iface_finished_absent (s : State) (r : ResultCode) (i : Iface) (hi : hasIface s.cfg i ≠ true) :
    (s.pulsed.finished r).iface i = s.iface i := by
  have hcfg : s.pulsed.cfg = s.cfg := rfl
  rw [State.finished, iface_everyIface, hcfg, if_neg hi, iface_pulsed, if_neg hi]

/-- The wiring of the interfaces after `DRV.INIT` ended with the result `r` (42_bringup.md R174, R175). -/
theorem wiring_finished (s : State) (r : ResultCode) :
    (r = .ok → ∀ i, hasIface s.cfg i = true → ((s.pulsed.finished r).iface i).clkEn = true ∧
      ((s.pulsed.finished r).iface i).registry = true ∧ ∀ src, ((s.pulsed.finished r).iface i).vec src = true) ∧
    (r ≠ .ok → ∀ i, (hasIface s.cfg i = true → ((s.pulsed.finished r).iface i).clkEn = false) ∧
      ((s.pulsed.finished r).iface i).registry = (s.iface i).registry ∧
      ∀ src, ((s.pulsed.finished r).iface i).vec src = (s.iface i).vec src) := by
  refine ⟨fun hr i hi => ?_, fun hr i => ?_⟩
  · rw [iface_finished s r i hi, if_pos hr]
    exact ⟨rfl, rfl, fun src => by cases src <;> rfl⟩
  · by_cases hi : hasIface s.cfg i = true
    · rw [iface_finished s r i hi, if_neg hr]
      exact ⟨fun _ => rfl, rfl, fun src => by cases src <;> rfl⟩
    · rw [iface_finished_absent s r i hi]
      exact ⟨fun h => absurd h hi, rfl, fun _ => rfl⟩

theorem mem_initCodes_none {r : ResultCode} (h : r ∈ initCodes none) : r = .errUnachievableBitrate := by
  simpa [initCodes] using h

theorem mem_initCodes_some {r : ResultCode} {p : TimingParams} (h : r ∈ initCodes (some p)) :
    r = .ok ∨ r = .errModeEntryTimeout ∨ r = .errModeExitTimeout := by
  simpa [initCodes] using h

/-- A `DRV.INIT` that returned, at any schedule. -/
theorem drvInit_answered {s t : State} {r : Result} (h : s.HostTurn) (he : exec .drvInit s = .next t)
    (hr : t.res = some r) :
    r.payload = .none ∧ r.status ∈ initCodes (calcTimings s.cfg.pclk s.args.rate.toNat) ∧
      ∀ i, SameWiring ((s.pulsed.finished r.status).iface i) (t.iface i) := by
  obtain ⟨code, u, hrun, rfl, rfl⟩ := hostCommand_answered h rfl rfl (sameHost_closed.drvInit _ _ _) he hr
  obtain ⟨⟨-, hwiring⟩, hcode⟩ := (alike_drvInit (s := s.started .drvInit _) _).ok (Alike.refl _) hrun
  exact ⟨rfl, hcode, fun i => by cases i <;> [exact hwiring .if0; exact hwiring .if1]⟩

/-- Settles O34: at every schedule each step of the driver acts on the wiring as its effect says, whatever interleaves; on
the schedules given the bring-up of the failing interface decides. -/
theorem drvInitAllOrNothing : Obligations.DrvInitAllOrNothing := by
  refine ⟨fun s t r h he hr => ?_, fun s h hw => ⟨fun hq hnone => ?_, fun p ht => ⟨fun hq => ?_,
    drvInit_if0_exit_timeout h hw ht, drvInit_if1_entry_timeout h hw ht⟩⟩⟩
  · obtain ⟨hpayload, hcode, hwiring⟩ := drvInit_answered h he hr
    obtain ⟨hok, hfail⟩ := wiring_finished s r.status
    refine ⟨fun hs i hi => ?_, fun hs i => ?_, hpayload, fun hnone => ?_, fun hsome => ?_⟩
    · obtain ⟨hclk, hreg, hvec⟩ := hwiring i
      obtain ⟨hclk', hreg', hvec'⟩ := hok hs i hi
      exact ⟨hclk.trans hclk', hreg.trans hreg', fun src => (hvec src).trans (hvec' src)⟩
    · obtain ⟨hclk, hreg, hvec⟩ := hwiring i
      obtain ⟨hclk', hreg', hvec'⟩ := hfail hs i
      exact ⟨fun hi => hclk.trans (hclk' hi), hreg.trans hreg', fun src => (hvec src).trans (hvec' src)⟩
    · rw [hnone] at hcode
      exact mem_initCodes_none hcode
    · obtain ⟨p, hp⟩ := Option.ne_none_iff_exists'.1 hsome
      exact mem_initCodes_some (hp ▸ hcode)
  · have hquiet : s.inner = [] := hq
    rw [drvInit_unachievable h hq hnone, ← hquiet]
  · have hquiet : s.inner = [] := hq
    rw [drvInit_if0_entry_timeout h hw ht hq, ← hquiet]

/-! ### `IF.INIT` at every schedule (42_bringup.md R154 to R163) -/

theorem merge_and_mask (m w v : Word) : merge m w v &&& m = v &&& m := by
  apply BitVec.eq_of_getLsbD_eq
  intro k hk
  simp only [merge, BitVec.getLsbD_and, BitVec.getLsbD_or, BitVec.getLsbD_not, hk, decide_true, Bool.true_and]
  grind

theorem merge_not_and_mask (m w v : Word) : merge (~~~m) w v &&& m = w &&& m := by
  apply BitVec.eq_of_getLsbD_eq
  intro k hk
  simp only [merge, BitVec.getLsbD_and, BitVec.getLsbD_or, BitVec.getLsbD_not, hk, decide_true, Bool.true_and]
  grind

theorem and_three_eq_zero {w : Word} (h0 : w.getLsbD 0 = false) (h1 : w.getLsbD 1 = false) : w &&& 0x00000003#32 = 0#32 := by
  apply BitVec.eq_of_getLsbD_eq
  intro k _
  rcases k with _ | _ | k
  · simp only [BitVec.getLsbD_and, h0, Bool.false_and, BitVec.getLsbD_zero]
  · simp only [BitVec.getLsbD_and, h1, Bool.false_and, BitVec.getLsbD_zero]
  · have h3 : Nat.testBit 3 (k + 2) = false :=
      Nat.testBit_lt_two_pow (lt_of_lt_of_le (by decide : 3 < 2 ^ 2) (Nat.pow_le_pow_right (by decide) (by omega)))
    simp [BitVec.getLsbD_and, BitVec.getLsbD_ofNat, h3]

/-- What the controller's own steps and the interrupt services leave of a controller's registers and mode: the requests
and the programmed bits stay, and an acknowledged mode stays while its request stands (47_controller_env.md R272). -/
structure Ctrl.Steady (c d : Ctrl) : Prop where
  inrq   : d.mcr.getLsbD 0 = c.mcr.getLsbD 0
  sleep  : d.mcr.getLsbD 1 = c.mcr.getLsbD 1
  btr    : d.btr &&& btrRw = c.btr &&& btrRw
  ier    : d.ier &&& ierRw = c.ier &&& ierRw
  config : c.mcr.getLsbD 0 = true → c.mode = .config → d.mode = .config
  normal : c.mcr.getLsbD 0 = false → c.mode ≠ .config → d.mode ≠ .config

namespace Ctrl.Steady

theorem of_eq {c d : Ctrl} (hmcr : d.mcr = c.mcr) (hbtr : d.btr = c.btr) (hier : d.ier = c.ier)
    (hmode : d.mode = c.mode) : c.Steady d where
  inrq := by rw [hmcr]
  sleep := by rw [hmcr]
  btr := by rw [hbtr]
  ier := by rw [hier]
  config _ h := hmode.trans h
  normal _ h := hmode ▸ h

theorem refl (c : Ctrl) : c.Steady c := .of_eq rfl rfl rfl rfl

theorem trans {c d e : Ctrl} (h : c.Steady d) (h' : d.Steady e) : c.Steady e where
  inrq := h'.inrq.trans h.inrq
  sleep := h'.sleep.trans h.sleep
  btr := h'.btr.trans h.btr
  ier := h'.ier.trans h.ier
  config hi hm := h'.config (h.inrq.trans hi) (h.config hi hm)
  normal hi hm := h'.normal (h.inrq.trans hi) (h.normal hi hm)

theorem onMb (c : Ctrl) (m : Mb) (f : Mailbox → Mailbox) : c.Steady (c.onMb m f) := by
  cases m <;> exact .of_eq rfl rfl rfl rfl

theorem onRx (c : Ctrl) (k : Fifo) (f : RxFifo → RxFifo) : c.Steady (c.onRx k f) := by
  cases k <;> exact .of_eq rfl rfl rfl rfl

theorem enterConfig (c : Ctrl) : c.Steady c.enterConfig := by
  unfold Ctrl.enterConfig
  split
  · next hi => exact ⟨rfl, rfl, rfl, rfl, fun _ _ => rfl, fun h => absurd (hi.symm.trans h) nofun⟩
  · exact .refl c

theorem enterNormal (c : Ctrl) : c.Steady c.enterNormal := by
  unfold Ctrl.enterNormal
  split
  · next hi =>
    refine ⟨rfl, rfl, rfl, rfl, fun h => ?_, fun _ _ => nofun⟩
    simp [h, -BitVec.getLsbD_eq_getElem] at hi
  · exact .refl c

theorem busError (c : Ctrl) (lec : BitVec 3) : c.Steady (c.busError lec) := by
  unfold Ctrl.busError
  split
  · exact .refl c
  · exact .of_eq rfl rfl rfl rfl

/-- The bits of `MCR` the environment owns are neither of the two requests. -/
theorem driftMcr (c : Ctrl) (v : Word) :
    c.Steady { c with mcr := merge 0xFFFE7F00#32 c.mcr v &&& (v ||| 0xFFFF7FFF#32) } where
  inrq := by simp [merge, -BitVec.getLsbD_eq_getElem]
  sleep := by simp [merge, -BitVec.getLsbD_eq_getElem]
  btr := rfl
  ier := rfl
  config _ h := h
  normal _ h := h

theorem driftIer (c : Ctrl) (v : Word) : c.Steady { c with ier := merge (~~~ierRw) c.ier v } where
  inrq := rfl
  sleep := rfl
  btr := rfl
  ier := merge_not_and_mask ierRw c.ier v
  config _ h := h
  normal _ h := h

theorem driftBtr (c : Ctrl) (v : Word) : c.Steady { c with btr := merge (~~~btrRw) c.btr v } where
  inrq := rfl
  sleep := rfl
  btr := merge_not_and_mask btrRw c.btr v
  ier := rfl
  config _ h := h
  normal _ h := h

end Ctrl.Steady

/-- The build stays, and the controller of interface i stays steady. -/
def SteadyAt (i : Iface) (s t : State) : Prop := t.cfg = s.cfg ∧ (s.ctrl i).Steady (t.ctrl i)

/-- The registers a bring-up programs and the statement of its result speaks of. -/
def Reg.isProgrammed : Reg → Bool
  | .mcr | .btr | .ier => true
  | _ => false

theorem isProgrammed_of_isFilter {r : Reg} (h : r.isFilter = true) : r.isProgrammed = false := by
  cases r with
  | mcr | btr | ier => cases h
  | _ => rfl

section steady

variable {i : Iface}

theorem SteadyAt.refl (s : State) : SteadyAt i s s := ⟨rfl, .refl _⟩

theorem SteadyAt.trans {s t u : State} (h : SteadyAt i s t) (h' : SteadyAt i t u) : SteadyAt i s u :=
  ⟨h'.1.trans h.1, h.2.trans h'.2⟩

theorem SteadyAt.of_eq {s t : State} (hcfg : t.cfg = s.cfg) (hctrl : t.ctrl i = s.ctrl i) : SteadyAt i s t :=
  ⟨hcfg, hctrl ▸ .refl _⟩

theorem steadyAt_onCtrl (s : State) (j : Iface) {f : Ctrl → Ctrl} (hf : ∀ c : Ctrl, c.Steady (f c)) :
    SteadyAt i s (s.onCtrl j f) := by
  refine ⟨onCtrl_cfg s j f, ?_⟩
  unfold State.ctrl
  rw [iface_onCtrl]
  split
  · next e => exact e ▸ hf _
  · exact .refl _

/-- A change of soft state of an interface. -/
theorem steadyAt_onIface (s : State) (j : Iface) {f : IfaceState → IfaceState} (hf : ∀ x, (f x).ctrl = x.ctrl) :
    SteadyAt i s (s.onIface j f) := by
  refine .of_eq (onIface_cfg s j f) ?_
  unfold State.ctrl
  rw [iface_onIface]
  split
  · next e => exact e ▸ hf _
  · rfl

theorem steadyAt_ctrlStep (s : State) (j : Iface) {f : Ctrl → Ctrl} (hf : ∀ c : Ctrl, c.Steady (f c)) :
    SteadyAt i s (s.ctrlStep j f) := by
  unfold State.ctrlStep
  split
  · exact steadyAt_onCtrl s j hf
  · exact .refl s

/-- A change outside the build and the interfaces. -/
theorem SteadyAt.of_ifaces {s t : State} (hcfg : t.cfg = s.cfg) (h0 : t.if0 = s.if0) (h1 : t.if1 = s.if1) :
    SteadyAt i s t :=
  .of_eq hcfg (by cases i <;> [exact congrArg (·.ctrl) h0; exact congrArg (·.ctrl) h1])

theorem steadyAt_driftReg (s : State) (j : Iface) (r : Reg) (v : Word) : SteadyAt i s (s.driftReg j r v) := by
  cases r with
  | mcr => exact steadyAt_onCtrl s j fun c => .driftMcr c v
  | ier => exact steadyAt_onCtrl s j fun c => .driftIer c v
  | btr => exact steadyAt_onCtrl s j fun c => .driftBtr c v
  | msr | tsr | esr => exact steadyAt_onCtrl s j fun c => .of_eq rfl rfl rfl rfl
  | rfr | rir | rdtr | rdlr | rdhr => exact steadyAt_onCtrl s j fun c => .onRx c _ _
  | tdtr => exact steadyAt_onCtrl s j fun c => .onMb c _ _
  | tir | tdlr | tdhr | fr1 | fr2 => exact .refl s
  | fmr | fm1r | fs1r | ffa1r | fa1r => exact .of_ifaces rfl rfl rfl

theorem steadyAt_envAct (s : State) (a : EnvAct) : SteadyAt i s (envAct a s) := by
  cases a with
  | enterConfig j => exact steadyAt_ctrlStep s j .enterConfig
  | enterNormal j => exact steadyAt_ctrlStep s j .enterNormal
  | complete j m txok => exact steadyAt_ctrlStep s j fun c => .onMb c _ _
  | arrive j f msg replace =>
    exact steadyAt_ctrlStep s j fun c => by split <;> [exact .onRx c _ _; exact .refl c]
  | busError j lec => exact steadyAt_ctrlStep s j fun c => by split <;> [exact .busError c lec; exact .refl c]
  | drift j r v =>
    simp only [envAct]
    split
    · exact steadyAt_driftReg s j r v
    · exact .refl s
  | tick | pool | consume => exact .of_ifaces rfl rfl rfl

theorem steadyAt_writeReg (s : State) (j : Iface) {r : Reg} (hr : r.isProgrammed = false) (v : Word) :
    SteadyAt i s (s.writeReg j r v) := by
  cases r with
  | mcr | btr | ier => cases hr
  | msr | tsr | esr => exact steadyAt_onCtrl s j fun c => .of_eq rfl rfl rfl rfl
  | rfr => exact steadyAt_onCtrl s j fun c => .onRx c _ _
  | tir | tdtr | tdlr | tdhr => exact steadyAt_onCtrl s j fun c => .onMb c _ _
  | rir | rdtr | rdlr | rdhr => exact .refl s
  | fmr | fm1r | fs1r | ffa1r | fa1r => exact .of_ifaces rfl rfl rfl
  | fr1 | fr2 =>
    simp only [State.writeReg]
    split
    · exact .of_ifaces rfl rfl rfl
    · exact .refl s

theorem steadyAt_envMoves (l : List Inner) (s : State) : SteadyAt i s (envMoves l s) := by
  induction l generalizing s with
  | nil => exact .of_ifaces rfl rfl rfl
  | cons m l ih =>
    cases m with
    | env a => exact (steadyAt_envAct s a).trans (ih _)
    | irq j src => exact ih s
    | go => exact .of_ifaces rfl rfl rfl

end steady

/-! ### What an interleaving point leaves of the controller being brought up -/

/-- In the build `p`, the controller of interface i has stayed steady. -/
def SteadyIn (p : Params) (i : Iface) (s t : State) : Prop := t.cfg = p ∧ SteadyAt i s t

section points

variable {p : Params} {i : Iface}

theorem SteadyIn.next {s t u : State} (h : SteadyIn p i s t) (h' : SteadyAt i t u) : SteadyIn p i s u :=
  ⟨h'.1.trans h.1, h.2.trans h'⟩

theorem steadyIn_upd {f : State → State} (hf : ∀ s, SteadyAt i s (f s)) : Stays (SteadyIn p i) (upd f) :=
  fun _ => Meets.upd fun s h => h.next (hf s)

/-- Soft state outside the interfaces. -/
theorem steadyIn_soft {f : State → State} (hf : ∀ s, (f s).cfg = s.cfg ∧ (f s).if0 = s.if0 ∧ (f s).if1 = s.if1) :
    Stays (SteadyIn p i) (upd f) :=
  steadyIn_upd fun s => .of_ifaces (hf s).1 (hf s).2.1 (hf s).2.2

/-- Soft state of an interface. -/
theorem steadyIn_onIface (j : Iface) {f : IfaceState → IfaceState} (hf : ∀ x, (f x).ctrl = x.ctrl) :
    Stays (SteadyIn p i) (upd fun s => s.onIface j f) :=
  steadyIn_upd fun s => steadyAt_onIface s j hf

theorem steadyIn_returning {x : Op Unit} (hx : Stays (SteadyIn p i) x) : Stays (SteadyIn p i) (returning x) :=
  .bind hx fun _ => steadyIn_soft fun _ => ⟨rfl, rfl, rfl⟩

theorem steadyIn_rbPush (j : Iface) (e : RxEntry) : Stays (SteadyIn p i) (rbPush j e) :=
  .bind Closed.guardShared fun _ => steadyIn_upd fun s => steadyAt_onIface s j fun _ => rfl

theorem steadyIn_envPoint : Stays (SteadyIn p i) envPoint := fun _ s h => h.next (steadyAt_envMoves s.inner s)

theorem steadyIn_svcRead (j : Iface) (r : Reg) : Stays (SteadyIn p i) (svcRead j r) :=
  .bind steadyIn_envPoint fun _ => Closed.regRead j r

variable (hw : p.wf) {j : Iface} (hj : hasIface p j = true)
include hw hj

theorem steadyIn_regWrite {r : Reg} (hr : hasReg j r) (hp : r.isProgrammed = false) (v : Word) :
    Stays (SteadyIn p i) (regWrite j r v) := by
  intro s₀ s hs
  obtain rfl := hs.1
  cases hc : (s.iface j).clkEn with
  | false => rw [regWrite_unclocked hw hj hc hr]; exact hs
  | true => rw [regWrite_clocked hw hj hc hr]; exact hs.next (steadyAt_writeReg s j hp v)

theorem steadyIn_svcWrite {r : Reg} (hr : hasReg j r) (hp : r.isProgrammed = false) (v : Word) :
    Stays (SteadyIn p i) (svcWrite j r v) :=
  .bind steadyIn_envPoint fun _ => steadyIn_regWrite hw hj hr hp v

theorem steadyIn_pollError : Stays (SteadyIn p i) (pollError j) :=
  steadyIn_returning <| .bind (steadyIn_svcRead j _) fun _ => .ite (.pure _) <|
    .bind (steadyIn_onIface j fun _ => rfl) fun _ => .bind (steadyIn_svcWrite hw hj (fun _ => rfl) rfl _) fun _ =>
      steadyIn_onIface j fun _ => rfl

omit hw hj in
theorem steadyIn_handleCompletion (m : Mb) (txok : Bool) : Stays (SteadyIn p i) (handleCompletion j m txok) :=
  .bind (.onlyIf (steadyIn_onIface j fun _ => rfl)) fun _ => .bind (.ask _) fun _ =>
    .bind (.onlyIf (.bind (.ask _) fun _ => .bind (.ask _) fun _ => steadyIn_rbPush j _)) fun _ =>
      .bind (.onlyIf (steadyIn_onIface j fun _ => rfl)) fun _ =>
        .bind (steadyIn_onIface j fun _ => by cases m <;> rfl) fun _ => .onlyIf (steadyIn_onIface j fun _ => rfl)

theorem steadyIn_serviceMailbox (m : Mb) : Stays (SteadyIn p i) (serviceMailbox j m) :=
  .bind (steadyIn_svcRead j _) fun _ => .ite
    (.bind (steadyIn_svcWrite hw hj (fun _ => rfl) rfl _) fun _ => steadyIn_handleCompletion m _) (.pure _)

theorem steadyIn_txService : Stays (SteadyIn p i) (txService j) :=
  steadyIn_returning <| .bind (steadyIn_serviceMailbox hw hj _) fun _ => .bind (steadyIn_serviceMailbox hw hj _) fun _ =>
    .bind (steadyIn_serviceMailbox hw hj _) fun _ => .bind (steadyIn_pollError hw hj) fun _ =>
      steadyIn_soft fun _ => ⟨rfl, rfl, rfl⟩

theorem steadyIn_rxService (f : Fifo) : Stays (SteadyIn p i) (rxService j f) :=
  steadyIn_returning <| .bind (steadyIn_svcRead j _) fun _ => .ite (.raise _) <|
    .bind (.onlyIf (steadyIn_onIface j fun _ => rfl)) fun _ => .bind (steadyIn_svcRead j _) fun _ =>
      .bind (steadyIn_svcRead j _) fun _ => .bind (steadyIn_svcRead j _) fun _ => .bind (steadyIn_svcRead j _) fun _ =>
        .bind (steadyIn_svcWrite hw hj (fun _ => rfl) rfl _) fun _ => .bind (.ask _) fun _ =>
          .bind (steadyIn_rbPush j _) fun _ => .bind (steadyIn_soft fun _ => ⟨rfl, rfl, rfl⟩) fun _ =>
            .bind (steadyIn_onIface j fun _ => rfl) fun _ => .bind (steadyIn_pollError hw hj) fun _ =>
              steadyIn_soft fun _ => ⟨rfl, rfl, rfl⟩

omit hw hj in
theorem steadyIn_entryAround {x : Op Unit} (hx : Stays (SteadyIn p i) x) : Stays (SteadyIn p i) (entryAround j x) :=
  steadyIn_returning <| .bind (.ask _) fun _ => .ite
    (.bind (steadyIn_soft fun _ => ⟨rfl, rfl, rfl⟩) fun _ => .bind hx fun _ => steadyIn_soft fun _ => ⟨rfl, rfl, rfl⟩)
    (.raise _)

theorem steadyIn_entryOp (src : Source) : Stays (SteadyIn p i) (entryOp j src) := by
  cases src with
  | tx => exact steadyIn_entryAround (steadyIn_txService hw hj)
  | rx0 | rx1 => exact steadyIn_entryAround (steadyIn_rxService hw hj _)

omit hj in
theorem steadyIn_dispatcherMove (j : Iface) (src : Source) : Stays (SteadyIn p i) (dispatcherMove j src) := by
  intro s₀ s hs
  cases hc : canStart s j src with
  | false => rw [dispatcherMove_idle hc]; exact hs
  | true =>
    have hj : hasIface p j = true := by
      obtain ⟨rfl, -⟩ := hs
      simp only [canStart, Bool.and_eq_true] at hc
      exact hc.1.1.1.1.1
    have h := steadyIn_entryOp (i := i) hw hj src s₀ s hs
    rw [dispatcherMove_start hc]
    cases hr : entryOp j src s with
    | ok _ t => rw [hr] at h; exact h
    | error k t => rw [hr] at h; exact h.next (.of_ifaces rfl rfl rfl)

omit hj in
theorem steadyIn_preemptMoves (n : Nat) : Stays (SteadyIn p i) (preemptMoves n) := by
  induction n with
  | zero => exact .pure ()
  | succ n ih =>
    intro s₀ s hs
    have hi (l) : SteadyIn p i s₀ { s with inner := l } := hs.next (.of_ifaces rfl rfl rfl)
    cases hl : s.inner with
    | nil => rw [preemptMoves_nil hl]; exact hs
    | cons m l =>
      cases m with
      | env a => rw [preemptMoves_env hl]; exact ih s₀ _ ((hi l).next (steadyAt_envAct _ a))
      | go => rw [preemptMoves_go hl]; exact hi l
      | irq j src =>
        have h := steadyIn_dispatcherMove (i := i) hw j src s₀ _ (hi l)
        rw [preemptMoves_irq hl]
        cases hr : dispatcherMove j src { s with inner := l } with
        | ok _ t => rw [hr] at h; exact ih s₀ t h
        | error k t => rw [hr] at h; exact h

omit hj in
theorem steadyIn_stepAt (op : Instr) (ph : Phase) : Stays (SteadyIn p i) (stepAt op ph) :=
  .bind (steadyIn_soft fun _ => ⟨rfl, rfl, rfl⟩) fun _ s₀ s hs => steadyIn_preemptMoves hw s.inner.length s₀ s hs

omit hj in
theorem steadyIn_initPoint (op : Instr) (w : InitPhase → Phase) (ph : InitPhase) :
    Stays (SteadyIn p i) (initPoint op w ph) := by
  cases ph with
  | timing rate => exact steadyIn_soft fun _ => ⟨rfl, rfl, rfl⟩
  | _ => exact steadyIn_stepAt hw op _

end points

/-! ### How far `IF.INIT` has come (42_bringup.md R154 to R159) -/

namespace Ctrl

/-- The configuration mode is requested (R154). -/
def AsksConfig (c : Ctrl) : Prop := c.mcr.getLsbD 0 = true ∧ c.mcr.getLsbD 1 = false

/-- The request is acknowledged (R155). -/
def InConfig (c : Ctrl) : Prop := c.AsksConfig ∧ c.mode = .config

/-- The timing is programmed, with no sleep request (R156). -/
def Timed (t : TimingParams) (c : Ctrl) : Prop := c.mcr.getLsbD 1 = false ∧ c.btr &&& btrRw = btrOf t

/-- The interrupt sources are programmed too (R157). -/
def Armed (t : TimingParams) (c : Ctrl) : Prop := c.Timed t ∧ c.ier &&& ierRw = 0x00000013#32

/-- The exit from the configuration mode is requested (R158). -/
def AsksNormal (t : TimingParams) (c : Ctrl) : Prop := c.Armed t ∧ c.mcr.getLsbD 0 = false

/-- The exit is acknowledged (R159). -/
def Ready (t : TimingParams) (c : Ctrl) : Prop := c.AsksNormal t ∧ c.mode ≠ .config

theorem Ready.programmed {t : TimingParams} {c : Ctrl} (h : c.Ready t) : c.programmed t := by
  obtain ⟨⟨⟨⟨hsleep, hbtr⟩, hier⟩, hinrq⟩, hmode⟩ := h
  exact ⟨hbtr, hier, and_three_eq_zero hinrq hsleep, hmode⟩

/-- A property of a controller that no step of another agent ends. -/
def Lasting (Q : Ctrl → Prop) : Prop := ∀ c d : Ctrl, c.Steady d → Q c → Q d

theorem lasting_true : Lasting fun _ => True := fun _ _ _ _ => trivial

theorem lasting_asksConfig : Lasting AsksConfig := fun _ _ h hc => ⟨h.inrq.trans hc.1, h.sleep.trans hc.2⟩

theorem lasting_inConfig : Lasting InConfig := fun c d h hc =>
  ⟨lasting_asksConfig c d h hc.1, h.config hc.1.1 hc.2⟩

theorem lasting_timed (t : TimingParams) : Lasting (Timed t) := fun _ _ h hc => ⟨h.sleep.trans hc.1, h.btr.trans hc.2⟩

theorem lasting_armed (t : TimingParams) : Lasting (Armed t) := fun c d h hc =>
  ⟨lasting_timed t c d h hc.1, h.ier.trans hc.2⟩

theorem lasting_asksNormal (t : TimingParams) : Lasting (AsksNormal t) := fun c d h hc =>
  ⟨lasting_armed t c d h hc.1, h.inrq.trans hc.2⟩

theorem lasting_ready (t : TimingParams) : Lasting (Ready t) := fun c d h hc =>
  ⟨lasting_asksNormal t c d h hc.1, h.normal hc.1.2 hc.2⟩

end Ctrl

/-- A write to `MCR` (47_controller_env.md R271). -/
def Ctrl.writeMcr (c : Ctrl) (v : Word) : Ctrl := { c with mcr := merge mcrRw c.mcr v ||| (v &&& 0x8000#32) }

theorem writeReg_mcr_eq (s : State) (i : Iface) (v : Word) : s.writeReg i .mcr v = s.onCtrl i (·.writeMcr v) := rfl

theorem writeMcr_inrq (c : Ctrl) (v : Word) : (c.writeMcr v).mcr.getLsbD 0 = v.getLsbD 0 := by
  simp [Ctrl.writeMcr, merge, mcrRw, -BitVec.getLsbD_eq_getElem]

theorem writeMcr_sleep (c : Ctrl) (v : Word) : (c.writeMcr v).mcr.getLsbD 1 = v.getLsbD 1 := by
  simp [Ctrl.writeMcr, merge, mcrRw, -BitVec.getLsbD_eq_getElem]

theorem writeMcr_asksConfig (c : Ctrl) (m : Word) : (c.writeMcr ((m &&& ~~~mcrSleep) ||| mcrInrq)).AsksConfig := by
  refine ⟨(writeMcr_inrq _ _).trans ?_, (writeMcr_sleep _ _).trans ?_⟩
  · simp [mcrInrq, -BitVec.getLsbD_eq_getElem]
  · simp [mcrSleep, mcrInrq, -BitVec.getLsbD_eq_getElem]

theorem writeMcr_asksNormal {c : Ctrl} {t : TimingParams} (h : c.Armed t) {m : Word} (hm : m.getLsbD 1 = false) :
    (c.writeMcr (m &&& ~~~mcrInrq)).AsksNormal t := by
  obtain ⟨⟨-, hbtr⟩, hier⟩ := h
  refine ⟨⟨⟨(writeMcr_sleep _ _).trans ?_, hbtr⟩, hier⟩, (writeMcr_inrq _ _).trans ?_⟩
  · simp [hm, -BitVec.getLsbD_eq_getElem]
  · simp [-BitVec.getLsbD_eq_getElem]

theorem isFilter_filterWrites (p : Params) (f : Word) : ∀ x ∈ filterWrites p f, x.1.isFilter = true := by
  unfold filterWrites filterBanks
  cases p.twoIfaces <;> simp [bankWrites, Reg.isFilter]

/-- In the build `p`, the controller of interface i satisfies `Q`. -/
def Holding (p : Params) (i : Iface) (Q : Ctrl → Prop) (s : State) : Prop := s.cfg = p ∧ Q (s.ctrl i)

section holding

variable {p : Params} {i : Iface} {Q Q' : Ctrl → Prop}

theorem holding_stays {α : Type} {x : Op α} (hQ : Ctrl.Lasting Q) (hx : Stays (SteadyIn p i) x) :
    Meets (Holding p i Q) x (fun _ => Holding p i Q) anyStop := by
  intro s hs
  have h : Meets (SteadyIn p i s) x (fun _ => Holding p i Q) anyStop :=
    (hx s).weaken (fun _ h => h) (fun _ t h => ⟨h.1, hQ _ _ h.2.2 hs.2⟩) fun _ _ _ => trivial
  exact h s ⟨hs.1, .refl s⟩

variable (hw : p.wf) (hi : hasIface p i = true)
include hw hi

theorem holding_fgRead {pt : Op Unit} (hQ : Ctrl.Lasting Q) (hpt : Stays (SteadyIn p i) pt) {r : Reg} (hr : hasReg i r) :
    Meets (Holding p i Q) (fgRead pt i r) (fun v t => Holding p i Q t ∧ v = t.readReg i r) anyStop := by
  refine Meets.bind _ (holding_stays hQ hpt) fun _ s hs => ?_
  obtain rfl := hs.1
  cases hc : (s.iface i).clkEn with
  | false => rw [regRead_unclocked hw hi hc hr]; trivial
  | true => rw [regRead_clocked hw hi hc hr]; exact ⟨hs, rfl⟩

theorem holding_fgWrite {pt : Op Unit} (hQ : Ctrl.Lasting Q) (hpt : Stays (SteadyIn p i) pt) {r : Reg} (hr : hasReg i r)
    {v : Word} {f : Ctrl → Ctrl} (hf : ∀ s : State, s.writeReg i r v = s.onCtrl i f) (hQ' : ∀ c, Q c → Q' (f c)) :
    Meets (Holding p i Q) (fgWrite pt i r v) (fun _ => Holding p i Q') anyStop := by
  refine Meets.bind _ (holding_stays hQ hpt) fun _ s hs => ?_
  obtain rfl := hs.1
  cases hc : (s.iface i).clkEn with
  | false => rw [regWrite_unclocked hw hi hc hr]; trivial
  | true =>
    rw [regWrite_clocked hw hi hc hr, hf]
    exact ⟨onCtrl_cfg s i f, by rw [ctrl_onCtrl_same]; exact hQ' _ hs.2⟩

theorem holding_pollInak {wait delay : Nat → Op Unit} (hQ : Ctrl.Lasting Q) (hwait : ∀ n, Stays (SteadyIn p i) (wait n))
    (hdelay : ∀ n, Stays (SteadyIn p i) (delay n)) (want : Bool) (n : Nat) :
    Meets (Holding p i Q) (pollInak wait delay i want n)
      (fun ok t => Holding p i Q t ∧ (ok = true → ((t.ctrl i).mode == .config) = want)) anyStop := by
  induction n with
  | zero => exact Meets.pure _ fun _ h => ⟨h, nofun⟩
  | succ n ih =>
    refine Meets.bind _ (holding_fgRead hw hi hQ (hwait n) fun _ => rfl) fun v s hv => ?_
    obtain ⟨hs, rfl⟩ := hv
    by_cases hread : (s.readReg i .msr).getLsbD 0 = want
    · rw [if_pos hread]
      exact ⟨hs, fun _ => (readReg_msr_inak s i).symm.trans hread⟩
    · rw [if_neg hread]
      exact Meets.bind _ (holding_stays hQ (hdelay n)) (fun _ => ih) s hs

section init

variable {point : InitPhase → Op Unit} (hpt : ∀ ph, Stays (SteadyIn p i) (point ph))
include hpt

omit hi in
theorem steadyIn_writeFilters (f : Word) (ws : List (Reg × Word)) (hws : ∀ x ∈ ws, x.1.isFilter = true) :
    Stays (SteadyIn p i) (writeFilters point f ws) := by
  induction ws with
  | nil => exact .pure _
  | cons x ws ih =>
    obtain ⟨hx, hrest⟩ := List.forall_mem_cons.1 hws
    exact .bind (.bind (hpt _) fun _ => steadyIn_regWrite hw (hasIface_if0 p) nofun (isProgrammed_of_isFilter hx) _)
      fun _ => ih hrest

omit hi in
theorem steadyIn_filterPhase (j : Iface) : Stays (SteadyIn p i) (filterPhase point j) := by
  cases j with
  | if0 =>
    refine .bind (.bind (Closed.fgRead (hpt _) _ _) fun f => .bind (.ask _) fun q => ?_) fun _ => .pure _
    exact steadyIn_writeFilters hw hpt _ _ (isFilter_filterWrites q _)
  | if1 => exact .pure _

theorem exitPoll_ready (t : TimingParams) (n : Nat) :
    Meets (Holding p i (Ctrl.AsksNormal t)) (exitPoll point i n) (fun r s => r = .ok → (s.ctrl i).programmed t)
      anyStop := by
  refine Meets.bind _ (holding_pollInak hw hi (Ctrl.lasting_asksNormal t) (fun _ => hpt _) (fun _ => hpt _) _ n)
    fun ok s ⟨hs, hmode⟩ => ?_
  cases ok with
  | false => exact nofun
  | true =>
    have hready : Holding p i (Ctrl.Ready t) s := ⟨hs.1, hs.2, by simpa using hmode rfl⟩
    have hfilters : Meets (Holding p i (Ctrl.Ready t)) (filterPhase point i)
        (fun r s => r = .ok → (s.ctrl i).programmed t) anyStop :=
      (holding_stays (Ctrl.lasting_ready t) (steadyIn_filterPhase hw hpt i)).weaken (fun _ h => h)
        (fun _ _ h _ => h.2.programmed) fun _ _ h => h
    exact hfilters s hready

theorem exitConfig_ready (t : TimingParams) :
    Meets (Holding p i (Ctrl.Armed t)) (exitConfig point i) (fun r s => r = .ok → (s.ctrl i).programmed t) anyStop := by
  refine Meets.bind _ (holding_fgRead hw hi (Ctrl.lasting_armed t) (hpt _) fun _ => rfl) fun m s ⟨hs, hm⟩ => ?_
  have hsleep : m.getLsbD 1 = false := hm ▸ hs.2.1.1
  exact Meets.bind _ (holding_fgWrite hw hi (Ctrl.lasting_armed t) (hpt _) (fun _ => rfl)
    (fun s => writeReg_mcr_eq s i _) fun c hc => writeMcr_asksNormal hc hsleep)
    (fun _ => exitPoll_ready hw hi hpt t _) s hs

theorem programTiming_ready (t : TimingParams) :
    Meets (Holding p i Ctrl.InConfig) (programTiming point i t) (fun r s => r = .ok → (s.ctrl i).programmed t)
      anyStop := by
  have hbtr : ∀ c : Ctrl, c.InConfig →
      (if c.mode = .config then { c with btr := merge btrRw c.btr (btrOf t) } else c).Timed t := fun c hc => by
    rw [if_pos hc.2]
    exact ⟨hc.1.2, (merge_and_mask _ _ _).trans (btrOf_and_btrRw t)⟩
  have hier : ∀ c : Ctrl, c.Timed t → { c with ier := merge ierRw c.ier ierValue }.Armed t := fun c hc =>
    ⟨hc, merge_and_mask _ _ _⟩
  refine Meets.bind _ (holding_fgWrite hw hi Ctrl.lasting_inConfig (hpt _) (fun _ => rfl) (fun _ => rfl) hbtr) fun _ => ?_
  refine Meets.bind _ (holding_fgWrite hw hi (Ctrl.lasting_timed t) (hpt _) (fun _ => rfl) (fun _ => rfl) hier) fun _ => ?_
  exact exitConfig_ready hw hi hpt t

theorem enterPoll_ready (t : TimingParams) (n : Nat) :
    Meets (Holding p i Ctrl.AsksConfig) (enterPoll point i t n) (fun r s => r = .ok → (s.ctrl i).programmed t)
      anyStop := by
  refine Meets.bind _ (holding_pollInak hw hi Ctrl.lasting_asksConfig (fun _ => hpt _) (fun _ => hpt _) _ n)
    fun ok s ⟨hs, hmode⟩ => ?_
  cases ok with
  | false => exact nofun
  | true => exact programTiming_ready hw hi hpt t s ⟨hs.1, hs.2, by simpa using hmode rfl⟩

theorem enterConfig_ready (t : TimingParams) :
    Meets (Holding p i fun _ => True) (enterConfig point i t) (fun r s => r = .ok → (s.ctrl i).programmed t)
      anyStop := by
  refine Meets.bind _ (holding_fgRead hw hi Ctrl.lasting_true (hpt _) fun _ => rfl) fun m s ⟨hs, _⟩ => ?_
  exact Meets.bind _ (holding_fgWrite hw hi Ctrl.lasting_true (hpt _) (fun _ => rfl)
    (fun s => writeReg_mcr_eq s i _) fun c _ => writeMcr_asksConfig c m)
    (fun _ => enterPoll_ready hw hi hpt t _) s hs

theorem ifInit_ready (rate : Word) :
    Meets (Holding p i fun _ => True) (ifInit point i rate)
      (fun r s => r = .ok → ∃ t, calcTimings p.pclk rate.toNat = some t ∧ (s.ctrl i).programmed t) anyStop := by
  refine Meets.bind _ (holding_stays Ctrl.lasting_true (hpt _)) fun _ => Meets.bind
    (fun c s => c = calcTimings p.pclk rate.toNat ∧ Holding p i (fun _ => True) s)
    (Meets.ask fun s hs => ⟨by rw [hs.1], hs⟩) fun c s ⟨hc, hs⟩ => ?_
  cases c with
  | none => exact nofun
  | some t =>
    exact (enterConfig_ready hw hi hpt t).weaken (fun _ h => h) (fun _ _ h hr => ⟨t, hc.symm, h hr⟩) (fun _ _ h => h) s hs

end init

end holding

/-- Settles O35: what each phase has programmed lasts through whatever interleaves until the next phase, and a phase starts
only where the one before ended with its acknowledgement. -/
theorem initOkMeansProgrammed : Obligations.InitOkMeansProgrammed := by
  intro s t i h hclocked hi he hr
  have hw := hclocked.data.build
  simp only [exec, execIfInit, ifaceOf_bits] at he
  have hpoint := sameHost_closed.toClosed.initPoint (.ifInit i.bits) (.init i)
  have hformed : (Instr.ifInit i.bits).wellFormed s.cfg.numIfaces = true := ifaceInRange_bits hi
  obtain ⟨code, u, hrun, hcode, rfl⟩ := hostCommand_answered h rfl hformed
    (sameHost_closed.toClosed.ifInit hpoint i _) he hr
  have hready := ifInit_ready hw hi (steadyIn_initPoint hw (.ifInit i.bits) (.init i)) s.args.rate
  have hstart : Holding s.cfg i (fun _ => True) (s.started (.ifInit i.bits) (.init i (.timing s.args.rate))) :=
    ⟨rfl, trivial⟩
  obtain ⟨p, hp, hprog⟩ := hready.ok hstart hrun (congrArg Result.status hcode).symm
  exact ⟨p, hp, by cases i <;> exact hprog⟩

end Sys2Proof.Machine
end

section
/-! The family 43_tx_path.md: the choice and the load of a mailbox, the completions a TX service handles, and the wait for
mailbox 0. -/

namespace Sys2Proof.Machine

/-! ### The choice of a mailbox (43_tx_path.md R181, R197) -/

theorem tme_iff (b : Mailbox) : b.tme = true ↔ b.st = .empty := by simp [Mailbox.tme]

theorem lowestEmpty_tsrWord (c : Ctrl) : lowestEmpty c.tsrWord =
    if c.mb0.tme then some .mb0 else if c.mb1.tme then some .mb1 else if c.mb2.tme then some .mb2 else none := by
  simp only [lowestEmpty, tsrTme_tsrWord, Ctrl.mb]

theorem lowestEmpty_of_firstEmpty {x : IfaceState} {m : Mb} (h : x.firstEmpty m) :
    lowestEmpty x.ctrl.tsrWord = some m := by
  obtain ⟨hm, hlower⟩ := h
  simp only [lowestEmpty_tsrWord, tme_iff]
  cases m with
  | mb0 => exact if_pos hm
  | mb1 => rw [if_neg hlower, if_pos (by exact hm)]
  | mb2 => rw [if_neg hlower.1, if_neg hlower.2, if_pos (by exact hm)]

theorem lowestEmpty_of_full {x : IfaceState} (h : x.canSend = false) : lowestEmpty x.ctrl.tsrWord = none := by
  simp only [IfaceState.canSend, Bool.or_eq_false_iff] at h
  obtain ⟨⟨h0, h1⟩, h2⟩ := h
  simp [lowestEmpty_tsrWord, h0, h1, h2]

theorem txfull_value (x : IfaceState) :
    boolVal (tsrTmeField x.ctrl.tsrWord == 0#3) = if x.canSend = true then 0 else 1 := by
  have hzero := tsrTmeField_eq_zero x
  cases hs : x.canSend with
  | false => simp [boolVal, hzero.mpr hs]
  | true => simp [boolVal, mt hzero.mp (by simp [hs])]

/-- Settles O42: the three `TME` bits are all 0 where no mailbox is empty. -/
theorem txfullResult : Obligations.TxfullResult := by
  intro s i h hq hr
  have hread := fgRead_quiet (s := s.started (.ifTxfull i.bits) (.txfull i)) (r := .tsr) hq (hr.started _ _)
    (fun _ => rfl) (.ifTxfull i.bits) (.txfull i)
  simp only [exec, execIfTxfull, ifaceOf_bits]
  refine hostCommand_returns (t := { s with res := none }) h rfl (ifaceInRange_bits hr.present) h.idle
    ⟨.busy (.ifTxfull i.bits) (.txfull i), ?_⟩
  simp only [txFull, bind_run, hread, State.readReg, State.ctrl, started_iface, txfull_value, pure_run]
  rfl

/-! ### The load of a mailbox (43_tx_path.md R182, R183) -/

/-- A mailbox after the register write of a step of the load (47_controller_env.md R271). -/
def Mailbox.took (fr : Frame) (b : Mailbox) : LoadStep → Mailbox
  | .ident => b.writeTir (tirOf fr)
  | .length => if b.tme then { b with tdtr := merge tdtrRw b.tdtr (tdtrOf fr) } else b
  | .low => if b.tme then { b with tdlr := tdlrOf fr.data } else b
  | .high => if b.tme then { b with tdhr := tdhrOf fr.data } else b
  | .request => b.writeTir (tirOf fr ||| 1#32)

theorem writeReg_loadStep (s : State) (i : Iface) (m : Mb) (fr : Frame) (k : LoadStep) :
    s.writeReg i (k.reg m) (k.word fr) = s.onCtrl i fun c => c.onMb m fun b => b.took fr k := by cases k <;> rfl

/-- The identifier word does not request transmission (30_encoding.md R89). -/
theorem tirOf_txrq (fr : Frame) : (tirOf fr).getLsbD 0 = false := by
  unfold tirOf
  split <;> simp [@BitVec.getLsbD_append 31 1, -BitVec.getLsbD_eq_getElem]

/-- The length word has rw bits only (10_state.md R41; 30_encoding.md R90). -/
theorem merge_tdtrOf (w : Word) (fr : Frame) : merge tdtrRw w (tdtrOf fr) = (w &&& 0x0000FEF0#32) ||| tdtrOf fr := by
  have hmask : tdtrOf fr &&& tdtrRw = tdtrOf fr := by
    unfold tdtrOf
    generalize fr.dlc = d
    revert d
    decide
  rw [merge, hmask]
  rfl

/-- An empty mailbox takes the whole frame, and the request with the last write. -/
theorem foldl_took {b : Mailbox} (hb : b.st = .empty) (fr : Frame) : loadSteps.foldl (Mailbox.took fr) b = b.loaded fr := by
  have hreq : (tirOf fr ||| 1#32).getLsbD 0 = true := by simp
  have htirq := tirOf_txrq fr
  simp only [loadSteps, List.foldl_cons, List.foldl_nil, Mailbox.took, Mailbox.writeTir, Mailbox.tme, hb, htirq, hreq,
    merge_tdtrOf, beq_self_eq_true, if_true, Bool.false_eq_true, if_false, Mailbox.loaded]

/-- An interface after the steps `ks` of the load of mailbox `m`. -/
def IfaceState.loading (y : IfaceState) (m : Mb) (fr : Frame) (ks : List LoadStep) : IfaceState :=
  { y with ctrl := y.ctrl.onMb m fun b => ks.foldl (Mailbox.took fr) b }

/-- The pending record of a frame sent (43_tx_path.md R183). -/
def Sending.record (x : Sending) : PendSlot := ⟨x.frame, x.deadline, loopbackFlag x.flags, true⟩

theorem onMb_congr {c : Ctrl} {m : Mb} {f g : Mailbox → Mailbox} (h : f (c.mb m) = g (c.mb m)) :
    c.onMb m f = c.onMb m g := by
  cases m <;>
  · simp only [Ctrl.mb] at h
    simp only [Ctrl.onMb, h]

theorem loading_cons (s : State) (i : Iface) (m : Mb) (fr : Frame) (p : PendSlot) (k : LoadStep) (ks : List LoadStep) :
    (s.onCtrl i fun c => c.onMb m fun b => b.took fr k).onIface i (fun y => (y.loading m fr ks).onPend m fun _ => p) =
      s.onIface i fun y => (y.loading m fr (k :: ks)).onPend m fun _ => p := by
  rw [State.onCtrl, onIface_onIface]
  cases m <;> rfl

theorem loading_sent {y : IfaceState} {m : Mb} (hm : (y.ctrl.mb m).st = .empty) (x : Sending) :
    (y.loading m x.frame loadSteps).onPend m (fun _ => x.record) = y.sent m x.frame x.deadline x.flags := by
  rw [IfaceState.loading, onMb_congr (g := fun b => b.loaded x.frame) (foldl_took hm x.frame)]
  rfl

section send

variable {s : State} {x : Sending} {op : Instr} (w : SendPhase → Phase) (hq : s.quiet) (hc : s.cs = false)
include hq hc

/-- The load inside the critical section, and the end of the section (43_tx_path.md R182, R183). -/
theorem sendLoad_ends (h : s.Reaches x.i) (tsr : Word) (m : Mb) (ks : List LoadStep) (g : Fg) :
    ∃ g', sendLoad (fun p => stepAt op (w p)) x tsr m ks { s with fg := g, cs := true } = .ok .accepted
      { s.onIface x.i (fun y => (y.loading m x.frame ks).onPend m fun _ => x.record) with fg := g' } := by
  induction ks generalizing s g with
  | nil =>
    refine ⟨g, ?_⟩
    simp only [sendLoad, bind_run, upd_run, exitCs_onIface hc, pure_run]
    cases x.i <;> cases m <;> rfl
  | cons k ks ih =>
    have hr : hasReg x.i (k.reg m) := fun _ => by cases k <;> rfl
    have hwrite := fgWrite_quiet (s := { s with fg := g, cs := true }) hq (h.of_eq rfl (by rw [iface_setFgCs])) hr
      (k.word x.frame) op (w (.load tsr m (k :: ks)))
    have hcomm (g' : Fg) (f : Ctrl → Ctrl) : ({ s with fg := g', cs := true } : State).onCtrl x.i f =
      { s.onCtrl x.i f with fg := g', cs := true } := by cases x.i <;> rfl
    rw [writeReg_loadStep, hcomm] at hwrite
    obtain ⟨g', hrest⟩ := ih (s := s.onCtrl x.i fun c => c.onMb m fun b => b.took x.frame k)
      (by simpa [State.quiet] using hq) (by simpa using hc) (h.onCtrl _ _) (.busy op (w (.load tsr m (k :: ks))))
    refine ⟨g', ?_⟩
    rw [loading_cons] at hrest
    simp only [sendLoad, bind_run, hwrite, hrest]

omit hc in
/-- The read of `TSR` inside the critical section (43_tx_path.md R181). -/
theorem sendRead_quiet (h : s.Reaches x.i) : fgRead (stepAt op (w .scan)) x.i .tsr
    { s with fg := .busy op (w .enter), cs := true } =
      .ok (s.ctrl x.i).tsrWord { s with fg := .busy op (w .scan), cs := true } := by
  have hctrl : ({ s with fg := .busy op (w .enter), cs := true } : State).ctrl x.i = s.ctrl x.i :=
    congrArg IfaceState.ctrl (iface_setFgCs ..)
  rw [← hctrl]
  exact fgRead_quiet (s := { s with fg := .busy op (w .enter), cs := true }) (r := .tsr) hq
    (h.of_eq rfl (by rw [iface_setFgCs])) (fun _ => rfl) op (w .scan)

theorem ifSend_accepts (h : s.Reaches x.i) (hr : rejected x.frame = false) {m : Mb} (hm : (s.iface x.i).firstEmpty m) :
    ∃ g, ifSend (fun p => stepAt op (w p)) x s = .ok .accepted
      { s.onIface x.i (fun y => y.sent m x.frame x.deadline x.flags) with fg := g } := by
  obtain ⟨g, hload⟩ := sendLoad_ends (op := op) w hq hc h (s.ctrl x.i).tsrWord m loadSteps (.busy op (w .scan))
  have hpick : lowestEmpty (s.ctrl x.i).tsrWord = some m := lowestEmpty_of_firstEmpty hm
  refine ⟨g, ?_⟩
  rw [onIface_congr (g := fun y => y.sent m x.frame x.deadline x.flags) (loading_sent hm.1 x)] at hload
  simp only [ifSend, hr, Bool.false_eq_true, if_false, bind_run, enterCsAt_quiet hq hc, sendScan,
    sendRead_quiet w hq h, hpick, hload]

theorem ifSend_full (h : s.Reaches x.i) (hr : rejected x.frame = false) (hm : (s.iface x.i).canSend = false) :
    ifSend (fun p => stepAt op (w p)) x s = .ok .noCapacity { s with fg := .busy op (w .scan) } := by
  have hpick : lowestEmpty (s.ctrl x.i).tsrWord = none := lowestEmpty_of_full hm
  simp only [ifSend, hr, Bool.false_eq_true, if_false, bind_run, enterCsAt_quiet hq hc, sendScan,
    sendRead_quiet w hq h, hpick, exitCs_inside hc, pure_run]

end send

theorem answer_runs {x : Op ResultCode} {s t : State} {r : ResultCode} (h : ∃ g, x s = .ok r { t with fg := g }) :
    ∃ g, answer x s = .ok (status r) { t with fg := g } := by
  obtain ⟨g, h⟩ := h
  exact ⟨g, by simp only [answer, bind_run, h, pure_run]⟩

/-- Settles O36: the choice is the lowest empty mailbox, and the five writes of the load reach it while it is empty. -/
theorem sendAccepted : Obligations.SendAccepted := by
  intro s i m h hq hr hfr hm
  simp only [exec, execIfSend, ifaceOf_bits]
  exact hostCommand_onIface h rfl (ifaceInRange_bits hr.present) (answer_runs
    (ifSend_accepts (s := s.started _ _) _ hq h.noCs (hr.started _ _) hfr (by rw [started_iface]; exact hm)))

/-- Settles O37: a frame is rejected before the first interleaving point, and a full interface after the read of `TSR`. -/
theorem sendTurnedAway : Obligations.SendTurnedAway := by
  intro s i h hi
  simp only [exec, execIfSend, ifaceOf_bits]
  refine ⟨fun hbad => ?_, fun hfr hq hr hfull => ?_⟩
  · have hrej : rejected s.args.frame = true := by simpa [rejected] using hbad
    refine hostCommand_returns (t := { s with res := none }) h rfl (ifaceInRange_bits hi) h.idle
      (answer_runs ⟨.busy (.ifSend i.bits) (.send ⟨i, s.args.frame, s.args.deadline, s.args.flags⟩ .enter), ?_⟩)
    simp only [ifSend, hrej, if_true, pure_run]
    rfl
  · exact hostCommand_returns (t := { s with res := none }) h rfl (ifaceInRange_bits hi) h.idle (answer_runs
      ⟨_, ifSend_full (s := s.started _ _) _ hq h.noCs (hr.started _ _) hfr (by rw [started_iface]; exact hfull)⟩)

/-- Settles O38: `if_discard` leaves the interface swept. -/
theorem discardResult : Obligations.DiscardResult := by
  intro s i h hq hr
  simp only [exec, execIfDiscard, ifaceOf_bits]
  exact hostCommand_onIface h rfl (ifaceInRange_bits hr.present) (discarded_ends
    (ifDiscard_ends (s := s.started _ _) (fun _ => ⟨_, rfl⟩) hq h.noCs hr.build hr.present
      fun _ => by rw [started_iface]; exact hr.clocked))

/-! ### The wait for mailbox 0 (43_tx_path.md R200, R201) -/

theorem toNat_satAdd64 (a b : U64) : (satAdd64 a b).toNat = min (a.toNat + b.toNat) (2 ^ 64 - 1) := by
  rw [satAdd64, BitVec.toNat_ofNat, Nat.mod_eq_of_lt (by omega)]

section wait

variable {s : State} {i : Iface} {op : Instr} {dl : U64} (hq : s.quiet) (hc : s.cs = false)
include hq hc

theorem waitAt_count (hn : (s.iface i).mb0Sem ≠ 0#32) : waitAt op i dl s = .ok (status .ok)
    { s.onIface i fun x => { x with mb0Sem := x.mb0Sem - 1#32 } with fg := .busy op (.wait i dl) } := by
  simp only [waitAt, bind_run, enterCsAt_quiet hq hc, ask_run, iface_setFgCs, hn, if_false, upd_run, exitCs_onIface hc,
    pure_run]

theorem waitAt_none (hn : (s.iface i).mb0Sem = 0#32) :
    waitAt op i dl s = .ok (.block (.blockedMb0 i dl)) { s with fg := .busy op (.wait i dl) } := by
  simp only [waitAt, bind_run, enterCsAt_quiet hq hc, ask_run, iface_setFgCs, hn, if_true, exitCs_inside hc, pure_run]

end wait

/-- Settles O43: the count, read inside the critical section, decides between the return and the suspension. -/
theorem waitMb0Result : Obligations.WaitMb0Result := by
  intro s i h hq hi
  have hw : (Instr.ifWaitmb0 i.bits).wellFormed s.cfg.numIfaces = true := ifaceInRange_bits hi
  have hface := started_iface s (.ifWaitmb0 i.bits) (.waitStart i s.args.timeout) i
  simp only [exec, execIfWaitmb0, ifaceOf_bits]
  refine ⟨fun hn => ?_, fun hn => ⟨satAdd64 s.mono s.args.timeout, toNat_satAdd64 _ _, ?_⟩⟩
  · exact hostCommand_onIface h rfl hw ⟨_, waitAt_count (s := s.started _ _) hq h.noCs (hface ▸ hn)⟩
  · have hbody : ifWaitMb0 (.ifWaitmb0 i.bits) i s.args.timeout (s.started _ (.waitStart i s.args.timeout)) = _ :=
      waitAt_none (s := s.started (.ifWaitmb0 i.bits) _) hq h.noCs (hface ▸ hn)
    rw [hostCommand_turn h rfl hw, hbody]
    rfl

theorem step_blockedMb0 {s : State} {i : Iface} {dl : U64} {timeout : Bool} {inner : List Inner} {l : List Move}
    (hf : s.faults = []) (hi : s.inIsr = false) (hg : s.fg = .blockedMb0 i dl) (hl : s.sched = .go timeout inner :: l) :
    step s = .next (wakeMb0 i dl timeout { s with sched := l }) := by
  simp [step, hl, foregroundStep, State.stopped, hf, hi, hg]

/-- Settles O44: the draw decides where the count and the deadline both allow the step. -/
theorem wakeMb0Step : Obligations.WakeMb0Step := by
  intro s i dl timeout inner l hf hi hg hl
  have hface : ({ s with sched := l } : State).iface i = s.iface i := by cases i <;> rfl
  rw [step_blockedMb0 hf hi hg hl, wakeMb0, hface]
  refine ⟨fun hn hdraw => ?_, fun hdl hdraw => ?_, fun hn hdl => ?_⟩
  · have hcount : ¬(timeout = true ∧ dl ≤ s.mono) := fun ⟨ht, hle⟩ =>
      hdraw.elim (by simp [ht]) (BitVec.not_lt.mpr hle)
    rw [if_pos ⟨hn, hcount⟩]
    cases i <;> rfl
  · rw [if_neg fun ⟨hn, hcount⟩ => hdraw.elim (fun ht => hcount ⟨ht, hdl⟩) hn, if_pos hdl]
  · rw [if_neg fun h => h.1 hn, if_neg (BitVec.not_le.mpr hdl)]

/-! ### A completion (43_tx_path.md R191, R192, R195) -/

section completion

variable {s : State} {i : Iface} {m : Mb}

/-- A change of an interface under a condition, as a function `g` that is the change there and nothing elsewhere. -/
theorem onlyIf_run {c : Bool} {x : Op Unit} {g : IfaceState → IfaceState} (ht : c = true → x s = .ok () (s.onIface i g))
    (hf : c = false → g (s.iface i) = s.iface i) : onlyIf c x s = .ok () (s.onIface i g) := by
  cases c with
  | true => exact ht rfl
  | false => rw [onlyIf_false, pure_run, onIface_eq_self (hf rfl)]

theorem onlyIf_markActivity (c : Bool) :
    onlyIf c (markActivity i) s = .ok () (s.onIface i fun x => { x with hadAct := x.hadAct || c }) :=
  onlyIf_run (fun hc => by simp [hc, markActivity]) fun hc => by simp [hc]

theorem onlyIf_countError (c : Bool) : onlyIf c (countError i) s =
    .ok () (s.onIface i fun x => { x with errCnt := if c then satInc32 x.errCnt else x.errCnt }) :=
  onlyIf_run (fun hc => by simp [hc, countError]) fun hc => by simp [hc]

theorem onlyIf_countMb0 : onlyIf (m == .mb0) (upd fun s => s.onIface i fun x => { x with mb0Sem := satInc32 x.mb0Sem }) s =
    .ok () (s.onIface i fun x => { x with mb0Sem := if m = .mb0 then satInc32 x.mb0Sem else x.mb0Sem }) :=
  onlyIf_run (fun hm => by simp [eq_of_beq hm]) fun hm => by simp [ne_of_beq_false hm]

/-- The push of a loopback frame, inside a service (43_tx_path.md R192). -/
theorem onlyIf_pushLoopback (hi : s.inIsr = true) (c : Bool) : onlyIf c (pushLoopback i m) s = .ok () (s.onIface i fun x =>
    { x with rb := if c then x.rb.push s.cfg.rxCapacity ⟨(x.pend m).frame, s.utc, loopbackFlags⟩ else x.rb }) := by
  refine onlyIf_run (fun hc => ?_) fun hc => by simp [hc]
  simp only [hc, if_true, pushLoopback, nowUtc, bind_run, ask_run, rbPush_guarded (.inl hi)]
  rw [onIface_congr]
  rfl

/-- An interface after `handle_completion` of mailbox `m` (43_tx_path.md R192, R195). -/
def IfaceState.handled (x : IfaceState) (cap : Nat) (utc : U64) (m : Mb) (txok : Bool) : IfaceState :=
  let q := x.pend m
  ({ x with
    hadAct := x.hadAct || txok
    rb := if q.pending && q.loopback && txok then x.rb.push cap ⟨q.frame, utc, 1#16⟩ else x.rb
    errCnt := if txok then x.errCnt else satInc32 x.errCnt
    mb0Sem := if m = .mb0 then satInc32 x.mb0Sem else x.mb0Sem } : IfaceState).onPend m fun q => { q with pending := false }

theorem handleCompletion_service (hi : s.inIsr = true) (txok : Bool) :
    handleCompletion i m txok s = .ok () (s.onIface i (·.handled s.cfg.rxCapacity s.utc m txok)) := by
  have hi' (f : IfaceState → IfaceState) : (s.onIface i f).inIsr = true := by simpa using hi
  simp only [handleCompletion, bind_run, ask_run, upd_run, onlyIf_markActivity, onlyIf_pushLoopback (hi' _),
    onlyIf_countError, onlyIf_countMb0, onIface_onIface, onIface_cfg, onIface_utc, iface_onIface_same]
  rw [onIface_congr]
  cases m <;> cases txok <;> rfl

/-- The completion of a mailbox: its acknowledgement, and then what `handle_completion` does. -/
theorem completed_eq_handled {x : IfaceState} (cap : Nat) (utc : U64) {m : Mb} (h : (x.ctrl.mb m).rqcp = true) :
    x.completed cap utc m = ({ x with ctrl := x.ctrl.onMb m fun b =>
      { b with rqcp := false, txok := false, alst := false, terr := false } } : IfaceState).handled cap utc m
        (x.ctrl.mb m).txok := by
  have hcond (p : Bool) (e : RxEntry) (q : PendSlot) : (if q.pending ∧ q.loopback ∧ p then x.rb.push cap e else x.rb) =
      if q.pending && q.loopback && p then x.rb.push cap e else x.rb := by
    cases q.pending <;> cases q.loopback <;> cases p <;> rfl
  simp only [IfaceState.completed, h, if_true, IfaceState.handled, hcond]
  cases m <;> rfl

theorem completed_idle {x : IfaceState} (cap : Nat) (utc : U64) {m : Mb} (h : (x.ctrl.mb m).rqcp = false) :
    x.completed cap utc m = x := by simp [IfaceState.completed, h]

@[simp] theorem completed_clkEn (x : IfaceState) (cap : Nat) (utc : U64) (m : Mb) :
    (x.completed cap utc m).clkEn = x.clkEn := by
  cases hr : (x.ctrl.mb m).rqcp with
  | false => rw [completed_idle cap utc hr]
  | true => rw [completed_eq_handled cap utc hr, IfaceState.handled, onPend_clkEn]

end completion

/-! ### A service with no other move inside it (43_tx_path.md R190; 44_rx_path.md R230) -/

/-- A service of interface i is running, nothing else moves, and the register block is reachable. -/
structure State.Serves (s : State) (i : Iface) : Prop where
  quiet   : s.quiet
  reaches : s.Reaches i
  isr     : s.inIsr = true

theorem State.Serves.onIface {s : State} {i : Iface} (h : s.Serves i) {f : IfaceState → IfaceState}
    (hf : ∀ x, (f x).clkEn = x.clkEn) : (s.onIface i f).Serves i :=
  ⟨(onIface_inner s i f).trans h.quiet, h.reaches.onIface i hf, (onIface_inIsr s i f).trans h.isr⟩

section service

variable {s : State} {i : Iface} (h : s.Serves i)
include h

/-- One mailbox of a TX service. -/
theorem serviceMailbox_quiet (m : Mb) :
    serviceMailbox i m s = .ok () (s.onIface i (·.completed s.cfg.rxCapacity s.utc m)) := by
  have hread := svcRead_quiet (r := .tsr) h.quiet h.reaches fun _ => rfl
  have hwrite := svcWrite_quiet (r := .tsr) h.quiet h.reaches (fun _ => rfl) (rqcpBit m)
  rw [writeReg_tsr_rqcp] at hwrite
  simp only [serviceMailbox, bind_run, hread, State.readReg, tsrRqcp_tsrWord, tsrTxok_tsrWord]
  cases hr : ((s.ctrl i).mb m).rqcp with
  | false =>
    rw [onIface_eq_self (completed_idle _ _ hr)]
    rfl
  | true =>
    simp only [if_true, bind_run, hwrite]
    rw [handleCompletion_service ((onCtrl_inIsr ..).trans h.isr), State.onCtrl, onIface_onIface, onIface_cfg,
      onIface_utc, onIface_congr]
    exact (completed_eq_handled _ _ hr).symm

omit h in
/-- Clearing `LEC` keeps the other bits of `ESR` (10_state.md R39). -/
theorem writeReg_esr_zero (s : State) (i : Iface) :
    s.writeReg i .esr 0#32 = s.onCtrl i fun c => { c with esr := c.esr &&& 0xFFFFFF8F#32 } := by
  simp [State.writeReg, merge, esrRw]

/-- Error polling, with its return. -/
theorem pollError_quiet : pollError i s = .ok () (s.onIface i (·.polled)).answered := by
  have hread := svcRead_quiet (r := .esr) h.quiet h.reaches fun _ => rfl
  simp only [pollError, returning, bind_run, hread, State.readReg, ite_run, upd_run]
  by_cases hlec : esrLec (s.ctrl i).esr = 0#3
  · have hsame : (s.iface i).polled = s.iface i := if_pos hlec
    rw [if_pos hlec, onIface_eq_self hsame]
    rfl
  · have hlatched := h.onIface (f := fun x => { x with lastHwErr := (esrLec (s.ctrl i).esr).setWidth 8 }) fun _ => rfl
    have hwrite := svcWrite_quiet (r := .esr) hlatched.quiet hlatched.reaches (fun _ => rfl) 0#32
    rw [writeReg_esr_zero] at hwrite
    rw [if_neg hlec]
    simp only [upd_run, hwrite, countError, State.onCtrl, onIface_onIface]
    rw [onIface_congr (g := (·.polled))]
    exact (if_neg hlec).symm

theorem txService_quiet : txService i s = .ok () { s.onIface i (·.txServiced s.cfg.rxCapacity s.utc) with
    wake := true, svcRes := some ⟨.ok, .none⟩ } := by
  have h0 := h.onIface fun x => completed_clkEn x s.cfg.rxCapacity s.utc .mb0
  have h1 := h0.onIface fun x => completed_clkEn x s.cfg.rxCapacity s.utc .mb1
  have h2 := h1.onIface fun x => completed_clkEn x s.cfg.rxCapacity s.utc .mb2
  have e0 := serviceMailbox_quiet h .mb0
  have e1 := serviceMailbox_quiet h0 .mb1
  have e2 := serviceMailbox_quiet h1 .mb2
  have e3 := pollError_quiet h2
  simp only [onIface_cfg, onIface_utc] at e1 e2
  simp only [txService, returning, bind_run, e0, e1, e2, e3, signalWake, upd_run]
  cases i <;> rfl

end service

/-- The state after `IF.TXSVC`. -/
def State.txServed (s : State) (i : Iface) : State := { s.onIface i (·.txServiced s.cfg.rxCapacity s.utc) with
  wake := true, svcRes := some ⟨.ok, .none⟩ }

theorem exec_ifTxsvc {s : State} {i : Iface} (h : s.ServiceTurn .entryTx) (hs : s.Serves i) :
    exec (.ifTxsvc i.bits) s = .next (s.txServed i) := by
  have hw : (Instr.ifTxsvc i.bits).wellFormed s.cfg.numIfaces = true := ifaceInRange_bits hs.reaches.present
  simp only [exec, execIfTxsvc, ifaceOf_bits]
  rw [isrCommand_service h (.inl rfl) hw, txService_quiet hs]
  rfl

/-- Settles O39: the three mailboxes, the error poll and the wake event, in the order of R190. -/
theorem txsvcResult : Obligations.TxsvcResult := fun _ _ h hq hr => exec_ifTxsvc h ⟨hq, hr, h.isr⟩

/-! ### A loopback frame (43_tx_path.md R192, R194) -/

section loopback

variable {x : IfaceState} {cap : Nat} {utc : U64} {m : Mb}

/-- A completion is acknowledged once it is handled. -/
theorem completed_rqcp (x : IfaceState) (cap : Nat) (utc : U64) (m k : Mb) :
    ((x.completed cap utc m).ctrl.mb k).rqcp = if k = m then false else (x.ctrl.mb k).rqcp := by
  cases hr : (x.ctrl.mb m).rqcp with
  | false =>
    rw [completed_idle cap utc hr]
    split
    · next hk => rw [hk, hr]
    · rfl
  | true =>
    rw [completed_eq_handled cap utc hr, IfaceState.handled, onPend_ctrl, mb_onMb]
    split <;> rfl

@[simp] theorem polled_rb (x : IfaceState) : x.polled.rb = x.rb := by
  unfold IfaceState.polled
  split <;> rfl

@[simp] theorem polled_pend (x : IfaceState) (m : Mb) : x.polled.pend m = x.pend m := by
  unfold IfaceState.polled
  split
  · rfl
  · cases m <;> rfl

@[simp] theorem polled_mb (x : IfaceState) (m : Mb) : x.polled.ctrl.mb m = x.ctrl.mb m := by
  unfold IfaceState.polled
  split
  · rfl
  · cases m <;> rfl

/-- A service leaves no completion unacknowledged. -/
theorem txServiced_rqcp (x : IfaceState) (cap : Nat) (utc : U64) (m : Mb) :
    ((x.txServiced cap utc).ctrl.mb m).rqcp = false := by
  cases m <;> simp [IfaceState.txServiced, completed_rqcp]

/-- A service of an interface on which `m` alone may be completed. -/
theorem txServiced_one (h : ∀ k, k ≠ m → (x.ctrl.mb k).rqcp = false) :
    x.txServiced cap utc = (x.completed cap utc m).polled := by
  have hbefore {k : Mb} (hk : k ≠ m) : x.completed cap utc k = x := completed_idle cap utc (h k hk)
  have hafter {k : Mb} (hk : k ≠ m) : (x.completed cap utc m).completed cap utc k = x.completed cap utc m :=
    completed_idle cap utc (by rw [completed_rqcp, if_neg hk, h k hk])
  cases m with
  | mb0 => rw [IfaceState.txServiced, hafter (k := .mb1) nofun, hafter (k := .mb2) nofun]
  | mb1 => rw [IfaceState.txServiced, hbefore (k := .mb0) nofun, hafter (k := .mb2) nofun]
  | mb2 => rw [IfaceState.txServiced, hbefore (k := .mb0) nofun, hbefore (k := .mb1) nofun]

theorem txServiced_rb_idle (h : ∀ k, (x.ctrl.mb k).rqcp = false) : (x.txServiced cap utc).rb = x.rb := by
  rw [txServiced_one (m := .mb0) fun k _ => h k, polled_rb, completed_idle cap utc (h .mb0)]

/-- The completion of a loopback frame that was sent. -/
theorem completed_loopback (hr : (x.ctrl.mb m).rqcp = true) (ht : (x.ctrl.mb m).txok = true)
    (hp : (x.pend m).pending = true) (hl : (x.pend m).loopback = true) :
    (x.completed cap utc m).rb = x.rb.push cap ⟨(x.pend m).frame, utc, 1#16⟩ ∧
      ((x.completed cap utc m).pend m).pending = false := by
  simp only [IfaceState.completed, hr, ht, hp, hl, if_true, and_self, onPend_rb, pend_onPend_same]

end loopback

@[simp] theorem polled_clkEn (x : IfaceState) : x.polled.clkEn = x.clkEn := by
  unfold IfaceState.polled
  split <;> rfl

section served

variable {s : State} {i : Iface}

theorem txServed_iface (s : State) (i : Iface) :
    (s.txServed i).iface i = (s.iface i).txServiced s.cfg.rxCapacity s.utc := by cases i <;> rfl

/-- A service leaves the turn to its body. -/
theorem State.ServiceTurn.txServed {who : Issuer} (h : s.ServiceTurn who) : (s.txServed i).ServiceTurn who where
  who := (onIface_by ..).trans h.who
  running := fun hg => h.running ((onIface_fg ..).symm.trans hg)
  healthy := (onIface_faults ..).trans h.healthy
  isr := (onIface_inIsr ..).trans h.isr

theorem State.Serves.txServed (h : s.Serves i) : (s.txServed i).Serves i where
  quiet := (onIface_inner ..).trans h.quiet
  reaches := h.reaches.of_eq (onIface_cfg ..) (by rw [txServed_iface]; simp [IfaceState.txServiced])
  isr := (onIface_inIsr ..).trans h.isr

end served

/-- Settles O41: the frame is pushed at its completion, and the service leaves no completion for the next one. -/
theorem loopbackExactlyOnce : Obligations.LoopbackExactlyOnce := by
  intro s i m h hq hr hwf hlen hrq htx hother hp hl
  have hs : s.Serves i := ⟨hq, hr, h.isr⟩
  have hone := txServiced_one (cap := s.cfg.rxCapacity) (utc := s.utc) hother
  obtain ⟨hrb, hpend⟩ := completed_loopback (cap := s.cfg.rxCapacity) (utc := s.utc) hrq htx hp hl
  refine ⟨s.txServed i, (s.txServed i).txServed i, exec_ifTxsvc h hs, exec_ifTxsvc h.txServed hs.txServed, ?_, ?_, ?_⟩
  · rw [txServed_iface, hone, polled_rb, hrb, content_push hwf, if_neg (Nat.ne_of_lt hlen)]
  · rw [txServed_iface, txServiced_rb_idle fun k => by rw [txServed_iface, txServiced_rqcp]]
  · rw [txServed_iface, hone, polled_pend, hpend]

/-! ### The ends of the services at every schedule (43_tx_path.md R193; 44_rx_path.md R219) -/

/-- Wherever `x` ends, the wake event is set. -/
def Signals (x : Op Unit) : Prop := ∀ s t, x s = .ok () t → t.wake = true

theorem signals_signalWake : Signals signalWake := by
  intro s t h
  cases h
  rfl

theorem signals_raise (k : FaultKind) : Signals (raise k) := by
  intro s t h
  cases h

theorem Signals.bind {β : Type} {x : Op β} {f : β → Op Unit} (h : ∀ b, Signals (f b)) : Signals (x >>= f) := by
  intro s t ht
  rw [bind_run] at ht
  cases hx : x s with
  | ok b s' => rw [hx] at ht; exact h b s' t ht
  | error k s' => rw [hx] at ht; cases ht

theorem Signals.ite {q : Prop} [Decidable q] {x y : Op Unit} (hx : Signals x) (hy : Signals y) :
    Signals (if q then x else y) := by split <;> assumption

/-- A service that signals the wake event last ends, in normal operation, with its record returned. -/
theorem service_ends {s : State} {x : Op Unit} {op : Instr} {pre : State → Prop} (hx : Signals x) (hs : pre s)
    (hm : Meets pre (returning x) (fun _ => Calm True s.cfg s.cs true) (Stop True)) :
    ∃ t, settleIsr op (returning x s) = .next t ∧ t.faults = [] ∧ t.inIsr = true ∧ t.cs = s.cs ∧ t.wake = true ∧
      t.svcRes = some ⟨.ok, .none⟩ := by
  have hend := hm s hs
  cases hr : x s with
  | error k t =>
    simp only [returning, bind_run, hr] at hend
    exact absurd trivial hend.1
  | ok a t =>
    simp only [returning, bind_run, hr, upd_run] at hend ⊢
    exact ⟨t.answered, rfl, hend.faults, hend.isr, hend.cs, hx s t hr, rfl⟩

theorem State.ServiceTurn.calm {s : State} {who : Issuer} (h : s.ServiceTurn who) (hc : s.Clocked) :
    Calm True s.cfg s.cs true s := ⟨rfl, rfl, h.isr, h.healthy, fun _ => hc⟩

/-- Settles O40: in normal operation no access of a service faults, and a FIFO that holds a message keeps one up to its
release. -/
theorem servicesEndAtEverySchedule : Obligations.ServicesEndAtEverySchedule := by
  intro s i f hc hi
  refine ⟨fun h => ?_, fun h hq => ?_⟩
  · have hw : (Instr.ifTxsvc i.bits).wellFormed s.cfg.numIfaces = true := ifaceInRange_bits hi
    simp only [exec, execIfTxsvc, ifaceOf_bits]
    rw [isrCommand_service h (.inl rfl) hw]
    refine service_ends ?_ (h.calm hc) (keeps_txService fun _ => hi)
    exact .bind fun _ => .bind fun _ => .bind fun _ => .bind fun _ => signals_signalWake
  · have hw : (Instr.ifRxsvc i.bits f.bits).wellFormed s.cfg.numIfaces = true := by
      simp [Instr.wellFormed, ifaceInRange_bits hi]
    simp only [exec, execIfRxsvc, ifaceOf_bits, fifoOf_bits]
    rw [isrCommand_service h (.inr (.inl rfl)) hw]
    refine service_ends ?_ ⟨h.calm hc, fun _ => hq⟩ (rxService_meets (fun _ => hi) f)
    exact .bind fun _ => .ite (signals_raise _) (.bind fun _ => .bind fun _ => .bind fun _ => .bind fun _ =>
      .bind fun _ => .bind fun _ => .bind fun _ => .bind fun _ => .bind fun _ => .bind fun _ => .bind fun _ =>
      signals_signalWake)

end Sys2Proof.Machine
end

section
/-! The family 44_rx_path.md: the drain of a FIFO by a service, the error poll, and the receive of the host. -/

namespace Sys2Proof.Machine

/-! ### The bridge hook (44_rx_path.md R221) -/

/-- The bridge port holds `b`; a name for the update, so that it commutes with changes of an interface. -/
def State.setBridge (s : State) (b : List Frame) : State := { s with bridge := b }

theorem bridgeHook_run (fr : Frame) (s : State) : bridgeHook fr s = .ok () (s.setBridge (s.bridged fr)) := by
  simp only [bridgeHook, upd_run, State.setBridge, State.bridged, Bool.and_eq_true, decide_eq_true_eq, and_assoc]

@[simp] theorem bridged_onIface (s : State) (i : Iface) (f : IfaceState → IfaceState) (fr : Frame) :
    (s.onIface i f).bridged fr = s.bridged fr := by cases i <;> rfl

theorem onIface_setBridge (s : State) (b : List Frame) (i : Iface) (f : IfaceState → IfaceState) :
    (s.setBridge b).onIface i f = (s.onIface i f).setBridge b := by cases i <;> rfl

theorem State.Serves.setBridge {s : State} {i : Iface} (h : s.Serves i) (b : List Frame) : (s.setBridge b).Serves i :=
  ⟨h.quiet, h.reaches.of_eq rfl (by cases i <;> rfl), h.isr⟩

/-! ### The RX service (44_rx_path.md R210 to R221) -/

/-- An interface after the drain of FIFO `f`'s head message `m`: `rxServiced` before its error poll. -/
def IfaceState.drained (x : IfaceState) (cap : Nat) (utc : U64) (f : Fifo) (m : RxMsg) : IfaceState :=
  { x with
    errCnt := if (x.ctrl.rx f).fovr then satInc32 x.errCnt else x.errCnt
    ctrl := x.ctrl.onRx f RxFifo.released
    rb := x.rb.push cap ⟨m.frame, utc, 0#16⟩
    hadAct := true }

theorem polled_drained (x : IfaceState) (cap : Nat) (utc : U64) (f : Fifo) (m : RxMsg) :
    (x.drained cap utc f m).polled = x.rxServiced cap utc f m := rfl

/-- The state after `IF.RXSVC` of a FIFO whose head message is `m`. -/
def State.rxServed (s : State) (i : Iface) (f : Fifo) (m : RxMsg) : State :=
  { s.onIface i (·.rxServiced s.cfg.rxCapacity s.utc f m) with
    bridge := s.bridged m.frame, wake := true, svcRes := some ⟨.ok, .none⟩ }

section service

variable {s : State} {i : Iface} {f : Fifo} {m : RxMsg} {q : List RxMsg} (h : s.Serves i)
include h

/-- The head registers of a FIFO, read by a service (44_rx_path.md R213). -/
theorem svcRead_head (hq : ((s.ctrl i).rx f).q = m :: q) :
    svcRead i (.rir f) s = .ok (rirOf m) s ∧ svcRead i (.rdtr f) s = .ok (rdtrOf m) s ∧
      svcRead i (.rdlr f) s = .ok (tdlrOf m.frame.data) s ∧ svcRead i (.rdhr f) s = .ok (tdhrOf m.frame.data) s := by
  have hread {r : Reg} := svcRead_quiet (i := i) (r := r) h.quiet h.reaches
  refine ⟨?_, ?_, ?_, ?_⟩ <;> rw [hread fun _ => rfl]
  · simp only [State.readReg, RxFifo.rir, hq]
  · simp only [State.readReg, RxFifo.rdtr, hq]
  · simp only [State.readReg, RxFifo.rdlr, hq]
  · simp only [State.readReg, RxFifo.rdhr, hq]

/-- An RX service of an empty FIFO stops before any change (44_rx_path.md R211). -/
theorem rxService_empty (hq : ((s.ctrl i).rx f).q = []) : rxService i f s = .error .rxFifoEmpty s := by
  have hread := svcRead_quiet (r := .rfr f) h.quiet h.reaches fun _ => rfl
  have hfmp : rfrFmp ((s.ctrl i).rx f).rfrWord = 0#2 := by rwa [RxFifo.rfrFmp_rfrWord, RxFifo.fmp_eq_zero]
  simp only [rxService, returning, bind_run, hread, State.readReg, hfmp, if_true, raise_run]

/-- An RX service of a FIFO with a message: the steps up to the bridge hook change the interface as `drained` says. -/
theorem rxService_quiet (hq : ((s.ctrl i).rx f).q = m :: q) (hm : m.admitted = true) :
    rxService i f s = .ok () (s.rxServed i f m) := by
  have hread := svcRead_quiet (r := .rfr f) h.quiet h.reaches fun _ => rfl
  have hfmp : rfrFmp ((s.ctrl i).rx f).rfrWord ≠ 0#2 := by
    rw [RxFifo.rfrFmp_rfrWord, Ne, RxFifo.fmp_eq_zero, hq]
    exact List.cons_ne_nil m q
  have hcounted := h.onIface (f := fun x =>
    { x with errCnt := if ((s.ctrl i).rx f).fovr then satInc32 x.errCnt else x.errCnt }) fun _ => rfl
  obtain ⟨hrir, hrdtr, hrdlr, hrdhr⟩ := svcRead_head hcounted (f := f) (m := m) (q := q)
    (by rwa [State.ctrl, iface_onIface_same])
  have hdecode := packingInverse.2 m hm
  have hwrite := svcWrite_quiet (r := .rfr f) hcounted.quiet hcounted.reaches (fun _ => rfl) rfrRelease
  simp only [State.writeReg, write_rfrRelease, State.onCtrl, onIface_onIface] at hwrite
  have hdrained := h.onIface (f := (·.drained s.cfg.rxCapacity s.utc f m)) fun _ => rfl
  have hpoll := pollError_quiet (hdrained.setBridge (s.bridged m.frame))
  simp only [onIface_setBridge, onIface_onIface, polled_drained] at hpoll
  simp only [rxService, returning, bind_run, hread, State.readReg, hfmp, if_false, onlyIf_countError, rfrWord_fovr, hrir,
    hrdtr, hrdlr, hrdhr, hdecode, hwrite, nowUtc, ask_run, rbPush_guarded (.inl ((onIface_inIsr ..).trans h.isr)),
    bridgeHook_run, markActivity, upd_run, onIface_setBridge, onIface_onIface, onIface_cfg, onIface_utc, bridged_onIface]
  rw [onIface_congr (g := (·.drained s.cfg.rxCapacity s.utc f m)) rfl, hpoll]
  rfl

end service

/-- A service command that raises a fault at its start. -/
theorem settleIsr_raises {s : State} (hf : s.faults = []) (x : Instr) (k : FaultKind) :
    settleIsr x (.error k s) = .next { s with faults := [k], faultCw := encode x, fg := .faulted } := by
  simp only [settleIsr, takeFault, hf, insertFault, if_true]

/-- Settles O46: the number of messages that the first read of `RFfR` gives decides between the drain and the fault. -/
theorem rxsvcResult : Obligations.RxsvcResult := by
  intro s i f h hquiet hr
  have hw : (Instr.ifRxsvc i.bits f.bits).wellFormed s.cfg.numIfaces = true := by
    simp [Instr.wellFormed, ifaceInRange_bits hr.present]
  have hs : s.Serves i := ⟨hquiet, hr, h.isr⟩
  simp only [exec, execIfRxsvc, ifaceOf_bits, fifoOf_bits]
  rw [isrCommand_service h (.inr (.inl rfl)) hw]
  refine ⟨fun m q hq hm => ?_, fun hq => ?_⟩
  · rw [rxService_quiet hs hq hm]
    rfl
  · rw [rxService_empty hs hq, settleIsr_raises h.healthy]

/-! ### Error polling (44_rx_path.md R230) -/

/-- Settles O47: the poll is the one at the end of each service. -/
theorem pollerrResult : Obligations.PollerrResult := by
  intro s i h hquiet hr
  have hw : (Instr.ifPollerr i.bits).wellFormed s.cfg.numIfaces = true := ifaceInRange_bits hr.present
  simp only [exec, execIfPollerr, ifaceOf_bits]
  rw [isrCommand_service h (.inr (.inr rfl)) hw, pollError_quiet ⟨hquiet, hr, h.isr⟩]
  rfl

/-! ### The receive of the host (44_rx_path.md R225, R226) -/

section receive

variable {s : State} {op : Instr} {i : Iface} (hq : s.quiet) (hc : s.cs = false)
include hq hc

theorem ifReceive_nonempty (hn : (s.iface i).rb.len ≠ 0) :
    ifReceive op i s = .ok (.done ⟨.ok, .received (s.iface i).rb.front.frame s.mono (s.iface i).rb.front.tsUtc
        (s.iface i).rb.front.flags⟩)
      { s.onIface i fun x => { x with rb := x.rb.drop s.cfg.rxCapacity } with fg := .busy op (.recv i s.mono) } := by
  have hface := iface_setFgCs s (.busy op (.recv i s.mono)) true i
  have hpop := rbPop_nonempty (s := { s with fg := .busy op (.recv i s.mono), cs := true }) (.inr rfl) i (by rwa [hface])
  simp only [ifReceive, receiveAt, nowMono, bind_run, enterCsAt_quiet hq hc, ask_run, hface, hn, if_false, hpop,
    exitCs_onIface hc, pure_run, utcOf]

theorem ifReceive_empty (hn : (s.iface i).rb.len = 0) :
    ifReceive op i s = .ok (status .empty) { s with fg := .busy op (.recv i s.mono) } := by
  simp only [ifReceive, receiveAt, nowMono, bind_run, enterCsAt_quiet hq hc, ask_run, iface_setFgCs, hn, if_true,
    exitCs_inside hc, pure_run]

end receive

/-- Settles O45: the length, read inside the critical section, decides between the pop and `EMPTY`. -/
theorem recvResult : Obligations.RecvResult := by
  intro s i h hq hi
  have hw : (Instr.ifRecv i.bits).wellFormed s.cfg.numIfaces = true := ifaceInRange_bits hi
  have hface := started_iface s (.ifRecv i.bits) (.recvStart i) i
  simp only [exec, execIfRecv, ifaceOf_bits]
  refine ⟨fun hn => ?_, fun hn => ?_⟩
  · rw [← hface] at hn ⊢
    exact hostCommand_onIface h rfl hw ⟨_, ifReceive_nonempty (s := s.started _ _) hq h.noCs hn⟩
  · exact hostCommand_returns (t := { s with res := none }) h rfl hw h.idle
      ⟨_, ifReceive_empty (s := s.started _ _) hq h.noCs (hface ▸ hn)⟩

end Sys2Proof.Machine
end

section
/-! The family 45_status.md: the commands that read and clear a latch. -/

namespace Sys2Proof.Machine

/-- A latch of interface i's soft state: its value, and the interface with the latch cleared. -/
theorem csTakeIface_quiet {α : Type} {s : State} (hq : s.quiet) (hc : s.cs = false) (op : Instr) (ph : Phase) (i : Iface)
    (f : IfaceState → α) (g : IfaceState → IfaceState) :
    csTake (stepAt op ph) (fun s => f (s.iface i)) (fun s => s.onIface i g) s =
      .ok (f (s.iface i)) { s.onIface i g with fg := .busy op ph } := by
  simp only [csTake, bind_run, enterCsAt_quiet hq hc, ask_run, iface_setFgCs, upd_run, exitCs_onIface hc, pure_run]

/-- A command of the host that answers a latch of an interface as a number and clears it. -/
theorem latch_result {α : Type} {x : Instr} {ph : Phase} {s : State} {i : Iface} (h : s.HostTurn) (hq : s.quiet)
    (hc : x.cls = .host) (hw : x.wellFormed s.cfg.numIfaces = true) (f : IfaceState → α) (g : IfaceState → IfaceState)
    (v : α → Nat) :
    hostCommand x ph (csTake (stepAt x ph) (fun s => f (s.iface i)) (fun s => s.onIface i g) >>= fun a =>
        pure (okVal (v a))) s =
      .next { s.onIface i g with res := some ⟨.ok, .val (v (f (s.iface i)))⟩ } := by
  refine hostCommand_onIface h hc hw ⟨.busy x ph, ?_⟩
  rw [bind_run, csTakeIface_quiet (s := s.started x ph) hq h.noCs, started_iface]
  rfl

/-- Settles O28: each of the two takes its latch inside the critical section. -/
theorem latchesReadAndClear : Obligations.LatchesReadAndClear := by
  intro s i h hq hi
  simp only [exec, execIfLasterr, execIfHadact, lastError, hadActivity, takeError, takeActivity, ifaceOf_bits]
  have hlast : (Instr.ifLasterr i.bits).wellFormed s.cfg.numIfaces = true := ifaceInRange_bits hi
  have hact : (Instr.ifHadact i.bits).wellFormed s.cfg.numIfaces = true := ifaceInRange_bits hi
  exact ⟨latch_result h hq rfl hlast (·.lastHwErr) _ BitVec.toNat,
    latch_result h hq rfl hact (·.hadAct) _ boolVal⟩

end Sys2Proof.Machine
end

section
/-! The family 46_multiplexer.md: readiness masks, `DRV.READY`, `DRV.SELECT` with its wake step, and `DRV.HADACT`. -/

namespace Sys2Proof.Machine

/-! ### The satisfaction predicate (46_multiplexer.md R255) -/

theorem maskAll_eq (p : Params) : maskAll p = if p.twoIfaces = true then 3#8 else 1#8 := by
  cases h : p.twoIfaces <;> simp [maskAll, Params.numIfaces, h]

/-- Settles O51: the mask of all interfaces is 1 or 3. -/
theorem satisfiedPredicate : Obligations.SatisfiedPredicate := by
  intro p rd wr reqRd reqWr m
  have hm : maskAll p = m := maskAll_eq p
  rw [satisfied, hm, bne_iff_ne]

/-! ### The readiness query with every block clocked (46_multiplexer.md R250) -/

/-- The two masks `m` with the bits of interface i added. -/
def State.scanned (s : State) (m : Byte × Byte) (i : Iface) : Byte × Byte :=
  (m.1 ||| if 0 < (s.iface i).rb.len then maskBit i else 0#8, m.2 ||| if (s.iface i).canSend then maskBit i else 0#8)

theorem scanned_setFg (s : State) (g : Fg) : ({ s with fg := g } : State).scanned = s.scanned := by
  funext m i
  simp only [State.scanned, iface_setFg]

/-- The bits of the interfaces of the build are the masks of R95. -/
theorem foldl_scanned (s : State) : (ifaces s.cfg).foldl s.scanned (0#8, 0#8) = (s.readMask, s.writeMask) := by
  cases h2 : s.cfg.twoIfaces with
  | false => simp [ifaces_one h2, State.scanned, State.readMask, State.writeMask, h2, maskBit, Iface.idx]
  | true =>
    simp only [ifaces_two h2, List.foldl_cons, List.foldl_nil, State.scanned, BitVec.zero_or, State.readMask,
      State.writeMask, h2, true_and]
    rfl

/-- An interleaving point at which, with no other move, at most the foreground's own phase changes: those of a command,
and those of the wake step. -/
def Passes (point : Op Unit) : Prop := ∀ s : State, s.quiet → ∃ g, point s = .ok () { s with fg := g }

theorem passes_stepAt (op : Instr) (ph : Phase) : Passes (stepAt op ph) := fun _ hq => ⟨_, stepAt_quiet hq op ph⟩

theorem passes_envPoint : Passes envPoint := fun s hq => ⟨s.fg, envPoint_quiet hq⟩

theorem Passes.csAsk {α : Type} {point : Op Unit} (hp : Passes point) {s : State} (hq : s.quiet) (hc : s.cs = false)
    (i : Iface) (f : IfaceState → α) :
    ∃ g, csAsk point (fun s => f (s.iface i)) s = .ok (f (s.iface i)) { s with fg := g } := by
  obtain ⟨g, hpoint⟩ := hp s hq
  refine ⟨g, ?_⟩
  simp only [Machine.csAsk, enterCsAt, bind_run, hpoint, enterCs_free (s := { s with fg := g }) hc, ask_run,
    iface_setFgCs, exitCs_inside hc, pure_run]

section ready

variable {s : State} {point : ReadyPhase → Op Unit} (hp : ∀ p, Passes (point p)) (hq : s.quiet)
include hp hq

theorem readyScan_masks {i : Iface} (h : s.Reaches i) (is : List Iface) (rd wr : Byte) :
    ∃ g, readyScan point i is rd wr (decide (0 < (s.iface i).rb.len)) s =
      .ok (s.scanned (rd, wr) i) { s with fg := g } := by
  obtain ⟨g, hpoint⟩ := hp (.scan i is rd wr (decide (0 < (s.iface i).rb.len))) s hq
  have hread := fgRead_point (r := .tsr) hpoint (h.setFg g) fun _ => rfl
  rw [readReg_fg] at hread
  refine ⟨g, ?_⟩
  have hzero : tsrTmeField (s.ctrl i).tsrWord = 0#3 ↔ (s.iface i).canSend = false := tsrTmeField_eq_zero (s.iface i)
  simp only [readyScan, bind_run, hread, State.readReg, hzero, pure_run, State.scanned]
  congr 2
  · by_cases hn : 0 < (s.iface i).rb.len <;> simp [hn]
  · cases (s.iface i).canSend <;> simp

theorem readyFrom_masks (hc : s.cs = false) {is : List Iface} (h : ∀ i ∈ is, s.Reaches i) (m : Byte × Byte) :
    ∃ g, readyFrom point is m.1 m.2 s = .ok (is.foldl s.scanned m) { s with fg := g } := by
  induction is generalizing s m with
  | nil => exact ⟨s.fg, rfl⟩
  | cons i is ih =>
    obtain ⟨hi, his⟩ := List.forall_mem_cons.mp h
    obtain ⟨g, hask⟩ := (hp (.enter i is m.1 m.2)).csAsk hq hc i fun x => decide (0 < x.rb.len)
    obtain ⟨g', hscan⟩ := readyScan_masks (s := { s with fg := g }) hp hq (hi.setFg g) is m.1 m.2
    obtain ⟨g'', hrest⟩ := ih (s := { s with fg := g' }) hq hc (fun j hj => (his j hj).setFg g') (s.scanned m i)
    rw [iface_setFg, scanned_setFg s g] at hscan
    rw [scanned_setFg s g'] at hrest
    exact ⟨g'', by simp only [readyFrom, bind_run, hask, hscan, hrest, List.foldl_cons]⟩

/-- `ready()` answers the masks and changes nothing but the foreground's phase. -/
theorem ready_masks (hc : s.cs = false) (h : ∀ i, hasIface s.cfg i = true → s.Reaches i) :
    ∃ g, ready point s = .ok (s.readMask, s.writeMask) { s with fg := g } := by
  rw [← foldl_scanned]
  exact readyFrom_masks hp hq hc (fun i hi => h i (mem_ifaces hi)) (0#8, 0#8)

/-- The query, and its answer as a result. -/
theorem readyResult_masks (hc : s.cs = false) (h : ∀ i, hasIface s.cfg i = true → s.Reaches i) :
    ∃ g, readyResult (ready point) s = .ok (.done ⟨.ok, .mask s.readMask s.writeMask⟩) { s with fg := g } := by
  obtain ⟨g, hready⟩ := ready_masks hp hq hc h
  refine ⟨g, ?_⟩
  simp only [readyResult, bind_run, hready, pure_run, maskResult]

end ready

/-- Settles O48: the command is the query. -/
theorem drvReadyResult : Obligations.ReadyResult := fun s h hq hr =>
  hostCommand_returns (t := { s with res := none }) h rfl rfl h.idle
    (readyResult_masks (s := s.started _ _) (fun _ => passes_stepAt _ _) hq h.noCs fun i hi => (hr i hi).started _ _)

/-! ### `DRV.SELECT` (46_multiplexer.md R252 to R256) -/

/-- How `select` ends with the masks of the state `t` (R255, R256). -/
def State.selected (t : State) (q : Selecting) : Ret :=
  if satisfied t.cfg t.readMask t.writeMask q.reqRd q.reqWr = true then .done ⟨.ok, .mask t.readMask t.writeMask⟩
  else .block (.blockedSelect q.deadline q.reqRd q.reqWr)

theorem selectEnd_masks (t : State) (q : Selecting) :
    selectEnd q (t.readMask, t.writeMask) t = .ok (t.selected q) t := by
  simp only [selectEnd, bind_run, ask_run, ite_run, pure_run, maskResult, State.selected]
  split <;> rfl

/-- `select` with every block clocked: the sweep, and the masks after it. -/
theorem select_clocked {s : State} {op : Instr} {q : Selecting} (hq : s.quiet) (hc : s.cs = false)
    (h : ∀ i, hasIface s.cfg i = true → s.Reaches i) :
    ∃ g, select op q s = .ok ((s.sweptAll s.mono).selected q) { s.sweptAll s.mono with fg := g } := by
  obtain ⟨g, hsweep⟩ := sweep_ends (op := op) (q := q) (now := s.mono) hq hc (h .if0 (hasIface_if0 _)).build
    fun j hj _ => (h j hj).clocked
  obtain ⟨g', hready⟩ := ready_masks (s := { s.sweptAll s.mono with fg := g }) (point := checkPoint op q)
    (fun _ => passes_stepAt _ _) hq hc fun i hi => (h i hi).of_eq rfl (by rw [iface_setFg, sweptAll_clkEn])
  refine ⟨g', ?_⟩
  simp only [select, nowMono, bind_run, ask_run, hsweep, selectCheck, hready]
  exact selectEnd_masks { s.sweptAll s.mono with fg := g' } q

/-- A command of the host that suspends the foreground. -/
theorem hostCommand_blocks {x : Instr} {ph : Phase} {body : Op Ret} {b : Fg} {s t : State} (h : s.HostTurn)
    (hc : x.cls = .host) (hw : x.wellFormed s.cfg.numIfaces = true)
    (hb : ∃ g, body (s.started x ph) = .ok (.block b) { t with fg := g }) :
    hostCommand x ph body s = .next { t with fg := b } := by
  obtain ⟨g, hb⟩ := hb
  rw [hostCommand_turn h hc hw, hb, settle]

/-- Settles O49: the masks after the sweep decide between the return and the suspension. -/
theorem selectResult : Obligations.SelectResult := by
  intro s h hq hr t
  have hselect {ph : Phase} {q : Selecting} {r : Ret} (hend : t.selected q = r) :
      ∃ g, select .drvSelect q (s.started .drvSelect ph) = .ok r { t with res := none, fg := g } :=
    hend ▸ select_clocked (s := s.started .drvSelect ph) hq h.noCs fun i hi => (hr i hi).started _ _
  by_cases hsat : satisfied s.cfg t.readMask t.writeMask s.args.reqRd s.args.reqWr = true
  · rw [if_pos hsat]
    exact hostCommand_returns (t := { t with res := none }) h rfl rfl h.idle (hselect (if_pos hsat))
  · rw [if_neg hsat]
    exact hostCommand_blocks (t := { t with res := none }) h rfl rfl (hselect (if_neg hsat))

/-! ### The wake step of `DRV.SELECT` (46_multiplexer.md R257) -/

theorem step_blockedSelect {s : State} {dl : U64} {rd wr : Byte} {b : Bool} {inner : List Inner} {l : List Move}
    (hf : s.faults = []) (hi : s.inIsr = false) (hg : s.fg = .blockedSelect dl rd wr)
    (hl : s.sched = .go b inner :: l) : step s = if s.wake = true ∨ dl ≤ s.mono then
      settle .drvSelect (wakeSelect { s with sched := l, inner := inner }) else .next { s with sched := l } := by
  simp [step, hl, foregroundStep, State.stopped, hf, hi, hg]

/-- The body of the wake step is the query, once the event is consumed. -/
theorem wakeSelect_eq (s : State) :
    wakeSelect s = readyResult (ready fun _ => envPoint) { s with wake := false } := rfl

/-- Settles O50: the event or the deadline enables the step; otherwise the foreground waits. -/
theorem wakeSelectStep : Obligations.WakeSelectStep := by
  intro s dl rd wr b l hf hc hi hg hl hr
  rw [step_blockedSelect hf hi hg hl]
  refine ⟨fun hon => ?_, fun hw hdl => ?_⟩
  · obtain ⟨g, hmasks⟩ := readyResult_masks (s := { s with sched := l, inner := [], wake := false })
      (fun _ => passes_envPoint) rfl hc fun i hi => (hr i hi).of_eq rfl (by cases i <;> rfl)
    rw [if_pos hon, wakeSelect_eq, hmasks]
    rfl
  · rw [if_neg (by simp [hw, BitVec.not_le.mpr hdl])]

/-! ### `DRV.HADACT` (46_multiplexer.md R260) -/

theorem takeActivity_quiet {s : State} (hq : s.quiet) (hc : s.cs = false) (op : Instr) (ph : Phase) (i : Iface) :
    takeActivity (stepAt op ph) i s =
      .ok (s.iface i).hadAct { s.onIface i (fun x => { x with hadAct := false }) with fg := .busy op ph } :=
  csTakeIface_quiet hq hc op ph i (·.hadAct) _

/-- The latches of every interface of the build cleared. -/
def State.activityTaken (s : State) : State :=
  { s with
    if0 := { s.if0 with hadAct := false }
    if1 := if s.cfg.twoIfaces = true then { s.if1 with hadAct := false } else s.if1 }

theorem drvActivity_quiet {s : State} (hq : s.quiet) (hc : s.cs = false) (op : Instr) :
    ∃ g, drvActivity op (ifaces s.cfg) false s =
      .ok (okVal (if s.if0.hadAct = true ∨ (s.cfg.twoIfaces = true ∧ s.if1.hadAct = true) then 1 else 0))
        { s.activityTaken with fg := g } := by
  have htake0 (is : List Iface) := takeActivity_quiet hq hc op (.activity .if0 is false) .if0
  cases h2 : s.cfg.twoIfaces with
  | false =>
    refine ⟨.busy op (.activity .if0 [] false), ?_⟩
    simp only [ifaces_one h2, drvActivity, activityFrom, bind_run, htake0, pure_run, iface_if0, Bool.false_or, boolVal,
      State.activityTaken, h2, Bool.false_eq_true, false_and, or_false, if_false]
    rfl
  | true =>
    have htake1 := takeActivity_quiet
      (s := { s.onIface .if0 (fun x => { x with hadAct := false }) with fg := .busy op (.activity .if0 [.if1] false) })
      hq hc op (.activity .if1 [] s.if0.hadAct) .if1
    refine ⟨.busy op (.activity .if1 [] s.if0.hadAct), ?_⟩
    simp only [ifaces_two h2, drvActivity, activityFrom, bind_run, htake0, htake1, pure_run, iface_if0, Bool.false_or,
      boolVal, Bool.or_eq_true, State.activityTaken, h2, if_true, true_and]
    rfl

/-- Settles O29: the latches are taken one after the other, each inside the critical section. -/
theorem driverActivityResult : Obligations.DriverActivityResult := fun s h hq =>
  hostCommand_returns (t := { s.activityTaken with res := none }) h rfl rfl h.idle
    (drvActivity_quiet (s := s.started _ _) hq h.noCs .drvHadact)

end Sys2Proof.Machine
end

section
/-! The family 47_controller_env.md: what one environment step can make of a state, and what a completion, a frame arrival and
a bus error change. -/

namespace Sys2Proof.Machine

/-! ### What an environment step leaves of a controller (47_controller_env.md R284) -/

theorem esrLec_and_esrRw (w : Word) : esrLec (w &&& esrRw) = esrLec w := by
  rw [esrLec, BitVec.extractLsb'_and]
  exact BitVec.and_allOnes

/-- The last-error code is the rw field of `ESR` (10_state.md R39). -/
theorem esrLec_congr {v w : Word} (h : v &&& esrRw = w &&& esrRw) : esrLec v = esrLec w := by
  rw [← esrLec_and_esrRw v, h, esrLec_and_esrRw]

theorem esrLec_shift (lec : BitVec 3) : esrLec (lec.setWidth 32 <<< 4) = lec := by
  revert lec
  decide

theorem lec_shift_and_esrRw (lec : BitVec 3) : (lec.setWidth 32 <<< 4) &&& esrRw = lec.setWidth 32 <<< 4 := by
  revert lec
  decide

/-- No request and no completion out of nothing. -/
structure Mailbox.EnvLimits (b d : Mailbox) : Prop where
  request    : d.tir.getLsbD 0 = true → b.tir.getLsbD 0 = true
  completion : d.rqcp = true → b.rqcp = true ∨ b.st ≠ .empty

theorem Mailbox.EnvLimits.of_eq {b d : Mailbox} (htir : d.tir = b.tir) (hrqcp : d.rqcp = b.rqcp) : b.EnvLimits d :=
  ⟨fun h => htir ▸ h, fun h => .inl (hrqcp ▸ h)⟩

theorem Mailbox.EnvLimits.complete (b : Mailbox) (txok : Bool) : b.EnvLimits (b.complete txok) := by
  unfold Mailbox.complete
  cases hst : b.st with
  | empty => exact .of_eq rfl rfl
  | requested | aborting => exact ⟨fun h => by simp [-BitVec.getLsbD_eq_getElem] at h, fun _ => .inr (by simp [hst])⟩

theorem RxFifo.length_le_arrive (x : RxFifo) (msg : RxMsg) (replace : Bool) :
    x.q.length ≤ (x.arrive msg replace).q.length := by
  unfold RxFifo.arrive
  split
  · simp
  · cases replace
    · exact le_rfl
    · simp; omega

/-- The limits of R284 on what becomes of a controller. Those on `BTR` and `IER` are in `Ctrl.Steady`. -/
structure Ctrl.EnvLimits (c d : Ctrl) : Prop where
  mcr       : d.mcr &&& mcrRw = c.mcr &&& mcrRw
  lec       : esrLec d.esr = 0#3 → esrLec c.esr = 0#3
  mailboxes : ∀ m, (c.mb m).EnvLimits (d.mb m)
  fifos     : ∀ f, (c.rx f).q.length ≤ (d.rx f).q.length

namespace Ctrl.EnvLimits

theorem of_eq {c d : Ctrl} (hmcr : d.mcr &&& mcrRw = c.mcr &&& mcrRw) (hesr : esrLec d.esr = 0#3 → esrLec c.esr = 0#3)
    (hmb : ∀ m, d.mb m = c.mb m) (hrx : ∀ f, d.rx f = c.rx f) : c.EnvLimits d where
  mcr := hmcr
  lec := hesr
  mailboxes m := hmb m ▸ .of_eq rfl rfl
  fifos f := hrx f ▸ le_rfl

theorem refl (c : Ctrl) : c.EnvLimits c := .of_eq rfl id (fun _ => rfl) fun _ => rfl

theorem onMb (c : Ctrl) (m : Mb) {f : Mailbox → Mailbox} (hf : ∀ b : Mailbox, b.EnvLimits (f b)) :
    c.EnvLimits (c.onMb m f) where
  mcr := by rw [onMb_mcr]
  lec := by rw [onMb_esr]; exact id
  mailboxes k := by
    rw [mb_onMb]
    split
    · next e => exact e ▸ hf _
    · exact .of_eq rfl rfl
  fifos k := by rw [rx_onMb]

theorem onRx (c : Ctrl) (k : Fifo) {g : RxFifo → RxFifo} (hg : ∀ x : RxFifo, x.q.length ≤ (g x).q.length) :
    c.EnvLimits (c.onRx k g) where
  mcr := by rw [onRx_mcr]
  lec := by rw [onRx_esr]; exact id
  mailboxes m := by rw [mb_onRx]; exact .of_eq rfl rfl
  fifos f := by
    rw [rx_onRx]
    split
    · next e => exact e ▸ hg _
    · exact le_rfl

theorem enterConfig (c : Ctrl) : c.EnvLimits c.enterConfig := by
  unfold Ctrl.enterConfig
  split
  · exact .of_eq rfl id (fun m => by cases m <;> rfl) fun f => by cases f <;> rfl
  · exact .refl c

theorem enterNormal (c : Ctrl) : c.EnvLimits c.enterNormal := by
  unfold Ctrl.enterNormal
  split
  · exact .of_eq rfl id (fun m => by cases m <;> rfl) fun f => by cases f <;> rfl
  · exact .refl c

/-- A bus error writes a code other than 0. -/
theorem busError (c : Ctrl) (lec : BitVec 3) : c.EnvLimits (c.busError lec) := by
  unfold Ctrl.busError
  split
  · exact .refl c
  · next hlec =>
    refine .of_eq rfl (fun h => absurd (.inl ?_) hlec) (fun m => by cases m <;> rfl) fun f => by cases f <;> rfl
    rwa [esrLec_congr (merge_and_mask esrRw c.esr _), esrLec_shift] at h

theorem driftMcr (c : Ctrl) (v : Word) :
    c.EnvLimits { c with mcr := merge 0xFFFE7F00#32 c.mcr v &&& (v ||| 0xFFFF7FFF#32) } := by
  have hkept : merge 0xFFFE7F00#32 c.mcr v &&& (v ||| 0xFFFF7FFF#32) &&& mcrRw = c.mcr &&& mcrRw := by
    have hdrift : (0xFFFE7F00#32 : Word) &&& mcrRw = 0#32 := by decide
    have hclear : (0xFFFF7FFF#32 : Word) &&& mcrRw = mcrRw := by decide
    apply BitVec.eq_of_getLsbD_eq
    intro k hk
    have hdriftk := congrArg (·.getLsbD k) hdrift
    have hcleark := congrArg (·.getLsbD k) hclear
    simp only [BitVec.getLsbD_and, BitVec.getLsbD_zero] at hdriftk hcleark
    simp only [merge, BitVec.getLsbD_and, BitVec.getLsbD_or, BitVec.getLsbD_not, hk, decide_true, Bool.true_and]
    grind
  exact .of_eq hkept id (fun m => by cases m <;> rfl) fun f => by cases f <;> rfl

theorem driftEsr (c : Ctrl) (v : Word) : c.EnvLimits { c with esr := merge (~~~esrRw) c.esr v } :=
  .of_eq rfl (fun h => (esrLec_congr (merge_not_and_mask esrRw c.esr v)).symm.trans h) (fun m => by cases m <;> rfl)
    fun f => by cases f <;> rfl

/-- The environment's bits of `TSR` are neither a request nor a completion. -/
theorem driftTsr (c : Ctrl) (v : Word) : c.EnvLimits { c with
    code := v.extractLsb' 24 2
    mb0 := c.mb0.drift (v.extractLsb' 0 8) (v.getLsbD 29)
    mb1 := c.mb1.drift (v.extractLsb' 8 8) (v.getLsbD 30)
    mb2 := c.mb2.drift (v.extractLsb' 16 8) (v.getLsbD 31) } where
  mcr := rfl
  lec := id
  mailboxes m := by cases m <;> exact .of_eq rfl rfl
  fifos f := by cases f <;> exact le_rfl

end Ctrl.EnvLimits

/-! ### What an environment step can make of a state -/

/-- The state after a step of an environment agent other than the bridge consumer: unchanged, or changed by a running
controller within the limits of R284, in the filter registers while interface 0's block is clocked, in the clocks' readings
or in the pool's answer (47_controller_env.md R270, R285; 60_exceptions.md R322). -/
inductive State.EnvStep (s : State) : State → Prop
  | stays : s.EnvStep s
  | ctrl (i : Iface) (f : Ctrl → Ctrl) (hrun : (s.iface i).clkEn = true) (hf : ∀ c : Ctrl, c.EnvLimits (f c)) :
      s.EnvStep (s.onCtrl i f)
  | filters (fl : Filters) (hrun : (s.iface .if0).clkEn = true) : s.EnvStep { s with filt := fl }
  | clocks (mono utc : U64) : s.EnvStep { s with mono := mono, utc := utc }
  | pool (ok : Bool) : s.EnvStep { s with poolOk := ok }

theorem clkEn_of_ctrlRuns {s : State} {i : Iface} (h : ctrlRuns s i = true) : (s.iface i).clkEn = true :=
  (Bool.and_eq_true_iff.1 h).2

theorem envStep_ctrlStep (s : State) (i : Iface) {f : Ctrl → Ctrl} (hf : ∀ c : Ctrl, c.EnvLimits (f c)) :
    s.EnvStep (s.ctrlStep i f) := by
  unfold State.ctrlStep
  split
  · next hrun => exact .ctrl i f (clkEn_of_ctrlRuns hrun) hf
  · exact .stays

/-- The filter registers are in interface 0's block alone (20_memory.md R65). -/
theorem eq_if0_of_blockHas {i : Iface} {r : Reg} (h : blockHas i r = true) (hr : r.isFilter = true) : i = .if0 := by
  cases i with
  | if0 => rfl
  | if1 => simp [blockHas, hr] at h

theorem envStep_driftReg {s : State} {i : Iface} {r : Reg} (hrun : (s.iface i).clkEn = true) (hr : blockHas i r = true)
    (v : Word) : s.EnvStep (s.driftReg i r v) := by
  cases r with
  | mcr => exact .ctrl i _ hrun fun c => .driftMcr c v
  | esr => exact .ctrl i _ hrun fun c => .driftEsr c v
  | tsr => exact .ctrl i _ hrun fun c => .driftTsr c v
  | msr | ier | btr =>
    simp only [State.driftReg]
    exact .ctrl i _ hrun fun c => .of_eq rfl id (fun m => by cases m <;> rfl) fun f => by cases f <;> rfl
  | rfr | rir | rdtr | rdlr | rdhr =>
    refine .ctrl i _ hrun fun c => .onRx c _ ?_
    exact fun x => le_rfl
  | tdtr =>
    refine .ctrl i _ hrun fun c => .onMb c _ ?_
    exact fun b => .of_eq rfl rfl
  | tir | tdlr | tdhr | fr1 | fr2 => exact .stays
  | fmr | fm1r | fs1r | ffa1r | fa1r => exact .filters _ (eq_if0_of_blockHas hr rfl ▸ hrun)

theorem envStep_envAct {a : EnvAct} (ha : a ≠ .consume) (s : State) : s.EnvStep (envAct a s) := by
  cases a with
  | enterConfig i => exact envStep_ctrlStep s i .enterConfig
  | enterNormal i => exact envStep_ctrlStep s i .enterNormal
  | complete i m txok => exact envStep_ctrlStep s i fun c => .onMb c m fun b => .complete b txok
  | arrive i f msg replace =>
    refine envStep_ctrlStep s i fun c => ?_
    split
    · exact .onRx c f fun x => x.length_le_arrive msg replace
    · exact .refl c
  | busError i lec =>
    refine envStep_ctrlStep s i fun c => ?_
    split
    · exact .busError c lec
    · exact .refl c
  | drift i r v =>
    simp only [envAct]
    split
    · next h =>
      obtain ⟨hrun, hr⟩ := Bool.and_eq_true_iff.1 h
      exact envStep_driftReg (clkEn_of_ctrlRuns hrun) hr v
    · exact .stays
  | tick mono utc => exact .clocks _ _
  | pool ok => exact .pool ok
  | consume => exact absurd rfl ha

namespace State.EnvStep

variable {s t : State}

theorem limits (h : s.EnvStep t) (i : Iface) : (s.ctrl i).EnvLimits (t.ctrl i) := by
  cases h with
  | ctrl j f hrun hf =>
    unfold State.ctrl
    rw [iface_onCtrl]
    split
    · next e => exact e ▸ hf _
    · exact .refl _
  | stays | filters | clocks | pool => cases i <;> exact .refl _

theorem unclocked_ctrl (h : s.EnvStep t) {i : Iface} (hi : (s.iface i).clkEn = false) : t.ctrl i = s.ctrl i := by
  cases h with
  | ctrl j f hrun hf =>
    have hne : i ≠ j := fun e => by simp [e, hrun] at hi
    exact congrArg (·.ctrl) (iface_onIface_ne s _ hne)
  | stays | filters | clocks | pool => cases i <;> rfl

theorem unclocked_filt (h : s.EnvStep t) (h0 : (s.iface .if0).clkEn = false) : t.filt = s.filt := by
  cases h with
  | ctrl j f => exact onCtrl_filt s j f
  | filters fl hrun => exact absurd (hrun.symm.trans h0) nofun
  | stays | clocks | pool => rfl

theorem iface (h : s.EnvStep t) (i : Iface) : ∃ c, t.iface i = { s.iface i with ctrl := c } := by
  cases h with
  | ctrl j f =>
    rw [iface_onCtrl]
    split
    · next e => exact ⟨_, by rw [e]⟩
    · exact ⟨(s.iface i).ctrl, rfl⟩
  | stays | filters | clocks | pool => exact ⟨(s.iface i).ctrl, by cases i <;> rfl⟩

theorem soft (h : s.EnvStep t) : t.fg = s.fg ∧ t.wake = s.wake ∧ t.cs = s.cs ∧ t.inIsr = s.inIsr ∧
    t.faults = s.faults ∧ t.faultCw = s.faultCw ∧ t.bridge = s.bridge := by
  cases h with
  | ctrl j f => simp
  | stays | filters | clocks | pool => exact ⟨rfl, rfl, rfl, rfl, rfl, rfl, rfl⟩

end State.EnvStep

theorem envLimits_envAct (a : EnvAct) (s : State) (i : Iface) : (s.ctrl i).EnvLimits ((envAct a s).ctrl i) := by
  by_cases ha : a = .consume
  · subst ha
    cases i <;> exact .refl _
  · exact (envStep_envAct ha s).limits i

/-- Settles O18: whatever the step, a controller changes within the limits, or not at all. -/
theorem environmentLimits : Obligations.EnvironmentLimits := by
  intro a s i
  obtain ⟨hmcr, hlec, hmb, hrx⟩ := envLimits_envAct a s i
  obtain ⟨-, hsteady⟩ := steadyAt_envAct (i := i) s a
  exact ⟨hmcr, hsteady.btr, hsteady.ier, hlec, fun m => ⟨(hmb m).request, (hmb m).completion⟩, hrx⟩

/-- Settles O19: the bridge consumer's step changes the bridge port alone; every other one is an `EnvStep`. -/
theorem environmentFrame : Obligations.EnvironmentFrame := by
  intro a s i
  by_cases ha : a = .consume
  · subst ha
    exact ⟨fun _ => by cases i <;> rfl, fun _ => rfl, ⟨(s.iface i).ctrl, by cases i <;> rfl⟩,
      rfl, rfl, rfl, rfl, rfl, rfl, rfl⟩
  · have h := envStep_envAct ha s
    rw [if_neg ha]
    exact ⟨h.unclocked_ctrl, h.unclocked_filt, h.iface i, h.soft⟩

/-! ### Completions, arrivals and bus errors, and the registers that show them -/

theorem ctrlStep_of_reaches {s : State} {i : Iface} (h : s.Reaches i) (f : Ctrl → Ctrl) :
    s.ctrlStep i f = s.onCtrl i f := by
  have hrun : ctrlRuns s i = true := Bool.and_eq_true_iff.2 ⟨h.present, h.clocked⟩
  rw [State.ctrlStep, if_pos hrun]

theorem onRx_congr {c : Ctrl} {k : Fifo} {f g : RxFifo → RxFifo} (h : f (c.rx k) = g (c.rx k)) :
    c.onRx k f = c.onRx k g := by
  cases k <;>
  · simp only [Ctrl.rx] at h
    simp only [Ctrl.onRx, h]

/-- `ABRQm` as the block would mask it reads 0 unless the mailbox is aborting (10_state.md R36). -/
theorem tsrWord_and_abrqBit {c : Ctrl} {m : Mb} (h : (c.mb m).abrq = false) : c.tsrWord &&& abrqBit m = 0#32 := by
  obtain ⟨k, hbit, hk⟩ : ∃ k, abrqBit m = BitVec.twoPow 32 k ∧ c.tsrWord.getLsbD k = (c.mb m).abrq := by
    cases m
    · exact ⟨7, by decide, (tsrWord_byte0 c (by decide)).trans (tsrByte_bits _).2.2⟩
    · exact ⟨15, by decide, (tsrWord_byte1 c (k := 7) (by decide)).trans (tsrByte_bits _).2.2⟩
    · exact ⟨23, by decide, (tsrWord_byte2 c (k := 7) (by decide)).trans (tsrByte_bits _).2.2⟩
  rw [hbit, BitVec.and_twoPow, hk, h]
  rfl

theorem rfrWord_full (x : RxFifo) : x.rfrWord.getLsbD 3 = x.full := by
  simp [RxFifo.rfrWord, @BitVec.getLsbD_append 30 2, @BitVec.getLsbD_append 29 1, @BitVec.getLsbD_append 28 1,
    -BitVec.getLsbD_eq_getElem]

theorem and_three_eq_rfrFmp (w : Word) : w &&& 0x3#32 = (rfrFmp w).setWidth 32 := by
  apply BitVec.eq_of_toNat_eq
  simp only [rfrFmp, BitVec.toNat_and, BitVec.toNat_setWidth, BitVec.extractLsb'_toNat, BitVec.toNat_ofNat]
  have hmask : w.toNat &&& 3 = w.toNat % 4 := Nat.and_two_pow_sub_one_eq_mod w.toNat 2
  simp [hmask]
  omega

/-- `FMP` shows the length of a FIFO of at most three frames (10_state.md R37). -/
theorem rfrWord_and_three {x : RxFifo} (h : x.q.length ≤ 3) : x.rfrWord &&& 0x3#32 = BitVec.ofNat 32 x.q.length := by
  rw [and_three_eq_rfrFmp, RxFifo.rfrFmp_rfrWord, RxFifo.fmp]
  have hmin : min x.q.length Config.fifoDepth = x.q.length := min_eq_left h
  apply BitVec.eq_of_toNat_eq
  rw [hmin, BitVec.toNat_setWidth, BitVec.toNat_ofNat, BitVec.toNat_ofNat]
  omega

/-- What a completion makes of a mailbox that is not empty (47_controller_env.md R274, R275). -/
theorem Mailbox.complete_busy {b : Mailbox} (h : b.st ≠ .empty) (txok : Bool) : b.complete txok =
    { b with st := .empty, tir := b.tir &&& 0xFFFFFFFE#32, rqcp := true, txok := txok } := by
  unfold Mailbox.complete
  cases hst : b.st with
  | empty => exact absurd hst h
  | requested | aborting => rfl

section reaches

variable {s : State} {i : Iface} (h : s.Reaches i)
include h

theorem envAct_complete {m : Mb} (hm : ((s.ctrl i).mb m).st ≠ .empty) (txok : Bool) :
    envAct (.complete i m txok) s = s.onCtrl i fun c => c.onMb m fun b =>
      { b with st := .empty, tir := b.tir &&& 0xFFFFFFFE#32, rqcp := true, txok := txok } :=
  (ctrlStep_of_reaches h _).trans (onCtrl_congr (onMb_congr (Mailbox.complete_busy hm txok)))

variable {f : Fifo} {msg : RxMsg} (replace : Bool)

theorem envAct_arrive_idle (hmode : (s.ctrl i).mode ≠ .normal) : envAct (.arrive i f msg replace) s = s :=
  (ctrlStep_of_reaches h _).trans (onCtrl_eq_self (if_neg fun hc => hmode hc.1))

variable (hmsg : msg.admitted = true) (hmode : (s.ctrl i).mode = .normal)
include hmsg hmode

theorem envAct_arrive :
    envAct (.arrive i f msg replace) s = s.onCtrl i fun c => c.onRx f fun x => x.arrive msg replace :=
  (ctrlStep_of_reaches h _).trans (onCtrl_congr (if_pos ⟨hmode, hmsg⟩))

theorem envAct_arrive_room (hq : ((s.ctrl i).rx f).q.length < 3) :
    envAct (.arrive i f msg replace) s = s.onCtrl i fun c => c.onRx f fun y =>
      { y with q := y.q ++ [msg], full := y.full || decide (y.q.length = 2) } := by
  rw [envAct_arrive h replace hmsg hmode]
  refine onCtrl_congr (onRx_congr ?_)
  rw [RxFifo.arrive, if_pos hq]
  simp [Config.fifoDepth]

theorem envAct_arrive_overrun (hq : 3 ≤ ((s.ctrl i).rx f).q.length) :
    envAct (.arrive i f msg replace) s = s.onCtrl i fun c => c.onRx f fun y =>
      { y with fovr := true, q := if replace then y.q.dropLast ++ [msg] else y.q } := by
  rw [envAct_arrive h replace hmsg hmode]
  exact onCtrl_congr (onRx_congr (if_neg (Nat.not_lt.2 hq)))

end reaches

theorem envAct_busError {s : State} {i : Iface} (h : s.Reaches i) {lec : BitVec 3} (h0 : lec ≠ 0#3) (h7 : lec ≠ 7#3) :
    envAct (.busError i lec) s = if (s.ctrl i).mode = .normal then
      s.onCtrl i fun c => { c with esr := (c.esr &&& 0xFFFFFF8F#32) ||| (lec.setWidth 32 <<< 4) } else s := by
  have hstep := ctrlStep_of_reaches h fun c => if c.mode = .normal then c.busError lec else c
  refine hstep.trans ?_
  split
  · next hmode =>
    refine onCtrl_congr ((if_pos hmode).trans ?_)
    rw [Ctrl.busError, if_neg (not_or.2 ⟨h0, h7⟩), merge, lec_shift_and_esrRw]
    rfl
  · next hmode => exact onCtrl_eq_self (if_neg hmode)

/-- Settles O58: each step as a change of one controller, and the register words of that controller field by field. -/
theorem completionShows : Obligations.CompletionShows := by
  refine ⟨fun s i m txok h hm => ?_, fun s i h => ⟨fun f msg replace hmsg => ⟨?_, ?_, ?_⟩, fun lec h0 h7 => ?_⟩⟩
  · have ht := envAct_complete h hm txok
    have hidle : ((s.ctrl i).mb m).tme = false := by simp [Mailbox.tme, hm]
    refine ⟨ht, (tsrTme_tsrWord _ m).trans hidle, ?_⟩
    simp only [ht, State.readReg, ctrl_onCtrl_same, tsrTme_tsrWord, tsrRqcp_tsrWord, tsrTxok_tsrWord, mb_onMb_same]
    exact ⟨rfl, trivial, trivial, tsrWord_and_abrqBit (by rw [mb_onMb_same]; rfl), by simp [-BitVec.getLsbD_eq_getElem]⟩
  · exact envAct_arrive_idle h replace
  · intro hmode hq
    have ht := envAct_arrive_room h replace hmsg hmode hq
    refine ⟨ht, ?_⟩
    simp only [ht, State.readReg, ctrl_onCtrl_same, rx_onRx_same, rfrWord_full]
    exact ⟨(rfrWord_and_three (by simp; omega)).trans (by simp), fun h2 => by simp [h2]⟩
  · intro hmode hq
    have ht := envAct_arrive_overrun h replace hmsg hmode hq
    refine ⟨ht, ?_⟩
    simp only [ht, State.readReg, ctrl_onCtrl_same, rx_onRx_same, rfrWord_fovr]
  · exact envAct_busError h h0 h7

end Sys2Proof.Machine
end

section
/-! The family 60_exceptions.md: what stands after a fault, how many faults a step and a command raise, the start of an
entry operation by the dispatcher, and the host commands that raise no fault in normal operation. -/

namespace Sys2Proof.Machine

/-! ### The stopped block (60_exceptions.md R310) -/

/-- No agent of the block steps; what is left is the environment. -/
theorem step_stopped {s : State} (hs : s.stopped = true) (hl : ∀ a l, s.sched ≠ .env a :: l) :
    step s = .fault .blockStopped := by
  have hsched (l : List Move) : ({ s with sched := l } : State).stopped = true := hs
  unfold step
  split
  · exact if_pos hs
  · exact if_pos (hsched _)
  · next a l h => exact absurd h (hl a l)
  · exact if_pos (hsched _)
  · exact if_pos (hsched _)

theorem envAct_results (a : EnvAct) (s : State) : (envAct a s).res = s.res ∧ (envAct a s).svcRes = s.svcRes := by
  rcases envAct_shape a s with ⟨c0, c1, fl, e⟩ | ⟨m, u, -, e⟩ | ⟨ok, e⟩ | e <;> exact e ▸ ⟨rfl, rfl⟩

/-- Settles O7: a step of an agent of the block tests `stopped` first; the frame of an environment step is O19's. -/
theorem stoppedBlockStands : Obligations.StoppedBlockStands := by
  refine fun s hs => ⟨step_stopped hs, fun a l hl => ?_⟩
  have hframe (i : Iface) := environmentFrame a { s with sched := l } i
  obtain ⟨-, -, -, hfg, hwake, hcs, hisr, hfaults, hcw, hbridge⟩ := hframe .if0
  obtain ⟨hres, hsvc⟩ := envAct_results a { s with sched := l }
  refine ⟨_, by simp only [step, hl], hfg, hfaults, hcw, hwake, hcs, hisr, hres, hsvc, hbridge, fun i => ?_⟩
  obtain ⟨-, -, ⟨c, hc⟩, -⟩ := hframe i
  exact ⟨c, hc.trans (by cases i <;> rfl)⟩

/-- Settles O8: a step from rest ends at rest, or failed with the one fault it raised. -/
theorem oneFaultPerStep : Obligations.OneFaultPerStep := by
  intro s t hs hf h
  rcases step_ends (hs.rests hf) h with ht | ht
  · simp [ht.faults]
  · obtain ⟨k, hk⟩ := ht.faults
    simp [hk]

/-! ### What no step withdraws (60_exceptions.md R309, R310, R322) -/

theorem mem_insertFault {j k : FaultKind} {l : List FaultKind} (h : j ∈ l) : j ∈ insertFault k l := by
  induction l with
  | nil => cases h
  | cons x xs ih =>
    unfold insertFault
    split
    · exact h
    · split
      · exact List.mem_cons_of_mem k h
      · rcases List.mem_cons.1 h with h | h
        · exact h ▸ List.mem_cons_self
        · exact List.mem_cons_of_mem x (ih h)

/-- The build stays, the monotonic clock has not gone back and no fault is forgotten. -/
structure Onward (s t : State) : Prop where
  cfg    : t.cfg = s.cfg
  mono   : s.mono ≤ t.mono
  faults : ∀ k ∈ s.faults, k ∈ t.faults

theorem Onward.of_eq {s t : State} (hc : t.cfg = s.cfg) (hm : t.mono = s.mono) (hf : t.faults = s.faults) : Onward s t :=
  ⟨hc, hm ▸ BitVec.le_refl _, fun _ hk => hf ▸ hk⟩

theorem onward_onIface (s : State) (i : Iface) (f : IfaceState → IfaceState) : Onward s (s.onIface i f) :=
  .of_eq (onIface_cfg s i f) (onIface_mono s i f) (onIface_faults s i f)

theorem onward_vector (s : State) (i : Iface) (src : Source) : Onward s ((DispatchStep.vector src).effect i s) := by
  cases src <;> cases i <;> exact .of_eq rfl rfl rfl

theorem onward_closed : ClosedStep Onward where
  refl _ := .of_eq rfl rfl rfl
  trans h₁ h₂ :=
    ⟨h₂.cfg.trans h₁.cfg, BitVec.le_trans h₁.mono h₂.mono, fun k hk => h₂.faults k (h₁.faults k hk)⟩
  reg s i r v := by
    obtain ⟨c0, c1, fl, e⟩ := writeReg_shape s i r v
    exact e ▸ .of_eq rfl rfl rfl
  env s a := by
    rcases envAct_shape a s with ⟨c0, c1, fl, e⟩ | ⟨m, u, hm, e⟩ | ⟨ok, e⟩ | e <;> rw [e]
    · exact .of_eq rfl rfl rfl
    · exact ⟨rfl, hm, fun _ hk => hk⟩
    · exact .of_eq rfl rfl rfl
    · exact .of_eq rfl rfl rfl
  inner _ _ := .of_eq rfl rfl rfl
  cs _ _ := .of_eq rfl rfl rfl
  isr _ _ := .of_eq rfl rfl rfl
  record _ := .of_eq rfl rfl rfl
  fg _ _ := .of_eq rfl rfl rfl
  fault _ _ _ := ⟨rfl, BitVec.le_refl _, fun _ => mem_insertFault⟩
  wake _ _ := .of_eq rfl rfl rfl
  bridge _ _ _ := .of_eq rfl rfl rfl
  errCnt s i := onward_onIface s i _
  lastErr s i _ := onward_onIface s i _
  hadAct s i _ := onward_onIface s i _
  push s i _ := onward_onIface s i _
  drop s i := onward_onIface s i _
  pend s i _ _ := onward_onIface s i _
  sem s i _ := onward_onIface s i _
  clock s i _ := onward_onIface s i _
  pulse s i := by cases i <;> exact .of_eq rfl rfl rfl
  registry s i := onward_onIface s i _
  vector s i src _ := onward_vector s i src
  res _ _ := .of_eq rfl rfl rfl
  sched _ _ := .of_eq rfl rfl rfl
  port _ _ _ := .of_eq rfl rfl rfl

/-- A registration and an enabled vector stay. -/
def KeepsEntries (x y : IfaceState) : Prop :=
  (x.registry = true → y.registry = true) ∧ ∀ src, x.vec src = true → y.vec src = true

theorem SameWiring.keepsEntries {x y : IfaceState} (h : SameWiring x y) : KeepsEntries x y :=
  ⟨fun hr => h.2.1.trans hr, fun src hv => (h.2.2 src).trans hv⟩

theorem keepsEntries_ifaceClosed : IfaceClosed KeepsEntries where
  refl x := (sameWiring_ifaceClosed.refl x).keepsEntries
  trans h₁ h₂ := ⟨fun hr => h₂.1 (h₁.1 hr), fun src hv => h₂.2 src (h₁.2 src hv)⟩
  ctrl x c := (sameWiring_ifaceClosed.ctrl x c).keepsEntries
  errCnt x := (sameWiring_ifaceClosed.errCnt x).keepsEntries
  lastHwErr x e := (sameWiring_ifaceClosed.lastHwErr x e).keepsEntries
  hadAct x b := (sameWiring_ifaceClosed.hadAct x b).keepsEntries
  push x n e := (sameWiring_ifaceClosed.push x n e).keepsEntries
  drop x n := (sameWiring_ifaceClosed.drop x n).keepsEntries
  pend x m f := (sameWiring_ifaceClosed.pend x m f).keepsEntries
  sem x n := (sameWiring_ifaceClosed.sem x n).keepsEntries

theorem keepsEntries_vector (s : State) (i j : Iface) (src : Source) :
    KeepsEntries (s.iface j) (((DispatchStep.vector src).effect i s).iface j) := by
  cases src with
  | tx => exact keepsEntries_ifaceClosed.onIface s i j fun x =>
      ⟨id, fun src hv => by cases src <;> [rfl; exact hv; exact hv]⟩
  | rx0 => exact keepsEntries_ifaceClosed.onIface s i j fun x =>
      ⟨id, fun src hv => by cases src <;> [exact hv; rfl; exact hv]⟩
  | rx1 => exact keepsEntries_ifaceClosed.onIface s i j fun x =>
      ⟨id, fun src hv => by cases src <;> [exact hv; exact hv; rfl]⟩

/-- Settles O16: no change that a step makes withdraws anything. -/
theorem stepsNeverWithdraw : Obligations.StepsNeverWithdraw := by
  intro s t h
  obtain ⟨hcfg, hmono, hfaults⟩ := onward_closed.step_always onward_vector h
  have hentries := keepsEntries_ifaceClosed.closedStep (fun _ _ => ⟨id, fun _ => id⟩)
    (fun _ => ⟨fun _ => rfl, fun _ => id⟩) keepsEntries_vector
  exact ⟨hcfg, hmono, hfaults, fun i => (hentries i).step_always (fun s j src => keepsEntries_vector s j i src) h⟩

/-! ### The start of an entry operation (60_exceptions.md R302 to R309) -/

/-- The entry operation of a source of an interface of the build is a well-formed class-D command, whose meaning is
`entryOp`. -/
theorem exec_entryInstr {s : State} {i : Iface} (hi : hasIface s.cfg i = true) (h : s.DispatcherTurn) (src : Source) :
    exec (entryInstr i src) s =
      if canStart s i src then settleIsr (entryInstr i src) (entryOp i src s) else .next s := by
  have hw := ifaceInRange_bits hi
  cases src with
  | tx =>
    simp only [exec, entryInstr, execIrqTx, ifaceOf_bits, entryOp]
    exact entryCommand_dispatcher h rfl hw
  | rx0 | rx1 =>
    simp only [exec, entryInstr, execIrqRx, ifaceOf_bits, fifoOf_bits, entryOp, Fifo.source]
    exact entryCommand_dispatcher h rfl (by simp [Instr.wellFormed, hw])

theorem exec_entryInstr_starts {s : State} {i : Iface} {src : Source} (h : s.DispatcherTurn) (hm : s.MayStart i src) :
    exec (entryInstr i src) s = settleIsr (entryInstr i src) (entryOp i src s) := by
  rw [exec_entryInstr hm.present h, if_pos ((canStart_iff h.stopped i src).2 hm)]

/-- Settles O54: the dispatcher's test, at its move and at its command, is the start condition. -/
theorem startCondition : Obligations.StartCondition := by
  intro s i src hg hf
  have hs : s.stopped = false := by simp [State.stopped, hg, hf]
  have hstart := canStart_iff hs i src
  refine ⟨fun inner l hl => ?_, fun hi hby hm => ?_⟩
  · have hstep : step s = if canStart s i src then
        exec (entryInstr i src) { s with sched := l, by' := .dispatcher, inner := inner }
      else .next { s with sched := l } := by
      simp only [step, hl]
      exact if_neg (ne_true_of_eq_false hs)
    exact ⟨fun hm => hstep.trans (if_pos (hstart.2 hm)), fun hm => hstep.trans (if_neg (mt hstart.1 hm))⟩
  · rw [exec_entryInstr hi ⟨hby, hg, hf⟩, if_neg (mt hstart.1 hm)]

/-- An entry operation of an unregistered interface stops before it sets `in_isr` (60_exceptions.md R309). -/
theorem entryAround_unregistered {s : State} {i : Iface} (h : (s.iface i).registry = false) (x : Op Unit) :
    entryAround i x s = .error .unregisteredDispatch s := by
  simp [entryAround, returning, h]

/-- Settles O53: the registration is the first thing an entry operation reads. -/
theorem unregisteredDispatchFaults : Obligations.UnregisteredDispatchFaults := by
  intro s i src h hm hr
  have hop : entryOp i src s = .error .unregisteredDispatch s := by
    cases src <;> exact entryAround_unregistered hr _
  rw [exec_entryInstr_starts h hm, hop, settleIsr_raises h.healthy]

/-- An entry operation of a registered interface runs its service inside the interrupt context (60_exceptions.md R306,
R307). -/
theorem entryAround_runs {s t : State} {i : Iface} {x : Op Unit} (h : (s.iface i).registry = true)
    (hx : x { s with inIsr := true } = .ok () t) :
    entryAround i x s = .ok () { t with inIsr := false, svcRes := some ⟨.ok, .none⟩ } := by
  simp only [entryAround, returning, bind_run, ask_run, h, if_true, upd_run, hx]
  rfl

/-- Inside the interrupt context that its entry operation set, a service finds nothing else moving. -/
theorem serves_entry {s : State} {i : Iface} (hq : s.quiet) (hr : s.Reaches i) :
    ({ s with inIsr := true } : State).Serves i :=
  ⟨hq, hr.of_eq rfl (by cases i <;> rfl), rfl⟩

/-- Settles O52: the service, as O39 and O46 have it, between the two changes of `in_isr`. -/
theorem entryResults : Obligations.EntryResults := by
  intro s i h hquiet hr hreg
  have hs := serves_entry hquiet hr
  refine ⟨fun hm => ?_, fun f m q hm hq hadm => ?_⟩
  · refine (exec_entryInstr_starts h hm).trans ?_
    simp only [entryOp, irqTx]
    rw [entryAround_runs hreg (txService_quiet hs)]
    cases i <;> rfl
  · have hq' : ((({ s with inIsr := true } : State).ctrl i).rx f).q = m :: q := by cases i <;> exact hq
    have hinstr : Instr.irqRx i.bits f.bits = entryInstr i f.source := by cases f <;> rfl
    have hop : entryOp i f.source = irqRx i f := by cases f <;> rfl
    rw [hinstr, exec_entryInstr_starts h hm, hop, irqRx, entryAround_runs hreg (rxService_quiet hs hq' hadm)]
    cases i <;> rfl

/-! ### Host commands in normal operation (60_exceptions.md R311) -/

/-- The interface an IFACE field in range selects is one of the build (30_encoding.md R83). -/
theorem hasIface_ifaceOf {p : Params} {b : BitVec 4} (h : ifaceInRange p.numIfaces b = true) :
    hasIface p (ifaceOf b) = true := by
  unfold ifaceOf
  split
  · exact hasIface_if0 p
  · next hb =>
    rw [hasIface_if1]
    by_contra h2
    have h1 : b.toNat < 1 := by simpa [ifaceInRange, Params.numIfaces, h2] using h
    exact hb (by bv_omega)

/-- The one fault a host command may raise in normal operation: `PopEmpty`, by `RB.POP` (41_ring_buffer.md R133). -/
def PopsEmpty (x : Instr) (k : FaultKind) (s : State) : Prop :=
  (∃ ifc, x = .rbPop ifc) ∧ k = .popEmpty ∧ s.faults = []

/-- What keeps normal operation raises no fault in it. -/
theorem Meets.noStop {α : Type} {pre : State → Prop} {x : Op α} {post : α → State → Prop}
    {err : FaultKind → State → Prop}
    (hx : Meets pre x post (Stop True)) : Meets pre x post err :=
  hx.weaken (fun _ h => h) (fun _ _ h => h) fun _ _ h => absurd trivial h.1

/-- `RB.POP` in normal operation: the raise comes after the critical section was left (41_ring_buffer.md R133). -/
theorem popEntry_meets {p : Params} (op : Instr) (ifc : BitVec 4) (i : Iface) :
    Meets (Calm True p false false) (popEntry op i) (fun _ => Calm True p false false) (PopsEmpty (.rbPop ifc)) := by
  refine Meets.bind _ (enterCsAt_meets (keeps_stepAt _ _)).noStop fun _ =>
    Meets.bind (fun n s => Calm True p true false s ∧ n = (s.iface i).rb.len) (Meets.ask fun s h => ⟨h, rfl⟩) fun n =>
    Meets.ite (fun _ => ?_) fun hn => ?_
  · exact (Meets.bind _ exitCs_meets.noStop fun _ => Meets.bind _ (keeps_stepAt _ _).noStop fun _ =>
      Meets.raise fun s h => ⟨⟨ifc, rfl⟩, rfl, h.faults⟩).weaken (fun _ h => h.1) (fun _ _ h => h) fun _ _ h => h
  · exact Meets.bind _
      (rbPop_meets.weaken (fun s h => ⟨h.1, h.2 ▸ hn⟩) (fun _ _ h => h) fun _ _ h => h).noStop
      fun _ => (exitCs_then (.pure _)).noStop

/-- In normal operation the body of every host command but `DRV.INIT` ends in normal operation, or pops an empty buffer, at
every schedule. -/
theorem exec_host_body {x : Instr} {s : State} (hc : x.cls = .host) (hw : x.wellFormed s.cfg.numIfaces = true)
    (hx : x ≠ .drvInit) : ∃ ph body, exec x s = hostCommand x ph body s ∧
      Meets (Calm True s.cfg false false) body (fun _ => Calm True s.cfg false false) (PopsEmpty x) := by
  have hsafe {ph : Phase} {body : Op Ret} (he : exec x s = hostCommand x ph body s)
      (hk : Keeps True s.cfg false false body) : ∃ ph body, exec x s = hostCommand x ph body s ∧
        Meets (Calm True s.cfg false false) body (fun _ => Calm True s.cfg false false) (PopsEmpty x) :=
    ⟨ph, body, he, hk.noStop⟩
  have hpoint {c : Bool} (op : Instr) (ph : Phase) : Keeps True s.cfg c false (stepAt op ph) := keeps_stepAt op ph
  have hask {γ : Type} {op : Instr} {ph : Phase} (f : State → γ) {g : γ → Ret} :
      Keeps True s.cfg false false (do let v ← csAsk (stepAt op ph) f; pure (g v)) :=
    .bind (keeps_csAsk (hpoint _ _) f) fun _ => .pure _
  have hiface {b : BitVec 4} (h : ifaceInRange s.cfg.numIfaces b = true) : True → hasIface s.cfg (ifaceOf b) = true :=
    fun _ => hasIface_ifaceOf h
  cases x with
  | btCalc => exact hsafe rfl (.ask _)
  | rbPush ifc =>
    exact hsafe rfl (Meets.bind _ (enterCsAt_meets (hpoint _ _)) fun _ =>
      Meets.bind _ (keeps_rbPush (.inl rfl) _ _) fun _ => exitCs_then (.pure _))
  | rbPop ifc => exact ⟨_, _, rfl, popEntry_meets _ ifc _⟩
  | rbLen ifc => exact hsafe rfl (hask _)
  | rbOvf ifc => exact hsafe rfl (hask _)
  | ifInit ifc => exact hsafe rfl (.bind (keeps_ifInit (keeps_initPoint _ _) (hiface hw) _) fun _ => .pure _)
  | ifCfgfilt ifc => exact hsafe rfl (.pure _)
  | ifSend ifc => exact hsafe rfl (.bind (keeps_ifSend (fun _ _ => hpoint _ _) (hiface hw)) fun _ => .pure _)
  | ifDiscard ifc => exact hsafe rfl (.bind (keeps_ifDiscard (fun _ _ => hpoint _ _) (hiface hw) _) fun _ => .pure _)
  | ifTxfull ifc => exact hsafe rfl (.bind (keeps_fgRead (hpoint _ _) (hiface hw) fun _ => rfl) fun _ => .pure _)
  | ifWaitmb0 ifc => exact hsafe rfl (.bind (.ask _) fun _ => keeps_waitAt _ _ _)
  | ifRecv ifc => exact hsafe rfl (.bind (.ask _) fun _ => keeps_receiveAt _ _ _)
  | ifRxempty ifc => exact hsafe rfl (hask _)
  | ifRxlen ifc => exact hsafe rfl (hask _)
  | ifErrcnt ifc => exact hsafe rfl (hask _)
  | ifLasterr ifc => exact hsafe rfl (.bind (keeps_takeError (hpoint _ _) _) fun _ => .pure _)
  | ifHadact ifc => exact hsafe rfl (.bind (keeps_takeActivity (hpoint _ _) _) fun _ => .pure _)
  | drvInit => exact absurd rfl hx
  | drvReady => exact hsafe rfl (.bind (keeps_ready fun _ => hpoint _ _) fun _ => .pure _)
  | drvSelect => exact hsafe rfl (keeps_select _ _)
  | drvHadact => exact hsafe rfl (keeps_drvActivity _ _ _)
  | ifTxsvc | ifRxsvc | ifPollerr | irqTx | irqRx => cases hc

/-- Where a command of the host starts (10_state.md R22). -/
theorem State.HostTurn.calm_started {s : State} (h : s.HostTurn) {strict : Prop} (hn : strict → s.Clocked) (x : Instr)
    (ph : Phase) : Calm strict s.cfg false false (s.started x ph) :=
  have hs : Calm strict s.cfg false false s := ⟨rfl, h.noCs, h.thread, h.healthy, hn⟩
  (hs.fg (.busy x ph)).res none

/-- A clean end of a command issued on a host turn is an end at rest. -/
theorem State.HostTurn.rests {s t : State} {x : Instr} (h : s.HostTurn) (he : exec x s = .next t) (hf : t.faults = []) :
    t.Rests := by
  rcases exec_ends (by simp [h.idle, Fg.rests]) h.healthy h.noCs h.thread he with ht | ht
  · exact ht
  · obtain ⟨k, hk⟩ := ht.faults
    exact absurd (hf.symm.trans hk) (List.cons_ne_nil k []).symm

theorem State.Rests.notFaulted {s : State} (h : s.Rests) : s.fg ≠ .faulted := fun e => absurd h.fg (by simp [e, Fg.rests])

/-- A host command other than `DRV.INIT` in normal operation ends in it, or with the one fault of `RB.POP`. -/
theorem exec_host_normal {x : Instr} {s : State} (h : s.HostTurn) (hn : s.Clocked) (hc : x.cls = .host)
    (hw : x.wellFormed s.cfg.numIfaces = true) (hx : x ≠ .drvInit) : ∃ t, exec x s = .next t ∧
      ((t.faults = [] ∧ t.Clocked) ∨ ((∃ ifc, x = .rbPop ifc) ∧ t.faults = [.popEmpty])) := by
  obtain ⟨ph, body, he, hb⟩ := exec_host_body hc hw hx
  rw [he, hostCommand_turn h hc hw]
  have hend := hb (s.started x ph) (h.calm_started (fun _ => hn) x ph)
  cases hr : body (s.started x ph) with
  | ok v u =>
    rw [hr] at hend
    cases v with
    | done r =>
      have hcalm := (hend.fg .idle).res (some r)
      exact ⟨_, rfl, .inl ⟨hcalm.faults, hcalm.clocked trivial⟩⟩
    | block g =>
      have hcalm := hend.fg g
      exact ⟨_, rfl, .inl ⟨hcalm.faults, hcalm.clocked trivial⟩⟩
  | error k u =>
    rw [hr] at hend
    obtain ⟨hpop, rfl, hf⟩ := hend
    exact ⟨_, rfl, .inr ⟨hpop, by rw [takeFault_faults, hf]; rfl⟩⟩

/-! ### `DRV.INIT` with no vector enabled (42_bringup.md R170 to R176) -/

theorem Keeps.runs {α : Type} {p : Params} {c r : Bool} {x : Op α} (hx : Keeps True p c r x) {s : State}
    (hs : Calm True p c r s) : ∃ a t, x s = .ok a t ∧ Calm True p c r t := Meets.runs (Meets.noStop hx) hs

theorem State.noVectors.of_eq {s t : State} (hv : s.noVectors) (h : ∀ i src, (t.iface i).vec src = (s.iface i).vec src) :
    t.noVectors := fun i src => (h i src).trans (hv i src)

theorem State.noVectors.of_wiring {s t : State} (hv : s.noVectors) (h : ∀ i, SameWiring (s.iface i) (t.iface i)) :
    t.noVectors := hv.of_eq fun i => (h i).2.2

/-- With no vector enabled an interleaving point starts no service, so it ends (60_exceptions.md R304). -/
theorem preemptMoves_noVectors (n : Nat) :
    Meets State.noVectors (preemptMoves n) (fun _ => State.noVectors) fun _ _ => False := by
  induction n with
  | zero => exact Meets.pure () fun _ h => h
  | succ n ih =>
    intro s hv
    have hinner (l : List Inner) : ({ s with inner := l } : State).noVectors := hv.of_eq fun i _ => by cases i <;> rfl
    cases hl : s.inner with
    | nil => rw [preemptMoves_nil hl]; exact hv
    | cons m l =>
      cases m with
      | env a =>
        rw [preemptMoves_env hl]
        exact ih _ ((hinner l).of_wiring fun i => (sameWiring_ifaceClosed.closedExec i).env _ a)
      | go => rw [preemptMoves_go hl]; exact hinner l
      | irq i src =>
        have hmask : canStart { s with inner := l } i src = false := by simp [canStart, hinner l i src]
        rw [preemptMoves_irq hl, dispatcherMove_idle hmask]
        exact ih _ (hinner l)

theorem stepAt_noVectors (op : Instr) (ph : Phase) :
    Meets State.noVectors (stepAt op ph) (fun _ => State.noVectors) fun _ _ => False :=
  Meets.bind _ (Meets.upd fun s hv => hv.of_eq fun i _ => by cases i <;> rfl) fun _ s =>
    preemptMoves_noVectors s.inner.length s

theorem fgUpd_noVectors (op : Instr) (ph : Phase) {f : State → State} (hf : ∀ s, s.noVectors → (f s).noVectors) :
    Meets State.noVectors (fgUpd (stepAt op ph) f) (fun _ => State.noVectors) fun _ _ => False :=
  Meets.bind _ (stepAt_noVectors op ph) fun _ => Meets.upd hf

theorem noVectors_onIface {s : State} (hv : s.noVectors) (i : Iface) {f : IfaceState → IfaceState}
    (hf : ∀ x src, (f x).vec src = x.vec src) : (s.onIface i f).noVectors := by
  intro j src
  rw [iface_onIface]
  split
  · exact (hf _ src).trans (hv i src)
  · exact hv j src

theorem noVectors_clockStep (k : ClockStep) {s : State} (hv : s.noVectors) : (k.effect s).noVectors := by
  cases k with
  | enable i => exact noVectors_onIface hv i (f := fun x => { x with clkEn := true }) fun x src => rfl
  | pulse i => exact hv.of_wiring (sameWiring_ifaceClosed.resetPulse s i)

theorem startClocks_noVectors (op : Instr) (rate : Word) (ks : List ClockStep) :
    Meets State.noVectors (startClocks op rate ks) (fun _ => State.noVectors) fun _ _ => False := by
  induction ks with
  | nil => exact Meets.pure () fun _ h => h
  | cons k ks ih => exact Meets.bind _ (fgUpd_noVectors op _ fun _ => noVectors_clockStep k) fun _ => ih

theorem stopClocks_noVectors (op : Instr) (r : ResultCode) (is : List Iface) :
    Meets State.noVectors (stopClocks op r is) (fun _ => State.noVectors) fun _ _ => False := by
  induction is with
  | nil => exact Meets.pure () fun _ h => h
  | cons i is ih =>
    exact Meets.bind _ (fgUpd_noVectors op _ fun _ hv => noVectors_onIface hv i fun _ _ => rfl) fun _ => ih

section normal

variable {p : Params} {c r : Bool}

/-- The phase IFACES keeps normal operation (42_bringup.md R173). -/
theorem keeps_initIfaces_normal (op : Instr) (rate : Word) {is : List Iface} (hi : ∀ i ∈ is, hasIface p i = true) :
    Keeps True p c r (initIfaces op rate is) := by
  induction is with
  | nil => exact .pure _
  | cons i is ih =>
    exact .bind (keeps_ifInit (keeps_initPoint _ _) (fun _ => hi i List.mem_cons_self) rate) fun _ =>
      .ite (ih fun j hj => hi j (List.mem_cons_of_mem i hj)) (.pure _)

theorem Calm.vector {s : State} {i : Iface} {src : Source} (h : Calm True p c r s) (hr : (s.iface i).registry = true) :
    Calm True p c r ((DispatchStep.vector src).effect i s) := by
  have hd := dataInv_closed.vector s i src hr
  cases src <;> cases i <;> exact h.of_eq rfl rfl rfl rfl (fun j => by cases j <;> rfl) hd

/-- Normal operation with interface i registered. -/
def CalmRegistered (p : Params) (c r : Bool) (i : Iface) (s : State) : Prop :=
  Calm True p c r s ∧ (s.iface i).registry = true

theorem calmRegistered_stepAt (op : Instr) (ph : Phase) (i : Iface) :
    Meets (CalmRegistered p c r i) (stepAt op ph) (fun _ => CalmRegistered p c r i) (Stop True) := by
  intro s ⟨hs, hreg⟩
  obtain ⟨_, t, ht, hcalm⟩ := (keeps_stepAt op ph).runs hs
  have hkeeps := ((keepsRegistry_closed i).stepAt op ph s).ok ((keepsRegistry_closed i).refl s) ht
  rw [ht]
  exact ⟨hcalm, hkeeps hreg⟩

/-- The phase DISPATCH keeps normal operation: each vector is enabled for an interface registered before (42_bringup.md
R175). -/
theorem keeps_registerSteps_normal (op : Instr) (i : Iface) (is : List Iface) :
    Keeps True p c r (registerSteps op i is dispatchSteps) := by
  have hreg (ph : Phase) : Meets (Calm True p c r) (fgUpd (stepAt op ph) (DispatchStep.registry.effect i))
      (fun _ => CalmRegistered p c r i) (Stop True) :=
    Meets.bind _ (keeps_stepAt op ph) fun _ => Meets.upd fun s hs =>
      ⟨hs.onIface (dataInv_closed.registry s i) fun _ => rfl, by simp [DispatchStep.effect]⟩
  have hvec (ph : Phase) (src : Source) : Meets (CalmRegistered p c r i)
      (fgUpd (stepAt op ph) ((DispatchStep.vector src).effect i)) (fun _ => CalmRegistered p c r i) (Stop True) :=
    Meets.bind _ (calmRegistered_stepAt op ph i) fun _ => Meets.upd fun s ⟨hs, hr⟩ =>
      ⟨hs.vector hr, (keepsRegistry_closed i).vector s i src hr hr⟩
  exact Meets.bind _ (hreg _) fun _ => Meets.bind _ (hvec _ .tx) fun _ => Meets.bind _ (hvec _ .rx0) fun _ =>
    Meets.bind _ (hvec _ .rx1) fun _ => Meets.pure _ fun _ hs => hs.1

theorem keeps_registerIfaces_normal (op : Instr) (is : List Iface) : Keeps True p c r (registerIfaces op is) := by
  induction is with
  | nil => exact .pure _
  | cons i is ih => exact .bind (keeps_registerSteps_normal op i is) fun _ => ih

end normal

/-- After the phase CLOCKS the block is in normal operation (42_bringup.md R172). -/
theorem calm_of_pulsed {s u : State} {p : Params} {c r : Bool} (h : Calm False p c r u) (hd : u.DataInv)
    (hu : Alike s.pulsed u) : Calm True p c r u := by
  refine ⟨h.cfg, h.cs, h.isr, h.faults, fun _ => ⟨hd, fun i hi => ?_⟩⟩
  have hcfg : u.cfg = s.cfg := hu.1.1
  rw [hcfg] at hi
  rw [(hu.2 i).1, iface_pulsed, if_pos hi]
  rfl

/-- What follows the phase IFACES: the vectors are enabled with every block clocked, and the rollback runs with none
enabled. -/
theorem finishInit_runs {p : Params} {c r : Bool} {s : State} (hs : Calm True p c r s) (hv : s.noVectors) (op : Instr)
    (code : ResultCode) : ∃ t, finishInit op code s = .ok code t := by
  by_cases hcode : code = .ok
  · obtain ⟨_, t, ht, -⟩ := (keeps_registerIfaces_normal op (ifaces s.cfg)).runs hs
    exact ⟨t, by simp [finishInit, hcode, ht]⟩
  · obtain ⟨_, t, ht, -⟩ := (stopClocks_noVectors op code (ifaces s.cfg)).runs hv
    exact ⟨t, by simp [finishInit, hcode, ht]⟩

/-- With no vector enabled at its start, `drv_init` raises no fault, at every schedule. -/
theorem drvInit_runs {s : State} {c r : Bool} (hs : Calm False s.cfg c r s) (hd : s.DataInv) (hv : s.noVectors) (op : Instr)
    (rate : Word) : ∃ code t, drvInit op rate (clockSteps (ifaces s.cfg)) s = .ok code t := by
  obtain ⟨_, u, hu, hvu⟩ := (startClocks_noVectors op rate (clockSteps (ifaces s.cfg))).runs hv
  have halike := (alike_startClocks rate _).ok (Alike.refl s) hu
  rw [foldl_clockSteps] at halike
  have hdu := (dataInv_closed.startClocks op rate _ s).ok id hu hd
  have hcalm := calm_of_pulsed ((keeps_startClocks op rate _).ok hs hu) hdu halike
  have hinit := keeps_initIfaces_normal (c := c) (r := r) op rate (is := ifaces s.cfg) fun i => mem_ifaces
  obtain ⟨code, w, hw, hcalmw⟩ := hinit.runs hcalm
  have hvw := hvu.of_wiring
    ((alike_stays fun _ h => h.initIfaces op rate (ifaces s.cfg)) u |>.ok (Alike.refl u) hw).2
  obtain ⟨t, ht⟩ := finishInit_runs hcalmw hvw op code
  exact ⟨code, t, by simp only [drvInit, initDriver, bind_run, hu, ask_run, hcalm.cfg, hw, ht]⟩

/-- Where `DRV.INIT` starts (42_bringup.md R170). -/
def State.driverStarted (s : State) : State := s.started .drvInit (.clocks s.args.rate (clockSteps (ifaces s.cfg)))

/-- `DRV.INIT` on a host turn with no vector enabled. -/
theorem exec_drvInit_clean {s : State} (h : s.HostTurn) (hd : s.DataInv) (hv : s.noVectors) :
    ∃ t, exec .drvInit s = .next t ∧ t.faults = [] ∧ t.fg = .idle := by
  have hrun : exec .drvInit s = settle .drvInit
      (answer (drvInit .drvInit s.args.rate (clockSteps (ifaces s.driverStarted.cfg))) s.driverStarted) :=
    hostCommand_turn h rfl rfl
  have hcalm : Calm False s.cfg false false s.driverStarted := h.calm_started False.elim _ _
  have hd' : s.driverStarted.DataInv := hd.of_eq rfl (started_iface s _ _) rfl rfl ⟨rfl, rfl⟩
  have hv' : s.driverStarted.noVectors := hv.of_eq fun i _ => congrArg (IfaceState.vec · _) (started_iface s _ _ i)
  obtain ⟨code, u, hu⟩ := drvInit_runs hcalm hd' hv' .drvInit s.args.rate
  refine ⟨{ u with fg := .idle, res := some ⟨code, .none⟩ }, ?_, ((keeps_drvInit _ _ _).ok hcalm hu).faults, rfl⟩
  simp only [hrun, answer, bind_run, hu, pure_run]
  rfl

/-- Settles O10: in normal operation no operation stops but the pop of an empty buffer; `DRV.INIT` enables a vector only in
normal operation, and rolls back only with none enabled. -/
theorem noFaultInNormalOperation : Obligations.NoFaultInNormalOperation := by
  refine ⟨fun s x h hn hc hw hx => ?_, fun s h hd hv => ?_⟩
  · obtain ⟨t, he, ⟨hf, ht⟩ | hpop⟩ := exec_host_normal h hn hc hw hx
    · have hrests := h.rests he hf
      exact ⟨t, he, .inl ⟨hf, ht, hrests.cs, hrests.isr, hrests.notFaulted⟩⟩
    · exact ⟨t, he, .inr hpop⟩
  · obtain ⟨t, he, hf, hfg⟩ := exec_drvInit_clean h hd hv
    have hrests := h.rests he hf
    exact ⟨t, he, hf, dataInv_closed.exec he hd, hrests.cs, hrests.isr, hfg⟩

end Sys2Proof.Machine
end
